-- ==== Sys2Proof/Word.lean ====
section
/-! DEFINITION. The word types of the VGC (00_scope.md R7 `WORD`, `PIN_W`, `TOK_W`; R10). -/

namespace Sys2Proof

/-- A register of the pad controller: 32 bits, unsigned (R7, R10). -/
abbrev Word := BitVec 32

/-- A byte of a register window. -/
abbrev Byte := BitVec 8

/-- A pin number as a packet carries it, `PIN_W` = 16 bits (R7). -/
abbrev PinNum := BitVec 16

/-- An owner, callback or context token, `TOK_W` = 32 bits (R7). -/
abbrev Token := BitVec 32

/-- A command or callback packet, 128 bits (R91, R94). -/
abbrev Packet := BitVec 128

/-- `BIT(i)`: the 32-bit word with only bit i set (R10). -/
def bit (i : Nat) : Word := 1#32 <<< i

end Sys2Proof
end

