-- ==== Sys2Proof/Config.lean ====
section
/-! DEFINITION. The implementation parameters (00_scope.md R7), the descriptor bundle (R8), the reference configuration of
95_test_vectors.md section 1, and the free values: constants without a body for what the spec leaves open. -/

namespace Sys2Proof

/-- An explicit pad group of a descriptor (R8). -/
structure GroupDesc where
  regNum   : Nat
  base     : Nat
  size     : Nat
  gpioBase : Nat
  deriving DecidableEq, Repr, Inhabited

/-- A community descriptor `DESC.communities[ci]` (R8), fields in the order of its table. -/
structure CommunityDesc where
  barno        : Nat
  ownOff       : Option Word
  lockOff      : Option Word
  hostmodeOff  : Option Word
  ieOff        : Word
  isOff        : Word
  featDebounce : Bool
  featAltpd    : Bool
  pinBase      : Nat
  npins        : Nat
  gpps         : Option (List GroupDesc)
  gppSize      : Nat
  ownFixed     : Option Nat
  deriving DecidableEq, Repr, Inhabited

/-- The parameters a model must carry as arguments (R7; 92_eei_decisions.md section 6). `NWIN` is the length of `winSize`.
A window is smaller than 2^32 bytes and the bit positions lie in a word by the types of the fields (R7).
`irqMax` is the bound an implementation may put on the notification count (R46, U19). `EnvStep` is no field: the
environment's moves are data of the state (log 5) and a claim names those it allows. -/
structure Params where
  desc          : List CommunityDesc
  winSize       : List (BitVec 32)
  maxPins       : Nat
  maxGroups     : Nat
  padbaseOffset : Nat
  ownTestMask   : BitVec 4
  lockStride    : Nat
  lockTxDelta   : Nat
  trigShift     : Fin 31
  trigEdge      : BitVec 2
  trigDisabled  : BitVec 2
  trigBoth      : BitVec 2
  invBit        : Fin 32
  rxStateBit    : Fin 32
  tRising       : BitVec 8
  tFalling      : BitVec 8
  tLevelHigh    : BitVec 8
  tLevelLow     : BitVec 8
  irqMax        : Option Nat
  deriving DecidableEq, Repr

/-- `NWIN`, the number of register windows (R7, R60). -/
def Params.nwin (cfg : Params) : Nat := cfg.winSize.length

namespace Config

/-- FREE VALUE (log 9): who is served when a packet and a notification both wait and `State.arb` gives no choice (R252). -/
opaque commandFirst : Nat → Bool

/-- FREE VALUE (log 8): trig[p] read for a pin that no community holds; such an entry does not exist (R27). -/
opaque absentTrig : Nat → BitVec 8

/-- FREE VALUE (log 10): what a packet field or a log field of `w` bits holds when the number `n` does not fit it. -/
opaque misfit : (w : Nat) → (n : Nat) → BitVec w

/-- FREE VALUE (log 11): `ceil(npins / 0)`, the number of groups synthesized with `gpp_size` = 0 (R9(c), R121). -/
opaque ceilDivZero : Nat → Nat

/-- FREE VALUE (log 15): `pad_regs_off` where it is None; no reachable state uses it (R25, R69). -/
opaque absentPadRegs : Nat → Word

/-- FREE VALUE (log 15): `ie_shadow[ci][gi]` where no such word exists; no reachable state uses it (R31). -/
opaque absentShadow : Nat → Nat → Word

/-- REFCFG, communities (95_test_vectors.md section 1). -/
def refDesc : List CommunityDesc :=
  [ { barno := 0, ownOff := some 0x020, lockOff := some 0x080, hostmodeOff := some 0x0B0, ieOff := 0x120, isOff := 0x100,
      featDebounce := true, featAltpd := false, pinBase := 0, npins := 40, gpps := none, gppSize := 24, ownFixed := none },
    { barno := 1, ownOff := none, lockOff := none, hostmodeOff := none, ieOff := 0x110, isOff := 0x100,
      featDebounce := false, featAltpd := false, pinBase := 40, npins := 8,
      gpps := some [{ regNum := 0, base := 40, size := 8, gpioBase := 100 }], gppSize := 0, ownFixed := none },
    { barno := 2, ownOff := some 0x020, lockOff := none, hostmodeOff := some 0x0D0, ieOff := 0x120, isOff := 0x100,
      featDebounce := false, featAltpd := false, pinBase := 48, npins := 40,
      gpps := some [{ regNum := 0, base := 48, size := 32, gpioBase := 48 },
                    { regNum := 1, base := 80, size := 8, gpioBase := 200 }], gppSize := 0, ownFixed := some 4 } ]

/-- REFCFG, parameters (95_test_vectors.md section 1). The values marked GK there are general knowledge (PRESUMED, log 1).
No rule and no meaning depends on them: they are the configuration of `State.reset` only. -/
def refParams : Params :=
  { desc := refDesc, winSize := [0x1000, 0x1000, 0x1000], maxPins := 128, maxGroups := 16, padbaseOffset := 0x00C,
    ownTestMask := 0xF, lockStride := 8, lockTxDelta := 4, trigShift := 25, trigEdge := 1, trigDisabled := 2, trigBoth := 3,
    invBit := 23, rxStateBit := 1, tRising := 0x01, tFalling := 0x02, tLevelHigh := 0x04, tLevelLow := 0x08,
    irqMax := none }

end Config

end Sys2Proof
end

