-- ==== Sys2Proof/Syntax.lean ====
section
/-! DEFINITION. The 29 operations of the VGC (30_encoding.md R96; opcode_table.json), one constructor a row. -/

namespace Sys2Proof

/-- An operation with its operands: `pin` a hardware or logical pin number, `ci`, `sel` and `t` the selector byte
(R91, R92), `owner`, `cb`, `ctx` the three tokens. -/
inductive Instr where
  | build
  | start
  | stop
  | rescom (pin : PinNum)
  | resgrp (ci : BitVec 8) (pin : PinNum)
  | regoff (pin : PinNum) (sel : BitVec 8)
  | mappin (pin : PinNum)
  | getstatus
  | hostown (pin : PinNum)
  | gpiomode (pin : PinNum)
  | locked (pin : PinNum)
  | settrig (pin : PinNum) (t : BitVec 8)
  | enable (pin : PinNum)
  | maskunmask (pin : PinNum) (sel : BitVec 8)
  | register (pin : PinNum) (owner cb ctx : Token)
  | unregister (pin : PinNum)
  | dispatch
  | gettype (pin : PinNum)
  | regint (pin : PinNum) (owner cb ctx : Token)
  | unregint (pin : PinNum)
  | enint (pin : PinNum)
  | disint (pin : PinNum)
  | settypeint (pin : PinNum) (t : BitVec 8)
  | ctxinit
  | ctxsuspend
  | ctxresume
  | ctxrelease
  | pwroff
  | pwron
  deriving DecidableEq, Repr, Inhabited

/-- The four packet formats, by the fields an operation uses (R91). -/
inductive Format where
  | z | p | s | r
  deriving DecidableEq, Repr

/-- The pseudo-operation `MASK pin` (R103). -/
def Instr.maskPin (pin : PinNum) : Instr := .maskunmask pin 1

/-- The pseudo-operation `UNMASK pin` (R103). -/
def Instr.unmaskPin (pin : PinNum) : Instr := .maskunmask pin 0

end Sys2Proof
end

