-- ==== Sys2Proof/WellFormed.lean ====
section
/-! DEFINITION. Which operations and which parameters the spec admits: operand checks (30_encoding.md R92, R97) and the
constraints on the parameters (00_scope.md R7; 92_eei_decisions.md D49). -/

namespace Sys2Proof

/-- The operand values a legal packet may carry (R92, R97): `which` of REGOFF is 0, 1 or 2; bits 7:1 of MASKUNMASK's
selector are 0. Every other field admits every value. -/
def Instr.wellFormed : Instr → Bool
  | .regoff _ sel => decide (sel.toNat < 3)
  | .maskunmask _ sel => decide (sel.toNat < 2)
  | .build | .start | .stop | .rescom _ | .resgrp _ _ | .mappin _ | .getstatus | .hostown _ | .gpiomode _ | .locked _
  | .settrig _ _ | .enable _ | .register _ _ _ _ | .unregister _ | .dispatch | .gettype _ | .regint _ _ _ _
  | .unregint _ | .enint _ | .disint _ | .settypeint _ _ | .ctxinit | .ctxsuspend | .ctxresume | .ctxrelease
  | .pwroff | .pwron => true

/-- A trigger flag is one bit of the selector byte (D49). -/
def isFlag (t : BitVec 8) : Bool := [1#8, 2#8, 4#8, 8#8, 16#8, 32#8, 64#8, 128#8].contains t

/-- The constraints the model may assume of the parameters (R7, D49; R46 for the notification bound). That the bit
positions lie in a word and that a window is smaller than 2^32 bytes hold by the types of the fields. -/
def Params.wellFormed (cfg : Params) : Bool :=
  cfg.winSize.all (fun n => n.toNat % 4 == 0) &&
  [cfg.trigShift.val, cfg.trigShift.val + 1, cfg.invBit.val, cfg.rxStateBit.val].Nodup &&
  [0#2, cfg.trigEdge, cfg.trigDisabled, cfg.trigBoth].Nodup &&
  cfg.lockStride % 4 == 0 && cfg.lockTxDelta % 4 == 0 && cfg.padbaseOffset % 4 == 0 &&
  [cfg.tRising, cfg.tFalling, cfg.tLevelHigh, cfg.tLevelLow].all isFlag &&
  [cfg.tRising, cfg.tFalling, cfg.tLevelHigh, cfg.tLevelLow].Nodup &&
  cfg.irqMax != some 0

end Sys2Proof
end

