-- ==== Sys2Proof/Decode.lean ====
section
/-! DEFINITION. Command packets: fields (30_encoding.md R91), the operation map (R96), reserved and illegal encodings (R97,
R98), the decoder, the encoder, and the written form (R102). Every packet is 128 bits (R101). -/

namespace Sys2Proof

/-- The fields of a command packet (R91). -/
structure Fields where
  op    : BitVec 8
  sel   : BitVec 8
  pin   : PinNum
  owner : Token
  cb    : Token
  ctx   : Token
  deriving DecidableEq, Repr

/-- Cut a packet into its fields (R91). -/
def unpack (w : Packet) : Fields :=
  { op := w.extractLsb' 0 8, sel := w.extractLsb' 8 8, pin := w.extractLsb' 16 16,
    owner := w.extractLsb' 32 32, cb := w.extractLsb' 64 32, ctx := w.extractLsb' 96 32 }

/-- Lay fields out as a packet, bit 0 least significant (R91). -/
def pack (k : Fields) : Packet := k.ctx ++ k.cb ++ k.owner ++ k.pin ++ k.sel ++ k.op

/-- Why a packet is illegal (R97). -/
inductive Reject where
  /-- `op` is not in the table of R96. -/
  | unassignedOp
  /-- A field the operation's format does not use is nonzero. -/
  | reservedField
  /-- REGOFF with `sel >= 3`, or MASKUNMASK with `sel[7:1]` nonzero. -/
  | badSelector
  deriving DecidableEq, Repr

/-- Format Z: only `op` is used (R91). -/
def formZ (k : Fields) (i : Instr) : Except Reject Instr :=
  if k.sel = 0 ∧ k.pin = 0 ∧ k.owner = 0 ∧ k.cb = 0 ∧ k.ctx = 0 then .ok i else .error .reservedField

/-- Format P: `op` and `pin` are used (R91). -/
def formP (k : Fields) (f : PinNum → Instr) : Except Reject Instr :=
  if k.sel = 0 ∧ k.owner = 0 ∧ k.cb = 0 ∧ k.ctx = 0 then .ok (f k.pin) else .error .reservedField

/-- Format S: `op`, `sel` and `pin` are used (R91); the selector must be one the operation admits (R92, R97). -/
def formS (k : Fields) (f : PinNum → BitVec 8 → Instr) : Except Reject Instr :=
  if k.owner = 0 ∧ k.cb = 0 ∧ k.ctx = 0 then
    if (f k.pin k.sel).wellFormed then .ok (f k.pin k.sel) else .error .badSelector
  else .error .reservedField

/-- Format R: every field but `sel` is used (R91). -/
def formR (k : Fields) (f : PinNum → Token → Token → Token → Instr) : Except Reject Instr :=
  if k.sel = 0 then .ok (f k.pin k.owner k.cb k.ctx) else .error .reservedField

/-- The operation map (R96): every other value of `op` is unassigned (R98). -/
def decodeFields (k : Fields) : Except Reject Instr :=
  match k.op with
  | 0x01#8 => formZ k .build
  | 0x02#8 => formZ k .start
  | 0x03#8 => formZ k .stop
  | 0x04#8 => formP k .rescom
  | 0x05#8 => formS k (fun pin ci => .resgrp ci pin)
  | 0x06#8 => formS k .regoff
  | 0x07#8 => formP k .mappin
  | 0x08#8 => formZ k .getstatus
  | 0x10#8 => formP k .hostown
  | 0x11#8 => formP k .gpiomode
  | 0x12#8 => formP k .locked
  | 0x20#8 => formS k .settrig
  | 0x21#8 => formP k .enable
  | 0x22#8 => formS k .maskunmask
  | 0x23#8 => formR k .register
  | 0x24#8 => formP k .unregister
  | 0x25#8 => formZ k .dispatch
  | 0x30#8 => formP k .gettype
  | 0x31#8 => formR k .regint
  | 0x32#8 => formP k .unregint
  | 0x33#8 => formP k .enint
  | 0x34#8 => formP k .disint
  | 0x35#8 => formS k .settypeint
  | 0x40#8 => formZ k .ctxinit
  | 0x41#8 => formZ k .ctxsuspend
  | 0x42#8 => formZ k .ctxresume
  | 0x43#8 => formZ k .ctxrelease
  | 0x44#8 => formZ k .pwroff
  | 0x45#8 => formZ k .pwron
  | _ => .error .unassignedOp

/-- The decoder: total on every packet, rejecting by name (R97). -/
def decode (w : Packet) : Except Reject Instr := decodeFields (unpack w)

/-- The operation whose packet is the bits `w`, numbered as opcode_table.json numbers them; bits above `nbits` are 0. A packet
is one 128-bit transaction (R90, R101), so there is no word order to lay out. -/
def decodeTableWord (nbits w : Nat) : Option Instr :=
  if w % 2 ^ nbits < 2 ^ 128 then (decode (BitVec.ofNat 128 (w % 2 ^ nbits))).toOption else none

/-- The operation code of an operation (R96). -/
def Instr.opcode : Instr → BitVec 8
  | .build => 0x01 | .start => 0x02 | .stop => 0x03 | .rescom _ => 0x04 | .resgrp _ _ => 0x05 | .regoff _ _ => 0x06
  | .mappin _ => 0x07 | .getstatus => 0x08
  | .hostown _ => 0x10 | .gpiomode _ => 0x11 | .locked _ => 0x12
  | .settrig _ _ => 0x20 | .enable _ => 0x21 | .maskunmask _ _ => 0x22 | .register _ _ _ _ => 0x23
  | .unregister _ => 0x24 | .dispatch => 0x25
  | .gettype _ => 0x30 | .regint _ _ _ _ => 0x31 | .unregint _ => 0x32 | .enint _ => 0x33 | .disint _ => 0x34
  | .settypeint _ _ => 0x35
  | .ctxinit => 0x40 | .ctxsuspend => 0x41 | .ctxresume => 0x42 | .ctxrelease => 0x43 | .pwroff => 0x44 | .pwron => 0x45

/-- The format of an operation (R91, R96). -/
def Instr.format : Instr → Format
  | .build | .start | .stop | .getstatus | .dispatch | .ctxinit | .ctxsuspend | .ctxresume | .ctxrelease | .pwroff
  | .pwron => .z
  | .rescom _ | .mappin _ | .hostown _ | .gpiomode _ | .locked _ | .enable _ | .unregister _ | .gettype _ | .unregint _
  | .enint _ | .disint _ => .p
  | .resgrp _ _ | .regoff _ _ | .settrig _ _ | .maskunmask _ _ | .settypeint _ _ => .s
  | .register _ _ _ _ | .regint _ _ _ _ => .r

/-- The packet fields of an operation (R91, R92, R96); a field its format does not use is zero (R97). -/
def Instr.fields (i : Instr) : Fields :=
  match i with
  | .build | .start | .stop | .getstatus | .dispatch | .ctxinit | .ctxsuspend | .ctxresume | .ctxrelease | .pwroff
  | .pwron => ⟨i.opcode, 0, 0, 0, 0, 0⟩
  | .rescom pin | .mappin pin | .hostown pin | .gpiomode pin | .locked pin | .enable pin | .unregister pin | .gettype pin
  | .unregint pin | .enint pin | .disint pin => ⟨i.opcode, 0, pin, 0, 0, 0⟩
  | .resgrp sel pin | .regoff pin sel | .settrig pin sel | .maskunmask pin sel | .settypeint pin sel =>
    ⟨i.opcode, sel, pin, 0, 0, 0⟩
  | .register pin owner cb ctx | .regint pin owner cb ctx => ⟨i.opcode, 0, pin, owner, cb, ctx⟩

/-- The encoder: the packet of an operation (R91, R96). -/
def encode (i : Instr) : Packet := pack i.fields

/-- The mnemonic of an operation (R96). -/
def Instr.mnemonic : Instr → String
  | .build => "BUILD" | .start => "START" | .stop => "STOP" | .rescom _ => "RESCOM" | .resgrp _ _ => "RESGRP"
  | .regoff _ _ => "REGOFF" | .mappin _ => "MAPPIN" | .getstatus => "GETSTATUS"
  | .hostown _ => "HOSTOWN" | .gpiomode _ => "GPIOMODE" | .locked _ => "LOCKED"
  | .settrig _ _ => "SETTRIG" | .enable _ => "ENABLE" | .maskunmask _ _ => "MASKUNMASK"
  | .register _ _ _ _ => "REGISTER" | .unregister _ => "UNREGISTER" | .dispatch => "DISPATCH"
  | .gettype _ => "GETTYPE" | .regint _ _ _ _ => "REGINT" | .unregint _ => "UNREGINT" | .enint _ => "ENINT"
  | .disint _ => "DISINT" | .settypeint _ _ => "SETTYPEINT"
  | .ctxinit => "CTXINIT" | .ctxsuspend => "CTXSUSPEND" | .ctxresume => "CTXRESUME" | .ctxrelease => "CTXRELEASE"
  | .pwroff => "PWROFF" | .pwron => "PWRON"

/-- The operands of the written form, in its order (R102): RESGRP has the community first, every other operation the pin. -/
def Instr.writtenOperands : Instr → List Nat
  | .build | .start | .stop | .getstatus | .dispatch | .ctxinit | .ctxsuspend | .ctxresume | .ctxrelease | .pwroff
  | .pwron => []
  | .rescom pin | .mappin pin | .hostown pin | .gpiomode pin | .locked pin | .enable pin | .unregister pin | .gettype pin
  | .unregint pin | .enint pin | .disint pin => [pin.toNat]
  | .resgrp ci pin => [ci.toNat, pin.toNat]
  | .regoff pin sel | .settrig pin sel | .maskunmask pin sel | .settypeint pin sel => [pin.toNat, sel.toNat]
  | .register pin owner cb ctx | .regint pin owner cb ctx => [pin.toNat, owner.toNat, cb.toNat, ctx.toNat]

/-- The written form of a command: mnemonic, then its operands in decimal separated by commas (R102). -/
def Instr.written (i : Instr) : String :=
  match i.writtenOperands with
  | [] => i.mnemonic
  | ns => i.mnemonic ++ " " ++ String.intercalate ", " (ns.map toString)

end Sys2Proof
end

