-- ==== Sys2Proof/Machine/State.lean ====
section
/-! DEFINITION. The state of the VGC (10_state.md R20 to R51), its ports (30_encoding.md R90), the register windows
(20_memory.md R60), the outside agents' moves to come (R77, R78; log 5), and the state after reset (R50, R280). -/

namespace Sys2Proof.Machine

/-- A pad group of the topology table (R24). -/
structure Group where
  regNum   : Nat
  base     : Nat
  size     : Nat
  gpioBase : Nat
  ownWord  : Nat
  deriving DecidableEq, Repr, Inhabited

/-- A community of the topology table (R23, R25). -/
structure Community where
  barno        : Nat
  ownOff       : Option Word
  lockOff      : Option Word
  hostmodeOff  : Option Word
  ieOff        : Word
  isOff        : Word
  featDebounce : Bool
  featAltpd    : Bool
  pinBase      : Nat
  npins        : Nat
  ownFixed     : Option Nat
  groups       : List Group
  padRegsOff   : Option Word
  deriving DecidableEq, Repr, Inhabited

/-- The lifecycle `lc` (R21). -/
inductive Lifecycle where
  | reset
  | built
  | started
  deriving DecidableEq, Repr

/-- The context state `cs` (R29). -/
inductive CtxState where
  | none
  | idle
  | saved
  deriving DecidableEq, Repr

/-- A registration slot (R26). -/
structure Slot where
  valid : Bool
  owner : Token
  cb    : Token
  ctx   : Token
  deriving DecidableEq, Repr, Inhabited

/-- The slot of an unregistered pin (R124, R183). -/
def Slot.free : Slot := ⟨false, 0, 0, 0⟩

/-- The shadow of a pin's configuration registers (R30). -/
structure Pad where
  captured : Bool
  cfg0     : Word
  cfg1     : Word
  cfg2     : Word
  deriving DecidableEq, Repr, Inhabited

/-- The shadow of a pin after CTXINIT (R211). -/
def Pad.zero : Pad := ⟨false, 0, 0, 0⟩

/-- A table indexed by hardware pin number, held as (pin, entry) pairs; its domain is the list of its pins (R26, R27, R30). -/
abbrev Table (α : Type) := List (Nat × α)

/-- The contents of the register windows: (address, byte) pairs, addresses strictly rising, no entry 0, which is what an
unlisted address reads as (log 2, log 3). -/
abbrev Memory := List Host.Cell

/-- The status codes (R241), by name. -/
inductive Status where
  | ok
  | notFound
  | invalidTopology
  | alreadyRegistered
  | modeConflict
  | noRegister
  | stateRefused
  | illegalCommand
  | resourceFailure
  | busError
  deriving DecidableEq, Repr

/-- One transaction of the bus-master port (R62, R63): the window, the byte offset and the word read or written. -/
inductive BusAccess where
  | read  (w off : Nat) (v : Word)
  | write (w off : Nat) (v : Word)
  deriving DecidableEq, Repr

/-- A move of an agent outside the VGC (R6). -/
inductive EnvMove where
  /-- The pad hardware sets the bits `bits` of the pending-status word of group `gi` of community `ci` of DESC (R77(a)). -/
  | pend (ci gi : Nat) (bits : Word)
  /-- The live-state bit of PADCFG0 of hardware pin `p` becomes `level` (R77(b), R76). -/
  | rxState (p : Nat) (level : Bool)
  /-- A further move of `EnvStep`, or a power transition: the word at (w, off) becomes `v` (R77, R78, U3, U4, U18). -/
  | store (w off : Nat) (v : Word)
  /-- A notification on the raw-interrupt input (R46). -/
  | notify
  /-- The host agent offers a command packet at the command port (R90(1)). -/
  | offer (pkt : Packet)
  /-- The reset input is asserted (R280). -/
  | reset
  deriving DecidableEq, Repr

/-- A request the sequencer can serve (R252). -/
inductive Request where
  /-- A command packet holding this operation. -/
  | command (i : Instr)
  /-- A command packet that is illegal (R97). -/
  | illegal
  /-- A dispatch pass for one raw-interrupt notification. -/
  | pass
  deriving DecidableEq, Repr

/-- The position inside an operation's pseudocode (R47): how many bus accesses of the operation are made, how many of its loops
over the topology were entered, and the indexes where the innermost one stands: community, group, bit or pin. -/
structure Position where
  accesses  : Nat
  loop      : Nat
  community : Nat
  group     : Nat
  item      : Nat
  deriving DecidableEq, Repr

/-- The position where every operation starts (R47). -/
def Position.start : Position := ⟨0, 0, 0, 0, 0⟩

/-- The sequencer (R47): idle, or running one request, its operation and operands, at a position. -/
inductive Sequencer where
  | idle
  | running (r : Request) (pos : Position)
  deriving DecidableEq, Repr

/-- A choice of the arbiter when a packet and a notification both wait (R252). -/
inductive Turn where
  | command
  | pass
  deriving DecidableEq, Repr

/-- Why the machine would stop. -/
inductive Fault where
  /-- Raised by `step` alone, on a state whose sequencer is in the middle of an operation. A step runs its request to
  completion, as R47 and R252 say an operation always runs, so no run from reset meets it (log 4). Safe. -/
  | sequencerBusy
  deriving DecidableEq, Repr

/-- Why an instruction would have no meaning. -/
inductive Refusal where
  /-- Raised by an arm of `exec` whose operation has no meaning yet; no arm raises it. Safe. -/
  | notModelled (mnemonic : String)
  deriving DecidableEq, Repr

/-- The state (R20), the ports (R90), the windows (R60), the parameters (R7) and the model's own three fields. -/
structure State where
  /-- The parameters and DESC (R7, R8): never written (R51, log 1). -/
  cfg         : Params
  /-- `lc` (R21). -/
  lc          : Lifecycle
  /-- `TOPO` (R22). -/
  topo        : List Community
  /-- `slot[p]` (R26). -/
  slots       : Table Slot
  /-- `trig[p]` (R27). -/
  trig        : Table (BitVec 8)
  /-- `cs` (R29). -/
  cs          : CtxState
  /-- `pads[p]` (R30). -/
  pads        : Table Pad
  /-- `ie_shadow[ci][gi]` (R31). -/
  ieShadow    : List (List Word)
  /-- `bus_fault` (R43). -/
  busFault    : Bool
  /-- `err_count` (R44). -/
  errCount    : BitVec 16
  /-- `err_last_code` (R44). -/
  errLastCode : BitVec 8
  /-- `err_last_pin` (R44). -/
  errLastPin  : BitVec 16
  /-- `irq_notif` (R46). -/
  irqNotif    : Nat
  /-- The sequencer (R47). -/
  seq         : Sequencer
  /-- The register windows (R51, R60). -/
  mem         : Memory
  /-- Packets waiting at the command port, oldest first (R90(1)). -/
  cmds        : List Packet
  /-- Packets put on the response port since reset, oldest first (R90(2), R93). -/
  resp        : List (BitVec 64)
  /-- Packets put on the callback port since reset, oldest first (R90(3), R94). -/
  calls       : List Packet
  /-- Transactions of the bus-master port, oldest first (R90(5), R79). -/
  bus         : List BusAccess
  /-- The model's own (log 5): the outside agents' moves to come, one batch for each idle moment, and one
  before and one after each bus access. -/
  env         : List (List EnvMove)
  /-- The model's own (log 9): the arbiter's choices to come. -/
  arb         : List Turn
  /-- The model's own (log 8): how many free values have been drawn. -/
  free        : Nat
  deriving DecidableEq, Repr

/-- The state after reset (R50) of a VGC with the parameters `cfg`, windows with nothing listed, and nothing scheduled. -/
def State.resetOf (cfg : Params) : State :=
  { cfg := cfg, lc := .reset, topo := [], slots := [], trig := [], cs := .none, pads := [], ieShadow := [],
    busFault := false, errCount := 0, errLastCode := 0, errLastPin := 0, irqNotif := 0, seq := .idle, mem := [],
    cmds := [], resp := [], calls := [], bus := [], env := [], arb := [], free := 0 }

/-- The machine right after reset (R50), with the reference configuration as its parameters (log 1). -/
def State.reset : State := State.resetOf Config.refParams

end Sys2Proof.Machine
end

