-- ==== Sys2Proof/Machine/Operands.lean ====
section
/-! DEFINITION. Operand forms: tables by pin number, lookups over the topology (40_topology.md R120, R129), the group lists of
a descriptor (R121, R123), address formulas (20_memory.md R60, R66, R68 to R74), numbers put into packet fields. -/

namespace Sys2Proof.Machine

/-! ## Tables indexed by pin number (R26, R27, R30) -/

/-- The entry of pin `p`, if `p` is in the table's domain. -/
def tableGet {α : Type} (t : Table α) (p : Nat) : Option α :=
  match t with
  | [] => none
  | e :: rest => if e.1 = p then some e.2 else tableGet rest p

/-- Write the entry of pin `p`; the domain stays as it is. -/
def tableSet {α : Type} (t : Table α) (p : Nat) (x : α) : Table α :=
  t.map fun e => if e.1 = p then (e.1, x) else e

/-- The table over the pins `ps` with `x` in every entry. -/
def tableInit {α : Type} (ps : List Nat) (x : α) : Table α := ps.map fun p => (p, x)

/-! ## Lookups (R120, R129) -/

/-- The first element of a list that passes a test, with its index counted from `n`: first match wins (R120). -/
def firstMatch {α : Type} (f : α → Bool) (n : Nat) (xs : List α) : Option (Nat × α) :=
  match xs with
  | [] => none
  | x :: rest => if f x then some (n, x) else firstMatch f (n + 1) rest

/-- Hardware pin `p` lies in the community's range (R120). -/
def Community.holds (c : Community) (p : Nat) : Bool := decide (c.pinBase ≤ p) && decide (p < c.pinBase + c.npins)

/-- Hardware pin `p` lies in the group: inclusive lower, exclusive upper bound (R120, 90_conflicts.md C1). -/
def Group.holds (g : Group) (p : Nat) : Bool := decide (g.base ≤ p) && decide (p < g.base + g.size)

/-- Logical pin `lp` lies in the group's logical range (R129). -/
def Group.holdsLogical (g : Group) (lp : Nat) : Bool :=
  decide (g.gpioBase ≤ lp) && decide (lp < g.gpioBase + g.size)

/-- `FindCommunity(p)` (R120). -/
def findCommunity (topo : List Community) (p : Nat) : Option (Nat × Community) :=
  firstMatch (fun c => c.holds p) 0 topo

/-- `FindGroup(c, p)` (R120). -/
def findGroup (c : Community) (p : Nat) : Option (Nat × Group) :=
  firstMatch (fun g => g.holds p) 0 c.groups

/-- Where a hardware pin lies: its community, its group, and its bit offset `o = p - g.base` in the group (R13). -/
structure Location where
  c : Community
  g : Group
  o : Nat
  deriving DecidableEq, Repr

/-- The lookup of `Locate(p)`, without its log entry (R120). -/
def findPin (topo : List Community) (p : Nat) : Option Location :=
  match findCommunity topo p with
  | none => none
  | some (_, c) =>
    match findGroup c p with
    | none => none
    | some (_, g) => some ⟨c, g, p - g.base⟩

/-- `MapPin(lp)`: the software-to-hardware pin map, communities then groups in order, first match (R129). -/
def mapPin (topo : List Community) (lp : Nat) : Option Nat :=
  topo.findSome? fun c =>
    c.groups.findSome? fun g => if g.holdsLogical lp then some (g.base + (lp - g.gpioBase)) else none

/-- The hardware pins of a community, ascending (R13, R210). -/
def Community.pins (c : Community) : List Nat := List.range' c.pinBase c.npins

/-- The hardware pins of every community, in community order: the domain of the pin tables (R26). -/
def pinsOf (topo : List Community) : List Nat := topo.flatMap Community.pins

/-! ## Groups of a descriptor (R121, R123) -/

/-- `ceil(a/b)` (R11); the quotient by 0 is a free value (log 11). -/
def ceilDiv (a b : Nat) : Nat := if b = 0 then Config.ceilDivZero a else (a + b - 1) / b

/-- The group list of a community descriptor: the explicit groups as they stand, or groups of the nominal size consuming the
pins left to right, the last one capped at the remainder (R121). -/
def groupsOf (d : CommunityDesc) : List GroupDesc :=
  match d.gpps with
  | some l => l
  | none =>
    (List.range (ceilDiv d.npins d.gppSize)).map fun i =>
      { regNum := i, base := d.pinBase + i * d.gppSize, size := min d.gppSize (d.npins - i * d.gppSize),
        gpioBase := d.pinBase + i * d.gppSize }

/-- The increment of the ownership word index that a group contributes (R123). -/
def ownIncrement (fixed : Option Nat) (size : Nat) : Nat :=
  match fixed with
  | some f => f
  | none => ceilDiv (size * 4) 32

/-- Check the sizes and number the ownership words of a community's groups, from the running sum `acc`: none when a group
exceeds 32 pins (R121, R122, R123). -/
def numberGroups (fixed : Option Nat) (acc : Nat) (gs : List GroupDesc) : Option (List Group) :=
  match gs with
  | [] => some []
  | g :: rest =>
    if g.size > 32 then none
    else
      (numberGroups fixed (acc + ownIncrement fixed g.size) rest).map fun t =>
        { regNum := g.regNum, base := g.base, size := g.size, gpioBase := g.gpioBase, ownWord := acc } :: t

/-- The community that BUILD makes of a descriptor (R121). -/
def buildCommunity (d : CommunityDesc) : Option Community :=
  (numberGroups d.ownFixed 0 (groupsOf d)).map fun gs =>
    { barno := d.barno, ownOff := d.ownOff, lockOff := d.lockOff, hostmodeOff := d.hostmodeOff, ieOff := d.ieOff,
      isOff := d.isOff, featDebounce := d.featDebounce, featAltpd := d.featAltpd, pinBase := d.pinBase, npins := d.npins,
      ownFixed := d.ownFixed, groups := gs, padRegsOff := none }

/-- The topology table that BUILD makes of the descriptor bundle; none is InvalidTopology (R121, R122). -/
def buildTopo (ds : List CommunityDesc) : Option (List Community) :=
  match ds with
  | [] => some []
  | d :: rest =>
    match buildCommunity d with
    | none => none
    | some c => (buildTopo rest).map fun t => c :: t

/-! ## Addresses (R60, R66, R68 to R72) -/

/-- The check made before every access: the window exists, the offset is a multiple of 4 and the word fits (R66). -/
def accessOk (cfg : Params) (w off : Nat) : Bool :=
  match cfg.winSize[w]? with
  | none => false
  | some n => decide (off % 4 = 0) && decide (off + 4 ≤ n.toNat)

/-- The memory address of the byte at offset `off` of window `w` (log 3). -/
def winAddr (w off : Nat) : Nat := w * 2 ^ 32 + off

/-- Registers per pin: 4 with debounce, 2 without (R69). -/
def stride (debounce : Bool) : Nat := if debounce then 4 else 2

/-- The base of the community's configuration array, a byte offset in its window (R25). -/
def padRegs (c : Community) : Nat := (c.padRegsOff.getD (Config.absentPadRegs c.barno)).toNat

/-- `CfgOff(c, p, which)`: byte offset of configuration register `which` of pin `p`; none for the debounce register of a
community without debounce (R69). -/
def cfgOff (c : Community) (p which : Nat) : Option Nat :=
  if which = 2 ∧ c.featDebounce = false then none
  else some (padRegs c + which * 4 + (p - c.pinBase) * stride c.featDebounce * 4)

/-- `CfgOff(c, p, 0)`, which every pin has (R69). -/
def cfg0Off (c : Community) (p : Nat) : Nat := padRegs c + (p - c.pinBase) * stride c.featDebounce * 4

/-- `CfgOff(c, p, 1)`, which every pin has (R69). -/
def cfg1Off (c : Community) (p : Nat) : Nat := padRegs c + 4 + (p - c.pinBase) * stride c.featDebounce * 4

/-- `BankOff(B, g)`: the word of register bank `regNum` in a per-group bitmap at `b` (R70). -/
def bankOff (b : Word) (regNum : Nat) : Nat := b.toNat + regNum * 4

/-- `OwnOff(c, g, p)` with the ownership bitmap at `b` (R71). -/
def ownOff (b : Word) (g : Group) (o : Nat) : Nat := b.toNat + g.ownWord * 4 + o / 8 * 4

/-- `OwnSlot(word, g, p)`: the pin's 4-bit ownership slot (R71). -/
def ownSlot (w : Word) (o : Nat) : BitVec 4 := (w >>> (o % 8 * 4)).setWidth 4

/-- `LockOff(c, g)` with the lock bitmap at `b` (R72). -/
def lockOff (cfg : Params) (b : Word) (g : Group) : Nat := b.toNat + g.regNum * cfg.lockStride

/-- `LockTxOff(c, g)` with the lock bitmap at `b` (R72). -/
def lockTxOff (cfg : Params) (b : Word) (g : Group) : Nat := b.toNat + g.regNum * cfg.lockStride + cfg.lockTxDelta

/-- The word at (w, off) is a pending-status word of the pad controller: the bank word of a group of DESC (R40, R70). -/
def isPendingWord (cfg : Params) (w off : Nat) : Bool :=
  cfg.desc.any fun d => decide (d.barno = w) && (groupsOf d).any fun g => decide (bankOff d.isOff g.regNum = off)

/-! ## Numbers in fields -/

/-- A number put into a field of `w` bits; what the field holds when the number does not fit is a free value (log 10). -/
def fieldOf (w n : Nat) : BitVec w := if n < 2 ^ w then BitVec.ofNat w n else Config.misfit w n

end Sys2Proof.Machine
end

