-- ==== Sys2Proof/Machine/Flags.lean ====
section
/-! DEFINITION. Trigger types (42_interrupt.md R171 to R174), status codes (60_exceptions.md R241), packets (30_encoding.md
R93, R94), legality by state (R99), the status word (40_topology.md R130), the per-pin state labels (10_state.md R28). -/

namespace Sys2Proof.Machine

/-! ## Trigger types -/

/-- The six classes of a trigger type (R171, 90_conflicts.md C5). -/
inductive TrigClass where
  | both | rising | falling | levelHigh | levelLow | disabled
  deriving DecidableEq, Repr

/-- `Classify(t)`: the tests in the order written, an edge flag before a level flag (R171). -/
def classify (cfg : Params) (t : BitVec 8) : TrigClass :=
  if t &&& (cfg.tRising ||| cfg.tFalling) = cfg.tRising ||| cfg.tFalling then .both
  else if t &&& cfg.tRising ≠ 0 then .rising
  else if t &&& cfg.tFalling ≠ 0 then .falling
  else if t &&& (cfg.tLevelHigh ||| cfg.tLevelLow) ≠ 0 then
    if t &&& cfg.tLevelLow ≠ 0 then .levelLow else .levelHigh
  else .disabled

/-- The TRIG field value of a class (R172); `TRIG_LEVEL` is 0 (R7). -/
def trigField (cfg : Params) : TrigClass → BitVec 2
  | .both => cfg.trigBoth
  | .rising => cfg.trigEdge
  | .falling => cfg.trigEdge
  | .levelHigh => 0
  | .levelLow => 0
  | .disabled => cfg.trigDisabled

/-- The INV bit of a class (R172). -/
def trigInvert : TrigClass → Bool
  | .falling | .levelLow => true
  | .both | .rising | .levelHigh | .disabled => false

/-- The bits of PADCFG0 that SETTRIG writes: the TRIG field and the INV bit (R173). -/
def trigMask (cfg : Params) : Word := (3#32 <<< cfg.trigShift.val) ||| bit cfg.invBit.val

/-- PADCFG0 with the TRIG field and the INV bit of type `t`, every other bit as it was (R172, R173). -/
def setTrigWord (cfg : Params) (v : Word) (t : BitVec 8) : Word :=
  v &&& ~~~(trigMask cfg) ||| (trigField cfg (classify cfg t)).setWidth 32 <<< cfg.trigShift.val |||
    (if trigInvert (classify cfg t) then bit cfg.invBit.val else 0)

/-- `IsLevel(t)` (R174). -/
def isLevel (cfg : Params) (t : BitVec 8) : Bool :=
  classify cfg t = .levelHigh || classify cfg t = .levelLow

/-- The symbolic trigger types of the written form (R103). -/
inductive TypeName where
  | none | rising | falling | both | high | low
  deriving DecidableEq, Repr

/-- The selector value of a symbolic trigger type (R103). -/
def typeValue (cfg : Params) : TypeName → BitVec 8
  | .none => 0
  | .rising => cfg.tRising
  | .falling => cfg.tFalling
  | .both => cfg.tRising ||| cfg.tFalling
  | .high => cfg.tLevelHigh
  | .low => cfg.tLevelLow

/-- PADCFG0 with the live-state bit cleared (R214, R216). -/
def clearRxState (cfg : Params) (v : Word) : Word := v &&& ~~~(bit cfg.rxStateBit.val)

/-! ## Statuses and packets -/

/-- The code of a status (R241). -/
def Status.code : Status → BitVec 8
  | .ok => 0x00
  | .notFound => 0x01
  | .invalidTopology => 0x02
  | .alreadyRegistered => 0x03
  | .modeConflict => 0x04
  | .noRegister => 0x05
  | .stateRefused => 0x06
  | .illegalCommand => 0x07
  | .resourceFailure => 0x08
  | .busError => 0x09

/-- The fields of a response packet (R93). -/
structure Response where
  status : Status
  aux    : BitVec 8
  pinf   : BitVec 16
  val    : Word
  deriving DecidableEq, Repr

/-- `return S`: the response with only a status (R12). -/
def Response.of (st : Status) : Response := ⟨st, 0, 0, 0⟩

/-- The response packet: `status` 7:0, `aux` 15:8, `pinf` 31:16, `val` 63:32 (R93). -/
def Response.pack (r : Response) : BitVec 64 := r.val ++ r.pinf ++ r.aux ++ r.status.code

/-- The callback packet of pin `p` and its slot: `owner` 31:0, `cb` 63:32, `ctx` 95:64, pin 111:96, zero above (R94). -/
def callbackPacket (sl : Slot) (p : Nat) : Packet := 0#16 ++ fieldOf 16 p ++ sl.ctx ++ sl.cb ++ sl.owner

/-- The number of a truth value in `val` (R152, R155, R157). -/
def boolWord (b : Bool) : Word := if b then 1 else 0

/-! ## Legality by state (R99) -/

/-- The values of `lc` in which an operation is legal (R99). -/
def legalLc (i : Instr) (lc : Lifecycle) : Bool :=
  match i with
  | .getstatus => true
  | .build => lc = .reset
  | .start => lc = .built
  | .rescom _ | .resgrp _ _ | .mappin _ => lc = .built || lc = .started
  | .stop | .regoff _ _ | .hostown _ | .gpiomode _ | .locked _ | .settrig _ _ | .enable _ | .maskunmask _ _
  | .register _ _ _ _ | .unregister _ | .dispatch | .gettype _ | .regint _ _ _ _ | .unregint _ | .enint _ | .disint _
  | .settypeint _ _ | .ctxinit | .ctxsuspend | .ctxresume | .ctxrelease | .pwroff | .pwron => lc = .started

/-- The values of `cs` in which an operation is legal (R99). -/
def legalCs (i : Instr) (cs : CtxState) : Bool :=
  match i with
  | .ctxinit => cs = .none
  | .ctxsuspend | .pwroff | .ctxrelease => cs = .idle || cs = .saved
  | .ctxresume | .pwron => cs = .saved
  | .getstatus | .build | .start | .rescom _ | .resgrp _ _ | .mappin _ | .stop | .regoff _ _ | .hostown _ | .gpiomode _
  | .locked _ | .settrig _ _ | .enable _ | .maskunmask _ _ | .register _ _ _ _ | .unregister _ | .dispatch | .gettype _
  | .regint _ _ _ _ | .unregint _ | .enint _ | .disint _ | .settypeint _ _ => true

/-- An operation is legal in a state (R99). -/
def legal (i : Instr) (s : State) : Bool := legalLc i s.lc && legalCs i s.cs

/-! ## The status word (R130) -/

/-- The code of `lc` in GETSTATUS (R130). -/
def Lifecycle.code : Lifecycle → BitVec 2
  | .reset => 0
  | .built => 1
  | .started => 2

/-- The code of `cs` in GETSTATUS (R130). -/
def CtxState.code : CtxState → BitVec 2
  | .none => 0
  | .idle => 1
  | .saved => 2

/-- `val` of GETSTATUS: `lc` 1:0, `cs` 3:2, `bus_fault` 4, zero 7:5, `err_last_code` 15:8, `err_count` 31:16 (R130). -/
def statusWord (s : State) : Word :=
  s.errCount ++ s.errLastCode ++ 0#3 ++ BitVec.ofBool s.busFault ++ s.cs.code ++ s.lc.code

/-! ## The per-pin state machine, a view (R28) -/

/-- The labels of the per-pin state machine, and the rows of its table that lie off the diagram (R28). -/
inductive PinLabel where
  | unregistered | registered | armed | enabled | offDiagram
  deriving DecidableEq, Repr

/-- The label of a pin with these three attributes (R28). -/
def pinLabel (valid : Bool) (t : BitVec 8) (ie : Bool) : PinLabel :=
  match valid, decide (t = 0), ie with
  | false, true, false => .unregistered
  | true, true, false => .registered
  | true, false, false => .armed
  | true, false, true => .enabled
  | false, true, true | false, false, _ | true, true, true => .offDiagram

end Sys2Proof.Machine
end

