-- ==== Sys2Proof/Machine/Ops.lean ====
section
/-! DEFINITION. The named operations over the state: windows held as bytes, the pad controller's write rule (20_memory.md R76),
the outside agents' moves (R77, R78), bus accesses (R62, R63, R66), the error log (10_state.md R44), the callback and response
ports (60_exceptions.md R240, R256), the arbiter (R252), and how a request is taken and ended. -/

namespace Sys2Proof.Machine

/-! ## Windows as bytes (R64, log 3) -/

/-- What an unlisted address reads as (log 2). -/
def unlisted : Byte := 0

/-- The byte at an address. -/
def Memory.get (m : Memory) (a : Nat) : Byte :=
  match m with
  | [] => unlisted
  | e :: rest => if e.1 = a then e.2 else Memory.get rest a

/-- Write a byte, keeping the canonical form: writing what an unlisted address reads as removes the entry. -/
def Memory.set (m : Memory) (a : Nat) (b : Byte) : Memory :=
  match m with
  | [] => if b = unlisted then [] else [(a, b)]
  | e :: rest =>
    if e.1 < a then e :: Memory.set rest a b
    else if e.1 = a then (if b = unlisted then rest else (a, b) :: rest)
    else (if b = unlisted then e :: rest else (a, b) :: e :: rest)

/-- The canonical form, every address at least `lo`. -/
def Memory.wfFrom (lo : Nat) (m : Memory) : Bool :=
  match m with
  | [] => true
  | e :: rest => decide (lo ≤ e.1) && e.2 != unlisted && Memory.wfFrom (e.1 + 1) rest

/-- The canonical form: addresses strictly rising, no entry equal to what an unlisted address reads as. -/
def Memory.wf (m : Memory) : Bool := Memory.wfFrom 0 m

/-- The 32-bit word at a byte address, bits 7:0 at the lowest address (R64). -/
def readWord (m : Memory) (a : Nat) : Word :=
  Memory.get m (a + 3) ++ Memory.get m (a + 2) ++ Memory.get m (a + 1) ++ Memory.get m a

/-- Store a 32-bit word at a byte address, bits 7:0 at the lowest address (R64). -/
def writeWord (m : Memory) (a : Nat) (v : Word) : Memory :=
  Memory.set (Memory.set (Memory.set (Memory.set m a (v.extractLsb' 0 8)) (a + 1) (v.extractLsb' 8 8))
    (a + 2) (v.extractLsb' 16 8)) (a + 3) (v.extractLsb' 24 8)

/-- The word at offset `off` of window `w`. -/
def winWord (m : Memory) (w off : Nat) : Word := readWord m (winAddr w off)

/-- What a write of `v` makes of a word that held `old` (R76): an IS word clears the bits written 1, every other word takes
the value. -/
def padValue (cfg : Params) (w off : Nat) (old v : Word) : Word :=
  if isPendingWord cfg w off then old &&& ~~~v else v

/-- The windows after a write of `v` to (w, off) (R76). -/
def padWrite (cfg : Params) (m : Memory) (w off : Nat) (v : Word) : Memory :=
  writeWord m (winAddr w off) (padValue cfg w off (winWord m w off) v)

/-! ## The outside agents (R6, R77, R78, R280) -/

/-- The pending-status word of group `gi` of community `ci` of DESC, if there is one. -/
def pendAddr (cfg : Params) (ci gi : Nat) : Option (Nat × Nat) :=
  match cfg.desc[ci]? with
  | none => none
  | some d =>
    match (groupsOf d)[gi]? with
    | none => none
    | some g => some (d.barno, bankOff d.isOff g.regNum)

/-- PADCFG0 of hardware pin `p` where the pad controller has it: in the array that the PADBASE word of its window points to. -/
def padAddr (cfg : Params) (m : Memory) (p : Nat) : Option (Nat × Nat) :=
  match cfg.desc.find? (fun d => decide (d.pinBase ≤ p) && decide (p < d.pinBase + d.npins)) with
  | none => none
  | some d => some (d.barno, (winWord m d.barno cfg.padbaseOffset).toNat + (p - d.pinBase) * stride d.featDebounce * 4)

/-- Replace the word at (w, off), where there is one. -/
def storeWord (cfg : Params) (m : Memory) (w off : Nat) (v : Word) : Memory :=
  if accessOk cfg w off then writeWord m (winAddr w off) v else m

/-- The state right after the reset input is asserted (R50, R280): the values of reset, the windows untouched, the commands
waiting discarded. What the model records or holds for the outside (`bus`, `env`, `arb`, `free`) goes on. -/
def resetInput (s : State) : State :=
  { State.resetOf s.cfg with mem := s.mem, bus := s.bus, env := s.env, arb := s.arb, free := s.free }

/-- A notification on the raw-interrupt input: counted in LC_STARTED, up to the implementation's bound, else dropped (R46). -/
def notifyInput (s : State) : State :=
  if s.lc = .started then
    match s.cfg.irqMax with
    | none => { s with irqNotif := s.irqNotif + 1 }
    | some m => if s.irqNotif < m then { s with irqNotif := s.irqNotif + 1 } else s
  else s

/-- One move of an outside agent. A move at a word that does not exist changes nothing. -/
def envMove (s : State) (e : EnvMove) : State :=
  match e with
  | .pend ci gi bits =>
    match pendAddr s.cfg ci gi with
    | none => s
    | some a => { s with mem := storeWord s.cfg s.mem a.1 a.2 (winWord s.mem a.1 a.2 ||| bits) }
  | .rxState p level =>
    match padAddr s.cfg s.mem p with
    | none => s
    | some a =>
      { s with mem := storeWord s.cfg s.mem a.1 a.2
                 (clearRxState s.cfg (winWord s.mem a.1 a.2) ||| (if level then bit s.cfg.rxStateBit.val else 0)) }
  | .store w off v => { s with mem := storeWord s.cfg s.mem w off v }
  | .notify => notifyInput s
  | .offer pkt => { s with cmds := s.cmds ++ [pkt] }
  | .reset => resetInput s

/-- The outside agents move: the next batch of the schedule, in order (R77). -/
def envTick (s : State) : State :=
  match s.env with
  | [] => s
  | batch :: rest => batch.foldl envMove { s with env := rest }

/-- The next batch of the schedule asserts the reset input (R280). -/
def resetComing (s : State) : Bool :=
  match s.env with
  | [] => false
  | batch :: _ => batch.contains .reset

/-! ## Sequences of bus accesses (R47, R66, R280) -/

/-- How a stretch of an operation ends: with a value; by `raise S` (R12), the operation ending with that status and nothing
undone; or abandoned by the reset input between two bus accesses (R280). -/
inductive Res (α : Type) where
  | ok (a : α) (s : State)
  | raised (st : Status) (s : State)
  | abandoned (s : State)

/-- A stretch of an operation's pseudocode. -/
abbrev M (α : Type) := State → Res α

/-- The stretch that does nothing and has the value `a`. -/
def M.pure {α : Type} (a : α) : M α := fun s => .ok a s

/-- One stretch, then the next on its value; a stretch that ends the operation ends it. -/
def M.bind {α β : Type} (m : M α) (f : α → M β) : M β := fun s =>
  match m s with
  | .ok a t => f a t
  | .raised st t => .raised st t
  | .abandoned t => .abandoned t

/-- A state change with no bus access. -/
def M.update (f : State → State) : M Unit := fun s => .ok () (f s)

/-- A value read from the state with no bus access. -/
def M.look {α : Type} (f : State → α) : M α := fun s => .ok (f s) s

/-- `for x in xs ascending`, carrying a value. -/
def M.fold {α β : Type} (xs : List α) (b : β) (f : β → α → M β) : M β :=
  match xs with
  | [] => M.pure b
  | x :: rest => M.bind (f b x) fun b' => M.fold rest b' f

/-- `for x in xs ascending`. -/
def M.each {α : Type} (xs : List α) (f : α → M Unit) : M Unit :=
  match xs with
  | [] => M.pure ()
  | x :: rest => M.bind (f x) fun _ => M.each rest f

/-- The sequencer's position after one more bus access (R47). -/
def Sequencer.advance : Sequencer → Sequencer
  | .idle => .idle
  | .running r pos => .running r { pos with accesses := pos.accesses + 1 }

/-- A loop over the topology is entered. -/
def Position.nextLoop (pos : Position) : Position := { pos with loop := pos.loop + 1, community := 0, group := 0, item := 0 }

/-- A loop takes its next turn: community `ci`. -/
def Position.atCommunity (ci : Nat) (pos : Position) : Position := { pos with community := ci, group := 0, item := 0 }

/-- A loop takes its next turn: group `gi` of the community. -/
def Position.atGroup (gi : Nat) (pos : Position) : Position := { pos with group := gi, item := 0 }

/-- A loop takes its next turn: bit or pin `i`. -/
def Position.atItem (i : Nat) (pos : Position) : Position := { pos with item := i }

/-- The running sequencer's position changes by `f` (R47). -/
def standAt (f : Position → Position) (s : State) : State :=
  { s with seq := match s.seq with
      | .idle => .idle
      | .running r pos => .running r (f pos) }

/-- The sequencer moves inside the pseudocode, with no other effect (R47). -/
def M.stand (f : Position → Position) : M Unit := M.update (standAt f)

/-- A transaction is made: the bus-master port shows it and the sequencer's position moves on (R47, R79). -/
def record (a : BusAccess) (s : State) : State := { s with bus := s.bus ++ [a], seq := s.seq.advance }

/-- The pad controller takes a write (R76). -/
def putWord (w off : Nat) (v : Word) (s : State) : State := { s with mem := padWrite s.cfg s.mem w off v }

/-- The outside agents move between two stretches of an operation (R77); the reset input among their moves abandons the
operation there (R280). -/
def outside : M Unit := fun s => if resetComing s then .abandoned (envTick s) else .ok () (envTick s)

/-- The check made before every access (R66): a failure sets `bus_fault` and ends the operation. -/
def check (w off : Nat) : M Unit := fun s =>
  if accessOk s.cfg w off then .ok () s else .raised .busError { s with busFault := true }

/-- One bus access at (w, off): the check, an outside move, `act`, which is the transaction itself, and an outside move, so that
the reset input may land between two accesses and after the last one an operation issues (R280). -/
def access {α : Type} (w off : Nat) (act : State → α × State) : M α :=
  M.bind (check w off) fun _ =>
    M.bind outside fun _ =>
      M.bind (fun s => .ok (act s).1 (act s).2) fun a => M.bind outside fun _ => M.pure a

/-- `WinRead(w, off)` (R62, R75). -/
def winRead (w off : Nat) : M Word :=
  access w off fun s => (winWord s.mem w off, record (.read w off (winWord s.mem w off)) s)

/-- `WinWrite(w, off, v)` (R63, R76). -/
def winWrite (w off : Nat) (v : Word) : M Unit :=
  access w off fun s => ((), record (.write w off v) (putWord w off v s))

/-- A read, a change of the word read, and its write: two transactions (R67). -/
def winModify (w off : Nat) (f : Word → Word) : M Unit :=
  M.bind (winRead w off) fun v => winWrite w off (f v)

/-! ## The error log (R44) -/

/-- `LogErr(S, p)`: the count saturates at 0xFFFF (R44). -/
def logErr (st : Status) (p : Nat) (s : State) : State :=
  { s with errCount := if s.errCount = 0xFFFF then 0xFFFF else s.errCount + 1
           errLastCode := st.code
           errLastPin := fieldOf 16 p }

/-- `FindCommunity(p)`, a failure logged as NotFound (R126, R128, R151, R154, R156, R173, R181). -/
def communityOf (p : Nat) : M (Option (Nat × Community)) := fun s =>
  match findCommunity s.topo p with
  | none => .ok none (logErr .notFound p s)
  | some r => .ok (some r) s

/-- `Locate(p)`: a failure is logged as NotFound (R120). -/
def locate (p : Nat) : M (Option Location) := fun s =>
  match findPin s.topo p with
  | none => .ok none (logErr .notFound p s)
  | some l => .ok (some l) s

/-- The pin translation that comes first in every logical-pin operation: a failure is logged as NotFound (R129, R197). -/
def translatePin (lp : Nat) : M (Option Nat) := fun s =>
  match mapPin s.topo lp with
  | none => .ok none (logErr .notFound lp s)
  | some p => .ok (some p) s

/-! ## Pin tables (R26, R27) -/

/-- `slot[p]`; a pin outside the domain reads as unregistered (R26 "absent = unregistered", log 12). -/
def slotOf (s : State) (p : Nat) : Slot := (tableGet s.slots p).getD Slot.free

/-- `trig[p]`. A pin that no community holds has a free value (log 8); out of LC_STARTED every entry is the 0 that STOP writes
(R27, log 7). -/
def readTrig (p : Nat) : M (BitVec 8) := fun s =>
  match tableGet s.trig p with
  | some t => .ok t s
  | none =>
    if s.lc = .started then .ok (Config.absentTrig s.free) { s with free := s.free + 1 } else .ok 0 s

/-- `slot[p] <- sl`. -/
def setSlot (p : Nat) (sl : Slot) (s : State) : State := { s with slots := tableSet s.slots p sl }

/-- `trig[p] <- t`. -/
def setTrig (p : Nat) (t : BitVec 8) (s : State) : State := { s with trig := tableSet s.trig p t }

/-! ## Callback entry (R256) -/

/-- `emit Callback(...)`: one packet on the callback port and nothing else; there is no return (R256, R257). -/
def emitCallback (sl : Slot) (p : Nat) (s : State) : State := { s with calls := s.calls ++ [callbackPacket sl p] }

/-! ## Taking and ending a request (R90, R240, R252) -/

/-- A command packet is taken from the command port and the sequencer runs it (R90(1), R252). -/
def takeCommand (r : Request) (s : State) : State := { s with cmds := s.cmds.tail, seq := .running r .start }

/-- A command ends: exactly one response packet, and the sequencer is idle (R240). -/
def respond (r : Response) (s : State) : State := { s with resp := s.resp ++ [r.pack], seq := .idle }

/-- How a command ends (R12, R240): with its response; with a status and zeros after `raise`; with no response when the
reset input abandoned it (R280). -/
def endCommand (r : Res Response) : State :=
  match r with
  | .ok a s => respond a s
  | .raised st s => respond (Response.of st) s
  | .abandoned s => s

/-- How a dispatch pass ends: with no response packet (R93, R186). -/
def endPass (r : Res Response) : State :=
  match r with
  | .ok _ s => { s with seq := .idle }
  | .raised _ s => { s with seq := .idle }
  | .abandoned s => s

/-- An illegal packet is answered IllegalCommand, with no other effect (R97). -/
def runIllegal (s : State) : State := endCommand (.ok (Response.of .illegalCommand) (takeCommand .illegal s))

/-- A command: the checks of R100 in their order, then the operation's body. An operation whose operands no legal packet
carries is answered as such a packet is (R97, log 16). -/
def perform (i : Instr) (body : M Response) (s : State) : Host.Outcome State Fault Refusal :=
  .next (endCommand
    (if i.wellFormed = false then .ok (Response.of .illegalCommand) (takeCommand (.command i) s)
     else if legal i s = false then .ok (Response.of .stateRefused) (takeCommand (.command i) s)
     else body (takeCommand (.command i) s)))

/-- The response of a body that has only a status (R12). -/
def statusOnly (m : M Status) : M Response := M.bind m fun st => M.pure (Response.of st)

/-! ## The arbiter (R252) -/

/-- What the sequencer takes next: the oldest packet or a dispatch pass; nothing when neither waits. When both wait the
choice is open: the next entry of `arb`, else a free value (R252, log 9). -/
def arbitrate (s : State) : Option Turn × State :=
  match s.cmds, s.irqNotif with
  | [], 0 => (none, s)
  | [], _ + 1 => (some .pass, s)
  | _ :: _, 0 => (some .command, s)
  | _ :: _, _ + 1 =>
    match s.arb with
    | t :: rest => (some t, { s with arb := rest })
    | [] => (some (if Config.commandFirst s.free then .command else .pass), { s with free := s.free + 1 })

end Sys2Proof.Machine
end

