-- ==== Sys2Proof/Machine/Guard.lean ====
section
/-! DEFINITION. The guard predicates and HOSTOWN, GPIOMODE, LOCKED (41_guard.md R150 to R159). -/

namespace Sys2Proof.Machine

/-- `HostOwned(p)` (R151): a pin the topology does not know is not host-owned (R150). -/
def hostOwned (p : Nat) : M Bool :=
  M.bind (communityOf p) fun found =>
    match found with
    | none => M.pure false
    | some (_, c) =>
      match c.ownOff with
      | none => M.pure true
      | some b =>
        match findGroup c p with
        | none => M.bind (M.update (logErr .notFound p)) fun _ => M.pure false
        | some (_, g) =>
          M.bind (winRead c.barno (ownOff b g (p - g.base))) fun w =>
            M.look fun s => decide (ownSlot w (p - g.base) &&& s.cfg.ownTestMask = 0)

/-- `GpioMode(p)` (R154): true when the pin is usable as a GPIO interrupt source, false in ACPI mode (90_conflicts.md C3);
a pin the topology does not know is in ACPI mode (R150). -/
def gpioMode (p : Nat) : M Bool :=
  M.bind (communityOf p) fun found =>
    match found with
    | none => M.pure false
    | some (_, c) =>
      match c.hostmodeOff with
      | none => M.pure true
      | some b =>
        match findGroup c p with
        | none => M.bind (M.update (logErr .notFound p)) fun _ => M.pure false
        | some (_, g) =>
          M.bind (winRead c.barno (bankOff b g.regNum)) fun w => M.pure (!w.getLsbD (p - g.base))

/-- `Locked(p)` (R156): LOCKTX is read only when LOCK's bit is clear; a pin the topology does not know is locked (R150). -/
def lockedPin (p : Nat) : M Bool :=
  M.bind (communityOf p) fun found =>
    match found with
    | none => M.pure true
    | some (_, c) =>
      match c.lockOff with
      | none => M.pure false
      | some b =>
        match findGroup c p with
        | none => M.bind (M.update (logErr .notFound p)) fun _ => M.pure true
        | some (_, g) =>
          M.bind (M.look fun s => (lockOff s.cfg b g, lockTxOff s.cfg b g)) fun offs =>
            M.bind (winRead c.barno offs.1) fun w =>
              if w.getLsbD (p - g.base) then M.pure true
              else M.bind (winRead c.barno offs.2) fun w' => M.pure (w'.getLsbD (p - g.base))

/-- The response of a predicate operation: OK with the truth value (R152, R155, R157). -/
def answerBool (m : M Bool) : M Response := M.bind m fun b => M.pure ⟨.ok, 0, 0, boolWord b⟩

/-- HOSTOWN (R152). -/
def execHostown (pin : PinNum) (s : State) : Host.Outcome State Fault Refusal :=
  perform (.hostown pin) (answerBool (hostOwned pin.toNat)) s

/-- GPIOMODE (R155). -/
def execGpiomode (pin : PinNum) (s : State) : Host.Outcome State Fault Refusal :=
  perform (.gpiomode pin) (answerBool (gpioMode pin.toNat)) s

/-- LOCKED (R157). -/
def execLocked (pin : PinNum) (s : State) : Host.Outcome State Fault Refusal :=
  perform (.locked pin) (answerBool (lockedPin pin.toNat)) s

end Sys2Proof.Machine
end

