-- ==== Sys2Proof/Machine/Router.lean ====
section
/-! DEFINITION. The interrupt router on hardware pins: SETTRIG, ENABLE, MASKUNMASK, REGISTER, UNREGISTER, DISPATCH
(42_interrupt.md R170 to R190), and the dispatch pass of a raw-interrupt notification (R186; 10_state.md R46). -/

namespace Sys2Proof.Machine

/-- `SetTrigBody(p, t)` (R173). -/
def setTrigBody (p : Nat) (t : BitVec 8) : M Status :=
  M.bind (communityOf p) fun found =>
    match found with
    | none => M.pure .notFound
    | some (_, c) =>
      M.bind (gpioMode p) fun usable =>
        if usable then
          M.bind (M.look fun s => s.cfg) fun cfg =>
            M.bind (winModify c.barno (cfg0Off c p) fun v => setTrigWord cfg v t) fun _ =>
              M.bind (M.update (setTrig p t)) fun _ => M.pure .ok
        else M.pure .modeConflict

/-- `EnableBody(p)`: clear the pending bit, then set the enable bit (R176). -/
def enableBody (p : Nat) : M Status :=
  M.bind (locate p) fun found =>
    match found with
    | none => M.pure .notFound
    | some l =>
      M.bind (winWrite l.c.barno (bankOff l.c.isOff l.g.regNum) (bit l.o)) fun _ =>
        M.bind (winModify l.c.barno (bankOff l.c.ieOff l.g.regNum) fun v => v ||| bit l.o) fun _ => M.pure .ok

/-- `MaskBody(p, m)`: clear (m = 1) or set (m = 0) the enable bit; the pending bit is not touched (R178). -/
def maskBody (p : Nat) (m : Bool) : M Status :=
  M.bind (locate p) fun found =>
    match found with
    | none => M.pure .notFound
    | some l =>
      M.bind (winModify l.c.barno (bankOff l.c.ieOff l.g.regNum) fun v =>
          if m then v &&& ~~~(bit l.o) else v ||| bit l.o) fun _ => M.pure .ok

/-- `RegisterBody(p, owner, cb, ctx)` (R181). -/
def registerBody (p : Nat) (owner cb ctx : Token) : M Status :=
  M.bind (communityOf p) fun found =>
    match found with
    | none => M.pure .notFound
    | some _ =>
      M.bind (M.look fun s => (slotOf s p).valid) fun taken =>
        if taken then M.pure .alreadyRegistered
        else M.bind (M.update (setSlot p ⟨true, owner, cb, ctx⟩)) fun _ => M.pure .ok

/-- `UnregisterBody(p)`: mask first, then clear the slot and the recorded type (R183). -/
def unregisterBody (p : Nat) : M Status :=
  M.bind (maskBody p true) fun st =>
    if st = .notFound then M.pure .notFound
    else
      M.bind (M.update (setSlot p Slot.free)) fun _ =>
        M.bind (M.update (setTrig p 0)) fun _ => M.pure .ok

/-- One asserted bit of a dispatch pass: the callback if the pin's slot is valid, then the re-enable if its recorded type is a
level type (R186, R188). The value is the number of callbacks so far. -/
def dispatchPin (p : Nat) (n : Nat) : M Nat :=
  M.bind (M.look fun s => slotOf s p) fun sl =>
    M.bind (if sl.valid then M.update (emitCallback sl p) else M.pure ()) fun _ =>
      M.bind (readTrig p) fun t =>
        M.bind (M.look fun s => isLevel s.cfg t) fun level =>
          M.bind (if level then M.bind (enableBody p) fun _ => M.pure () else M.pure ()) fun _ =>
            M.pure (if sl.valid then n + 1 else n)

/-- One pad group of a dispatch pass: pending word, enable word, then the bits of the group ascending; bits at and above the
group's size belong to no pin (R186, R187). -/
def dispatchGroup (c : Community) (g : Group) (n : Nat) : M Nat :=
  M.bind (winRead c.barno (bankOff c.isOff g.regNum)) fun pend =>
    M.bind (winRead c.barno (bankOff c.ieOff g.regNum)) fun en =>
      M.fold (List.range g.size) n fun k i =>
        M.bind (M.stand (.atItem i)) fun _ =>
          if (pend &&& en).getLsbD i then dispatchPin (g.base + i) k else M.pure k

/-- `DispatchBody` (R186): communities ascending, groups ascending (R254). -/
def dispatchBody : M Response :=
  M.bind (M.stand .nextLoop) fun _ =>
    M.bind (M.look fun s => s.topo) fun topo =>
      M.bind (M.fold topo.zipIdx 0 fun n c =>
          M.bind (M.stand (.atCommunity c.2)) fun _ =>
            M.fold c.1.groups.zipIdx n fun k g =>
              M.bind (M.stand (.atGroup g.2)) fun _ => dispatchGroup c.1 g.1 k) fun n =>
        M.pure ⟨.ok, 0, 0, fieldOf 32 n⟩

/-- A notification is taken (R46). -/
def takePass (s : State) : State := { s with irqNotif := s.irqNotif - 1, seq := .running .pass .start }

/-- The dispatch pass of one notification (R46, R186): the body of DISPATCH once, with no packet, no response and no lifecycle
check (R12), so also for a notification still counted when STOP has run. -/
def runPass (s : State) : State := endPass (dispatchBody (takePass s))

/-- SETTRIG (R173). -/
def execSettrig (pin : PinNum) (t : BitVec 8) (s : State) : Host.Outcome State Fault Refusal :=
  perform (.settrig pin t) (statusOnly (setTrigBody pin.toNat t)) s

/-- ENABLE (R176). -/
def execEnable (pin : PinNum) (s : State) : Host.Outcome State Fault Refusal :=
  perform (.enable pin) (statusOnly (enableBody pin.toNat)) s

/-- MASKUNMASK: bit 0 of the selector is the mask (R92, R178). -/
def execMaskunmask (pin : PinNum) (sel : BitVec 8) (s : State) : Host.Outcome State Fault Refusal :=
  perform (.maskunmask pin sel) (statusOnly (maskBody pin.toNat (sel.getLsbD 0))) s

/-- REGISTER (R181). -/
def execRegister (pin : PinNum) (owner cb ctx : Token) (s : State) : Host.Outcome State Fault Refusal :=
  perform (.register pin owner cb ctx) (statusOnly (registerBody pin.toNat owner cb ctx)) s

/-- UNREGISTER (R183). -/
def execUnregister (pin : PinNum) (s : State) : Host.Outcome State Fault Refusal :=
  perform (.unregister pin) (statusOnly (unregisterBody pin.toNat)) s

/-- DISPATCH (R186). -/
def execDispatch (s : State) : Host.Outcome State Fault Refusal := perform .dispatch dispatchBody s

end Sys2Proof.Machine
end

