-- ==== Sys2Proof/Machine/Logical.lean ====
section
/-! DEFINITION. The interrupt router on logical pins: GETTYPE, REGINT, UNREGINT, ENINT, DISINT, SETTYPEINT (42_interrupt.md
R191 to R197). -/

namespace Sys2Proof.Machine

/-- Translate the logical pin, then run the body on the hardware pin and return its result (R197). -/
def onLogical (lp : Nat) (body : Nat → M Response) : M Response :=
  M.bind (translatePin lp) fun found =>
    match found with
    | none => M.pure (Response.of .notFound)
    | some p => body p

/-- The body of GETTYPE on a hardware pin: the recorded type, zero-extended (R191). -/
def getTypeBody (p : Nat) : M Response :=
  M.bind (readTrig p) fun t => M.pure ⟨.ok, 0, 0, t.setWidth 32⟩

/-- GETTYPE (R191). -/
def execGettype (pin : PinNum) (s : State) : Host.Outcome State Fault Refusal :=
  perform (.gettype pin) (onLogical pin.toNat getTypeBody) s

/-- REGINT (R192). -/
def execRegint (pin : PinNum) (owner cb ctx : Token) (s : State) : Host.Outcome State Fault Refusal :=
  perform (.regint pin owner cb ctx) (onLogical pin.toNat fun p => statusOnly (registerBody p owner cb ctx)) s

/-- UNREGINT (R193). -/
def execUnregint (pin : PinNum) (s : State) : Host.Outcome State Fault Refusal :=
  perform (.unregint pin) (onLogical pin.toNat fun p => statusOnly (unregisterBody p)) s

/-- ENINT (R194). -/
def execEnint (pin : PinNum) (s : State) : Host.Outcome State Fault Refusal :=
  perform (.enint pin) (onLogical pin.toNat fun p => statusOnly (enableBody p)) s

/-- DISINT (R195). -/
def execDisint (pin : PinNum) (s : State) : Host.Outcome State Fault Refusal :=
  perform (.disint pin) (onLogical pin.toNat fun p => statusOnly (maskBody p true)) s

/-- SETTYPEINT (R196). -/
def execSettypeint (pin : PinNum) (t : BitVec 8) (s : State) : Host.Outcome State Fault Refusal :=
  perform (.settypeint pin t) (onLogical pin.toNat fun p => statusOnly (setTrigBody p t)) s

end Sys2Proof.Machine
end

