-- ==== Sys2Proof/Machine/Context.lean ====
section
/-! DEFINITION. The power context engine: CTXINIT, CTXSUSPEND, CTXRESUME, CTXRELEASE, PWROFF, PWRON (43_context.md R210 to
R221). -/

namespace Sys2Proof.Machine

/-! ## Sweeps (R210) -/

/-- For every community ascending and every pin of its range ascending (R210). -/
def eachPin (f : Community → Nat → M Unit) : M Unit :=
  M.bind (M.stand .nextLoop) fun _ =>
    M.bind (M.look fun s => s.topo) fun topo =>
      M.each topo.zipIdx fun c =>
        M.bind (M.stand (.atCommunity c.2)) fun _ =>
          M.each c.1.pins fun p => M.bind (M.stand (.atItem p)) fun _ => f c.1 p

/-- For every community ascending and every group ascending, with their indexes (R210). -/
def eachGroup (f : Nat → Community → Nat → Group → M Unit) : M Unit :=
  M.bind (M.stand .nextLoop) fun _ =>
    M.bind (M.look fun s => s.topo) fun topo =>
      M.each topo.zipIdx fun c =>
        M.bind (M.stand (.atCommunity c.2)) fun _ =>
          M.each c.1.groups.zipIdx fun g => M.bind (M.stand (.atGroup g.2)) fun _ => f c.2 c.1 g.2 g.1

/-- For every pin whose slot is valid when the sweep reaches it. -/
def eachRegistered (f : Nat → M Unit) : M Unit :=
  eachPin fun _ p => M.bind (M.look fun s => (slotOf s p).valid) fun v => if v then f p else M.pure ()

/-! ## Shadow tables (R30, R31) -/

/-- `pads[p]`; a pin outside the domain holds no snapshot (log 15). -/
def padOf (s : State) (p : Nat) : Pad := (tableGet s.pads p).getD Pad.zero

/-- Change the shadow entry of pin `p`. -/
def setPad (p : Nat) (f : Pad → Pad) (s : State) : State := { s with pads := tableSet s.pads p (f (padOf s p)) }

/-- `ie_shadow[ci][gi]` (R31); where no such word exists, a free value (log 15). -/
def shadowOf (s : State) (ci gi : Nat) : Word :=
  match s.ieShadow[ci]? with
  | none => Config.absentShadow ci gi
  | some row => row[gi]?.getD (Config.absentShadow ci gi)

/-- `ie_shadow[ci][gi] <- v`. -/
def setShadow (ci gi : Nat) (v : Word) (s : State) : State :=
  { s with ieShadow := s.ieShadow.modify ci fun row => row.set gi v }

/-! ## Allocation (R211, R218) -/

/-- `CtxInitBody` (R211). -/
def ctxInitBody (s : State) : State :=
  { s with pads := tableInit (pinsOf s.topo) Pad.zero
           ieShadow := s.topo.map fun c => c.groups.map fun _ => 0
           cs := .idle }

/-- `CtxReleaseBody` (R218). -/
def ctxReleaseBody (s : State) : State := { s with pads := [], ieShadow := [], cs := .none }

/-! ## Suspend (R212 to R214) -/

/-- `Capturable(p)`: host-owned, not locked, registered; evaluated in that order, stopping at the first false term (R213). -/
def capturable (p : Nat) : M Bool :=
  M.bind (hostOwned p) fun owned =>
    if owned then
      M.bind (lockedPin p) fun locked =>
        if locked then M.pure false else M.look fun s => (slotOf s p).valid
    else M.pure false

/-- The snapshot of one pin's configuration registers (R212, R214). -/
def capturePin (c : Community) (p : Nat) : M Unit :=
  M.bind (capturable p) fun k =>
    M.bind (M.update (setPad p fun e => { e with captured := k })) fun _ =>
      if k then
        M.bind (winRead c.barno (cfg0Off c p)) fun v0 =>
          M.bind (M.update fun s => setPad p (fun e => { e with cfg0 := clearRxState s.cfg v0 }) s) fun _ =>
            M.bind (winRead c.barno (cfg1Off c p)) fun v1 =>
              M.bind (M.update (setPad p fun e => { e with cfg1 := v1 })) fun _ =>
                match cfgOff c p 2 with
                | none => M.pure ()
                | some a2 =>
                  M.bind (winRead c.barno a2) fun v2 => M.update (setPad p fun e => { e with cfg2 := v2 })
      else M.pure ()

/-- The snapshot of one group's enable-mask word (R212). -/
def captureGroup (ci : Nat) (c : Community) (gi : Nat) (g : Group) : M Unit :=
  M.bind (winRead c.barno (bankOff c.ieOff g.regNum)) fun v => M.update (setShadow ci gi v)

/-- `CtxSuspendBody` (R212). -/
def ctxSuspendBody : M Unit :=
  M.bind (eachPin capturePin) fun _ =>
    M.bind (eachGroup captureGroup) fun _ => M.update fun s => { s with cs := .saved }

/-! ## Resume (R215, R216) -/

/-- Step 1 for one group: mask, then clear every pending bit (R215). -/
def baselineGroup (_ci : Nat) (c : Community) (_gi : Nat) (g : Group) : M Unit :=
  M.bind (winWrite c.barno (bankOff c.ieOff g.regNum) 0) fun _ =>
    winWrite c.barno (bankOff c.isOff g.regNum) 0xFFFFFFFF

/-- Step 2 for one register: write the shadow back only if the value just read differs from it. `clean` is what the value
read is compared after: PADCFG0 without its live-state bit, the others whole (R215, R216). -/
def restoreReg (w off : Nat) (clean : Word → Word) (sh : Word) : M Unit :=
  M.bind (winRead w off) fun cur => if clean cur = sh then M.pure () else winWrite w off sh

/-- Step 2 for one pin (R215). -/
def restorePin (c : Community) (p : Nat) : M Unit :=
  M.bind (M.look fun s => (s.cfg, padOf s p)) fun k =>
    if k.2.captured then
      M.bind (restoreReg c.barno (cfg0Off c p) (clearRxState k.1) k.2.cfg0) fun _ =>
        M.bind (restoreReg c.barno (cfg1Off c p) id k.2.cfg1) fun _ =>
          match cfgOff c p 2 with
          | none => M.pure ()
          | some a2 => restoreReg c.barno a2 id k.2.cfg2
    else M.pure ()

/-- Step 3 for one group: the captured enable-mask word, unconditionally (R215). -/
def restoreGroup (ci : Nat) (c : Community) (gi : Nat) (g : Group) : M Unit :=
  M.bind (M.look fun s => shadowOf s ci gi) fun v => winWrite c.barno (bankOff c.ieOff g.regNum) v

/-- `CtxResumeBody` (R215). -/
def ctxResumeBody : M Unit :=
  M.bind (eachGroup baselineGroup) fun _ =>
    M.bind (eachPin restorePin) fun _ =>
      M.bind (eachGroup restoreGroup) fun _ => M.update fun s => { s with cs := .idle }

/-! ## Power notifications (R219, R220, R221) -/

/-- Log a sub-operation's refusal; the composite operation goes on (R221). -/
def logRefusal (p : Nat) (st : Status) : M Unit := if st = .ok then M.pure () else M.update (logErr st p)

/-- PWROFF for one registered pin: mask it (R219). -/
def powerOffPin (p : Nat) : M Unit := M.bind (maskBody p true) (logRefusal p)

/-- PWRON for one registered pin: its recorded type again, then enable; a pin that SETTRIG refuses is not enabled (R220). -/
def powerOnPin (p : Nat) : M Unit :=
  M.bind (readTrig p) fun t =>
    M.bind (setTrigBody p t) fun st =>
      if st = .ok then M.bind (enableBody p) (logRefusal p) else M.update (logErr st p)

/-- The response of an operation that ran to its end with nothing to report (R12). -/
def done (m : M Unit) : M Response := M.bind m fun _ => M.pure (Response.of .ok)

/-- CTXINIT (R211). -/
def execCtxinit (s : State) : Host.Outcome State Fault Refusal := perform .ctxinit (done (M.update ctxInitBody)) s

/-- CTXSUSPEND (R212). -/
def execCtxsuspend (s : State) : Host.Outcome State Fault Refusal := perform .ctxsuspend (done ctxSuspendBody) s

/-- CTXRESUME (R215). -/
def execCtxresume (s : State) : Host.Outcome State Fault Refusal := perform .ctxresume (done ctxResumeBody) s

/-- CTXRELEASE (R218). -/
def execCtxrelease (s : State) : Host.Outcome State Fault Refusal :=
  perform .ctxrelease (done (M.update ctxReleaseBody)) s

/-- PWROFF (R219). -/
def execPwroff (s : State) : Host.Outcome State Fault Refusal :=
  perform .pwroff (done (M.bind (eachRegistered powerOffPin) fun _ => ctxSuspendBody)) s

/-- PWRON (R220). The resume body sets CS_IDLE before the re-arming sweep, so a BusError in that sweep leaves CS_IDLE, as the
pseudocode has it; that R66's transitions made last do not take this one back is the model's choice (log 21). -/
def execPwron (s : State) : Host.Outcome State Fault Refusal :=
  perform .pwron (done (M.bind ctxResumeBody fun _ => eachRegistered powerOnPin)) s

end Sys2Proof.Machine
end

