-- ==== Sys2Proof/Machine/Topology.lean ====
section
/-! DEFINITION. Topology and control: BUILD, START, STOP, RESCOM, RESGRP, REGOFF, MAPPIN, GETSTATUS (40_topology.md R121 to
R130). -/

namespace Sys2Proof.Machine

/-- The body of BUILD (R121, R122). -/
def buildBody : M Response := fun s =>
  match buildTopo s.cfg.desc with
  | none => .ok (Response.of .invalidTopology) s
  | some t => .ok (Response.of .ok) { s with topo := t, lc := .built }

/-- The PADBASE words of the communities from index `ci` on, in order; none when a community names a window that does not exist
(R124). -/
def readPadBases (ci : Nat) (cs : List Community) : M (Option (List Word)) :=
  match cs with
  | [] => M.pure (some [])
  | c :: rest =>
    M.bind (M.stand (.atCommunity ci)) fun _ =>
      M.bind (M.look fun s => s.cfg) fun cfg =>
        if c.barno < cfg.nwin then
          M.bind (winRead c.barno cfg.padbaseOffset) fun v =>
            M.bind (readPadBases (ci + 1) rest) fun vs => M.pure (vs.map fun l => v :: l)
        else M.pure none

/-- The pins and the groups of the topology fit the tables (R124). -/
def tablesFit (cfg : Params) (topo : List Community) : Bool :=
  decide ((topo.map Community.npins).sum ≤ cfg.maxPins) &&
    decide ((topo.map fun c => c.groups.length).sum ≤ cfg.maxGroups)

/-- The tables that START clears, with the configuration-array bases `bases` (R124). -/
def startTables (bases : List Word) (s : State) : State :=
  { s with topo := List.zipWith (fun c v => { c with padRegsOff := some v }) s.topo bases
           slots := tableInit (pinsOf s.topo) Slot.free
           trig := tableInit (pinsOf s.topo) 0 }

/-- The body of START (R124). -/
def startBody : M Response :=
  M.bind (M.stand .nextLoop) fun _ =>
    M.bind (M.look fun s => s.topo) fun topo =>
      M.bind (readPadBases 0 topo) fun found =>
        match found with
        | none => M.pure (Response.of .resourceFailure)
        | some bases =>
          M.bind (M.look fun s => tablesFit s.cfg topo) fun fits =>
            if fits then
              M.bind (M.update (startTables bases)) fun _ =>
                M.bind (M.update ctxInitBody) fun _ =>
                  M.bind (M.update fun s => { s with lc := .started }) fun _ => M.pure (Response.of .ok)
            else M.pure (Response.of .resourceFailure)

/-- The tables that STOP empties, the configuration-array bases it forgets, and `lc` (R125). -/
def stopTables (s : State) : State :=
  { s with slots := [], trig := [], topo := s.topo.map fun c => { c with padRegsOff := none }, lc := .built }

/-- The body of STOP (R125): every registered pin is masked and unregistered, a pin that cannot be located being logged and
skipped; then the shadow tables are released. -/
def stopBody : M Response :=
  M.bind (eachRegistered fun p => M.bind (unregisterBody p) fun _ => M.pure ()) fun _ =>
    M.bind (M.update fun s => if s.cs = .none then s else ctxReleaseBody s) fun _ =>
      M.bind (M.update stopTables) fun _ => M.pure (Response.of .ok)

/-- The body of RESCOM (R126). -/
def rescomBody (p : Nat) : M Response :=
  M.bind (communityOf p) fun found =>
    match found with
    | none => M.pure (Response.of .notFound)
    | some (ci, _) => M.pure ⟨.ok, fieldOf 8 ci, 0, 0⟩

/-- The body of RESGRP (R127): the pin need not lie in the community's range. -/
def resgrpBody (ci p : Nat) : M Response := fun s =>
  match s.topo[ci]? with
  | none => .ok (Response.of .notFound) (logErr .notFound p s)
  | some c =>
    match findGroup c p with
    | none => .ok (Response.of .notFound) (logErr .notFound p s)
    | some (gi, _) => .ok ⟨.ok, fieldOf 8 gi, 0, 0⟩ s

/-- The body of REGOFF (R128): NoRegister is not logged. -/
def regoffBody (p which : Nat) : M Response :=
  M.bind (communityOf p) fun found =>
    match found with
    | none => M.pure (Response.of .notFound)
    | some (_, c) =>
      match cfgOff c p which with
      | none => M.pure (Response.of .noRegister)
      | some off => M.pure ⟨.ok, fieldOf 8 c.barno, 0, fieldOf 32 off⟩

/-- The body of MAPPIN (R129). -/
def mappinBody (lp : Nat) : M Response :=
  M.bind (translatePin lp) fun found =>
    match found with
    | none => M.pure (Response.of .notFound)
    | some p => M.pure ⟨.ok, 0, 0, fieldOf 32 p⟩

/-- The response of GETSTATUS (R130). -/
def statusResponse (s : State) : Response :=
  ⟨.ok, BitVec.ofNat 8 (min s.irqNotif 255), s.errLastPin, statusWord s⟩

/-- BUILD (R121). -/
def execBuild (s : State) : Host.Outcome State Fault Refusal := perform .build buildBody s

/-- START (R124). -/
def execStart (s : State) : Host.Outcome State Fault Refusal := perform .start startBody s

/-- STOP (R125). -/
def execStop (s : State) : Host.Outcome State Fault Refusal := perform .stop stopBody s

/-- RESCOM (R126). -/
def execRescom (pin : PinNum) (s : State) : Host.Outcome State Fault Refusal :=
  perform (.rescom pin) (rescomBody pin.toNat) s

/-- RESGRP (R127). -/
def execResgrp (ci : BitVec 8) (pin : PinNum) (s : State) : Host.Outcome State Fault Refusal :=
  perform (.resgrp ci pin) (resgrpBody ci.toNat pin.toNat) s

/-- REGOFF (R128). -/
def execRegoff (pin : PinNum) (sel : BitVec 8) (s : State) : Host.Outcome State Fault Refusal :=
  perform (.regoff pin sel) (regoffBody pin.toNat sel.toNat) s

/-- MAPPIN (R129). -/
def execMappin (pin : PinNum) (s : State) : Host.Outcome State Fault Refusal :=
  perform (.mappin pin) (mappinBody pin.toNat) s

/-- GETSTATUS (R130). -/
def execGetstatus (s : State) : Host.Outcome State Fault Refusal :=
  perform .getstatus (M.look statusResponse) s

end Sys2Proof.Machine
end

