-- ==== Sys2Proof/Machine/Dispatch.lean ====
section
/-! DEFINITION. The meaning of every operation, one arm a constructor (30_encoding.md R96). -/

namespace Sys2Proof.Machine

def exec (i : Instr) (s : State) : Host.Outcome State Fault Refusal :=
  match i with
  | .build => Sys2Proof.Machine.execBuild s
  | .start => Sys2Proof.Machine.execStart s
  | .stop => Sys2Proof.Machine.execStop s
  | .rescom pin => Sys2Proof.Machine.execRescom pin s
  | .resgrp ci pin => Sys2Proof.Machine.execResgrp ci pin s
  | .regoff pin sel => Sys2Proof.Machine.execRegoff pin sel s
  | .mappin pin => Sys2Proof.Machine.execMappin pin s
  | .getstatus => Sys2Proof.Machine.execGetstatus s
  | .hostown pin => Sys2Proof.Machine.execHostown pin s
  | .gpiomode pin => Sys2Proof.Machine.execGpiomode pin s
  | .locked pin => Sys2Proof.Machine.execLocked pin s
  | .settrig pin t => Sys2Proof.Machine.execSettrig pin t s
  | .enable pin => Sys2Proof.Machine.execEnable pin s
  | .maskunmask pin sel => Sys2Proof.Machine.execMaskunmask pin sel s
  | .register pin owner cb ctx => Sys2Proof.Machine.execRegister pin owner cb ctx s
  | .unregister pin => Sys2Proof.Machine.execUnregister pin s
  | .dispatch => Sys2Proof.Machine.execDispatch s
  | .gettype pin => Sys2Proof.Machine.execGettype pin s
  | .regint pin owner cb ctx => Sys2Proof.Machine.execRegint pin owner cb ctx s
  | .unregint pin => Sys2Proof.Machine.execUnregint pin s
  | .enint pin => Sys2Proof.Machine.execEnint pin s
  | .disint pin => Sys2Proof.Machine.execDisint pin s
  | .settypeint pin t => Sys2Proof.Machine.execSettypeint pin t s
  | .ctxinit => Sys2Proof.Machine.execCtxinit s
  | .ctxsuspend => Sys2Proof.Machine.execCtxsuspend s
  | .ctxresume => Sys2Proof.Machine.execCtxresume s
  | .ctxrelease => Sys2Proof.Machine.execCtxrelease s
  | .pwroff => Sys2Proof.Machine.execPwroff s
  | .pwron => Sys2Proof.Machine.execPwron s

end Sys2Proof.Machine
end

