-- ==== Sys2Proof/Machine/Step.lean ====
section
/-! DEFINITION. One step: the sequencer, idle, takes one request and runs it to completion (60_exceptions.md R252). -/

namespace Sys2Proof.Machine

/-- The operation in the oldest packet of the command port (R90(1), R97). -/
def fetch (s : State) : Except Reject Instr :=
  match s.cmds with
  | [] => .error .unassignedOp
  | pkt :: _ => decode pkt

/-- One step: the outside agents move, the arbiter takes a request (R252), and it runs to completion: a dispatch pass (R46),
an operation, or the answer to an illegal packet (R97). With nothing waiting the VGC does nothing (R281). -/
def step (s : State) : Host.Outcome State Fault Refusal :=
  match s.seq with
  | .running _ _ => .fault .sequencerBusy
  | .idle =>
    match arbitrate (envTick s) with
    | (none, t) => .next t
    | (some .pass, t) => .next (runPass t)
    | (some .command, t) =>
      match fetch t with
      | .ok i => exec i t
      | .error _ => .next (runIllegal t)

/-- `s` with the packet of bits `w` (those above `nbits` zero) as the oldest packet of the command port and taken by the very
next step: the sequencer idle, no outside move before it, and the arbiter's choice, where there is one to make, on the command
(log 14). -/
def State.withFetchWord (s : State) (nbits w : Nat) : State :=
  { s with cmds := BitVec.ofNat 128 (w % 2 ^ nbits) :: s.cmds
           seq := .idle
           env := match s.env with
             | [] => []
             | batch :: rest => [] :: batch :: rest
           arb := if s.irqNotif = 0 then s.arb else .command :: s.arb }

end Sys2Proof.Machine
end

