-- ==== Sys2Proof/Safety.lean ====
section
/-! DEFINITION. The terms claims use: a quiet environment, the answer to a command, the registers an operation can reach, and
what the claims assume of a descriptor (00_scope.md R9) and of a state (10_state.md R20 to R31). -/

namespace Sys2Proof.Machine

/-! ## The environment a claim assumes (R77) -/

/-- No outside agent moves (R77: the empty `EnvStep`, and neither (a) nor (b)). -/
abbrev Quiet (s : State) : Prop := s.env = []

/-- The reset input is not asserted, whatever else the outside agents do. -/
abbrev NoReset (s : State) : Prop := ∀ batch ∈ s.env, EnvMove.reset ∉ batch

/-! ## The answer to a command (R240, R93) -/

/-- The state `s` after the command at the head of the command port was taken and answered, and nothing else. -/
def answer (s : State) (st : Status) (aux : BitVec 8) (val : Word) : State :=
  { s with cmds := s.cmds.tail, seq := .idle, resp := s.resp ++ [Response.pack ⟨st, aux, 0, val⟩] }

/-! ## Illegal packets by their fields (R91, R96, R97) -/

/-- The operation codes of format Z (R91, R96). -/
def codesZ : List (BitVec 8) := [0x01, 0x02, 0x03, 0x08, 0x25, 0x40, 0x41, 0x42, 0x43, 0x44, 0x45]

/-- The operation codes of format P (R91, R96). -/
def codesP : List (BitVec 8) := [0x04, 0x07, 0x10, 0x11, 0x12, 0x21, 0x24, 0x30, 0x32, 0x33, 0x34]

/-- The operation codes of format S (R91, R96). -/
def codesS : List (BitVec 8) := [0x05, 0x06, 0x20, 0x22, 0x35]

/-- The operation codes of format R (R91, R96). -/
def codesR : List (BitVec 8) := [0x23, 0x31]

/-- R97, condition by condition: an `op` outside the table, a nonzero field the format does not use, a REGOFF with `sel >= 3`, a
MASKUNMASK with `sel[7:1]` nonzero. -/
def IllegalPacket (w : Packet) : Prop :=
  w.extractLsb' 0 8 ∉ codesZ ++ codesP ++ codesS ++ codesR ∨
  (w.extractLsb' 0 8 ∈ codesZ ++ codesP ++ codesR ∧ w.extractLsb' 8 8 ≠ 0) ∨
  (w.extractLsb' 0 8 ∈ codesZ ∧ w.extractLsb' 16 16 ≠ 0) ∨
  (w.extractLsb' 0 8 ∈ codesZ ++ codesP ++ codesS ∧
    (w.extractLsb' 32 32 ≠ 0 ∨ w.extractLsb' 64 32 ≠ 0 ∨ w.extractLsb' 96 32 ≠ 0)) ∨
  (w.extractLsb' 0 8 = 0x06 ∧ 3 ≤ (w.extractLsb' 8 8).toNat) ∨
  (w.extractLsb' 0 8 = 0x22 ∧ w.extractLsb' 9 7 ≠ 0)

/-! ## Registers by class, as (window, offset) pairs (R33 to R41, R68 to R72) -/

/-- The pending-status word of a group. -/
def pendReg (c : Community) (g : Group) : Nat × Nat := (c.barno, bankOff c.isOff g.regNum)

/-- The enable-mask word of a group. -/
def enableReg (c : Community) (g : Group) : Nat × Nat := (c.barno, bankOff c.ieOff g.regNum)

/-- The pending-status words of a topology, in scan order (R254). -/
def pendRegs (topo : List Community) : List (Nat × Nat) := topo.flatMap fun c => c.groups.map (pendReg c)

/-- The enable-mask words of a topology, in scan order. -/
def enableRegs (topo : List Community) : List (Nat × Nat) := topo.flatMap fun c => c.groups.map (enableReg c)

/-- The configuration registers of a pin: PADCFG0, PADCFG1, and PADCFG2 in a community with debounce (R69). -/
def pinRegs (c : Community) (p : Nat) : List (Nat × Nat) :=
  (c.barno, cfg0Off c p) :: (c.barno, cfg1Off c p) ::
    match cfgOff c p 2 with
    | none => []
    | some a => [(c.barno, a)]

/-- The configuration registers of a topology. -/
def configRegs (topo : List Community) : List (Nat × Nat) := topo.flatMap fun c => c.pins.flatMap (pinRegs c)

/-- The words the guard reads for a pin of group `g` (R70 to R72). -/
def guardRegsOf (cfg : Params) (c : Community) (p : Nat) (g : Group) : List (Nat × Nat) :=
  (match c.ownOff with | none => [] | some b => [(c.barno, ownOff b g (p - g.base))]) ++
  (match c.hostmodeOff with | none => [] | some b => [(c.barno, bankOff b g.regNum)]) ++
  (match c.lockOff with | none => [] | some b => [(c.barno, lockOff cfg b g), (c.barno, lockTxOff cfg b g)])

/-- The words the guard reads for a pin. -/
def guardRegs (cfg : Params) (c : Community) (p : Nat) : List (Nat × Nat) :=
  match findGroup c p with
  | none => []
  | some (_, g) => guardRegsOf cfg c p g

/-- The words the guard reads for the pins of a topology. -/
def allGuardRegs (cfg : Params) (topo : List Community) : List (Nat × Nat) :=
  topo.flatMap fun c => c.pins.flatMap (guardRegs cfg c)

/-- Every word in the list passes the check of R66. -/
abbrev Reachable (cfg : Params) (l : List (Nat × Nat)) : Prop := ∀ x ∈ l, accessOk cfg x.1 x.2 = true

/-! ## What the claims assume of a descriptor (R9) -/

/-- R9(a), (b) of a topology: no pin lies in two communities, every pin of a community's range is found in that community and
in one of its groups, and every pin of a group is found there. -/
abbrev Tidy (topo : List Community) : Prop :=
  (pinsOf topo).Nodup ∧
  (∀ c ∈ topo, ∀ p ∈ c.pins,
    (findCommunity topo p).map Prod.snd = some c ∧ (findGroup c p).isSome = true) ∧
  ∀ c ∈ topo, ∀ g ∈ c.groups, ∀ i < g.size, findPin topo (g.base + i) = some ⟨c, g, i⟩

/-- R9(e) of a topology: the registers of different classes do not overlap; the pending-status words are those of DESC and no
register of another class is one. That no two groups share a bank word and no two pins a register is assumed beside R9, which
does not exclude two groups with one `reg_num`. -/
abbrev Separate (s : State) : Prop :=
  (pendRegs s.topo).Nodup ∧ (enableRegs s.topo).Nodup ∧ (configRegs s.topo).Nodup ∧
  (∀ x ∈ pendRegs s.topo, isPendingWord s.cfg x.1 x.2 = true) ∧
  (∀ x ∈ enableRegs s.topo ++ configRegs s.topo ++ allGuardRegs s.cfg s.topo, isPendingWord s.cfg x.1 x.2 = false) ∧
  (∀ x ∈ enableRegs s.topo, x ∉ configRegs s.topo ++ allGuardRegs s.cfg s.topo) ∧
  (∀ x ∈ configRegs s.topo, x ∉ allGuardRegs s.cfg s.topo)

/-- The bytes of two memories agree outside the words in the list. -/
def SameOutside (m m' : Memory) (l : List (Nat × Nat)) : Prop :=
  ∀ a, (∀ x ∈ l, a < winAddr x.1 x.2 ∨ winAddr x.1 x.2 + 4 ≤ a) → Memory.get m' a = Memory.get m a

/-! ## The guard's answers as facts of a state (R151, R154, R156) -/

/-- A located pin is host-owned (R151). -/
def isOwned (s : State) (c : Community) (g : Group) (p : Nat) : Bool :=
  match c.ownOff with
  | none => true
  | some b => ownSlot (winWord s.mem c.barno (ownOff b g (p - g.base))) (p - g.base) &&& s.cfg.ownTestMask = 0

/-- A located pin is in GPIO mode (R154). -/
def isUsable (s : State) (c : Community) (g : Group) (p : Nat) : Bool :=
  match c.hostmodeOff with
  | none => true
  | some b => !(winWord s.mem c.barno (bankOff b g.regNum)).getLsbD (p - g.base)

/-- A located pin is locked (R156). -/
def isLocked (s : State) (c : Community) (g : Group) (p : Nat) : Bool :=
  match c.lockOff with
  | none => false
  | some b =>
    (winWord s.mem c.barno (lockOff s.cfg b g)).getLsbD (p - g.base) ||
      (winWord s.mem c.barno (lockTxOff s.cfg b g)).getLsbD (p - g.base)

/-! ## Invariants -/

/-- The windows are in the canonical form (log 3). -/
abbrev MemoryCanonical (s : State) : Prop := s.mem.wf = true

/-- The tables agree with the lifecycle and the context state (R21 to R31): the topology is what BUILD makes of DESC, its
configuration-array bases are resolved exactly in LC_STARTED, and each table exists exactly when its rule says so, over
exactly its domain. -/
abbrev TablesAgree (s : State) : Prop :=
  (s.lc = .reset → s.topo = []) ∧
  (s.lc ≠ .reset → buildTopo s.cfg.desc = some (s.topo.map fun c => { c with padRegsOff := none })) ∧
  (s.lc = .started → (∀ c ∈ s.topo, c.padRegsOff.isSome = true) ∧
    s.slots.map Prod.fst = pinsOf s.topo ∧ s.trig.map Prod.fst = pinsOf s.topo ∧
    (s.topo.map Community.npins).sum ≤ s.cfg.maxPins ∧ (s.topo.map fun c => c.groups.length).sum ≤ s.cfg.maxGroups) ∧
  (s.lc ≠ .started → (∀ c ∈ s.topo, c.padRegsOff = none) ∧ s.slots = [] ∧ s.trig = [] ∧ s.cs = .none) ∧
  (s.cs = .none → s.pads = [] ∧ s.ieShadow = []) ∧
  (s.cs ≠ .none → s.pads.map Prod.fst = pinsOf s.topo ∧
    s.ieShadow.map List.length = s.topo.map fun c => c.groups.length)

/-- The shadow of PADCFG0 is stored without the live-state bit (R30, R214). -/
abbrev ShadowsClean (s : State) : Prop := ∀ e ∈ s.pads, e.2.cfg0.getLsbD s.cfg.rxStateBit.val = false

/-- An unregistered slot holds no tokens (R124, R183). -/
abbrev FreeSlotsEmpty (s : State) : Prop := ∀ e ∈ s.slots, e.2.valid = false → e.2 = Slot.free

end Sys2Proof.Machine
end

