-- ==== Sys2Proof/Certificates/Slice0/Obligations.lean ====
section
/-! DEFINITION. The statements for the provers. Each docstring names the rules of spec/ a statement rests on and, where a
clause is the model's choice, the log entry. `Quiet s` says that no outside agent moves (R77); a statement without it holds
whatever the outside agents do, save the reset input where `NoReset s` says so. -/

open Sys2Proof Sys2Proof.Machine

/-! ## Packets and steps -/

/-- R91, R92, R96: the packet of a well-formed operation decodes to it, with every operand. -/
def Obligations.DecodeOfEncodeIsTheInstruction : Prop :=
  ∀ i : Instr, i.wellFormed = true → decode (encode i) = .ok i

/-- R91, R96, R97, R98: a packet that decodes is the packet of the operation it decodes to, and that operation is well
formed; so no bit of a legal packet is ignored. -/
def Obligations.EncodeOfDecodeIsThePacket : Prop :=
  ∀ (w : Packet) (i : Instr), decode w = .ok i → i.wellFormed = true ∧ encode i = w

/-- R104 and the packets of 95_test_vectors.md: packets that the spec writes out, of the families topology and control, router on
hardware pins, router on logical pins and power context (the spec writes out none of the guard family), and of every format;
and four that it writes out as illegal. -/
def Obligations.SpecPacketsDecode : Prop :=
  decode 0x000000000000000000000000001E0820#128 = .ok (.settrig 30 0x08) ∧
  decode 0x000000C3000000B2000000A1002A0023#128 = .ok (.register 42 0xA1 0xB2 0xC3) ∧
  decode 0x000000C3000000B2000000A100660031#128 = .ok (.regint 102 0xA1 0xB2 0xC3) ∧
  decode 0x000000000000000000000000002A0004#128 = .ok (.rescom 42) ∧
  decode 0x00000000000000000000000000CF0C35#128 = .ok (.settypeint 207 0x0C) ∧
  decode 0x00000000000000000000000000000042#128 = .ok .ctxresume ∧
  decode 0x000000000000000000000000001E0306#128 = .error .badSelector ∧
  decode 0x000000000000000000000000002A0222#128 = .error .badSelector ∧
  decode 0x00000000000000000000000000010001#128 = .error .reservedField ∧
  decode 0x00000000000000000000000000000009#128 = .error .unassignedOp

/-- R98: every unassigned value of `op` is illegal, whatever the other fields hold; and no two packets decode to the same
operation, so no encoding is a hint or behaves as another. -/
def Obligations.UnassignedCodesAreIllegal : Prop :=
  (∀ w : Packet, ∀ op : Nat, op = (w.extractLsb' 0 8).toNat →
    (op = 0x00 ∨ (0x09 ≤ op ∧ op ≤ 0x0F) ∨ (0x13 ≤ op ∧ op ≤ 0x1F) ∨ (0x26 ≤ op ∧ op ≤ 0x2F) ∨
      (0x36 ≤ op ∧ op ≤ 0x3F) ∨ (0x46 ≤ op ∧ op ≤ 0xFF)) →
    IllegalPacket w ∧ decode w = .error .unassignedOp) ∧
  ∀ (w w' : Packet) (i : Instr), decode w = .ok i → decode w' = .ok i → w = w'

/-- R252, R90(1): when the arbiter takes the command port and the packet at its head decodes to `i`, the step is `exec i`, at the
state the outside agents' moves left; with a quiet environment and no notification waiting, at the state itself. -/
def Obligations.StepRunsTheDecodedInstruction : Prop :=
  ∀ (s t : State) (pkt : Packet) (rest : List Packet) (i : Instr),
    s.seq = .idle → decode pkt = .ok i →
    (arbitrate (envTick s) = (some .command, t) → t.cmds = pkt :: rest → step s = exec i t) ∧
    (Quiet s → s.irqNotif = 0 → s.cmds = pkt :: rest → step s = exec i s)

/-- R97: the decoder rejects a packet exactly when one of R97's conditions holds; a step that takes such a packet answers
IllegalCommand with `aux` = 0 and `val` = 0 and nothing else: no bus access, no change of state, no entry in the error log. -/
def Obligations.IllegalPacketsAreOnlyAnswered : Prop :=
  (∀ pkt : Packet, (∃ why, decode pkt = .error why) ↔ IllegalPacket pkt) ∧
  ∀ (s t : State) (pkt : Packet) (rest : List Packet), s.seq = .idle → IllegalPacket pkt →
    (arbitrate (envTick s) = (some .command, t) → t.cmds = pkt :: rest → step s = .next (answer t .illegalCommand 0 0)) ∧
    (Quiet s → s.irqNotif = 0 → s.cmds = pkt :: rest → step s = .next (answer s .illegalCommand 0 0))

/-- R252, R46, R281: with only a notification waiting it is served; with nothing waiting and no outside move the VGC does nothing;
when a packet and a notification both wait, one of the two is served and no third thing happens. That the choice is read from
`arb`, then from a free value, is the model's (log 9). -/
def Obligations.TheArbiterServesWhatWaits : Prop :=
  ∀ s : State, s.seq = .idle → Quiet s →
    (s.cmds = [] → s.irqNotif ≠ 0 → step s = .next (runPass s)) ∧
    (s.cmds = [] → s.irqNotif = 0 → step s = .next s) ∧
    ∀ (pkt : Packet) (rest : List Packet) (i : Instr), s.irqNotif ≠ 0 → s.cmds = pkt :: rest → decode pkt = .ok i →
      (∀ more, s.arb = .command :: more → step s = exec i { s with arb := more }) ∧
      (∀ more, s.arb = .pass :: more → step s = .next (runPass { s with arb := more })) ∧
      (s.arb = [] →
        step s = exec i { s with free := s.free + 1 } ∨ step s = .next (runPass { s with free := s.free + 1 }))

/-- R46: a notification is counted in LC_STARTED, up to the bound of an implementation that has one, and dropped otherwise. -/
def Obligations.NotificationsCountOnlyWhenStarted : Prop :=
  ∀ s : State,
    (s.lc ≠ .started → envMove s .notify = s) ∧
    (s.lc = .started → s.cfg.irqMax = none → envMove s .notify = { s with irqNotif := s.irqNotif + 1 }) ∧
    (∀ m, s.lc = .started → s.cfg.irqMax = some m → s.irqNotif < m →
      envMove s .notify = { s with irqNotif := s.irqNotif + 1 }) ∧
    (∀ m, s.lc = .started → s.cfg.irqMax = some m → m ≤ s.irqNotif → envMove s .notify = s)

/-- R186, R46: in LC_STARTED the pass of a notification does exactly what DISPATCH does, but takes one notification instead of
a packet and produces no response packet. -/
def Obligations.PassIsDispatchWithoutAResponse : Prop :=
  ∀ s t : State, s.lc = .started → Quiet s → exec .dispatch s = .next t →
    runPass s = { t with irqNotif := s.irqNotif - 1, cmds := s.cmds, resp := s.resp }

/-! ## Reset -/

/-- R50, R280: the reset input gives every piece of state its reset value, empties the ports, discards the packets waiting,
leaves the windows and the parameters alone; `State.reset` has the same values. -/
def Obligations.ResetInputGivesResetValues : Prop :=
  ∀ s : State, ∀ t ∈ [resetInput s, State.reset],
    t.lc = .reset ∧ t.topo = [] ∧ t.slots = [] ∧ t.trig = [] ∧ t.cs = .none ∧ t.pads = [] ∧ t.ieShadow = [] ∧
    t.busFault = false ∧ t.errCount = 0 ∧ t.errLastCode = 0 ∧ t.errLastPin = 0 ∧ t.irqNotif = 0 ∧ t.seq = .idle ∧
    t.resp = [] ∧ t.calls = [] ∧ t.cmds = [] ∧ (t = resetInput s → t.mem = s.mem ∧ t.cfg = s.cfg)

/-- R280: the reset input asserted between the first and the second bus access of an ENABLE abandons it there: the pending bit
is cleared, the enable word is not touched, there is no response packet, and the VGC is in its reset state. -/
def Obligations.ResetAbandonsEnableBetweenAccesses : Prop :=
  ∀ (s : State) (pin : PinNum) (l : Location),
    s.lc = .started → s.env = [[], [.reset]] → s.mem.wf = true → findPin s.topo pin.toNat = some l →
    accessOk s.cfg l.c.barno (bankOff l.c.isOff l.g.regNum) = true →
    accessOk s.cfg l.c.barno (bankOff l.c.ieOff l.g.regNum) = true →
    isPendingWord s.cfg l.c.barno (bankOff l.c.isOff l.g.regNum) = true →
    ∃ m, exec (.enable pin) s =
        .next { State.resetOf s.cfg with
                  mem := m, bus := s.bus ++ [.write l.c.barno (bankOff l.c.isOff l.g.regNum) (bit l.o)],
                  arb := s.arb, free := s.free } ∧
      winWord m l.c.barno (bankOff l.c.isOff l.g.regNum) =
        winWord s.mem l.c.barno (bankOff l.c.isOff l.g.regNum) &&& ~~~(bit l.o) ∧
      SameOutside s.mem m [pendReg l.c l.g]

/-! ## Legality, responses, the log -/

/-- R99: an operation whose `lc` or `cs` is outside its row is refused with StateRefused, with no bus access, no change of
state and nothing in the error log; `cs` is CS_NONE in LC_RESET and LC_BUILT, by the invariant. -/
def Obligations.OutOfStateOperationsAreRefused : Prop :=
  ∀ (s : State) (pin : PinNum) (b : BitVec 8) (m : Bool) (owner cb ctx : Token),
    (s.lc ≠ .reset → exec .build s = .next (answer s .stateRefused 0 0)) ∧
    (s.lc ≠ .built → exec .start s = .next (answer s .stateRefused 0 0)) ∧
    (s.lc = .reset → ∀ i ∈ [Instr.rescom pin, .resgrp b pin, .mappin pin],
      exec i s = .next (answer s .stateRefused 0 0)) ∧
    (s.lc ≠ .started →
      ∀ i ∈ [Instr.stop, .regoff pin 0, .regoff pin 1, .regoff pin 2, .hostown pin, .gpiomode pin, .locked pin,
          .settrig pin b, .enable pin, .maskunmask pin (if m then 1 else 0), .register pin owner cb ctx, .unregister pin,
          .dispatch, .gettype pin, .regint pin owner cb ctx, .unregint pin, .enint pin, .disint pin, .settypeint pin b,
          .ctxinit, .ctxsuspend, .ctxresume, .ctxrelease, .pwroff, .pwron],
        exec i s = .next (answer s .stateRefused 0 0)) ∧
    (s.cs ≠ .none → exec .ctxinit s = .next (answer s .stateRefused 0 0)) ∧
    (s.cs = .none → ∀ i ∈ [Instr.ctxsuspend, .pwroff, .ctxrelease], exec i s = .next (answer s .stateRefused 0 0)) ∧
    (s.cs ≠ .saved → ∀ i ∈ [Instr.ctxresume, .pwron], exec i s = .next (answer s .stateRefused 0 0)) ∧
    (TablesAgree s → s.lc ≠ .started → s.cs = .none)

/-- R97, R100: a REGOFF or MASKUNMASK term whose selector no legal packet carries is answered IllegalCommand in every state;
that `exec` answers such a term at all is the model's choice (log 16). -/
def Obligations.BadSelectorsAreIllegal : Prop :=
  ∀ (s : State) (pin : PinNum) (sel : BitVec 8),
    (3 ≤ sel.toNat → exec (.regoff pin sel) s = .next (answer s .illegalCommand 0 0)) ∧
    (2 ≤ sel.toNat → exec (.maskunmask pin sel) s = .next (answer s .illegalCommand 0 0))

/-- R240: every command produces exactly one response packet, whatever it is and whatever the outside agents do, the reset
input apart; and the sequencer is idle again. -/
def Obligations.EveryCommandGetsOneResponse : Prop :=
  ∀ (i : Instr) (s t : State), NoReset s → exec i s = .next t →
    t.seq = .idle ∧ ∃ r : Response, t.resp = s.resp ++ [r.pack]

/-- R93, R94: where the fields of a response packet and of a callback packet lie. -/
def Obligations.PortPacketsHaveTheirLayout : Prop :=
  (∀ r : Response, r.pack.extractLsb' 0 8 = r.status.code ∧ r.pack.extractLsb' 8 8 = r.aux ∧
    r.pack.extractLsb' 16 16 = r.pinf ∧ r.pack.extractLsb' 32 32 = r.val) ∧
  (∀ (sl : Slot) (p : Nat), p < 2 ^ 16 →
    (callbackPacket sl p).extractLsb' 0 32 = sl.owner ∧ (callbackPacket sl p).extractLsb' 32 32 = sl.cb ∧
    (callbackPacket sl p).extractLsb' 64 32 = sl.ctx ∧ ((callbackPacket sl p).extractLsb' 96 16).toNat = p ∧
    (callbackPacket sl p).extractLsb' 112 16 = 0)

/-- R44: `LogErr(S, p)` counts up to 0xFFFF and stays there, records the code and the pin, and changes nothing else. -/
def Obligations.ErrorLogSaturates : Prop :=
  ∀ (s : State) (st : Status) (p : Nat), p < 2 ^ 16 →
    (logErr st p s).errCount.toNat = min (s.errCount.toNat + 1) 0xFFFF ∧
    (logErr st p s).errLastCode = st.code ∧ (logErr st p s).errLastPin.toNat = p ∧
    logErr st p s = { s with errCount := (logErr st p s).errCount, errLastCode := (logErr st p s).errLastCode,
                             errLastPin := (logErr st p s).errLastPin }

/-- R66, R43: what the check before every access tests; an access that fails it ends the operation with BusError, sets
`bus_fault`, puts nothing on the bus and leaves the windows alone. So it goes for the first access of ENABLE and of SETTRIG; where
ENABLE's second access fails, its first stays made. -/
def Obligations.FailedCheckIsABusError : Prop :=
  ∀ (s : State) (w off : Nat) (v : Word),
    (accessOk s.cfg w off = true ↔ ∃ n, s.cfg.winSize[w]? = some n ∧ off % 4 = 0 ∧ off + 4 ≤ n.toNat) ∧
    (accessOk s.cfg w off = false →
      winRead w off s = .raised .busError { s with busFault := true } ∧
      winWrite w off v s = .raised .busError { s with busFault := true } ∧
      (∀ (pin : PinNum) (l : Location), s.lc = .started → findPin s.topo pin.toNat = some l → pendReg l.c l.g = (w, off) →
        exec (.enable pin) s = .next { answer s .busError 0 0 with busFault := true }) ∧
      (∀ (pin : PinNum) (l : Location) (off' : Nat), s.lc = .started → Quiet s → s.mem.wf = true →
        findPin s.topo pin.toNat = some l → pendReg l.c l.g = (w, off') → accessOk s.cfg w off' = true →
        isPendingWord s.cfg w off' = true → enableReg l.c l.g = (w, off) →
        ∃ m, exec (.enable pin) s = .next { answer s .busError 0 0 with
            busFault := true
            mem := m
            bus := s.bus ++ [.write w off' (bit l.o)] } ∧
          winWord m w off' = winWord s.mem w off' &&& ~~~(bit l.o) ∧ SameOutside s.mem m [(w, off')]) ∧
      (∀ (pin : PinNum) (t : BitVec 8) (ci : Nat) (c : Community), s.lc = .started →
        findCommunity s.topo pin.toNat = some (ci, c) → c.hostmodeOff = none → (c.barno, cfg0Off c pin.toNat) = (w, off) →
        exec (.settrig pin t) s = .next { answer s .busError 0 0 with busFault := true }))

/-- R62, R63, R76, R75: with no outside move, a write clears the bits written 1 of a pending-status word and replaces any other
word; every other word and byte stays; a read puts the word on the bus and changes nothing else. R76 lets the pad keep the
live-state bit of PADCFG0 whatever is written: that the write replaces that bit too, what the pad does being an outside move,
is the model's choice (log 6). -/
def Obligations.WritesFollowThePadRule : Prop :=
  ∀ (s : State) (w off : Nat) (v : Word), Quiet s → s.mem.wf = true → accessOk s.cfg w off = true →
    winRead w off s =
      .ok (winWord s.mem w off) { s with bus := s.bus ++ [.read w off (winWord s.mem w off)], seq := s.seq.advance } ∧
    ∃ m, winWrite w off v s = .ok () { s with mem := m, bus := s.bus ++ [.write w off v], seq := s.seq.advance } ∧
      m.wf = true ∧
      winWord m w off = (if isPendingWord s.cfg w off then winWord s.mem w off &&& ~~~v else v) ∧
      (∀ w' off', accessOk s.cfg w' off' = true → (w', off') ≠ (w, off) → winWord m w' off' = winWord s.mem w' off') ∧
      SameOutside s.mem m [(w, off)]

/-! ## Topology and control -/

/-- R121, R122: BUILD keeps the topology it makes and goes to LC_BUILT; a group of more than 32 pins leaves everything as it was,
with InvalidTopology. -/
def Obligations.BuildKeepsAValidTopology : Prop :=
  ∀ s : State, s.lc = .reset →
    (∀ topo, buildTopo s.cfg.desc = some topo →
      exec .build s = .next { answer s .ok 0 0 with topo := topo, lc := .built }) ∧
    ((∃ d ∈ s.cfg.desc, ∃ g ∈ groupsOf d, 32 < g.size) → exec .build s = .next (answer s .invalidTopology 0 0))

/-- R121, R123: the topology that BUILD makes copies every descriptor in order, its groups in order, and numbers each group's
ownership words by the increments of the groups before it; every group has at most 32 pins. -/
def Obligations.BuiltTopologyCopiesTheDescriptors : Prop :=
  ∀ (ds : List CommunityDesc) (topo : List Community), buildTopo ds = some topo →
    topo.length = ds.length ∧
    ∀ (ci : Nat) (d : CommunityDesc) (c : Community), ds[ci]? = some d → topo[ci]? = some c →
      (c.barno = d.barno ∧ c.ownOff = d.ownOff ∧ c.lockOff = d.lockOff ∧ c.hostmodeOff = d.hostmodeOff ∧
        c.ieOff = d.ieOff ∧ c.isOff = d.isOff ∧ c.featDebounce = d.featDebounce ∧ c.featAltpd = d.featAltpd ∧
        c.pinBase = d.pinBase ∧ c.npins = d.npins ∧ c.ownFixed = d.ownFixed ∧ c.padRegsOff = none) ∧
      c.groups.length = (groupsOf d).length ∧
      ∀ (gi : Nat) (gd : GroupDesc) (g : Group), (groupsOf d)[gi]? = some gd → c.groups[gi]? = some g →
        g.regNum = gd.regNum ∧ g.base = gd.base ∧ g.size = gd.size ∧ g.gpioBase = gd.gpioBase ∧ g.size ≤ 32 ∧
        g.ownWord = (((groupsOf d).take gi).map fun x =>
          match d.ownFixed with | some f => f | none => (x.size * 4 + 31) / 32).sum

/-- R121: groups synthesized with a nominal size of at least 1 consume the community's pins left to right, each of the nominal
size but the last, which is capped at the remainder; their logical base is their hardware base. Explicit groups are copied. -/
def Obligations.SynthesizedGroupsCoverTheRange : Prop :=
  ∀ d : CommunityDesc,
    (∀ l, d.gpps = some l → groupsOf d = l) ∧
    (d.gpps = none → 1 ≤ d.gppSize →
      (∀ (i : Nat) (g : GroupDesc), (groupsOf d)[i]? = some g →
        g.regNum = i ∧ g.base = d.pinBase + i * d.gppSize ∧ g.gpioBase = g.base ∧ 1 ≤ g.size ∧ g.size ≤ d.gppSize ∧
        (i + 1 < (groupsOf d).length → g.size = d.gppSize)) ∧
      ((groupsOf d).map GroupDesc.size).sum = d.npins ∧
      ∀ p, (d.pinBase ≤ p ∧ p < d.pinBase + d.npins) ↔ ∃ g ∈ groupsOf d, g.base ≤ p ∧ p < g.base + g.size)

/-- R124, R211: START reads one PADBASE word per community in order, takes it as the configuration-array base, clears every slot
and recorded type, allocates zeroed shadow tables and goes to LC_STARTED; it writes no register. -/
def Obligations.StartResolvesAndClears : Prop :=
  ∀ s : State, s.lc = .built → Quiet s →
    (∀ c ∈ s.topo, accessOk s.cfg c.barno s.cfg.padbaseOffset = true) →
    (s.topo.map Community.npins).sum ≤ s.cfg.maxPins → (s.topo.map fun c => c.groups.length).sum ≤ s.cfg.maxGroups →
    exec .start s = .next { answer s .ok 0 0 with
      lc := .started
      cs := .idle
      topo := s.topo.map fun c => { c with padRegsOff := some (winWord s.mem c.barno s.cfg.padbaseOffset) }
      slots := (pinsOf s.topo).map fun p => (p, ⟨false, 0, 0, 0⟩)
      trig := (pinsOf s.topo).map fun p => (p, 0)
      pads := (pinsOf s.topo).map fun p => (p, ⟨false, 0, 0, 0⟩)
      ieShadow := s.topo.map fun c => c.groups.map fun _ => 0
      bus := s.bus ++ s.topo.map fun c =>
        .read c.barno s.cfg.padbaseOffset (winWord s.mem c.barno s.cfg.padbaseOffset) }

/-- R124, R243, R255: a START that fails (a community names a window that does not exist, a PADBASE read fails the check, or the
tables do not fit) keeps nothing: the state is as before but for the reads made and, for BusError, `bus_fault`. -/
def Obligations.FailedStartKeepsNothing : Prop :=
  ∀ (s : State) (before after : List Community) (c : Community), s.lc = .built → Quiet s →
    (∀ x ∈ before, accessOk s.cfg x.barno s.cfg.padbaseOffset = true) →
    (s.topo = before ++ c :: after → s.cfg.nwin ≤ c.barno →
      exec .start s = .next { answer s .resourceFailure 0 0 with
        bus := s.bus ++ before.map fun x =>
          .read x.barno s.cfg.padbaseOffset (winWord s.mem x.barno s.cfg.padbaseOffset) }) ∧
    (s.topo = before ++ c :: after → c.barno < s.cfg.nwin → accessOk s.cfg c.barno s.cfg.padbaseOffset = false →
      exec .start s = .next { answer s .busError 0 0 with
        busFault := true
        bus := s.bus ++ before.map fun x =>
          .read x.barno s.cfg.padbaseOffset (winWord s.mem x.barno s.cfg.padbaseOffset) }) ∧
    (s.topo = before →
      (s.cfg.maxPins < (s.topo.map Community.npins).sum ∨ s.cfg.maxGroups < (s.topo.map fun x => x.groups.length).sum) →
      exec .start s = .next { answer s .resourceFailure 0 0 with
        bus := s.bus ++ before.map fun x =>
          .read x.barno s.cfg.padbaseOffset (winWord s.mem x.barno s.cfg.padbaseOffset) })

/-- R125, R183, R218: STOP masks and unregisters every registered pin, releases the shadow tables, forgets the configuration
bases and goes to LC_BUILT. In the windows only enable bits of registered pins change: each is clear after. -/
def Obligations.StopUnregistersEveryPin : Prop :=
  ∀ s : State, s.lc = .started → Quiet s → s.mem.wf = true → (s.cs = .none → s.pads = [] ∧ s.ieShadow = []) →
    (∀ p ∈ pinsOf s.topo, (slotOf s p).valid = true → ∃ l, findPin s.topo p = some l ∧
      accessOk s.cfg l.c.barno (bankOff l.c.ieOff l.g.regNum) = true ∧
      isPendingWord s.cfg l.c.barno (bankOff l.c.ieOff l.g.regNum) = false) →
    ∃ m b, exec .stop s = .next { answer s .ok 0 0 with
        lc := .built
        cs := .none
        topo := s.topo.map fun c => { c with padRegsOff := none }
        slots := []
        trig := []
        pads := []
        ieShadow := []
        mem := m
        bus := s.bus ++ b } ∧
      m.wf = true ∧
      (∀ w off i, accessOk s.cfg w off = true → i < 32 →
        (winWord m w off).getLsbD i =
          ((winWord s.mem w off).getLsbD i &&
            !(pinsOf s.topo).any fun p => (slotOf s p).valid &&
              ((findPin s.topo p).any fun l => decide (enableReg l.c l.g = (w, off) ∧ l.o = i)))) ∧
      SameOutside s.mem m (enableRegs s.topo)

/-- R126, R120: RESCOM answers the index of the first community whose range holds the pin, lower bound inclusive, upper bound
exclusive, or logs and answers NotFound; nothing else changes. -/
def Obligations.RescomFindsTheCommunity : Prop :=
  ∀ (s : State) (pin : PinNum), s.lc ≠ .reset →
    (∀ (ci : Nat) (c : Community), s.topo[ci]? = some c → c.pinBase ≤ pin.toNat → pin.toNat < c.pinBase + c.npins →
      (∀ (j : Nat) (c' : Community), j < ci → s.topo[j]? = some c' → ¬(c'.pinBase ≤ pin.toNat ∧ pin.toNat < c'.pinBase + c'.npins)) →
      ci < 256 → exec (.rescom pin) s = .next (answer s .ok (BitVec.ofNat 8 ci) 0)) ∧
    ((∀ c ∈ s.topo, ¬(c.pinBase ≤ pin.toNat ∧ pin.toNat < c.pinBase + c.npins)) →
      exec (.rescom pin) s = .next (answer (logErr .notFound pin.toNat s) .notFound 0 0))

/-- R127, R120: RESGRP answers the index of the community's first group that holds the pin, lower bound inclusive, upper bound
exclusive, or logs and answers NotFound, also when there is no such community; nothing else changes. -/
def Obligations.ResgrpFindsTheGroup : Prop :=
  ∀ (s : State) (ci : BitVec 8) (pin : PinNum), s.lc ≠ .reset →
    (∀ (c : Community) (gi : Nat) (g : Group), s.topo[ci.toNat]? = some c → c.groups[gi]? = some g → g.base ≤ pin.toNat → pin.toNat < g.base + g.size →
      (∀ (j : Nat) (g' : Group), j < gi → c.groups[j]? = some g' → ¬(g'.base ≤ pin.toNat ∧ pin.toNat < g'.base + g'.size)) →
      gi < 256 → exec (.resgrp ci pin) s = .next (answer s .ok (BitVec.ofNat 8 gi) 0)) ∧
    ((∀ c : Community, s.topo[ci.toNat]? = some c → ∀ g ∈ c.groups, ¬(g.base ≤ pin.toNat ∧ pin.toNat < g.base + g.size)) →
      exec (.resgrp ci pin) s = .next (answer (logErr .notFound pin.toNat s) .notFound 0 0))

/-- R128, R69: REGOFF answers the window and the offset of a configuration register, with four registers per pin where the
community has debounce and two where it has not; NoRegister, unlogged, exactly for the debounce register of a community
without debounce; NotFound, logged, for a pin of no community; nothing else changes. -/
def Obligations.RegoffComputesTheOffset : Prop :=
  ∀ (s : State) (pin : PinNum) (sel : BitVec 8), s.lc = .started → sel.toNat < 3 →
    (∀ (ci : Nat) (c : Community) (base : Word), findCommunity s.topo pin.toNat = some (ci, c) → c.padRegsOff = some base →
      (sel = 2 ∧ c.featDebounce = false → exec (.regoff pin sel) s = .next (answer s .noRegister 0 0)) ∧
      (¬(sel = 2 ∧ c.featDebounce = false) → c.barno < 256 →
        base.toNat + sel.toNat * 4 + (pin.toNat - c.pinBase) * (if c.featDebounce then 16 else 8) < 2 ^ 32 →
        exec (.regoff pin sel) s = .next (answer s .ok (BitVec.ofNat 8 c.barno) (BitVec.ofNat 32
          (base.toNat + sel.toNat * 4 + (pin.toNat - c.pinBase) * (if c.featDebounce then 16 else 8)))))) ∧
    ((∀ c ∈ s.topo, ¬(c.pinBase ≤ pin.toNat ∧ pin.toNat < c.pinBase + c.npins)) →
      exec (.regoff pin sel) s = .next (answer (logErr .notFound pin.toNat s) .notFound 0 0))

/-- R129: MAPPIN answers the hardware pin of the first group, in community then group order, whose logical range holds the
logical pin, or logs and answers NotFound; nothing else changes. -/
def Obligations.MappinTranslatesTheLogicalPin : Prop :=
  ∀ (s : State) (pin : PinNum), s.lc ≠ .reset →
    (∀ (before after : List Community) (c : Community) (gbefore gafter : List Group) (g : Group), s.topo = before ++ c :: after → c.groups = gbefore ++ g :: gafter →
      g.gpioBase ≤ pin.toNat → pin.toNat < g.gpioBase + g.size →
      (∀ g' ∈ before.flatMap Community.groups ++ gbefore, ¬(g'.gpioBase ≤ pin.toNat ∧ pin.toNat < g'.gpioBase + g'.size)) →
      g.base + (pin.toNat - g.gpioBase) < 2 ^ 32 →
      mapPin s.topo pin.toNat = some (g.base + (pin.toNat - g.gpioBase)) ∧
      exec (.mappin pin) s = .next (answer s .ok 0 (BitVec.ofNat 32 (g.base + (pin.toNat - g.gpioBase))))) ∧
    ((∀ g ∈ s.topo.flatMap Community.groups, ¬(g.gpioBase ≤ pin.toNat ∧ pin.toNat < g.gpioBase + g.size)) →
      mapPin s.topo pin.toNat = none ∧
      exec (.mappin pin) s = .next (answer (logErr .notFound pin.toNat s) .notFound 0 0))

/-- R130: GETSTATUS, format Z, code 0x08, legal in every state, answers `lc`, `cs`, `bus_fault`, the error log and the notification count in their
places, and changes nothing; right after reset everything in its answer is zero. -/
def Obligations.GetstatusShowsTheState : Prop :=
  decode 0x08#128 = .ok .getstatus ∧ encode .getstatus = 0x08#128 ∧
  exec .getstatus State.reset = .next (answer State.reset .ok 0 0) ∧
  ∀ s : State, ∃ v : Word,
    exec .getstatus s = .next { s with
      cmds := s.cmds.tail
      seq := .idle
      resp := s.resp ++ [Response.pack ⟨.ok, BitVec.ofNat 8 (min s.irqNotif 255), s.errLastPin, v⟩] } ∧
    (v.extractLsb' 0 2).toNat = (match s.lc with | .reset => 0 | .built => 1 | .started => 2) ∧
    (v.extractLsb' 2 2).toNat = (match s.cs with | .none => 0 | .idle => 1 | .saved => 2) ∧
    v.getLsbD 4 = s.busFault ∧ v.extractLsb' 5 3 = 0 ∧ v.extractLsb' 8 8 = s.errLastCode ∧
    v.extractLsb' 16 16 = s.errCount

/-! ## The guard -/

/-- R151, R152, R71: HOSTOWN of a located pin answers 1 when the community has no ownership bitmap, with no bus access; else it
reads the pin's ownership word and answers 1 exactly when the pin's 4-bit slot, masked, is zero. Nothing else changes. -/
def Obligations.HostownReadsTheOwnershipSlot : Prop :=
  ∀ (s : State) (pin : PinNum) (ci : Nat) (c : Community), s.lc = .started → Quiet s →
    findCommunity s.topo pin.toNat = some (ci, c) →
    (c.ownOff = none → exec (.hostown pin) s = .next (answer s .ok 0 1)) ∧
    (∀ (b : Word) (gi : Nat) (g : Group) (w : Word) (off o : Nat), c.ownOff = some b → findGroup c pin.toNat = some (gi, g) → o = pin.toNat - g.base →
      off = b.toNat + g.ownWord * 4 + o / 8 * 4 → w = winWord s.mem c.barno off → accessOk s.cfg c.barno off = true →
      exec (.hostown pin) s = .next { answer s .ok 0
          (if (w >>> (o % 8 * 4)).setWidth 4 &&& s.cfg.ownTestMask = 0 then 1 else 0) with
        bus := s.bus ++ [.read c.barno off w] })

/-- R154, R155: GPIOMODE of a located pin answers 1 when the community has no host-mode bitmap, with no bus access; else it
reads the group's word and answers 1 exactly when the pin's bit is clear. Nothing else changes. -/
def Obligations.GpiomodeReadsTheModeBit : Prop :=
  ∀ (s : State) (pin : PinNum) (ci : Nat) (c : Community), s.lc = .started → Quiet s →
    findCommunity s.topo pin.toNat = some (ci, c) →
    (c.hostmodeOff = none → exec (.gpiomode pin) s = .next (answer s .ok 0 1)) ∧
    (∀ (b : Word) (gi : Nat) (g : Group) (w : Word) (off : Nat), c.hostmodeOff = some b → findGroup c pin.toNat = some (gi, g) → off = b.toNat + g.regNum * 4 →
      w = winWord s.mem c.barno off → accessOk s.cfg c.barno off = true →
      exec (.gpiomode pin) s = .next { answer s .ok 0 (if w.getLsbD (pin.toNat - g.base) then 0 else 1) with
        bus := s.bus ++ [.read c.barno off w] })

/-- R156, R157, R72: LOCKED of a located pin answers 0 when the community has no lock bitmap, with no bus access; else it reads
LOCK and, only when the pin's bit there is clear, LOCKTX, and answers 1 exactly when one of the two bits is set. Nothing else
changes. -/
def Obligations.LockedReadsTheLockBits : Prop :=
  ∀ (s : State) (pin : PinNum) (ci : Nat) (c : Community), s.lc = .started → Quiet s →
    findCommunity s.topo pin.toNat = some (ci, c) →
    (c.lockOff = none → exec (.locked pin) s = .next (answer s .ok 0 0)) ∧
    (∀ (b : Word) (gi : Nat) (g : Group) (off o : Nat) (w w' : Word), c.lockOff = some b → findGroup c pin.toNat = some (gi, g) → o = pin.toNat - g.base →
      off = b.toNat + g.regNum * s.cfg.lockStride → w = winWord s.mem c.barno off →
      w' = winWord s.mem c.barno (off + s.cfg.lockTxDelta) → accessOk s.cfg c.barno off = true →
      (w.getLsbD o = true → exec (.locked pin) s = .next { answer s .ok 0 1 with
        bus := s.bus ++ [.read c.barno off w] }) ∧
      (w.getLsbD o = false → accessOk s.cfg c.barno (off + s.cfg.lockTxDelta) = true →
        exec (.locked pin) s = .next { answer s .ok 0 (if w'.getLsbD o then 1 else 0) with
          bus := s.bus ++ [.read c.barno off w, .read c.barno (off + s.cfg.lockTxDelta) w'] }))

/-- R150: for a pin the topology does not know (no community, or no group where the bitmap exists) each predicate function gives
the safe value and logs NotFound once, and each predicate operation answers OK with that value; no bus access. -/
def Obligations.UnknownPinsGetTheSafeDefault : Prop :=
  ∀ (s : State) (pin : PinNum), s.lc = .started →
    (findCommunity s.topo pin.toNat = none →
      hostOwned pin.toNat s = .ok false (logErr .notFound pin.toNat s) ∧
      gpioMode pin.toNat s = .ok false (logErr .notFound pin.toNat s) ∧
      lockedPin pin.toNat s = .ok true (logErr .notFound pin.toNat s) ∧
      exec (.hostown pin) s = .next (answer (logErr .notFound pin.toNat s) .ok 0 0) ∧
      exec (.gpiomode pin) s = .next (answer (logErr .notFound pin.toNat s) .ok 0 0) ∧
      exec (.locked pin) s = .next (answer (logErr .notFound pin.toNat s) .ok 0 1)) ∧
    (∀ (ci : Nat) (c : Community), findCommunity s.topo pin.toNat = some (ci, c) → findGroup c pin.toNat = none →
      (c.ownOff ≠ none → hostOwned pin.toNat s = .ok false (logErr .notFound pin.toNat s) ∧
        exec (.hostown pin) s = .next (answer (logErr .notFound pin.toNat s) .ok 0 0)) ∧
      (c.hostmodeOff ≠ none → gpioMode pin.toNat s = .ok false (logErr .notFound pin.toNat s) ∧
        exec (.gpiomode pin) s = .next (answer (logErr .notFound pin.toNat s) .ok 0 0)) ∧
      (c.lockOff ≠ none → lockedPin pin.toNat s = .ok true (logErr .notFound pin.toNat s) ∧
        exec (.locked pin) s = .next (answer (logErr .notFound pin.toNat s) .ok 0 1)))

/-! ## The interrupt router -/

/-- R171, R174: the class of every trigger type, an edge flag beating a level flag and both level flags being LevelLow; bits outside
the four flags never change it; the levels are its two level classes, and a type with an edge flag is no level. With the GK flag
values the classes are those the rule lists. Beside them, the classes of the symbolic types. -/
def Obligations.TriggerTypesClassify : Prop :=
  ∀ cfg : Params, cfg.wellFormed = true →
    (∀ t e l, e = t &&& (cfg.tRising ||| cfg.tFalling) → l = t &&& (cfg.tLevelHigh ||| cfg.tLevelLow) →
      (classify cfg t = .both ↔ e = cfg.tRising ||| cfg.tFalling) ∧
      (classify cfg t = .rising ↔ e = cfg.tRising) ∧ (classify cfg t = .falling ↔ e = cfg.tFalling) ∧
      (classify cfg t = .levelLow ↔ e = 0 ∧ t &&& cfg.tLevelLow ≠ 0) ∧
      (classify cfg t = .levelHigh ↔ e = 0 ∧ l = cfg.tLevelHigh) ∧ (classify cfg t = .disabled ↔ e = 0 ∧ l = 0) ∧
      (isLevel cfg t = true ↔ classify cfg t = .levelHigh ∨ classify cfg t = .levelLow) ∧
      (isLevel cfg t = true → t &&& cfg.tRising = 0 ∧ t &&& cfg.tFalling = 0)) ∧
    (∀ t, classify cfg t =
      classify cfg (t &&& (cfg.tRising ||| cfg.tFalling ||| cfg.tLevelHigh ||| cfg.tLevelLow))) ∧
    (cfg.tRising = 0x01 → cfg.tFalling = 0x02 → cfg.tLevelHigh = 0x04 → cfg.tLevelLow = 0x08 →
      [0x03, 0x01, 0x02, 0x04, 0x08, 0x0C, 0x00, 0x10, 0xF0, 0x05, 0x0B].map (classify cfg) =
        [.both, .rising, .falling, .levelHigh, .levelLow, .levelLow, .disabled, .disabled, .disabled, .rising, .both]) ∧
    classify cfg (typeValue cfg .none) = .disabled ∧ classify cfg (typeValue cfg .rising) = .rising ∧
    classify cfg (typeValue cfg .falling) = .falling ∧ classify cfg (typeValue cfg .both) = .both ∧
    classify cfg (typeValue cfg .high) = .levelHigh ∧ classify cfg (typeValue cfg .low) = .levelLow ∧
    classify cfg (cfg.tLevelHigh ||| cfg.tLevelLow) = .levelLow ∧
    (∀ l ∈ [0, cfg.tLevelHigh, cfg.tLevelLow, cfg.tLevelHigh ||| cfg.tLevelLow],
      classify cfg (cfg.tRising ||| l) = .rising ∧ classify cfg (cfg.tFalling ||| l) = .falling ∧
      classify cfg (cfg.tRising ||| cfg.tFalling ||| l) = .both)

/-- R172, R173, R34: the word SETTRIG writes has the TRIG field and the INV bit of the type's class, and every other bit as
read. -/
def Obligations.TriggerWordHasItsFields : Prop :=
  ∀ (cfg : Params) (v : Word) (t : BitVec 8), cfg.wellFormed = true →
    (setTrigWord cfg v t).extractLsb' cfg.trigShift.val 2 =
      (match classify cfg t with
        | .both => cfg.trigBoth | .rising => cfg.trigEdge | .falling => cfg.trigEdge
        | .levelHigh => 0 | .levelLow => 0 | .disabled => cfg.trigDisabled) ∧
    (setTrigWord cfg v t).getLsbD cfg.invBit.val =
      (match classify cfg t with
        | .falling => true | .levelLow => true | .both => false | .rising => false | .levelHigh => false
        | .disabled => false) ∧
    ∀ i, i ≠ cfg.trigShift.val → i ≠ cfg.trigShift.val + 1 → i ≠ cfg.invBit.val →
      (setTrigWord cfg v t).getLsbD i = v.getLsbD i

/-- R173, R196: SETTRIG, or SETTYPEINT on a logical pin mapped to it, of a pin in GPIO mode: one read and one write of PADCFG0
after the guard's read if there is one; the type is recorded; nothing else changes. -/
def Obligations.SettrigWritesPadcfgAndRecords : Prop :=
  ∀ (s : State) (i : Instr) (pin : PinNum) (t : BitVec 8) (p ci : Nat) (c : Community) (guard : List BusAccess),
    (i = .settrig pin t ∧ p = pin.toNat ∨ i = .settypeint pin t ∧ mapPin s.topo pin.toNat = some p) →
    s.lc = .started → Quiet s → s.mem.wf = true → findCommunity s.topo p = some (ci, c) →
    (c.hostmodeOff = none ∧ guard = [] ∨
      ∃ b gi g, c.hostmodeOff = some b ∧ findGroup c p = some (gi, g) ∧ accessOk s.cfg c.barno (bankOff b g.regNum) = true ∧
        (winWord s.mem c.barno (bankOff b g.regNum)).getLsbD (p - g.base) = false ∧
        guard = [.read c.barno (bankOff b g.regNum) (winWord s.mem c.barno (bankOff b g.regNum))]) →
    accessOk s.cfg c.barno (cfg0Off c p) = true → isPendingWord s.cfg c.barno (cfg0Off c p) = false →
    (tableGet s.trig p).isSome = true →
    ∃ m trig, exec i s = .next { answer s .ok 0 0 with
        mem := m
        trig := trig
        bus := s.bus ++ guard ++ [.read c.barno (cfg0Off c p) (winWord s.mem c.barno (cfg0Off c p)),
          .write c.barno (cfg0Off c p) (setTrigWord s.cfg (winWord s.mem c.barno (cfg0Off c p)) t)] } ∧
      tableGet trig p = some t ∧ (∀ q, q ≠ p → tableGet trig q = tableGet s.trig q) ∧
      trig.map Prod.fst = s.trig.map Prod.fst ∧
      winWord m c.barno (cfg0Off c p) = setTrigWord s.cfg (winWord s.mem c.barno (cfg0Off c p)) t ∧
      SameOutside s.mem m [(c.barno, cfg0Off c p)]

/-- R173, R196, R150: SETTRIG or SETTYPEINT of a pin in ACPI mode answers ModeConflict after the guard's read and writes nothing,
the recorded type included; so does a pin of no group where the host-mode bitmap exists, NotFound being logged. -/
def Obligations.SettrigRefusesAcpiPins : Prop :=
  ∀ (s : State) (i : Instr) (pin : PinNum) (t : BitVec 8) (p ci : Nat) (c : Community) (b : Word) (gi : Nat) (g : Group),
    (i = .settrig pin t ∧ p = pin.toNat ∨ i = .settypeint pin t ∧ mapPin s.topo pin.toNat = some p) →
    s.lc = .started → Quiet s → findCommunity s.topo p = some (ci, c) → c.hostmodeOff = some b →
    (findGroup c p = some (gi, g) → accessOk s.cfg c.barno (bankOff b g.regNum) = true →
      (winWord s.mem c.barno (bankOff b g.regNum)).getLsbD (p - g.base) = true →
      exec i s = .next { answer s .modeConflict 0 0 with
        bus := s.bus ++ [.read c.barno (bankOff b g.regNum) (winWord s.mem c.barno (bankOff b g.regNum))] }) ∧
    (findGroup c p = none → exec i s = .next (answer (logErr .notFound p s) .modeConflict 0 0))

/-- R176, R194: ENABLE, or ENINT on a logical pin mapped to it: exactly three accesses, the pending bit cleared first, then the
enable bit set by a read and a write; every other bit and byte as before. -/
def Obligations.EnableClearsThenSets : Prop :=
  ∀ (s : State) (i : Instr) (pin : PinNum) (p : Nat) (l : Location) (isw iew : Nat) (v : Word),
    (i = .enable pin ∧ p = pin.toNat ∨ i = .enint pin ∧ mapPin s.topo pin.toNat = some p) →
    s.lc = .started → Quiet s → s.mem.wf = true → findPin s.topo p = some l →
    isw = bankOff l.c.isOff l.g.regNum → iew = bankOff l.c.ieOff l.g.regNum → v = winWord s.mem l.c.barno iew →
    accessOk s.cfg l.c.barno isw = true → accessOk s.cfg l.c.barno iew = true →
    isPendingWord s.cfg l.c.barno isw = true → isPendingWord s.cfg l.c.barno iew = false →
    ∃ m, exec i s = .next { answer s .ok 0 0 with
        mem := m
        bus := s.bus ++ [.write l.c.barno isw (bit l.o), .read l.c.barno iew v, .write l.c.barno iew (v ||| bit l.o)] } ∧
      winWord m l.c.barno isw = winWord s.mem l.c.barno isw &&& ~~~(bit l.o) ∧
      winWord m l.c.barno iew = v ||| bit l.o ∧
      SameOutside s.mem m [pendReg l.c l.g, enableReg l.c l.g]

/-- R176, R79, R67: whatever the outside agents do short of a reset, a successful ENABLE makes its three accesses in this order
and writes back the value it read with the pin's bit set. -/
def Obligations.EnableOrderHoldsInEveryEnvironment : Prop :=
  ∀ (s : State) (pin : PinNum) (l : Location) (isw iew : Nat),
    s.lc = .started → NoReset s → findPin s.topo pin.toNat = some l →
    isw = bankOff l.c.isOff l.g.regNum → iew = bankOff l.c.ieOff l.g.regNum →
    accessOk s.cfg l.c.barno isw = true → accessOk s.cfg l.c.barno iew = true →
    ∃ t v, exec (.enable pin) s = .next t ∧ t.resp = s.resp ++ [(Response.of .ok).pack] ∧
      t.bus = s.bus ++ [.write l.c.barno isw (bit l.o), .read l.c.barno iew v, .write l.c.barno iew (v ||| bit l.o)]

/-- R178, R195: MASKUNMASK with selector 1, or DISINT on a logical pin mapped to the pin, clears the pin's enable bit; MASKUNMASK
with selector 0 sets it; one read and one write; the pending word and every other bit and byte as before. -/
def Obligations.MaskChangesOnlyTheEnableBit : Prop :=
  ∀ (s : State) (i : Instr) (pin : PinNum) (m : Bool) (p : Nat) (l : Location) (iew : Nat) (v v' : Word),
    (i = .maskunmask pin (if m then 1 else 0) ∧ p = pin.toNat ∨
      i = .disint pin ∧ m = true ∧ mapPin s.topo pin.toNat = some p) →
    s.lc = .started → Quiet s → s.mem.wf = true → findPin s.topo p = some l → iew = bankOff l.c.ieOff l.g.regNum →
    v = winWord s.mem l.c.barno iew → v' = (if m then v &&& ~~~(bit l.o) else v ||| bit l.o) →
    accessOk s.cfg l.c.barno iew = true → isPendingWord s.cfg l.c.barno iew = false →
    ∃ mem, exec i s = .next { answer s .ok 0 0 with
        mem := mem
        bus := s.bus ++ [.read l.c.barno iew v, .write l.c.barno iew v'] } ∧
      winWord mem l.c.barno iew = v' ∧ SameOutside s.mem mem [enableReg l.c l.g]

/-- R181, R192, R26: REGISTER, or REGINT on a logical pin mapped to the pin, fills a free slot and nothing else; a slot that is
taken is left as it is, with AlreadyRegistered, whatever the tokens. No bus access, whatever the outside agents do. -/
def Obligations.RegisterIsExclusive : Prop :=
  ∀ (s : State) (i : Instr) (pin : PinNum) (owner cb ctx : Token) (p ci : Nat) (c : Community) (sl : Slot),
    (i = .register pin owner cb ctx ∧ p = pin.toNat ∨ i = .regint pin owner cb ctx ∧ mapPin s.topo pin.toNat = some p) →
    s.lc = .started → findCommunity s.topo p = some (ci, c) → tableGet s.slots p = some sl →
    (sl.valid = true → exec i s = .next (answer s .alreadyRegistered 0 0)) ∧
    (sl.valid = false → ∃ slots, exec i s = .next { answer s .ok 0 0 with slots := slots } ∧
      tableGet slots p = some ⟨true, owner, cb, ctx⟩ ∧ (∀ q, q ≠ p → tableGet slots q = tableGet s.slots q) ∧
      slots.map Prod.fst = s.slots.map Prod.fst)

/-- R183, R193: UNREGISTER, or UNREGINT on a logical pin mapped to the pin, clears the pin's enable bit by one read and one
write, then clears its slot and its recorded type, registered or not; nothing else changes. -/
def Obligations.UnregisterMasksAndClears : Prop :=
  ∀ (s : State) (i : Instr) (pin : PinNum) (p : Nat) (l : Location) (iew : Nat) (v : Word),
    (i = .unregister pin ∧ p = pin.toNat ∨ i = .unregint pin ∧ mapPin s.topo pin.toNat = some p) →
    s.lc = .started → Quiet s → s.mem.wf = true → findPin s.topo p = some l → iew = bankOff l.c.ieOff l.g.regNum →
    v = winWord s.mem l.c.barno iew → accessOk s.cfg l.c.barno iew = true →
    isPendingWord s.cfg l.c.barno iew = false →
    (tableGet s.slots p).isSome = true → (tableGet s.trig p).isSome = true →
    ∃ mem slots trig, exec i s = .next { answer s .ok 0 0 with
        mem := mem
        slots := slots
        trig := trig
        bus := s.bus ++ [.read l.c.barno iew v, .write l.c.barno iew (v &&& ~~~(bit l.o))] } ∧
      tableGet slots p = some ⟨false, 0, 0, 0⟩ ∧ tableGet trig p = some 0 ∧
      (∀ q, q ≠ p → tableGet slots q = tableGet s.slots q ∧ tableGet trig q = tableGet s.trig q) ∧
      slots.map Prod.fst = s.slots.map Prod.fst ∧ trig.map Prod.fst = s.trig.map Prod.fst ∧
      winWord mem l.c.barno iew = v &&& ~~~(bit l.o) ∧ SameOutside s.mem mem [enableReg l.c l.g]

/-- R191: GETTYPE of a logical pin answers the recorded type of the hardware pin it maps to, zero-extended, registered or not;
nothing else changes and no bus access is made. Where the logical pin maps to a pin that no community holds there is no recorded
type: OK with some value of 8 bits is the model's choice (log 8). -/
def Obligations.GettypeReturnsTheRecordedType : Prop :=
  ∀ (s : State) (pin : PinNum) (p : Nat), s.lc = .started → mapPin s.topo pin.toNat = some p →
    (∀ t, tableGet s.trig p = some t → exec (.gettype pin) s = .next (answer s .ok 0 (t.setWidth 32))) ∧
    (tableGet s.trig p = none → ∃ t : BitVec 8,
      exec (.gettype pin) s = .next { answer s .ok 0 (t.setWidth 32) with free := s.free + 1 })

/-- R197, R173, R176, R178, R181, R183, R242: a logical pin that no group covers, and a hardware pin, given or mapped to, that no
community (SETTRIG, REGISTER) or no group (ENABLE, MASKUNMASK, UNREGISTER) holds, give NotFound, logged once with the pin that
was looked up; nothing else changes, no bus access. -/
def Obligations.UnresolvedPinsAreNotFound : Prop :=
  ∀ (s : State) (pin : PinNum) (p : Nat) (t : BitVec 8) (m : Bool) (owner cb ctx : Token), s.lc = .started →
    (mapPin s.topo pin.toNat = none →
      ∀ i ∈ [Instr.gettype pin, .regint pin owner cb ctx, .unregint pin, .enint pin, .disint pin, .settypeint pin t],
        exec i s = .next (answer (logErr .notFound pin.toNat s) .notFound 0 0)) ∧
    (mapPin s.topo pin.toNat = some p → findCommunity s.topo p = none →
      ∀ i ∈ [Instr.regint pin owner cb ctx, .settypeint pin t],
        exec i s = .next (answer (logErr .notFound p s) .notFound 0 0)) ∧
    (mapPin s.topo pin.toNat = some p → findPin s.topo p = none →
      ∀ i ∈ [Instr.enint pin, .disint pin, .unregint pin],
        exec i s = .next (answer (logErr .notFound p s) .notFound 0 0)) ∧
    (findCommunity s.topo pin.toNat = none →
      ∀ i ∈ [Instr.settrig pin t, .register pin owner cb ctx],
        exec i s = .next (answer (logErr .notFound pin.toNat s) .notFound 0 0)) ∧
    (findPin s.topo pin.toNat = none →
      ∀ i ∈ [Instr.enable pin, .maskunmask pin (if m then 1 else 0), .unregister pin],
        exec i s = .next (answer (logErr .notFound pin.toNat s) .notFound 0 0))

/-- R186, R187, R188, R190, R254, R256: a dispatch pass over a well-formed topology, no two groups of which share a bank word, emits, in ascending community, group and bit
order, one callback for every pin whose pending and enable bits are both set when its group is read and whose slot is valid;
it answers their number; it clears the pending bits of the asserted pins with a recorded level type, and of no other pin; no
other byte of the windows and no other state changes. -/
def Obligations.DispatchServesTheAssertedPins : Prop :=
  ∀ (s : State) (asserted : Community → Group → Nat → Bool) (calls : List Packet),
    (∀ c g i, asserted c g i =
      ((winWord s.mem c.barno (bankOff c.isOff g.regNum)).getLsbD i &&
        (winWord s.mem c.barno (bankOff c.ieOff g.regNum)).getLsbD i)) →
    calls = (s.topo.flatMap fun c => c.groups.flatMap fun g =>
      ((List.range g.size).filter fun i => asserted c g i && (slotOf s (g.base + i)).valid).map fun i =>
        callbackPacket (slotOf s (g.base + i)) (g.base + i)) →
    calls.length < 2 ^ 32 →
    s.lc = .started → Quiet s → s.mem.wf = true → Tidy s.topo → Separate s →
    Reachable s.cfg (pendRegs s.topo ++ enableRegs s.topo) → (∀ c ∈ s.topo, ∀ g ∈ c.groups, g.size ≤ 32) →
    s.trig.map Prod.fst = pinsOf s.topo →
    ∃ m b, exec .dispatch s = .next { answer s .ok 0 (BitVec.ofNat 32 calls.length) with
        mem := m
        calls := s.calls ++ calls
        bus := s.bus ++ b } ∧
      (∀ c ∈ s.topo, ∀ g ∈ c.groups, ∀ i < 32,
        (winWord m c.barno (bankOff c.isOff g.regNum)).getLsbD i =
          ((winWord s.mem c.barno (bankOff c.isOff g.regNum)).getLsbD i &&
            !(decide (i < g.size) && asserted c g i && isLevel s.cfg ((tableGet s.trig (g.base + i)).getD 0)))) ∧
      SameOutside s.mem m (pendRegs s.topo)

/-- R256, R258: in every environment short of a reset, a dispatch pass, commanded or notified, emits only packets of slots that
are valid when it starts, so none for a pin that was unregistered before; no other operation emits a callback. -/
def Obligations.OnlyRegisteredPinsAreCalledBack : Prop :=
  ∀ (s : State), NoReset s →
    (∀ t : State, (exec .dispatch s = .next t ∨ runPass s = t) →
      ∃ l, t.calls = s.calls ++ l ∧ ∀ pkt ∈ l, ∃ p, (slotOf s p).valid = true ∧ pkt = callbackPacket (slotOf s p) p) ∧
    (∀ i t, i ≠ .dispatch → exec i s = .next t → t.calls = s.calls)

/-! ## The power context engine -/

/-- R211, R218: CTXINIT allocates zeroed shadow tables over every pin and every group; CTXRELEASE discards them, a held snapshot
included; no bus access, nothing else changes. Out of LC_STARTED, or called twice, each is refused. -/
def Obligations.ContextTablesAreAllocatedAndReleased : Prop :=
  decode 0x40#128 = .ok .ctxinit ∧ decode 0x43#128 = .ok .ctxrelease ∧
  ∀ s : State,
    (s.lc = .started → s.cs = .none → exec .ctxinit s = .next { answer s .ok 0 0 with
      cs := .idle
      pads := (pinsOf s.topo).map fun p => (p, ⟨false, 0, 0, 0⟩)
      ieShadow := s.topo.map fun c => c.groups.map fun _ => 0 }) ∧
    (s.lc = .started → s.cs ≠ .none →
      exec .ctxrelease s = .next { answer s .ok 0 0 with cs := .none, pads := [], ieShadow := [] }) ∧
    (s.lc ≠ .started ∨ s.cs ≠ .none → exec .ctxinit s = .next (answer s .stateRefused 0 0)) ∧
    (s.lc ≠ .started ∨ s.cs = .none → exec .ctxrelease s = .next (answer s .stateRefused 0 0))

/-- R212, R213, R214: CTXSUSPEND reads only. Over a well-formed topology whose registers are reachable it captures exactly the
registered, host-owned, unlocked pins, PADCFG0 without its live-state bit and the others whole (PADCFG2 where there is one);
a pin not captured keeps its shadow words; every group's enable word is kept; nothing else changes. -/
def Obligations.SuspendTakesTheSnapshot : Prop :=
  ∀ s : State, s.lc = .started → s.cs ≠ .none → Quiet s → Tidy s.topo →
    Reachable s.cfg (enableRegs s.topo ++ configRegs s.topo ++ allGuardRegs s.cfg s.topo) →
    s.pads.map Prod.fst = pinsOf s.topo →
    s.ieShadow.map List.length = (s.topo.map fun c => c.groups.length) →
    ∃ pads shadow b, exec .ctxsuspend s = .next { answer s .ok 0 0 with
        cs := .saved
        pads := pads
        ieShadow := shadow
        bus := s.bus ++ b } ∧
      pads.map Prod.fst = pinsOf s.topo ∧
      shadow = (s.topo.map fun c => c.groups.map fun g => winWord s.mem c.barno (bankOff c.ieOff g.regNum)) ∧
      ∀ c ∈ s.topo, ∀ p ∈ c.pins, ∀ gi g, findGroup c p = some (gi, g) → ∃ old new,
        tableGet s.pads p = some old ∧ tableGet pads p = some new ∧
        new.captured = (isOwned s c g p && !isLocked s c g p && (slotOf s p).valid) ∧
        (new.captured = true →
          new.cfg0 = winWord s.mem c.barno (cfg0Off c p) &&& ~~~(bit s.cfg.rxStateBit.val) ∧
          new.cfg1 = winWord s.mem c.barno (cfg1Off c p) ∧
          (∀ a, cfgOff c p 2 = some a → new.cfg2 = winWord s.mem c.barno a) ∧
          (cfgOff c p 2 = none → new.cfg2 = old.cfg2)) ∧
        (new.captured = false → new.cfg0 = old.cfg0 ∧ new.cfg1 = old.cfg1 ∧ new.cfg2 = old.cfg2)

/-- R215, R216, R296: CTXRESUME leaves every pending bit of every group clear and every enable word equal to its shadow; each
register of a captured pin keeps its value where it agrees with the shadow (PADCFG0 but for its live-state bit) and has the
shadow's otherwise; no other byte of the windows changes; of the VGC's state only `cs` does. That a PADCFG0 written back ends
with the shadow's live-state bit, which the pad of R76 is free to keep instead, is the model's choice (log 6). -/
def Obligations.ResumeRestoresTheSnapshot : Prop :=
  ∀ s : State, s.lc = .started → s.cs = .saved → Quiet s → s.mem.wf = true → Separate s →
    Reachable s.cfg (pendRegs s.topo ++ enableRegs s.topo ++ configRegs s.topo) →
    ∃ m b, exec .ctxresume s = .next { answer s .ok 0 0 with cs := .idle, mem := m, bus := s.bus ++ b } ∧
      (∀ c ∈ s.topo, ∀ g ∈ c.groups, winWord m c.barno (bankOff c.isOff g.regNum) = 0) ∧
      (∀ (ci : Nat) (c : Community) (gi : Nat) (g : Group), s.topo[ci]? = some c → c.groups[gi]? = some g →
        winWord m c.barno (bankOff c.ieOff g.regNum) = shadowOf s ci gi) ∧
      (∀ c ∈ s.topo, ∀ p ∈ c.pins, (padOf s p).captured = true →
        winWord m c.barno (cfg0Off c p) =
          (if winWord s.mem c.barno (cfg0Off c p) &&& ~~~(bit s.cfg.rxStateBit.val) = (padOf s p).cfg0
            then winWord s.mem c.barno (cfg0Off c p) else (padOf s p).cfg0) ∧
        winWord m c.barno (cfg1Off c p) = (padOf s p).cfg1 ∧
        (∀ a, cfgOff c p 2 = some a → winWord m c.barno a = (padOf s p).cfg2)) ∧
      (∀ c ∈ s.topo, ∀ p ∈ c.pins, (padOf s p).captured = false →
        ∀ x ∈ pinRegs c p, winWord m x.1 x.2 = winWord s.mem x.1 x.2) ∧
      SameOutside s.mem m (pendRegs s.topo ++ enableRegs s.topo ++ configRegs s.topo)

/-- R217: CTXSUSPEND followed at once by CTXRESUME, with no outside move, leaves every configuration register and every enable
word bit-identical; the pending words end clear; every other byte is as it was; of the VGC's state only `cs`, the shadow
tables, the ports and the command queue differ. That a write never leaves the live-state bit of a PADCFG0 to the pad is the
model's choice (log 6). -/
def Obligations.SuspendThenResumeIsARoundTrip : Prop :=
  ∀ s : State, s.lc = .started → s.cs ≠ .none → Quiet s → s.mem.wf = true → Tidy s.topo → Separate s →
    Reachable s.cfg (pendRegs s.topo ++ enableRegs s.topo ++ configRegs s.topo ++ allGuardRegs s.cfg s.topo) →
    s.pads.map Prod.fst = pinsOf s.topo →
    s.ieShadow.map List.length = (s.topo.map fun c => c.groups.length) →
    ∃ t u, exec .ctxsuspend s = .next t ∧ exec .ctxresume t = .next u ∧
      u = { s with cs := .idle, pads := u.pads, ieShadow := u.ieShadow, mem := u.mem, cmds := s.cmds.tail.tail,
                   seq := .idle, bus := u.bus,
                   resp := s.resp ++ [(Response.of .ok).pack, (Response.of .ok).pack] } ∧
      (∀ x ∈ configRegs s.topo ++ enableRegs s.topo, winWord u.mem x.1 x.2 = winWord s.mem x.1 x.2) ∧
      (∀ x ∈ pendRegs s.topo, winWord u.mem x.1 x.2 = 0) ∧
      SameOutside s.mem u.mem (pendRegs s.topo)

/-- R219, R221: PWROFF masks every registered pin, then takes the snapshot. After it the enable bit of every registered pin is
clear and no other bit of the windows differs; every shadow enable word is the masked word; exactly the registered, host-owned,
unlocked pins are captured, PADCFG0 without its live-state bit and the others whole (PADCFG2 where there is one), and a pin not
captured keeps its shadow words; the registrations and recorded types are as they were, and the context holds a snapshot. -/
def Obligations.PowerOffMasksThenSuspends : Prop :=
  ∀ s : State, s.lc = .started → s.cs ≠ .none → Quiet s → s.mem.wf = true → Tidy s.topo → Separate s →
    Reachable s.cfg (enableRegs s.topo ++ configRegs s.topo ++ allGuardRegs s.cfg s.topo) →
    s.pads.map Prod.fst = pinsOf s.topo →
    s.ieShadow.map List.length = (s.topo.map fun c => c.groups.length) →
    ∃ m pads shadow b, exec .pwroff s = .next { answer s .ok 0 0 with
        cs := .saved
        mem := m
        pads := pads
        ieShadow := shadow
        bus := s.bus ++ b } ∧
      (∀ c ∈ s.topo, ∀ g ∈ c.groups, ∀ i < 32,
        (winWord m c.barno (bankOff c.ieOff g.regNum)).getLsbD i =
          ((winWord s.mem c.barno (bankOff c.ieOff g.regNum)).getLsbD i &&
            !(decide (i < g.size) && (slotOf s (g.base + i)).valid))) ∧
      shadow = (s.topo.map fun c => c.groups.map fun g => winWord m c.barno (bankOff c.ieOff g.regNum)) ∧
      pads.map Prod.fst = pinsOf s.topo ∧
      (∀ c ∈ s.topo, ∀ p ∈ c.pins, ∀ gi g, findGroup c p = some (gi, g) → ∃ old new,
        tableGet s.pads p = some old ∧ tableGet pads p = some new ∧
        new.captured = (isOwned s c g p && !isLocked s c g p && (slotOf s p).valid) ∧
        (new.captured = true →
          new.cfg0 = winWord s.mem c.barno (cfg0Off c p) &&& ~~~(bit s.cfg.rxStateBit.val) ∧
          new.cfg1 = winWord s.mem c.barno (cfg1Off c p) ∧
          (∀ a, cfgOff c p 2 = some a → new.cfg2 = winWord s.mem c.barno a) ∧
          (cfgOff c p 2 = none → new.cfg2 = old.cfg2)) ∧
        (new.captured = false → new.cfg0 = old.cfg0 ∧ new.cfg1 = old.cfg1 ∧ new.cfg2 = old.cfg2)) ∧
      SameOutside s.mem m (enableRegs s.topo)

/-- R220, R221, R215: PWRON resumes, then re-arms every registered
pin in GPIO mode. After it every pending word is clear; every enable word is its shadow with the bits of the re-armed pins set;
the configuration registers of a captured pin hold the snapshot (PADCFG0 as read where it agrees but for the live-state bit)
and those of a pin not captured are as they were, save that a re-armed pin's PADCFG0 has the TRIG field and INV bit of its
recorded type. Every registered pin in ACPI mode is logged once, ModeConflict, in ascending scan order, and nothing else is
logged. No other byte changes; the registrations, the recorded types and the shadow tables stay. The live-state bit that a
PADCFG0 written back ends with is the model's choice (log 6). -/
def Obligations.PowerOnResumesThenRearms : Prop :=
  ∀ s : State, s.lc = .started → s.cs = .saved → Quiet s → s.mem.wf = true → Tidy s.topo → Separate s →
    Reachable s.cfg (pendRegs s.topo ++ enableRegs s.topo ++ configRegs s.topo ++ allGuardRegs s.cfg s.topo) →
    s.trig.map Prod.fst = pinsOf s.topo →
    ∃ t, exec .pwron s = .next t ∧
      t = { answer s .ok 0 0 with
              cs := .idle, mem := t.mem, trig := t.trig, bus := t.bus, errCount := t.errCount,
              errLastCode := t.errLastCode, errLastPin := t.errLastPin } ∧
      (∀ p, tableGet t.trig p = tableGet s.trig p) ∧
      (∀ (ci : Nat) (c : Community) (gi : Nat) (g : Group), s.topo[ci]? = some c → c.groups[gi]? = some g →
        winWord t.mem c.barno (bankOff c.isOff g.regNum) = 0 ∧
        ∀ i < 32, (winWord t.mem c.barno (bankOff c.ieOff g.regNum)).getLsbD i =
          ((shadowOf s ci gi).getLsbD i ||
            (decide (i < g.size) && (slotOf s (g.base + i)).valid && isUsable s c g (g.base + i)))) ∧
      (∀ c ∈ s.topo, ∀ p ∈ c.pins, ∀ gi g, findGroup c p = some (gi, g) → ∀ v,
        v = (if (padOf s p).captured = true ∧
              winWord s.mem c.barno (cfg0Off c p) &&& ~~~(bit s.cfg.rxStateBit.val) ≠ (padOf s p).cfg0
            then (padOf s p).cfg0 else winWord s.mem c.barno (cfg0Off c p)) →
        winWord t.mem c.barno (cfg0Off c p) =
          (if (slotOf s p).valid && isUsable s c g p then setTrigWord s.cfg v ((tableGet s.trig p).getD 0) else v) ∧
        winWord t.mem c.barno (cfg1Off c p) =
          (if (padOf s p).captured then (padOf s p).cfg1 else winWord s.mem c.barno (cfg1Off c p)) ∧
        ∀ a, cfgOff c p 2 = some a →
          winWord t.mem c.barno a = if (padOf s p).captured then (padOf s p).cfg2 else winWord s.mem c.barno a) ∧
      (∀ refused, refused = (s.topo.flatMap fun c => c.pins.filter fun p =>
          (slotOf s p).valid && (findGroup c p).any fun r => !isUsable s c r.2 p) →
        t.errCount.toNat = min (s.errCount.toNat + refused.length) 0xFFFF ∧
        (∀ p, refused.getLast? = some p →
          t.errLastCode = Status.modeConflict.code ∧ (p < 2 ^ 16 → t.errLastPin.toNat = p)) ∧
        (refused = [] → t.errLastCode = s.errLastCode ∧ t.errLastPin = s.errLastPin)) ∧
      SameOutside s.mem t.mem (pendRegs s.topo ++ enableRegs s.topo ++ configRegs s.topo)

/-! ## What every operation keeps, in every environment short of a reset -/

/-- R21, R29: only BUILD, START and STOP change the lifecycle, each by its one transition; only CTXINIT, CTXSUSPEND, CTXRESUME,
CTXRELEASE, PWROFF, PWRON, START and STOP change the context state, each by its own. -/
def Obligations.LifecycleAndContextTransitions : Prop :=
  ∀ (i : Instr) (s t : State), NoReset s → exec i s = .next t →
    (t.lc = s.lc ∨ (i = .build ∧ s.lc = .reset ∧ t.lc = .built) ∨ (i = .start ∧ s.lc = .built ∧ t.lc = .started) ∨
      (i = .stop ∧ s.lc = .started ∧ t.lc = .built)) ∧
    (t.cs = s.cs ∨ (i = .ctxinit ∧ s.cs = .none ∧ t.cs = .idle) ∨
      ((i = .ctxsuspend ∨ i = .pwroff) ∧ s.cs ≠ .none ∧ t.cs = .saved) ∨
      ((i = .ctxresume ∨ i = .pwron) ∧ s.cs = .saved ∧ t.cs = .idle) ∨
      (i = .ctxrelease ∧ s.cs ≠ .none ∧ t.cs = .none) ∨ (i = .start ∧ t.cs = .idle) ∨ (i = .stop ∧ t.cs = .none))

/-- R22, R26, R27, R30, R31, R51: which operations may change the topology, the slots, the recorded types and the shadow tables;
none changes the parameters, and `bus_fault` is never cleared (R43). -/
def Obligations.OnlyTheirWritersChangeTheTables : Prop :=
  ∀ (i : Instr) (s t : State), NoReset s → exec i s = .next t →
    t.cfg = s.cfg ∧ (s.busFault = true → t.busFault = true) ∧
    (i ≠ .build → i ≠ .start → i ≠ .stop → t.topo = s.topo) ∧
    ((∀ pin owner cb ctx, i ≠ .register pin owner cb ctx ∧ i ≠ .regint pin owner cb ctx ∧ i ≠ .unregister pin ∧
        i ≠ .unregint pin) → i ≠ .start → i ≠ .stop → t.slots = s.slots) ∧
    ((∀ pin ty, i ≠ .settrig pin ty ∧ i ≠ .settypeint pin ty ∧ i ≠ .unregister pin ∧ i ≠ .unregint pin) →
      i ≠ .start → i ≠ .stop → i ≠ .pwron → t.trig = s.trig) ∧
    (i ≠ .start → i ≠ .stop → i ≠ .ctxinit → i ≠ .ctxrelease → i ≠ .ctxsuspend → i ≠ .pwroff →
      t.pads = s.pads ∧ t.ieShadow = s.ieShadow)

/-- R61: the operations that never put an access on the bus: no transaction and no change of the windows. That no outside move
falls in the middle of them is the model's schedule, a choice (log 5). -/
def Obligations.SomeOperationsNeverReachTheBus : Prop :=
  ∀ (s t : State) (pin : PinNum) (b sel : BitVec 8) (owner cb ctx : Token),
    ∀ i ∈ [Instr.build, .rescom pin, .resgrp b pin, .regoff pin sel, .mappin pin, .getstatus, .register pin owner cb ctx,
        .regint pin owner cb ctx, .gettype pin, .ctxinit, .ctxrelease],
      exec i s = .next t → t.bus = s.bus ∧ t.mem = s.mem ∧ t.env = s.env

/-- R259, R76, R159, R261: every write an operation or a pass makes goes to a pending-status word, an enable-mask word or a
configuration register of the topology; OWN, LOCK, LOCKTX, HOSTMODE and PADBASE are never written; START and the guard
operations write nothing. -/
def Obligations.WritesGoOnlyToTheirRegisters : Prop :=
  ∀ s : State, NoReset s →
    ∀ t : State, ((∃ i, exec i s = .next t) ∨ runPass s = t) →
      ∃ l, t.bus = s.bus ++ l ∧
        (∀ w off v, BusAccess.write w off v ∈ l →
          (w, off) ∈ pendRegs s.topo ++ enableRegs s.topo ++ configRegs s.topo) ∧
        (∀ pin, (exec .start s = .next t ∨ exec (.hostown pin) s = .next t ∨ exec (.gpiomode pin) s = .next t ∨
          exec (.locked pin) s = .next t ∨ exec .ctxsuspend s = .next t) → ∀ w off v, BusAccess.write w off v ∉ l)

/-! ## Invariants -/

/-- R50: the state after reset meets the invariants of the windows, the tables, the shadows and the slots that the next three
statements are about, and its sequencer is idle. -/
def Obligations.ResetMeetsTheInvariants : Prop :=
  MemoryCanonical State.reset ∧ TablesAgree State.reset ∧ ShadowsClean State.reset ∧ FreeSlotsEmpty State.reset ∧
    State.reset.seq = .idle

/-- Log 3: every step keeps the windows in their canonical form, whatever the outside agents do. -/
def Obligations.StepKeepsTheMemoryCanonical : Prop :=
  ∀ s t : State, MemoryCanonical s → step s = .next t → MemoryCanonical t

/-- R21 to R31, R124, R125, R211, R218: every step keeps the tables in agreement with the lifecycle and the context state,
whatever the outside agents do, the reset input included; the parameters never change (R51) and the sequencer is idle after
(R252). -/
def Obligations.StepKeepsTheTablesInAgreement : Prop :=
  ∀ s t : State, TablesAgree s → step s = .next t → TablesAgree t ∧ t.cfg = s.cfg ∧ t.seq = .idle

/-- R30, R214, R26: every step keeps the live-state bit out of the PADCFG0 shadows and an unregistered slot free of tokens. -/
def Obligations.StepKeepsShadowsAndSlotsClean : Prop :=
  ∀ s t : State, ShadowsClean s → FreeSlotsEmpty s → step s = .next t → ShadowsClean t ∧ FreeSlotsEmpty t
end

