-- ==== Sys2Proof/Laws/Lookup.lean ====
section
/-! SUPPORT. The laws of the tables, the lookups and the address formulas (40_topology.md R120, R129; 20_memory.md R69). -/

namespace Sys2Proof.Machine

/-! ## Tables -/

theorem tableGet_set_self {α : Type} (t : Table α) (p : Nat) (x : α) :
    tableGet (tableSet t p x) p = (tableGet t p).map fun _ => x := by
  induction t with
  | nil => rfl
  | cons e t ih =>
    simp only [tableSet, List.map_cons, tableGet] at ih ⊢
    by_cases h : e.1 = p
    · simp [h]
    · simpa [h] using ih

theorem tableGet_set_of_ne {α : Type} (t : Table α) (p q : Nat) (x : α) (h : q ≠ p) :
    tableGet (tableSet t p x) q = tableGet t q := by
  induction t with
  | nil => rfl
  | cons e t ih =>
    simp only [tableSet, List.map_cons, tableGet] at ih ⊢
    by_cases he : e.1 = p
    · have : ¬ e.1 = q := fun hq => h (hq ▸ he)
      simpa [he, this, Ne.symm h] using ih
    · by_cases hq : e.1 = q
      · simp [hq, h]
      · simpa [he, hq] using ih

/-- A write keeps the table's domain. -/
@[simp] theorem tableSet_keys {α : Type} (t : Table α) (p : Nat) (x : α) :
    (tableSet t p x).map Prod.fst = t.map Prod.fst := by
  simp only [tableSet, List.map_map]
  congr 1
  funext e
  simp only [Function.comp]
  split <;> rfl

@[simp] theorem tableInit_keys {α : Type} (ps : List Nat) (x : α) : (tableInit ps x).map Prod.fst = ps := by
  simp [tableInit, Function.comp_def]

/-- The domain of a table is the pins it has an entry for. -/
theorem tableGet_isSome {α : Type} (t : Table α) (p : Nat) : (tableGet t p).isSome ↔ p ∈ t.map Prod.fst := by
  induction t with
  | nil => simp [tableGet]
  | cons e t ih =>
    simp only [tableGet, List.map_cons, List.mem_cons]
    by_cases h : e.1 = p
    · simp [h]
    · simp [h, Ne.symm h, ih]

theorem tableGet_init {α : Type} (ps : List Nat) (x : α) (p : Nat) :
    tableGet (tableInit ps x) p = if p ∈ ps then some x else none := by
  induction ps with
  | nil => simp [tableInit, tableGet]
  | cons q ps ih =>
    simp only [tableInit, List.map_cons, tableGet] at ih ⊢
    by_cases h : q = p
    · simp [h]
    · simp [h, Ne.symm h, ih]

/-- An entry read is an entry of the list. -/
theorem tableGet_mem {α : Type} (t : Table α) (p : Nat) (x : α) (h : tableGet t p = some x) : (p, x) ∈ t := by
  induction t with
  | nil => simp [tableGet] at h
  | cons e t ih =>
    simp only [tableGet] at h
    by_cases he : e.1 = p
    · rw [if_pos he] at h
      have : e = (p, x) := Prod.ext he (Option.some.inj h)
      exact this ▸ List.mem_cons_self
    · rw [if_neg he] at h
      exact List.mem_cons_of_mem _ (ih h)

/-! ## First match (R120) -/

/-- What `firstMatch` finds: an element of the list at that index, passing the test, none before it passing. -/
theorem firstMatch_some {α : Type} (f : α → Bool) (n : Nat) (xs : List α) (i : Nat) (x : α) :
    firstMatch f n xs = some (i, x) ↔
      n ≤ i ∧ xs[i - n]? = some x ∧ f x = true ∧ ∀ j y, j < i - n → xs[j]? = some y → f y = false := by
  induction xs generalizing n with
  | nil => simp [firstMatch]
  | cons y xs ih =>
    unfold firstMatch
    by_cases hy : f y = true
    · rw [if_pos hy]
      constructor
      · intro h
        simp only [Option.some.injEq, Prod.mk.injEq] at h
        obtain ⟨rfl, rfl⟩ := h
        refine ⟨Nat.le_refl _, by simp, hy, ?_⟩
        intro j z hj
        omega
      · rintro ⟨hn, hx, -, hall⟩
        have : i - n = 0 := by
          by_contra hne
          have := hall 0 y (by omega) (by simp)
          rw [hy] at this
          cases this
        rw [this] at hx
        simp only [List.getElem?_cons_zero, Option.some.injEq] at hx
        simp only [Option.some.injEq, Prod.mk.injEq]
        exact ⟨by omega, hx⟩
    · rw [if_neg hy, ih]
      constructor
      · rintro ⟨hn, hx, hf, hall⟩
        have e : i - n = (i - (n + 1)) + 1 := by omega
        refine ⟨by omega, by rw [e]; simpa using hx, hf, ?_⟩
        intro j z hj hz
        cases j with
        | zero => simp at hz; subst hz; simpa using hy
        | succ j => exact hall j z (by omega) (by simpa using hz)
      · rintro ⟨hn, hx, hf, hall⟩
        have hne : i ≠ n := by
          intro e
          rw [e, Nat.sub_self] at hx
          simp only [List.getElem?_cons_zero, Option.some.injEq] at hx
          exact hy (hx ▸ hf)
        have e : i - n = (i - (n + 1)) + 1 := by omega
        rw [e] at hx
        refine ⟨by omega, by simpa using hx, hf, ?_⟩
        intro j z hj hz
        exact hall (j + 1) z (by omega) (by simpa using hz)

/-- `firstMatch` finds nothing exactly when no element passes the test. -/
theorem firstMatch_none {α : Type} (f : α → Bool) (n : Nat) (xs : List α) :
    firstMatch f n xs = none ↔ ∀ x ∈ xs, f x = false := by
  induction xs generalizing n with
  | nil => simp [firstMatch]
  | cons y xs ih =>
    unfold firstMatch
    by_cases hy : f y = true
    · simp [hy]
    · simp [hy, ih]

theorem Community.holds_iff (c : Community) (p : Nat) :
    c.holds p = true ↔ c.pinBase ≤ p ∧ p < c.pinBase + c.npins := by
  simp [Community.holds]

theorem Group.holds_iff (g : Group) (p : Nat) : g.holds p = true ↔ g.base ≤ p ∧ p < g.base + g.size := by
  simp [Group.holds]

/-- A community found is in the table and holds the pin. -/
theorem findCommunity_mem {topo : List Community} {p ci : Nat} {c : Community}
    (h : findCommunity topo p = some (ci, c)) : topo[ci]? = some c ∧ c ∈ topo ∧ c.holds p = true := by
  obtain ⟨-, hx, hf, -⟩ := (firstMatch_some _ _ _ _ _).mp h
  rw [Nat.sub_zero] at hx
  exact ⟨hx, List.mem_of_getElem? hx, hf⟩

/-- A group found is in the community's list and holds the pin. -/
theorem findGroup_mem {c : Community} {p gi : Nat} {g : Group} (h : findGroup c p = some (gi, g)) :
    c.groups[gi]? = some g ∧ g ∈ c.groups ∧ g.holds p = true := by
  obtain ⟨-, hx, hf, -⟩ := (firstMatch_some _ _ _ _ _).mp h
  rw [Nat.sub_zero] at hx
  exact ⟨hx, List.mem_of_getElem? hx, hf⟩

/-- What `findPin` finds: the pin's community, its group there, and its offset in the group, below the group's size. -/
theorem findPin_some {topo : List Community} {p : Nat} {l : Location} (h : findPin topo p = some l) :
    (∃ ci, findCommunity topo p = some (ci, l.c)) ∧ (∃ gi, findGroup l.c p = some (gi, l.g)) ∧
      l.c ∈ topo ∧ l.g ∈ l.c.groups ∧ l.g.base ≤ p ∧ l.o = p - l.g.base ∧ l.o < l.g.size := by
  unfold findPin at h
  split at h
  · cases h
  · rename_i ci c hc
    split at h
    · cases h
    · rename_i gi g hg
      cases h
      obtain ⟨-, hm, -⟩ := findCommunity_mem hc
      obtain ⟨-, hm', hh⟩ := findGroup_mem hg
      have hh' := (Group.holds_iff _ _).mp hh
      refine ⟨⟨ci, hc⟩, ⟨gi, hg⟩, hm, hm', hh'.1, rfl, ?_⟩
      show p - g.base < g.size
      omega

theorem mem_communityPins (c : Community) (p : Nat) : p ∈ c.pins ↔ c.holds p = true := by
  rw [Community.holds_iff, Community.pins, List.mem_range'_1]

theorem mem_pinsOf (topo : List Community) (p : Nat) : p ∈ pinsOf topo ↔ ∃ c ∈ topo, c.holds p = true := by
  simp [pinsOf, mem_communityPins]

/-- A pin lies in the domain of the pin tables exactly when a community is found for it (R26). -/
theorem mem_pinsOf_iff_found (topo : List Community) (p : Nat) :
    p ∈ pinsOf topo ↔ (findCommunity topo p).isSome := by
  rw [mem_pinsOf]
  constructor
  · rintro ⟨c, hc, hh⟩
    by_contra hn
    rw [Option.not_isSome_iff_eq_none] at hn
    have := (firstMatch_none _ _ _).mp hn c hc
    simp [hh] at this
  · intro h
    obtain ⟨⟨ci, c⟩, hc⟩ := Option.isSome_iff_exists.mp h
    exact ⟨c, (findCommunity_mem hc).2⟩

/-! ## Address formulas (R69) -/

/-- Only the debounce register of a community without debounce has no address (R69). -/
theorem cfgOff_eq_none (c : Community) (p which : Nat) :
    cfgOff c p which = none ↔ which = 2 ∧ c.featDebounce = false := by
  unfold cfgOff; split <;> simp_all

theorem cfgOff_zero (c : Community) (p : Nat) : cfgOff c p 0 = some (cfg0Off c p) := by
  simp [cfgOff, cfg0Off]

theorem cfgOff_one (c : Community) (p : Nat) : cfgOff c p 1 = some (cfg1Off c p) := by
  simp [cfgOff, cfg1Off]

/-- A number that fits its field is the field's value. -/
theorem fieldOf_of_lt {w n : Nat} (h : n < 2 ^ w) : fieldOf w n = BitVec.ofNat w n := by
  simp [fieldOf, h]

end Sys2Proof.Machine
end

