-- ==== Sys2Proof/Laws/Memory.lean ====
section
/-! SUPPORT. The laws of the windows: a byte after a byte write, a word after a word write, the canonical form. -/

namespace Sys2Proof.Machine

@[simp] theorem Memory.get_nil (a : Nat) : Memory.get [] a = unlisted := rfl

theorem Memory.get_cons (e : Host.Cell) (m : Memory) (a : Nat) :
    Memory.get (e :: m) a = if e.1 = a then e.2 else Memory.get m a := rfl

/-- A canonical memory whose addresses are all at least `lo` lists nothing below `lo`. -/
theorem Memory.get_of_lt (m : Memory) (lo a : Nat) (h : Memory.wfFrom lo m = true) (ha : a < lo) :
    Memory.get m a = unlisted := by
  induction m generalizing lo with
  | nil => rfl
  | cons e m ih =>
    simp only [Memory.wfFrom, Bool.and_eq_true, decide_eq_true_eq] at h
    rw [Memory.get_cons, if_neg (by omega)]
    exact ih (e.1 + 1) h.2 (by omega)

theorem Memory.wfFrom_mono (m : Memory) (lo lo' : Nat) (h : Memory.wfFrom lo m = true) (hl : lo' ≤ lo) :
    Memory.wfFrom lo' m = true := by
  cases m with
  | nil => rfl
  | cons e m =>
    simp only [Memory.wfFrom, Bool.and_eq_true, decide_eq_true_eq] at h ⊢
    exact ⟨⟨by omega, h.1.2⟩, h.2⟩

/-- A byte write keeps the canonical form from any lower bound that admits its address. -/
theorem Memory.wfFrom_set (m : Memory) (lo a : Nat) (b : Byte) (h : Memory.wfFrom lo m = true) (ha : lo ≤ a) :
    Memory.wfFrom lo (Memory.set m a b) = true := by
  induction m generalizing lo with
  | nil => unfold Memory.set; split <;> simp_all [Memory.wfFrom]
  | cons e m ih =>
    have h0 := h
    simp only [Memory.wfFrom, Bool.and_eq_true, decide_eq_true_eq] at h
    unfold Memory.set
    split
    · simp only [Memory.wfFrom, Bool.and_eq_true, decide_eq_true_eq]
      exact ⟨h.1, ih _ h.2 (by omega)⟩
    · split
      · split
        · exact Memory.wfFrom_mono _ _ _ h.2 (by omega)
        · simp_all [Memory.wfFrom]
      · split
        · exact h0
        · simp only [Memory.wfFrom, Bool.and_eq_true, decide_eq_true_eq, bne_iff_ne]
          refine ⟨⟨ha, by assumption⟩, ⟨by omega, ?_⟩, h.2⟩
          simpa using h.1.2

theorem Memory.wf_set (m : Memory) (a : Nat) (b : Byte) (h : m.wf = true) : (Memory.set m a b).wf = true :=
  Memory.wfFrom_set m 0 a b h (Nat.zero_le _)

theorem wf_writeWord (m : Memory) (a : Nat) (v : Word) (h : m.wf = true) : (writeWord m a v).wf = true := by
  unfold writeWord
  exact Memory.wf_set _ _ _ (Memory.wf_set _ _ _ (Memory.wf_set _ _ _ (Memory.wf_set _ _ _ h)))

theorem wf_padWrite (cfg : Params) (m : Memory) (w off : Nat) (v : Word) (h : m.wf = true) :
    (padWrite cfg m w off v).wf = true := wf_writeWord _ _ _ h

theorem wf_storeWord (cfg : Params) (m : Memory) (w off : Nat) (v : Word) (h : m.wf = true) :
    (storeWord cfg m w off v).wf = true := by
  unfold storeWord; split
  · exact wf_writeWord _ _ _ h
  · exact h

/-- A byte read after a byte write, in a canonical memory. -/
theorem Memory.get_set_from (m : Memory) (lo a c : Nat) (b : Byte) (h : Memory.wfFrom lo m = true) :
    Memory.get (Memory.set m a b) c = if c = a then b else Memory.get m c := by
  induction m generalizing lo with
  | nil =>
    unfold Memory.set
    by_cases hb : b = unlisted
    · simp [hb]
    · by_cases hc : c = a
      · simp [hb, hc, Memory.get_cons]
      · simp [hb, hc, Memory.get_cons, Ne.symm hc]
  | cons e m ih =>
    simp only [Memory.wfFrom, Bool.and_eq_true, decide_eq_true_eq] at h
    have ih' := ih _ h.2
    unfold Memory.set
    split
    · rw [Memory.get_cons, Memory.get_cons, ih']
      by_cases h1 : e.1 = c
      · rw [if_pos h1, if_pos h1, if_neg (by omega)]
      · rw [if_neg h1, if_neg h1]
    · split
      · rename_i h1 h2
        split
        · rename_i h3
          by_cases hc : c = a
          · rw [if_pos hc, h3, Memory.get_of_lt m (e.1 + 1) c h.2 (by omega)]
          · rw [if_neg hc, Memory.get_cons, if_neg (by omega)]
        · by_cases hc : c = a
          · rw [if_pos hc, Memory.get_cons, if_pos hc.symm]
          · rw [if_neg hc, Memory.get_cons, Memory.get_cons, if_neg (Ne.symm hc), if_neg (by omega)]
      · rename_i h1 h2
        split
        · rename_i h3
          by_cases hc : c = a
          · rw [if_pos hc, h3, Memory.get_cons, if_neg (by omega), Memory.get_of_lt m (e.1 + 1) c h.2 (by omega)]
          · rw [if_neg hc]
        · by_cases hc : c = a
          · rw [if_pos hc, Memory.get_cons, if_pos hc.symm]
          · rw [if_neg hc, Memory.get_cons, if_neg (Ne.symm hc)]

/-- A byte read after a byte write. -/
theorem Memory.get_set (m : Memory) (a c : Nat) (b : Byte) (h : m.wf = true) :
    Memory.get (Memory.set m a b) c = if c = a then b else Memory.get m c := Memory.get_set_from m 0 a c b h

/-- A byte read after a word write. -/
theorem get_writeWord (m : Memory) (a c : Nat) (v : Word) (h : m.wf = true) :
    Memory.get (writeWord m a v) c =
      if c = a + 3 then v.extractLsb' 24 8 else if c = a + 2 then v.extractLsb' 16 8
      else if c = a + 1 then v.extractLsb' 8 8 else if c = a then v.extractLsb' 0 8 else Memory.get m c := by
  unfold writeWord
  have h1 := Memory.wf_set m a (v.extractLsb' 0 8) h
  have h2 := Memory.wf_set _ (a + 1) (v.extractLsb' 8 8) h1
  have h3 := Memory.wf_set _ (a + 2) (v.extractLsb' 16 8) h2
  rw [Memory.get_set _ _ _ _ h3, Memory.get_set _ _ _ _ h2, Memory.get_set _ _ _ _ h1, Memory.get_set _ _ _ _ h]

/-- A word write leaves every byte outside its four bytes alone. -/
theorem get_writeWord_of_outside (m : Memory) (a c : Nat) (v : Word) (h : m.wf = true) (hc : c < a ∨ a + 4 ≤ c) :
    Memory.get (writeWord m a v) c = Memory.get m c := by
  rw [get_writeWord m a c v h, if_neg (by omega), if_neg (by omega), if_neg (by omega), if_neg (by omega)]

/-- A word is its four bytes. -/
theorem bytes_of_word (v : Word) :
    v.extractLsb' 24 8 ++ v.extractLsb' 16 8 ++ v.extractLsb' 8 8 ++ v.extractLsb' 0 8 = v := by
  apply BitVec.eq_of_getLsbD_eq
  intro i hi
  simp only [BitVec.getLsbD_append, BitVec.getLsbD_extractLsb']
  by_cases h0 : i < 8
  · simp [h0]
  · by_cases h1 : i < 16
    · have : i - 8 < 8 := by omega
      simp [h0, this, show 8 + (i - 8) = i by omega]
    · by_cases h2 : i < 24
      · have a1 : ¬ i - 8 < 8 := by omega
        have a2 : i - 8 - 8 < 8 := by omega
        simp [h0, a1, a2, show 16 + (i - 8 - 8) = i by omega]
      · have a1 : ¬ i - 8 < 8 := by omega
        have a2 : ¬ i - 8 - 8 < 8 := by omega
        have a3 : i - 8 - 8 - 8 < 8 := by omega
        simp [h0, a1, a2, a3, show 24 + (i - 8 - 8 - 8) = i by omega]

/-- A word read after a write of the same word. -/
theorem readWord_writeWord (m : Memory) (a : Nat) (v : Word) (h : m.wf = true) :
    readWord (writeWord m a v) a = v := by
  unfold readWord
  rw [get_writeWord m a _ v h, get_writeWord m a _ v h, get_writeWord m a _ v h, get_writeWord m a _ v h]
  simp
  exact bytes_of_word v

/-- A word read after a write of a word that shares no byte with it. -/
theorem readWord_writeWord_of_disjoint (m : Memory) (a c : Nat) (v : Word) (h : m.wf = true)
    (hc : c + 4 ≤ a ∨ a + 4 ≤ c) : readWord (writeWord m a v) c = readWord m c := by
  unfold readWord
  rw [get_writeWord_of_outside m a _ v h (by omega), get_writeWord_of_outside m a _ v h (by omega),
    get_writeWord_of_outside m a _ v h (by omega), get_writeWord_of_outside m a _ v h (by omega)]

/-- What the check of R66 says: the window exists, the offset is aligned and the word fits in less than 2^32 bytes. -/
theorem accessOk_bounds {cfg : Params} {w off : Nat} (h : accessOk cfg w off = true) :
    w < cfg.nwin ∧ off % 4 = 0 ∧ off + 4 ≤ 2 ^ 32 := by
  unfold accessOk at h
  split at h
  · simp at h
  · rename_i n hn
    simp only [Bool.and_eq_true, decide_eq_true_eq] at h
    have := n.isLt
    exact ⟨(List.getElem?_eq_some_iff.mp hn).1, h.1, by omega⟩

/-- Two checked accesses at different places share no byte. -/
theorem winAddr_disjoint {cfg : Params} {w off w' off' : Nat} (h : accessOk cfg w off = true)
    (h' : accessOk cfg w' off' = true) (hne : (w, off) ≠ (w', off')) :
    winAddr w off + 4 ≤ winAddr w' off' ∨ winAddr w' off' + 4 ≤ winAddr w off := by
  obtain ⟨-, ha, hb⟩ := accessOk_bounds h
  obtain ⟨-, ha', hb'⟩ := accessOk_bounds h'
  unfold winAddr
  rcases Nat.lt_trichotomy w w' with hw | hw | hw
  · left; nlinarith
  · subst hw
    have : off ≠ off' := fun e => hne (by rw [e])
    omega
  · right; nlinarith

/-- The word at (w, off) after a bus write to it (R76). -/
theorem winWord_padWrite (cfg : Params) (m : Memory) (w off : Nat) (v : Word) (h : m.wf = true) :
    winWord (padWrite cfg m w off v) w off = padValue cfg w off (winWord m w off) v :=
  readWord_writeWord _ _ _ h

/-- A bus write leaves every other checked word alone. -/
theorem winWord_padWrite_of_ne (cfg : Params) (m : Memory) (w off w' off' : Nat) (v : Word) (h : m.wf = true)
    (hok : accessOk cfg w off = true) (hok' : accessOk cfg w' off' = true) (hne : (w', off') ≠ (w, off)) :
    winWord (padWrite cfg m w off v) w' off' = winWord m w' off' := by
  refine readWord_writeWord_of_disjoint _ _ _ _ h ?_
  exact winAddr_disjoint hok' hok hne

end Sys2Proof.Machine
end

