-- ==== Sys2Proof/Laws/State.lean ====
section
/-! SUPPORT. One lemma for each field under each named update of the state, so that no proof unfolds a record update. -/

namespace Sys2Proof.Machine

/-! ## record -/

@[simp] theorem record_cfg (a : BusAccess) (s : State) : (record a s).cfg = s.cfg := rfl
@[simp] theorem record_lc (a : BusAccess) (s : State) : (record a s).lc = s.lc := rfl
@[simp] theorem record_topo (a : BusAccess) (s : State) : (record a s).topo = s.topo := rfl
@[simp] theorem record_slots (a : BusAccess) (s : State) : (record a s).slots = s.slots := rfl
@[simp] theorem record_trig (a : BusAccess) (s : State) : (record a s).trig = s.trig := rfl
@[simp] theorem record_cs (a : BusAccess) (s : State) : (record a s).cs = s.cs := rfl
@[simp] theorem record_pads (a : BusAccess) (s : State) : (record a s).pads = s.pads := rfl
@[simp] theorem record_ieShadow (a : BusAccess) (s : State) : (record a s).ieShadow = s.ieShadow := rfl
@[simp] theorem record_busFault (a : BusAccess) (s : State) : (record a s).busFault = s.busFault := rfl
@[simp] theorem record_errCount (a : BusAccess) (s : State) : (record a s).errCount = s.errCount := rfl
@[simp] theorem record_errLastCode (a : BusAccess) (s : State) : (record a s).errLastCode = s.errLastCode := rfl
@[simp] theorem record_errLastPin (a : BusAccess) (s : State) : (record a s).errLastPin = s.errLastPin := rfl
@[simp] theorem record_irqNotif (a : BusAccess) (s : State) : (record a s).irqNotif = s.irqNotif := rfl
@[simp] theorem record_seq (a : BusAccess) (s : State) : (record a s).seq = s.seq.advance := rfl
@[simp] theorem record_mem (a : BusAccess) (s : State) : (record a s).mem = s.mem := rfl
@[simp] theorem record_cmds (a : BusAccess) (s : State) : (record a s).cmds = s.cmds := rfl
@[simp] theorem record_resp (a : BusAccess) (s : State) : (record a s).resp = s.resp := rfl
@[simp] theorem record_calls (a : BusAccess) (s : State) : (record a s).calls = s.calls := rfl
@[simp] theorem record_bus (a : BusAccess) (s : State) : (record a s).bus = s.bus ++ [a] := rfl
@[simp] theorem record_env (a : BusAccess) (s : State) : (record a s).env = s.env := rfl
@[simp] theorem record_arb (a : BusAccess) (s : State) : (record a s).arb = s.arb := rfl
@[simp] theorem record_free (a : BusAccess) (s : State) : (record a s).free = s.free := rfl

/-! ## standAt -/

@[simp] theorem standAt_cfg (f : Position → Position) (s : State) : (standAt f s).cfg = s.cfg := rfl
@[simp] theorem standAt_lc (f : Position → Position) (s : State) : (standAt f s).lc = s.lc := rfl
@[simp] theorem standAt_topo (f : Position → Position) (s : State) : (standAt f s).topo = s.topo := rfl
@[simp] theorem standAt_slots (f : Position → Position) (s : State) : (standAt f s).slots = s.slots := rfl
@[simp] theorem standAt_trig (f : Position → Position) (s : State) : (standAt f s).trig = s.trig := rfl
@[simp] theorem standAt_cs (f : Position → Position) (s : State) : (standAt f s).cs = s.cs := rfl
@[simp] theorem standAt_pads (f : Position → Position) (s : State) : (standAt f s).pads = s.pads := rfl
@[simp] theorem standAt_ieShadow (f : Position → Position) (s : State) : (standAt f s).ieShadow = s.ieShadow := rfl
@[simp] theorem standAt_busFault (f : Position → Position) (s : State) : (standAt f s).busFault = s.busFault := rfl
@[simp] theorem standAt_errCount (f : Position → Position) (s : State) : (standAt f s).errCount = s.errCount := rfl
@[simp] theorem standAt_errLastCode (f : Position → Position) (s : State) : (standAt f s).errLastCode = s.errLastCode := rfl
@[simp] theorem standAt_errLastPin (f : Position → Position) (s : State) : (standAt f s).errLastPin = s.errLastPin := rfl
@[simp] theorem standAt_irqNotif (f : Position → Position) (s : State) : (standAt f s).irqNotif = s.irqNotif := rfl
@[simp] theorem standAt_seq (f : Position → Position) (s : State) : (standAt f s).seq = (match s.seq with | .idle => .idle | .running r pos => .running r (f pos)) := rfl
@[simp] theorem standAt_mem (f : Position → Position) (s : State) : (standAt f s).mem = s.mem := rfl
@[simp] theorem standAt_cmds (f : Position → Position) (s : State) : (standAt f s).cmds = s.cmds := rfl
@[simp] theorem standAt_resp (f : Position → Position) (s : State) : (standAt f s).resp = s.resp := rfl
@[simp] theorem standAt_calls (f : Position → Position) (s : State) : (standAt f s).calls = s.calls := rfl
@[simp] theorem standAt_bus (f : Position → Position) (s : State) : (standAt f s).bus = s.bus := rfl
@[simp] theorem standAt_env (f : Position → Position) (s : State) : (standAt f s).env = s.env := rfl
@[simp] theorem standAt_arb (f : Position → Position) (s : State) : (standAt f s).arb = s.arb := rfl
@[simp] theorem standAt_free (f : Position → Position) (s : State) : (standAt f s).free = s.free := rfl

/-! ## putWord -/

@[simp] theorem putWord_cfg (w off : Nat) (v : Word) (s : State) : (putWord w off v s).cfg = s.cfg := rfl
@[simp] theorem putWord_lc (w off : Nat) (v : Word) (s : State) : (putWord w off v s).lc = s.lc := rfl
@[simp] theorem putWord_topo (w off : Nat) (v : Word) (s : State) : (putWord w off v s).topo = s.topo := rfl
@[simp] theorem putWord_slots (w off : Nat) (v : Word) (s : State) : (putWord w off v s).slots = s.slots := rfl
@[simp] theorem putWord_trig (w off : Nat) (v : Word) (s : State) : (putWord w off v s).trig = s.trig := rfl
@[simp] theorem putWord_cs (w off : Nat) (v : Word) (s : State) : (putWord w off v s).cs = s.cs := rfl
@[simp] theorem putWord_pads (w off : Nat) (v : Word) (s : State) : (putWord w off v s).pads = s.pads := rfl
@[simp] theorem putWord_ieShadow (w off : Nat) (v : Word) (s : State) : (putWord w off v s).ieShadow = s.ieShadow := rfl
@[simp] theorem putWord_busFault (w off : Nat) (v : Word) (s : State) : (putWord w off v s).busFault = s.busFault := rfl
@[simp] theorem putWord_errCount (w off : Nat) (v : Word) (s : State) : (putWord w off v s).errCount = s.errCount := rfl
@[simp] theorem putWord_errLastCode (w off : Nat) (v : Word) (s : State) : (putWord w off v s).errLastCode = s.errLastCode := rfl
@[simp] theorem putWord_errLastPin (w off : Nat) (v : Word) (s : State) : (putWord w off v s).errLastPin = s.errLastPin := rfl
@[simp] theorem putWord_irqNotif (w off : Nat) (v : Word) (s : State) : (putWord w off v s).irqNotif = s.irqNotif := rfl
@[simp] theorem putWord_seq (w off : Nat) (v : Word) (s : State) : (putWord w off v s).seq = s.seq := rfl
@[simp] theorem putWord_mem (w off : Nat) (v : Word) (s : State) : (putWord w off v s).mem = padWrite s.cfg s.mem w off v := rfl
@[simp] theorem putWord_cmds (w off : Nat) (v : Word) (s : State) : (putWord w off v s).cmds = s.cmds := rfl
@[simp] theorem putWord_resp (w off : Nat) (v : Word) (s : State) : (putWord w off v s).resp = s.resp := rfl
@[simp] theorem putWord_calls (w off : Nat) (v : Word) (s : State) : (putWord w off v s).calls = s.calls := rfl
@[simp] theorem putWord_bus (w off : Nat) (v : Word) (s : State) : (putWord w off v s).bus = s.bus := rfl
@[simp] theorem putWord_env (w off : Nat) (v : Word) (s : State) : (putWord w off v s).env = s.env := rfl
@[simp] theorem putWord_arb (w off : Nat) (v : Word) (s : State) : (putWord w off v s).arb = s.arb := rfl
@[simp] theorem putWord_free (w off : Nat) (v : Word) (s : State) : (putWord w off v s).free = s.free := rfl

/-! ## takeCommand -/

@[simp] theorem takeCommand_cfg (r : Request) (s : State) : (takeCommand r s).cfg = s.cfg := rfl
@[simp] theorem takeCommand_lc (r : Request) (s : State) : (takeCommand r s).lc = s.lc := rfl
@[simp] theorem takeCommand_topo (r : Request) (s : State) : (takeCommand r s).topo = s.topo := rfl
@[simp] theorem takeCommand_slots (r : Request) (s : State) : (takeCommand r s).slots = s.slots := rfl
@[simp] theorem takeCommand_trig (r : Request) (s : State) : (takeCommand r s).trig = s.trig := rfl
@[simp] theorem takeCommand_cs (r : Request) (s : State) : (takeCommand r s).cs = s.cs := rfl
@[simp] theorem takeCommand_pads (r : Request) (s : State) : (takeCommand r s).pads = s.pads := rfl
@[simp] theorem takeCommand_ieShadow (r : Request) (s : State) : (takeCommand r s).ieShadow = s.ieShadow := rfl
@[simp] theorem takeCommand_busFault (r : Request) (s : State) : (takeCommand r s).busFault = s.busFault := rfl
@[simp] theorem takeCommand_errCount (r : Request) (s : State) : (takeCommand r s).errCount = s.errCount := rfl
@[simp] theorem takeCommand_errLastCode (r : Request) (s : State) : (takeCommand r s).errLastCode = s.errLastCode := rfl
@[simp] theorem takeCommand_errLastPin (r : Request) (s : State) : (takeCommand r s).errLastPin = s.errLastPin := rfl
@[simp] theorem takeCommand_irqNotif (r : Request) (s : State) : (takeCommand r s).irqNotif = s.irqNotif := rfl
@[simp] theorem takeCommand_seq (r : Request) (s : State) : (takeCommand r s).seq = .running r .start := rfl
@[simp] theorem takeCommand_mem (r : Request) (s : State) : (takeCommand r s).mem = s.mem := rfl
@[simp] theorem takeCommand_cmds (r : Request) (s : State) : (takeCommand r s).cmds = s.cmds.tail := rfl
@[simp] theorem takeCommand_resp (r : Request) (s : State) : (takeCommand r s).resp = s.resp := rfl
@[simp] theorem takeCommand_calls (r : Request) (s : State) : (takeCommand r s).calls = s.calls := rfl
@[simp] theorem takeCommand_bus (r : Request) (s : State) : (takeCommand r s).bus = s.bus := rfl
@[simp] theorem takeCommand_env (r : Request) (s : State) : (takeCommand r s).env = s.env := rfl
@[simp] theorem takeCommand_arb (r : Request) (s : State) : (takeCommand r s).arb = s.arb := rfl
@[simp] theorem takeCommand_free (r : Request) (s : State) : (takeCommand r s).free = s.free := rfl

/-! ## takePass -/

@[simp] theorem takePass_cfg (s : State) : (takePass s).cfg = s.cfg := rfl
@[simp] theorem takePass_lc (s : State) : (takePass s).lc = s.lc := rfl
@[simp] theorem takePass_topo (s : State) : (takePass s).topo = s.topo := rfl
@[simp] theorem takePass_slots (s : State) : (takePass s).slots = s.slots := rfl
@[simp] theorem takePass_trig (s : State) : (takePass s).trig = s.trig := rfl
@[simp] theorem takePass_cs (s : State) : (takePass s).cs = s.cs := rfl
@[simp] theorem takePass_pads (s : State) : (takePass s).pads = s.pads := rfl
@[simp] theorem takePass_ieShadow (s : State) : (takePass s).ieShadow = s.ieShadow := rfl
@[simp] theorem takePass_busFault (s : State) : (takePass s).busFault = s.busFault := rfl
@[simp] theorem takePass_errCount (s : State) : (takePass s).errCount = s.errCount := rfl
@[simp] theorem takePass_errLastCode (s : State) : (takePass s).errLastCode = s.errLastCode := rfl
@[simp] theorem takePass_errLastPin (s : State) : (takePass s).errLastPin = s.errLastPin := rfl
@[simp] theorem takePass_irqNotif (s : State) : (takePass s).irqNotif = s.irqNotif - 1 := rfl
@[simp] theorem takePass_seq (s : State) : (takePass s).seq = .running .pass .start := rfl
@[simp] theorem takePass_mem (s : State) : (takePass s).mem = s.mem := rfl
@[simp] theorem takePass_cmds (s : State) : (takePass s).cmds = s.cmds := rfl
@[simp] theorem takePass_resp (s : State) : (takePass s).resp = s.resp := rfl
@[simp] theorem takePass_calls (s : State) : (takePass s).calls = s.calls := rfl
@[simp] theorem takePass_bus (s : State) : (takePass s).bus = s.bus := rfl
@[simp] theorem takePass_env (s : State) : (takePass s).env = s.env := rfl
@[simp] theorem takePass_arb (s : State) : (takePass s).arb = s.arb := rfl
@[simp] theorem takePass_free (s : State) : (takePass s).free = s.free := rfl

/-! ## respond -/

@[simp] theorem respond_cfg (r : Response) (s : State) : (respond r s).cfg = s.cfg := rfl
@[simp] theorem respond_lc (r : Response) (s : State) : (respond r s).lc = s.lc := rfl
@[simp] theorem respond_topo (r : Response) (s : State) : (respond r s).topo = s.topo := rfl
@[simp] theorem respond_slots (r : Response) (s : State) : (respond r s).slots = s.slots := rfl
@[simp] theorem respond_trig (r : Response) (s : State) : (respond r s).trig = s.trig := rfl
@[simp] theorem respond_cs (r : Response) (s : State) : (respond r s).cs = s.cs := rfl
@[simp] theorem respond_pads (r : Response) (s : State) : (respond r s).pads = s.pads := rfl
@[simp] theorem respond_ieShadow (r : Response) (s : State) : (respond r s).ieShadow = s.ieShadow := rfl
@[simp] theorem respond_busFault (r : Response) (s : State) : (respond r s).busFault = s.busFault := rfl
@[simp] theorem respond_errCount (r : Response) (s : State) : (respond r s).errCount = s.errCount := rfl
@[simp] theorem respond_errLastCode (r : Response) (s : State) : (respond r s).errLastCode = s.errLastCode := rfl
@[simp] theorem respond_errLastPin (r : Response) (s : State) : (respond r s).errLastPin = s.errLastPin := rfl
@[simp] theorem respond_irqNotif (r : Response) (s : State) : (respond r s).irqNotif = s.irqNotif := rfl
@[simp] theorem respond_seq (r : Response) (s : State) : (respond r s).seq = .idle := rfl
@[simp] theorem respond_mem (r : Response) (s : State) : (respond r s).mem = s.mem := rfl
@[simp] theorem respond_cmds (r : Response) (s : State) : (respond r s).cmds = s.cmds := rfl
@[simp] theorem respond_resp (r : Response) (s : State) : (respond r s).resp = s.resp ++ [r.pack] := rfl
@[simp] theorem respond_calls (r : Response) (s : State) : (respond r s).calls = s.calls := rfl
@[simp] theorem respond_bus (r : Response) (s : State) : (respond r s).bus = s.bus := rfl
@[simp] theorem respond_env (r : Response) (s : State) : (respond r s).env = s.env := rfl
@[simp] theorem respond_arb (r : Response) (s : State) : (respond r s).arb = s.arb := rfl
@[simp] theorem respond_free (r : Response) (s : State) : (respond r s).free = s.free := rfl

/-! ## logErr -/

@[simp] theorem logErr_cfg (st : Status) (p : Nat) (s : State) : (logErr st p s).cfg = s.cfg := rfl
@[simp] theorem logErr_lc (st : Status) (p : Nat) (s : State) : (logErr st p s).lc = s.lc := rfl
@[simp] theorem logErr_topo (st : Status) (p : Nat) (s : State) : (logErr st p s).topo = s.topo := rfl
@[simp] theorem logErr_slots (st : Status) (p : Nat) (s : State) : (logErr st p s).slots = s.slots := rfl
@[simp] theorem logErr_trig (st : Status) (p : Nat) (s : State) : (logErr st p s).trig = s.trig := rfl
@[simp] theorem logErr_cs (st : Status) (p : Nat) (s : State) : (logErr st p s).cs = s.cs := rfl
@[simp] theorem logErr_pads (st : Status) (p : Nat) (s : State) : (logErr st p s).pads = s.pads := rfl
@[simp] theorem logErr_ieShadow (st : Status) (p : Nat) (s : State) : (logErr st p s).ieShadow = s.ieShadow := rfl
@[simp] theorem logErr_busFault (st : Status) (p : Nat) (s : State) : (logErr st p s).busFault = s.busFault := rfl
@[simp] theorem logErr_errCount (st : Status) (p : Nat) (s : State) : (logErr st p s).errCount = if s.errCount = 0xFFFF then 0xFFFF else s.errCount + 1 := rfl
@[simp] theorem logErr_errLastCode (st : Status) (p : Nat) (s : State) : (logErr st p s).errLastCode = st.code := rfl
@[simp] theorem logErr_errLastPin (st : Status) (p : Nat) (s : State) : (logErr st p s).errLastPin = fieldOf 16 p := rfl
@[simp] theorem logErr_irqNotif (st : Status) (p : Nat) (s : State) : (logErr st p s).irqNotif = s.irqNotif := rfl
@[simp] theorem logErr_seq (st : Status) (p : Nat) (s : State) : (logErr st p s).seq = s.seq := rfl
@[simp] theorem logErr_mem (st : Status) (p : Nat) (s : State) : (logErr st p s).mem = s.mem := rfl
@[simp] theorem logErr_cmds (st : Status) (p : Nat) (s : State) : (logErr st p s).cmds = s.cmds := rfl
@[simp] theorem logErr_resp (st : Status) (p : Nat) (s : State) : (logErr st p s).resp = s.resp := rfl
@[simp] theorem logErr_calls (st : Status) (p : Nat) (s : State) : (logErr st p s).calls = s.calls := rfl
@[simp] theorem logErr_bus (st : Status) (p : Nat) (s : State) : (logErr st p s).bus = s.bus := rfl
@[simp] theorem logErr_env (st : Status) (p : Nat) (s : State) : (logErr st p s).env = s.env := rfl
@[simp] theorem logErr_arb (st : Status) (p : Nat) (s : State) : (logErr st p s).arb = s.arb := rfl
@[simp] theorem logErr_free (st : Status) (p : Nat) (s : State) : (logErr st p s).free = s.free := rfl

/-! ## setSlot -/

@[simp] theorem setSlot_cfg (p : Nat) (sl : Slot) (s : State) : (setSlot p sl s).cfg = s.cfg := rfl
@[simp] theorem setSlot_lc (p : Nat) (sl : Slot) (s : State) : (setSlot p sl s).lc = s.lc := rfl
@[simp] theorem setSlot_topo (p : Nat) (sl : Slot) (s : State) : (setSlot p sl s).topo = s.topo := rfl
@[simp] theorem setSlot_slots (p : Nat) (sl : Slot) (s : State) : (setSlot p sl s).slots = tableSet s.slots p sl := rfl
@[simp] theorem setSlot_trig (p : Nat) (sl : Slot) (s : State) : (setSlot p sl s).trig = s.trig := rfl
@[simp] theorem setSlot_cs (p : Nat) (sl : Slot) (s : State) : (setSlot p sl s).cs = s.cs := rfl
@[simp] theorem setSlot_pads (p : Nat) (sl : Slot) (s : State) : (setSlot p sl s).pads = s.pads := rfl
@[simp] theorem setSlot_ieShadow (p : Nat) (sl : Slot) (s : State) : (setSlot p sl s).ieShadow = s.ieShadow := rfl
@[simp] theorem setSlot_busFault (p : Nat) (sl : Slot) (s : State) : (setSlot p sl s).busFault = s.busFault := rfl
@[simp] theorem setSlot_errCount (p : Nat) (sl : Slot) (s : State) : (setSlot p sl s).errCount = s.errCount := rfl
@[simp] theorem setSlot_errLastCode (p : Nat) (sl : Slot) (s : State) : (setSlot p sl s).errLastCode = s.errLastCode := rfl
@[simp] theorem setSlot_errLastPin (p : Nat) (sl : Slot) (s : State) : (setSlot p sl s).errLastPin = s.errLastPin := rfl
@[simp] theorem setSlot_irqNotif (p : Nat) (sl : Slot) (s : State) : (setSlot p sl s).irqNotif = s.irqNotif := rfl
@[simp] theorem setSlot_seq (p : Nat) (sl : Slot) (s : State) : (setSlot p sl s).seq = s.seq := rfl
@[simp] theorem setSlot_mem (p : Nat) (sl : Slot) (s : State) : (setSlot p sl s).mem = s.mem := rfl
@[simp] theorem setSlot_cmds (p : Nat) (sl : Slot) (s : State) : (setSlot p sl s).cmds = s.cmds := rfl
@[simp] theorem setSlot_resp (p : Nat) (sl : Slot) (s : State) : (setSlot p sl s).resp = s.resp := rfl
@[simp] theorem setSlot_calls (p : Nat) (sl : Slot) (s : State) : (setSlot p sl s).calls = s.calls := rfl
@[simp] theorem setSlot_bus (p : Nat) (sl : Slot) (s : State) : (setSlot p sl s).bus = s.bus := rfl
@[simp] theorem setSlot_env (p : Nat) (sl : Slot) (s : State) : (setSlot p sl s).env = s.env := rfl
@[simp] theorem setSlot_arb (p : Nat) (sl : Slot) (s : State) : (setSlot p sl s).arb = s.arb := rfl
@[simp] theorem setSlot_free (p : Nat) (sl : Slot) (s : State) : (setSlot p sl s).free = s.free := rfl

/-! ## setTrig -/

@[simp] theorem setTrig_cfg (p : Nat) (t : BitVec 8) (s : State) : (setTrig p t s).cfg = s.cfg := rfl
@[simp] theorem setTrig_lc (p : Nat) (t : BitVec 8) (s : State) : (setTrig p t s).lc = s.lc := rfl
@[simp] theorem setTrig_topo (p : Nat) (t : BitVec 8) (s : State) : (setTrig p t s).topo = s.topo := rfl
@[simp] theorem setTrig_slots (p : Nat) (t : BitVec 8) (s : State) : (setTrig p t s).slots = s.slots := rfl
@[simp] theorem setTrig_trig (p : Nat) (t : BitVec 8) (s : State) : (setTrig p t s).trig = tableSet s.trig p t := rfl
@[simp] theorem setTrig_cs (p : Nat) (t : BitVec 8) (s : State) : (setTrig p t s).cs = s.cs := rfl
@[simp] theorem setTrig_pads (p : Nat) (t : BitVec 8) (s : State) : (setTrig p t s).pads = s.pads := rfl
@[simp] theorem setTrig_ieShadow (p : Nat) (t : BitVec 8) (s : State) : (setTrig p t s).ieShadow = s.ieShadow := rfl
@[simp] theorem setTrig_busFault (p : Nat) (t : BitVec 8) (s : State) : (setTrig p t s).busFault = s.busFault := rfl
@[simp] theorem setTrig_errCount (p : Nat) (t : BitVec 8) (s : State) : (setTrig p t s).errCount = s.errCount := rfl
@[simp] theorem setTrig_errLastCode (p : Nat) (t : BitVec 8) (s : State) : (setTrig p t s).errLastCode = s.errLastCode := rfl
@[simp] theorem setTrig_errLastPin (p : Nat) (t : BitVec 8) (s : State) : (setTrig p t s).errLastPin = s.errLastPin := rfl
@[simp] theorem setTrig_irqNotif (p : Nat) (t : BitVec 8) (s : State) : (setTrig p t s).irqNotif = s.irqNotif := rfl
@[simp] theorem setTrig_seq (p : Nat) (t : BitVec 8) (s : State) : (setTrig p t s).seq = s.seq := rfl
@[simp] theorem setTrig_mem (p : Nat) (t : BitVec 8) (s : State) : (setTrig p t s).mem = s.mem := rfl
@[simp] theorem setTrig_cmds (p : Nat) (t : BitVec 8) (s : State) : (setTrig p t s).cmds = s.cmds := rfl
@[simp] theorem setTrig_resp (p : Nat) (t : BitVec 8) (s : State) : (setTrig p t s).resp = s.resp := rfl
@[simp] theorem setTrig_calls (p : Nat) (t : BitVec 8) (s : State) : (setTrig p t s).calls = s.calls := rfl
@[simp] theorem setTrig_bus (p : Nat) (t : BitVec 8) (s : State) : (setTrig p t s).bus = s.bus := rfl
@[simp] theorem setTrig_env (p : Nat) (t : BitVec 8) (s : State) : (setTrig p t s).env = s.env := rfl
@[simp] theorem setTrig_arb (p : Nat) (t : BitVec 8) (s : State) : (setTrig p t s).arb = s.arb := rfl
@[simp] theorem setTrig_free (p : Nat) (t : BitVec 8) (s : State) : (setTrig p t s).free = s.free := rfl

/-! ## emitCallback -/

@[simp] theorem emitCallback_cfg (sl : Slot) (p : Nat) (s : State) : (emitCallback sl p s).cfg = s.cfg := rfl
@[simp] theorem emitCallback_lc (sl : Slot) (p : Nat) (s : State) : (emitCallback sl p s).lc = s.lc := rfl
@[simp] theorem emitCallback_topo (sl : Slot) (p : Nat) (s : State) : (emitCallback sl p s).topo = s.topo := rfl
@[simp] theorem emitCallback_slots (sl : Slot) (p : Nat) (s : State) : (emitCallback sl p s).slots = s.slots := rfl
@[simp] theorem emitCallback_trig (sl : Slot) (p : Nat) (s : State) : (emitCallback sl p s).trig = s.trig := rfl
@[simp] theorem emitCallback_cs (sl : Slot) (p : Nat) (s : State) : (emitCallback sl p s).cs = s.cs := rfl
@[simp] theorem emitCallback_pads (sl : Slot) (p : Nat) (s : State) : (emitCallback sl p s).pads = s.pads := rfl
@[simp] theorem emitCallback_ieShadow (sl : Slot) (p : Nat) (s : State) : (emitCallback sl p s).ieShadow = s.ieShadow := rfl
@[simp] theorem emitCallback_busFault (sl : Slot) (p : Nat) (s : State) : (emitCallback sl p s).busFault = s.busFault := rfl
@[simp] theorem emitCallback_errCount (sl : Slot) (p : Nat) (s : State) : (emitCallback sl p s).errCount = s.errCount := rfl
@[simp] theorem emitCallback_errLastCode (sl : Slot) (p : Nat) (s : State) : (emitCallback sl p s).errLastCode = s.errLastCode := rfl
@[simp] theorem emitCallback_errLastPin (sl : Slot) (p : Nat) (s : State) : (emitCallback sl p s).errLastPin = s.errLastPin := rfl
@[simp] theorem emitCallback_irqNotif (sl : Slot) (p : Nat) (s : State) : (emitCallback sl p s).irqNotif = s.irqNotif := rfl
@[simp] theorem emitCallback_seq (sl : Slot) (p : Nat) (s : State) : (emitCallback sl p s).seq = s.seq := rfl
@[simp] theorem emitCallback_mem (sl : Slot) (p : Nat) (s : State) : (emitCallback sl p s).mem = s.mem := rfl
@[simp] theorem emitCallback_cmds (sl : Slot) (p : Nat) (s : State) : (emitCallback sl p s).cmds = s.cmds := rfl
@[simp] theorem emitCallback_resp (sl : Slot) (p : Nat) (s : State) : (emitCallback sl p s).resp = s.resp := rfl
@[simp] theorem emitCallback_calls (sl : Slot) (p : Nat) (s : State) : (emitCallback sl p s).calls = s.calls ++ [callbackPacket sl p] := rfl
@[simp] theorem emitCallback_bus (sl : Slot) (p : Nat) (s : State) : (emitCallback sl p s).bus = s.bus := rfl
@[simp] theorem emitCallback_env (sl : Slot) (p : Nat) (s : State) : (emitCallback sl p s).env = s.env := rfl
@[simp] theorem emitCallback_arb (sl : Slot) (p : Nat) (s : State) : (emitCallback sl p s).arb = s.arb := rfl
@[simp] theorem emitCallback_free (sl : Slot) (p : Nat) (s : State) : (emitCallback sl p s).free = s.free := rfl

/-! ## setPad -/

@[simp] theorem setPad_cfg (p : Nat) (f : Pad → Pad) (s : State) : (setPad p f s).cfg = s.cfg := rfl
@[simp] theorem setPad_lc (p : Nat) (f : Pad → Pad) (s : State) : (setPad p f s).lc = s.lc := rfl
@[simp] theorem setPad_topo (p : Nat) (f : Pad → Pad) (s : State) : (setPad p f s).topo = s.topo := rfl
@[simp] theorem setPad_slots (p : Nat) (f : Pad → Pad) (s : State) : (setPad p f s).slots = s.slots := rfl
@[simp] theorem setPad_trig (p : Nat) (f : Pad → Pad) (s : State) : (setPad p f s).trig = s.trig := rfl
@[simp] theorem setPad_cs (p : Nat) (f : Pad → Pad) (s : State) : (setPad p f s).cs = s.cs := rfl
@[simp] theorem setPad_pads (p : Nat) (f : Pad → Pad) (s : State) : (setPad p f s).pads = tableSet s.pads p (f (padOf s p)) := rfl
@[simp] theorem setPad_ieShadow (p : Nat) (f : Pad → Pad) (s : State) : (setPad p f s).ieShadow = s.ieShadow := rfl
@[simp] theorem setPad_busFault (p : Nat) (f : Pad → Pad) (s : State) : (setPad p f s).busFault = s.busFault := rfl
@[simp] theorem setPad_errCount (p : Nat) (f : Pad → Pad) (s : State) : (setPad p f s).errCount = s.errCount := rfl
@[simp] theorem setPad_errLastCode (p : Nat) (f : Pad → Pad) (s : State) : (setPad p f s).errLastCode = s.errLastCode := rfl
@[simp] theorem setPad_errLastPin (p : Nat) (f : Pad → Pad) (s : State) : (setPad p f s).errLastPin = s.errLastPin := rfl
@[simp] theorem setPad_irqNotif (p : Nat) (f : Pad → Pad) (s : State) : (setPad p f s).irqNotif = s.irqNotif := rfl
@[simp] theorem setPad_seq (p : Nat) (f : Pad → Pad) (s : State) : (setPad p f s).seq = s.seq := rfl
@[simp] theorem setPad_mem (p : Nat) (f : Pad → Pad) (s : State) : (setPad p f s).mem = s.mem := rfl
@[simp] theorem setPad_cmds (p : Nat) (f : Pad → Pad) (s : State) : (setPad p f s).cmds = s.cmds := rfl
@[simp] theorem setPad_resp (p : Nat) (f : Pad → Pad) (s : State) : (setPad p f s).resp = s.resp := rfl
@[simp] theorem setPad_calls (p : Nat) (f : Pad → Pad) (s : State) : (setPad p f s).calls = s.calls := rfl
@[simp] theorem setPad_bus (p : Nat) (f : Pad → Pad) (s : State) : (setPad p f s).bus = s.bus := rfl
@[simp] theorem setPad_env (p : Nat) (f : Pad → Pad) (s : State) : (setPad p f s).env = s.env := rfl
@[simp] theorem setPad_arb (p : Nat) (f : Pad → Pad) (s : State) : (setPad p f s).arb = s.arb := rfl
@[simp] theorem setPad_free (p : Nat) (f : Pad → Pad) (s : State) : (setPad p f s).free = s.free := rfl

/-! ## setShadow -/

@[simp] theorem setShadow_cfg (ci gi : Nat) (v : Word) (s : State) : (setShadow ci gi v s).cfg = s.cfg := rfl
@[simp] theorem setShadow_lc (ci gi : Nat) (v : Word) (s : State) : (setShadow ci gi v s).lc = s.lc := rfl
@[simp] theorem setShadow_topo (ci gi : Nat) (v : Word) (s : State) : (setShadow ci gi v s).topo = s.topo := rfl
@[simp] theorem setShadow_slots (ci gi : Nat) (v : Word) (s : State) : (setShadow ci gi v s).slots = s.slots := rfl
@[simp] theorem setShadow_trig (ci gi : Nat) (v : Word) (s : State) : (setShadow ci gi v s).trig = s.trig := rfl
@[simp] theorem setShadow_cs (ci gi : Nat) (v : Word) (s : State) : (setShadow ci gi v s).cs = s.cs := rfl
@[simp] theorem setShadow_pads (ci gi : Nat) (v : Word) (s : State) : (setShadow ci gi v s).pads = s.pads := rfl
@[simp] theorem setShadow_ieShadow (ci gi : Nat) (v : Word) (s : State) : (setShadow ci gi v s).ieShadow = s.ieShadow.modify ci fun row => row.set gi v := rfl
@[simp] theorem setShadow_busFault (ci gi : Nat) (v : Word) (s : State) : (setShadow ci gi v s).busFault = s.busFault := rfl
@[simp] theorem setShadow_errCount (ci gi : Nat) (v : Word) (s : State) : (setShadow ci gi v s).errCount = s.errCount := rfl
@[simp] theorem setShadow_errLastCode (ci gi : Nat) (v : Word) (s : State) : (setShadow ci gi v s).errLastCode = s.errLastCode := rfl
@[simp] theorem setShadow_errLastPin (ci gi : Nat) (v : Word) (s : State) : (setShadow ci gi v s).errLastPin = s.errLastPin := rfl
@[simp] theorem setShadow_irqNotif (ci gi : Nat) (v : Word) (s : State) : (setShadow ci gi v s).irqNotif = s.irqNotif := rfl
@[simp] theorem setShadow_seq (ci gi : Nat) (v : Word) (s : State) : (setShadow ci gi v s).seq = s.seq := rfl
@[simp] theorem setShadow_mem (ci gi : Nat) (v : Word) (s : State) : (setShadow ci gi v s).mem = s.mem := rfl
@[simp] theorem setShadow_cmds (ci gi : Nat) (v : Word) (s : State) : (setShadow ci gi v s).cmds = s.cmds := rfl
@[simp] theorem setShadow_resp (ci gi : Nat) (v : Word) (s : State) : (setShadow ci gi v s).resp = s.resp := rfl
@[simp] theorem setShadow_calls (ci gi : Nat) (v : Word) (s : State) : (setShadow ci gi v s).calls = s.calls := rfl
@[simp] theorem setShadow_bus (ci gi : Nat) (v : Word) (s : State) : (setShadow ci gi v s).bus = s.bus := rfl
@[simp] theorem setShadow_env (ci gi : Nat) (v : Word) (s : State) : (setShadow ci gi v s).env = s.env := rfl
@[simp] theorem setShadow_arb (ci gi : Nat) (v : Word) (s : State) : (setShadow ci gi v s).arb = s.arb := rfl
@[simp] theorem setShadow_free (ci gi : Nat) (v : Word) (s : State) : (setShadow ci gi v s).free = s.free := rfl

/-! ## ctxInitBody -/

@[simp] theorem ctxInitBody_cfg (s : State) : (ctxInitBody s).cfg = s.cfg := rfl
@[simp] theorem ctxInitBody_lc (s : State) : (ctxInitBody s).lc = s.lc := rfl
@[simp] theorem ctxInitBody_topo (s : State) : (ctxInitBody s).topo = s.topo := rfl
@[simp] theorem ctxInitBody_slots (s : State) : (ctxInitBody s).slots = s.slots := rfl
@[simp] theorem ctxInitBody_trig (s : State) : (ctxInitBody s).trig = s.trig := rfl
@[simp] theorem ctxInitBody_cs (s : State) : (ctxInitBody s).cs = .idle := rfl
@[simp] theorem ctxInitBody_pads (s : State) : (ctxInitBody s).pads = tableInit (pinsOf s.topo) Pad.zero := rfl
@[simp] theorem ctxInitBody_ieShadow (s : State) : (ctxInitBody s).ieShadow = s.topo.map fun c => c.groups.map fun _ => 0 := rfl
@[simp] theorem ctxInitBody_busFault (s : State) : (ctxInitBody s).busFault = s.busFault := rfl
@[simp] theorem ctxInitBody_errCount (s : State) : (ctxInitBody s).errCount = s.errCount := rfl
@[simp] theorem ctxInitBody_errLastCode (s : State) : (ctxInitBody s).errLastCode = s.errLastCode := rfl
@[simp] theorem ctxInitBody_errLastPin (s : State) : (ctxInitBody s).errLastPin = s.errLastPin := rfl
@[simp] theorem ctxInitBody_irqNotif (s : State) : (ctxInitBody s).irqNotif = s.irqNotif := rfl
@[simp] theorem ctxInitBody_seq (s : State) : (ctxInitBody s).seq = s.seq := rfl
@[simp] theorem ctxInitBody_mem (s : State) : (ctxInitBody s).mem = s.mem := rfl
@[simp] theorem ctxInitBody_cmds (s : State) : (ctxInitBody s).cmds = s.cmds := rfl
@[simp] theorem ctxInitBody_resp (s : State) : (ctxInitBody s).resp = s.resp := rfl
@[simp] theorem ctxInitBody_calls (s : State) : (ctxInitBody s).calls = s.calls := rfl
@[simp] theorem ctxInitBody_bus (s : State) : (ctxInitBody s).bus = s.bus := rfl
@[simp] theorem ctxInitBody_env (s : State) : (ctxInitBody s).env = s.env := rfl
@[simp] theorem ctxInitBody_arb (s : State) : (ctxInitBody s).arb = s.arb := rfl
@[simp] theorem ctxInitBody_free (s : State) : (ctxInitBody s).free = s.free := rfl

/-! ## ctxReleaseBody -/

@[simp] theorem ctxReleaseBody_cfg (s : State) : (ctxReleaseBody s).cfg = s.cfg := rfl
@[simp] theorem ctxReleaseBody_lc (s : State) : (ctxReleaseBody s).lc = s.lc := rfl
@[simp] theorem ctxReleaseBody_topo (s : State) : (ctxReleaseBody s).topo = s.topo := rfl
@[simp] theorem ctxReleaseBody_slots (s : State) : (ctxReleaseBody s).slots = s.slots := rfl
@[simp] theorem ctxReleaseBody_trig (s : State) : (ctxReleaseBody s).trig = s.trig := rfl
@[simp] theorem ctxReleaseBody_cs (s : State) : (ctxReleaseBody s).cs = .none := rfl
@[simp] theorem ctxReleaseBody_pads (s : State) : (ctxReleaseBody s).pads = [] := rfl
@[simp] theorem ctxReleaseBody_ieShadow (s : State) : (ctxReleaseBody s).ieShadow = [] := rfl
@[simp] theorem ctxReleaseBody_busFault (s : State) : (ctxReleaseBody s).busFault = s.busFault := rfl
@[simp] theorem ctxReleaseBody_errCount (s : State) : (ctxReleaseBody s).errCount = s.errCount := rfl
@[simp] theorem ctxReleaseBody_errLastCode (s : State) : (ctxReleaseBody s).errLastCode = s.errLastCode := rfl
@[simp] theorem ctxReleaseBody_errLastPin (s : State) : (ctxReleaseBody s).errLastPin = s.errLastPin := rfl
@[simp] theorem ctxReleaseBody_irqNotif (s : State) : (ctxReleaseBody s).irqNotif = s.irqNotif := rfl
@[simp] theorem ctxReleaseBody_seq (s : State) : (ctxReleaseBody s).seq = s.seq := rfl
@[simp] theorem ctxReleaseBody_mem (s : State) : (ctxReleaseBody s).mem = s.mem := rfl
@[simp] theorem ctxReleaseBody_cmds (s : State) : (ctxReleaseBody s).cmds = s.cmds := rfl
@[simp] theorem ctxReleaseBody_resp (s : State) : (ctxReleaseBody s).resp = s.resp := rfl
@[simp] theorem ctxReleaseBody_calls (s : State) : (ctxReleaseBody s).calls = s.calls := rfl
@[simp] theorem ctxReleaseBody_bus (s : State) : (ctxReleaseBody s).bus = s.bus := rfl
@[simp] theorem ctxReleaseBody_env (s : State) : (ctxReleaseBody s).env = s.env := rfl
@[simp] theorem ctxReleaseBody_arb (s : State) : (ctxReleaseBody s).arb = s.arb := rfl
@[simp] theorem ctxReleaseBody_free (s : State) : (ctxReleaseBody s).free = s.free := rfl

/-! ## startTables -/

@[simp] theorem startTables_cfg (bases : List Word) (s : State) : (startTables bases s).cfg = s.cfg := rfl
@[simp] theorem startTables_lc (bases : List Word) (s : State) : (startTables bases s).lc = s.lc := rfl
@[simp] theorem startTables_topo (bases : List Word) (s : State) : (startTables bases s).topo = List.zipWith (fun c v => { c with padRegsOff := some v }) s.topo bases := rfl
@[simp] theorem startTables_slots (bases : List Word) (s : State) : (startTables bases s).slots = tableInit (pinsOf s.topo) Slot.free := rfl
@[simp] theorem startTables_trig (bases : List Word) (s : State) : (startTables bases s).trig = tableInit (pinsOf s.topo) 0 := rfl
@[simp] theorem startTables_cs (bases : List Word) (s : State) : (startTables bases s).cs = s.cs := rfl
@[simp] theorem startTables_pads (bases : List Word) (s : State) : (startTables bases s).pads = s.pads := rfl
@[simp] theorem startTables_ieShadow (bases : List Word) (s : State) : (startTables bases s).ieShadow = s.ieShadow := rfl
@[simp] theorem startTables_busFault (bases : List Word) (s : State) : (startTables bases s).busFault = s.busFault := rfl
@[simp] theorem startTables_errCount (bases : List Word) (s : State) : (startTables bases s).errCount = s.errCount := rfl
@[simp] theorem startTables_errLastCode (bases : List Word) (s : State) : (startTables bases s).errLastCode = s.errLastCode := rfl
@[simp] theorem startTables_errLastPin (bases : List Word) (s : State) : (startTables bases s).errLastPin = s.errLastPin := rfl
@[simp] theorem startTables_irqNotif (bases : List Word) (s : State) : (startTables bases s).irqNotif = s.irqNotif := rfl
@[simp] theorem startTables_seq (bases : List Word) (s : State) : (startTables bases s).seq = s.seq := rfl
@[simp] theorem startTables_mem (bases : List Word) (s : State) : (startTables bases s).mem = s.mem := rfl
@[simp] theorem startTables_cmds (bases : List Word) (s : State) : (startTables bases s).cmds = s.cmds := rfl
@[simp] theorem startTables_resp (bases : List Word) (s : State) : (startTables bases s).resp = s.resp := rfl
@[simp] theorem startTables_calls (bases : List Word) (s : State) : (startTables bases s).calls = s.calls := rfl
@[simp] theorem startTables_bus (bases : List Word) (s : State) : (startTables bases s).bus = s.bus := rfl
@[simp] theorem startTables_env (bases : List Word) (s : State) : (startTables bases s).env = s.env := rfl
@[simp] theorem startTables_arb (bases : List Word) (s : State) : (startTables bases s).arb = s.arb := rfl
@[simp] theorem startTables_free (bases : List Word) (s : State) : (startTables bases s).free = s.free := rfl

/-! ## stopTables -/

@[simp] theorem stopTables_cfg (s : State) : (stopTables s).cfg = s.cfg := rfl
@[simp] theorem stopTables_lc (s : State) : (stopTables s).lc = .built := rfl
@[simp] theorem stopTables_topo (s : State) : (stopTables s).topo = s.topo.map fun c => { c with padRegsOff := none } := rfl
@[simp] theorem stopTables_slots (s : State) : (stopTables s).slots = [] := rfl
@[simp] theorem stopTables_trig (s : State) : (stopTables s).trig = [] := rfl
@[simp] theorem stopTables_cs (s : State) : (stopTables s).cs = s.cs := rfl
@[simp] theorem stopTables_pads (s : State) : (stopTables s).pads = s.pads := rfl
@[simp] theorem stopTables_ieShadow (s : State) : (stopTables s).ieShadow = s.ieShadow := rfl
@[simp] theorem stopTables_busFault (s : State) : (stopTables s).busFault = s.busFault := rfl
@[simp] theorem stopTables_errCount (s : State) : (stopTables s).errCount = s.errCount := rfl
@[simp] theorem stopTables_errLastCode (s : State) : (stopTables s).errLastCode = s.errLastCode := rfl
@[simp] theorem stopTables_errLastPin (s : State) : (stopTables s).errLastPin = s.errLastPin := rfl
@[simp] theorem stopTables_irqNotif (s : State) : (stopTables s).irqNotif = s.irqNotif := rfl
@[simp] theorem stopTables_seq (s : State) : (stopTables s).seq = s.seq := rfl
@[simp] theorem stopTables_mem (s : State) : (stopTables s).mem = s.mem := rfl
@[simp] theorem stopTables_cmds (s : State) : (stopTables s).cmds = s.cmds := rfl
@[simp] theorem stopTables_resp (s : State) : (stopTables s).resp = s.resp := rfl
@[simp] theorem stopTables_calls (s : State) : (stopTables s).calls = s.calls := rfl
@[simp] theorem stopTables_bus (s : State) : (stopTables s).bus = s.bus := rfl
@[simp] theorem stopTables_env (s : State) : (stopTables s).env = s.env := rfl
@[simp] theorem stopTables_arb (s : State) : (stopTables s).arb = s.arb := rfl
@[simp] theorem stopTables_free (s : State) : (stopTables s).free = s.free := rfl

/-! ## resetInput -/

@[simp] theorem resetInput_cfg (s : State) : (resetInput s).cfg = s.cfg := rfl
@[simp] theorem resetInput_lc (s : State) : (resetInput s).lc = .reset := rfl
@[simp] theorem resetInput_topo (s : State) : (resetInput s).topo = [] := rfl
@[simp] theorem resetInput_slots (s : State) : (resetInput s).slots = [] := rfl
@[simp] theorem resetInput_trig (s : State) : (resetInput s).trig = [] := rfl
@[simp] theorem resetInput_cs (s : State) : (resetInput s).cs = .none := rfl
@[simp] theorem resetInput_pads (s : State) : (resetInput s).pads = [] := rfl
@[simp] theorem resetInput_ieShadow (s : State) : (resetInput s).ieShadow = [] := rfl
@[simp] theorem resetInput_busFault (s : State) : (resetInput s).busFault = false := rfl
@[simp] theorem resetInput_errCount (s : State) : (resetInput s).errCount = 0 := rfl
@[simp] theorem resetInput_errLastCode (s : State) : (resetInput s).errLastCode = 0 := rfl
@[simp] theorem resetInput_errLastPin (s : State) : (resetInput s).errLastPin = 0 := rfl
@[simp] theorem resetInput_irqNotif (s : State) : (resetInput s).irqNotif = 0 := rfl
@[simp] theorem resetInput_seq (s : State) : (resetInput s).seq = .idle := rfl
@[simp] theorem resetInput_mem (s : State) : (resetInput s).mem = s.mem := rfl
@[simp] theorem resetInput_cmds (s : State) : (resetInput s).cmds = [] := rfl
@[simp] theorem resetInput_resp (s : State) : (resetInput s).resp = [] := rfl
@[simp] theorem resetInput_calls (s : State) : (resetInput s).calls = [] := rfl
@[simp] theorem resetInput_bus (s : State) : (resetInput s).bus = s.bus := rfl
@[simp] theorem resetInput_env (s : State) : (resetInput s).env = s.env := rfl
@[simp] theorem resetInput_arb (s : State) : (resetInput s).arb = s.arb := rfl
@[simp] theorem resetInput_free (s : State) : (resetInput s).free = s.free := rfl

end Sys2Proof.Machine
end

