-- ==== Sys2Proof/Laws/Ops.lean ====
section
/-! SUPPORT. The laws of an operation's stretches: how they end, what one bus access can do, and how a command ends. -/

namespace Sys2Proof.Machine

/-! ## How a stretch ends -/

/-- The state a stretch ends in. -/
def Res.state {α : Type} : Res α → State
  | .ok _ s => s
  | .raised _ s => s
  | .abandoned s => s

@[simp] theorem Res.state_ok {α : Type} (a : α) (s : State) : (Res.ok a s).state = s := rfl
@[simp] theorem Res.state_raised {α : Type} (st : Status) (s : State) : (Res.raised (α := α) st s).state = s := rfl
@[simp] theorem Res.state_abandoned {α : Type} (s : State) : (Res.abandoned (α := α) s).state = s := rfl

@[simp] theorem M.pure_apply {α : Type} (a : α) (s : State) : M.pure a s = .ok a s := rfl
@[simp] theorem M.update_apply (f : State → State) (s : State) : M.update f s = .ok () (f s) := rfl
@[simp] theorem M.stand_apply (f : Position → Position) (s : State) : M.stand f s = .ok () (standAt f s) := rfl
@[simp] theorem M.look_apply {α : Type} (f : State → α) (s : State) : M.look f s = .ok (f s) s := rfl

theorem M.bind_ok {α β : Type} {m : M α} {f : α → M β} {s t : State} {a : α} (h : m s = .ok a t) :
    M.bind m f s = f a t := by simp [M.bind, h]

theorem M.bind_raised {α β : Type} {m : M α} {f : α → M β} {s t : State} {st : Status} (h : m s = .raised st t) :
    M.bind m f s = .raised st t := by simp [M.bind, h]

theorem M.bind_abandoned {α β : Type} {m : M α} {f : α → M β} {s t : State} (h : m s = .abandoned t) :
    M.bind m f s = .abandoned t := by simp [M.bind, h]

@[simp] theorem M.bind_pure {α β : Type} (a : α) (f : α → M β) : M.bind (M.pure a) f = f a := rfl
@[simp] theorem M.bind_update {β : Type} (g : State → State) (f : Unit → M β) (s : State) :
    M.bind (M.update g) f s = f () (g s) := rfl
@[simp] theorem M.bind_stand {β : Type} (g : Position → Position) (f : Unit → M β) (s : State) :
    M.bind (M.stand g) f s = f () (standAt g s) := rfl
@[simp] theorem M.bind_look {α β : Type} (g : State → α) (f : α → M β) (s : State) :
    M.bind (M.look g) f s = f (g s) s := rfl

theorem M.bind_assoc {α β γ : Type} (m : M α) (f : α → M β) (g : β → M γ) :
    M.bind (M.bind m f) g = M.bind m fun a => M.bind (f a) g := by
  funext s
  simp only [M.bind]
  cases m s <;> rfl

@[simp] theorem M.fold_nil {α β : Type} (b : β) (f : β → α → M β) : M.fold [] b f = M.pure b := rfl
theorem M.fold_cons {α β : Type} (x : α) (xs : List α) (b : β) (f : β → α → M β) :
    M.fold (x :: xs) b f = M.bind (f b x) fun b' => M.fold xs b' f := rfl
@[simp] theorem M.each_nil {α : Type} (f : α → M Unit) : M.each [] f = M.pure () := rfl
theorem M.each_cons {α : Type} (x : α) (xs : List α) (f : α → M Unit) :
    M.each (x :: xs) f = M.bind (f x) fun _ => M.each xs f := rfl

/-! ## The calculus of ends: `m.Ends s Q E A` says that `m` from `s` gives a value and a state in `Q`, or raises in `E`, or is
abandoned in `A` -/

/-- From `s`, `m` ends with a value and a state in `Q`, or raises in a state in `E`, or is abandoned in a state in `A`. -/
def M.Ends {α : Type} (m : M α) (s : State) (Q : α → State → Prop) (E A : State → Prop) : Prop :=
  match m s with
  | .ok a t => Q a t
  | .raised _ t => E t
  | .abandoned t => A t

theorem M.ends_pure {α : Type} (a : α) (s : State) (Q : α → State → Prop) (E A : State → Prop) :
    M.Ends (M.pure a) s Q E A ↔ Q a s := Iff.rfl

theorem M.ends_update (f : State → State) (s : State) (Q : Unit → State → Prop) (E A : State → Prop) :
    M.Ends (M.update f) s Q E A ↔ Q () (f s) := Iff.rfl

theorem M.ends_look {α : Type} (f : State → α) (s : State) (Q : α → State → Prop) (E A : State → Prop) :
    M.Ends (M.look f) s Q E A ↔ Q (f s) s := Iff.rfl

/-- A move inside the pseudocode, then the rest. -/
theorem M.ends_stand {β : Type} (g : Position → Position) (f : Unit → M β) (s : State) (Q : β → State → Prop)
    (E A : State → Prop) : M.Ends (M.bind (M.stand g) f) s Q E A ↔ M.Ends (f ()) (standAt g s) Q E A := Iff.rfl

theorem M.ends_bind {α β : Type} (m : M α) (f : α → M β) (s : State) (Q : β → State → Prop) (E A : State → Prop) :
    M.Ends (M.bind m f) s Q E A ↔ M.Ends m s (fun a t => M.Ends (f a) t Q E A) E A := by
  unfold M.Ends M.bind
  cases m s <;> exact Iff.rfl

theorem M.Ends.mono {α : Type} {m : M α} {s : State} {Q Q' : α → State → Prop} {E E' A A' : State → Prop}
    (h : M.Ends m s Q E A) (hQ : ∀ a t, Q a t → Q' a t) (hE : ∀ t, E t → E' t) (hA : ∀ t, A t → A' t) :
    M.Ends m s Q' E' A' := by
  unfold M.Ends at *
  cases hm : m s <;> rw [hm] at h
  · exact hQ _ _ h
  · exact hE _ h
  · exact hA _ h

/-- The same with only the condition on the value changed. -/
theorem M.Ends.imp {α : Type} {m : M α} {s : State} {Q Q' : α → State → Prop} {E A : State → Prop}
    (h : M.Ends m s Q E A) (hQ : ∀ a t, Q a t → Q' a t) : M.Ends m s Q' E A := h.mono hQ (fun _ h => h) fun _ h => h

/-- A loop keeps what every turn of it keeps. -/
theorem M.ends_fold {α β : Type} (xs : List α) (b : β) (f : β → α → M β) (s : State) (I E A : State → Prop) (hs : I s)
    (hf : ∀ b x t, x ∈ xs → I t → M.Ends (f b x) t (fun _ u => I u) E A) :
    M.Ends (M.fold xs b f) s (fun _ t => I t) E A := by
  induction xs generalizing b s with
  | nil => exact hs
  | cons x xs ih =>
    rw [M.fold_cons, M.ends_bind]
    refine (hf b x s List.mem_cons_self hs).imp fun b' t ht => ?_
    exact ih b' t ht fun b y u hy hu => hf b y u (List.mem_cons_of_mem _ hy) hu

/-- A loop keeps what every turn of it keeps. -/
theorem M.ends_each {α : Type} (xs : List α) (f : α → M Unit) (s : State) (I E A : State → Prop) (hs : I s)
    (hf : ∀ x t, x ∈ xs → I t → M.Ends (f x) t (fun _ u => I u) E A) :
    M.Ends (M.each xs f) s (fun _ t => I t) E A := by
  induction xs generalizing s with
  | nil => exact hs
  | cons x xs ih =>
    rw [M.each_cons, M.ends_bind]
    refine (hf x s List.mem_cons_self hs).imp fun _ t ht => ?_
    exact ih t ht fun y u hy hu => hf y u (List.mem_cons_of_mem _ hy) hu

/-! ## One bus access -/

/-- Everything an outside move between two stretches can do (R77, R280). -/
theorem outside_eq (s : State) :
    outside s = if resetComing s then .abandoned (envTick s) else .ok () (envTick s) := rfl

/-- Everything one access can do (R66, R77, R280): it fails the check; it is abandoned before the transaction, or after it; or
it goes through. -/
theorem access_cases {α : Type} (w off : Nat) (act : State → α × State) (s : State) :
    (accessOk s.cfg w off = false ∧ access w off act s = .raised .busError { s with busFault := true }) ∨
    (accessOk s.cfg w off = true ∧ resetComing s = true ∧ access w off act s = .abandoned (envTick s)) ∨
    (accessOk s.cfg w off = true ∧ resetComing s = false ∧ resetComing (act (envTick s)).2 = true ∧
      access w off act s = .abandoned (envTick (act (envTick s)).2)) ∨
    (accessOk s.cfg w off = true ∧ resetComing s = false ∧ resetComing (act (envTick s)).2 = false ∧
      access w off act s = .ok (act (envTick s)).1 (envTick (act (envTick s)).2)) := by
  unfold access check outside
  cases h1 : accessOk s.cfg w off <;> cases h2 : resetComing s <;> cases h3 : resetComing (act (envTick s)).2 <;>
    simp [M.bind, M.pure, h1, h2, h3]

theorem envTick_quiet {s : State} (h : s.env = []) : envTick s = s := by simp [envTick, h]

theorem resetComing_quiet {s : State} (h : s.env = []) : resetComing s = false := by simp [resetComing, h]

/-- An access that fails the check of R66. -/
theorem access_bad {α : Type} {w off : Nat} (act : State → α × State) {s : State} (h : accessOk s.cfg w off = false) :
    access w off act s = .raised .busError { s with busFault := true } := by simp [access, check, M.bind, h]

/-- A read with no outside move. -/
theorem winRead_quiet {w off : Nat} {s : State} (hok : accessOk s.cfg w off = true) (henv : s.env = []) :
    winRead w off s = .ok (winWord s.mem w off) (record (.read w off (winWord s.mem w off)) s) := by
  have h2 : (record (.read w off (winWord s.mem w off)) s).env = [] := by simpa using henv
  simp [winRead, access, check, outside, M.bind, hok, resetComing_quiet henv, envTick_quiet henv, resetComing_quiet h2,
    envTick_quiet h2]

/-- A write with no outside move. -/
theorem winWrite_quiet {w off : Nat} {v : Word} {s : State} (hok : accessOk s.cfg w off = true) (henv : s.env = []) :
    winWrite w off v s = .ok () (record (.write w off v) (putWord w off v s)) := by
  have h2 : (record (.write w off v) (putWord w off v s)).env = [] := by simpa using henv
  simp [winWrite, access, check, outside, M.bind, hok, resetComing_quiet henv, envTick_quiet henv, resetComing_quiet h2,
    envTick_quiet h2]

/-- A read, a change and a write with no outside move. -/
theorem winModify_quiet {w off : Nat} {f : Word → Word} {s : State} (hok : accessOk s.cfg w off = true)
    (henv : s.env = []) :
    winModify w off f s =
      .ok () (record (.write w off (f (winWord s.mem w off)))
        (putWord w off (f (winWord s.mem w off)) (record (.read w off (winWord s.mem w off)) s))) := by
  unfold winModify
  rw [M.bind_ok (winRead_quiet hok henv), winWrite_quiet (by simpa using hok) (by simpa using henv)]

/-- One access keeps what the fault flag, the outside moves short of a reset and its transaction keep; a reset among the outside
moves leads to `A`. -/
theorem access_ends {α : Type} (w off : Nat) (act : State → α × State) {s : State} {I A : State → Prop} (hs : I s)
    (hbad : I { s with busFault := true }) (htick : ∀ t, I t → resetComing t = false → I (envTick t))
    (hab : ∀ t, I t → resetComing t = true → A (envTick t)) (hact : ∀ t, I t → I (act t).2) :
    M.Ends (access w off act) s (fun _ t => I t) I A := by
  unfold M.Ends
  rcases access_cases w off act s with ⟨-, h⟩ | ⟨-, h1, h⟩ | ⟨-, h1, h2, h⟩ | ⟨-, h1, h2, h⟩ <;> rw [h]
  · exact hbad
  · exact hab s hs h1
  · exact hab _ (hact _ (htick s hs h1)) h2
  · exact htick _ (hact _ (htick s hs h1)) h2

/-! ## The outside moves -/

/-- A move other than the reset input changes the windows, the notification count and the packets waiting, nothing else. -/
theorem envMove_of_ne_reset (s : State) (e : EnvMove) (h : e ≠ .reset) :
    ∃ m n c, envMove s e = { s with mem := m, irqNotif := n, cmds := c } := by
  cases e with
  | pend ci gi bits =>
    unfold envMove
    simp only
    split
    · exact ⟨s.mem, s.irqNotif, s.cmds, rfl⟩
    · exact ⟨_, s.irqNotif, s.cmds, rfl⟩
  | rxState p level =>
    unfold envMove
    simp only
    split
    · exact ⟨s.mem, s.irqNotif, s.cmds, rfl⟩
    · exact ⟨_, s.irqNotif, s.cmds, rfl⟩
  | store w off v => exact ⟨_, s.irqNotif, s.cmds, rfl⟩
  | notify =>
    show ∃ m n c, notifyInput s = { s with mem := m, irqNotif := n, cmds := c }
    unfold notifyInput
    split
    · split
      · exact ⟨s.mem, _, s.cmds, rfl⟩
      · split
        · exact ⟨s.mem, _, s.cmds, rfl⟩
        · exact ⟨s.mem, s.irqNotif, s.cmds, rfl⟩
    · exact ⟨s.mem, s.irqNotif, s.cmds, rfl⟩
  | offer pkt => exact ⟨s.mem, s.irqNotif, _, rfl⟩
  | reset => exact absurd rfl h

/-- A batch without the reset input changes the windows, the notification count and the packets waiting, nothing else. -/
theorem foldl_envMove_of_noReset (batch : List EnvMove) (s : State) (h : EnvMove.reset ∉ batch) :
    ∃ m n c, batch.foldl envMove s = { s with mem := m, irqNotif := n, cmds := c } := by
  induction batch generalizing s with
  | nil => exact ⟨s.mem, s.irqNotif, s.cmds, rfl⟩
  | cons e batch ih =>
    rw [List.mem_cons, not_or] at h
    obtain ⟨m, n, c, he⟩ := envMove_of_ne_reset s e (Ne.symm h.1)
    obtain ⟨m', n', c', hb⟩ := ih (envMove s e) h.2
    rw [List.foldl_cons, hb, he]
    exact ⟨m', n', c', rfl⟩

/-- In a state that the reset input could have left, any batch changes the windows, and what the outside holds, only. -/
theorem foldl_envMove_of_reset (batch : List EnvMove) (s : State)
    (h : ∃ m c, s = { State.resetOf s.cfg with mem := m, cmds := c, bus := s.bus, env := s.env, arb := s.arb, free := s.free }) :
    ∃ m c, batch.foldl envMove s =
      { State.resetOf s.cfg with mem := m, cmds := c, bus := s.bus, env := s.env, arb := s.arb, free := s.free } := by
  induction batch generalizing s with
  | nil => exact h
  | cons e batch ih =>
    obtain ⟨m, c, hs⟩ := h
    have key : ∃ m c, envMove s e =
        { State.resetOf s.cfg with mem := m, cmds := c, bus := s.bus, env := s.env, arb := s.arb, free := s.free } := by
      cases e with
      | reset => exact ⟨s.mem, [], rfl⟩
      | notify =>
        refine ⟨m, c, ?_⟩
        rw [hs]
        rfl
      | offer pkt => rw [hs]; exact ⟨m, c ++ [pkt], rfl⟩
      | store w off v => rw [hs]; exact ⟨_, c, rfl⟩
      | pend ci gi bits =>
        rw [hs]
        unfold envMove
        simp only
        split
        · exact ⟨m, c, rfl⟩
        · exact ⟨_, c, rfl⟩
      | rxState p level =>
        rw [hs]
        unfold envMove
        simp only
        split
        · exact ⟨m, c, rfl⟩
        · exact ⟨_, c, rfl⟩
    obtain ⟨m', c', he⟩ := key
    have := ih (envMove s e) ⟨m', c', by rw [he]; rfl⟩
    rw [he] at this
    rw [List.foldl_cons, he]
    exact this

/-- The outside moves when the reset input is not among them (R77). -/
theorem envTick_of_noReset {s : State} (h : resetComing s = false) :
    ∃ m n c, envTick s = { s with env := s.env.tail, mem := m, irqNotif := n, cmds := c } := by
  unfold resetComing at h
  unfold envTick
  split
  · rename_i he
    have ht : s.env.tail = s.env := by rw [he]; rfl
    exact ⟨s.mem, s.irqNotif, s.cmds, by rw [ht]⟩
  · rename_i batch rest he
    rw [he] at h
    simp only [List.contains_eq_mem, decide_eq_false_iff_not] at h
    obtain ⟨m, n, c, hb⟩ := foldl_envMove_of_noReset batch { s with env := rest } h
    rw [hb, he]
    exact ⟨m, n, c, rfl⟩

/-- The outside moves when the reset input is among them: the reset state, but for the windows and what the outside holds
(R280). -/
theorem envTick_of_reset {s : State} (h : resetComing s = true) :
    ∃ m c, envTick s =
      { State.resetOf s.cfg with mem := m, cmds := c, bus := s.bus, env := s.env.tail, arb := s.arb, free := s.free } := by
  unfold resetComing at h
  unfold envTick
  split
  · rename_i he
    rw [he] at h
    cases h
  · rename_i batch rest he
    rw [he] at h ⊢
    simp only [List.contains_eq_mem, decide_eq_true_eq] at h
    obtain ⟨l1, l2, rfl⟩ := List.append_of_mem h
    rw [List.foldl_append, List.foldl_cons, List.tail_cons]
    have keep : ∀ (l : List EnvMove) (u : State), (l.foldl envMove u).cfg = u.cfg ∧ (l.foldl envMove u).bus = u.bus ∧
        (l.foldl envMove u).env = u.env ∧ (l.foldl envMove u).arb = u.arb ∧ (l.foldl envMove u).free = u.free := by
      intro l
      induction l with
      | nil => intro u; exact ⟨rfl, rfl, rfl, rfl, rfl⟩
      | cons e l ih =>
        intro u
        rw [List.foldl_cons]
        obtain ⟨h1, h2, h3, h4, h5⟩ := ih (envMove u e)
        by_cases hr : e = .reset
        · subst hr
          exact ⟨h1, h2, h3, h4, h5⟩
        · obtain ⟨m, n, c, he⟩ := envMove_of_ne_reset u e hr
          rw [he] at h1 h2 h3 h4 h5 ⊢
          exact ⟨h1, h2, h3, h4, h5⟩
    obtain ⟨h1, h2, h3, h4, h5⟩ := keep l1 { s with env := rest }
    generalize l1.foldl envMove { s with env := rest } = u at *
    obtain ⟨m, c, hb⟩ := foldl_envMove_of_reset l2 (envMove u .reset) ⟨u.mem, [], rfl⟩
    refine ⟨m, c, hb.trans ?_⟩
    simp [envMove, resetInput, h1, h2, h3, h4, h5, State.resetOf]

/-! ## Lookups that log -/

/-- An entry in the error log and the taking of a command commute. -/
theorem logErr_takeCommand (st : Status) (p : Nat) (r : Request) (s : State) :
    logErr st p (takeCommand r s) = takeCommand r (logErr st p s) := rfl

/-- Everything `communityOf` can do. -/
theorem communityOf_eq (p : Nat) (s : State) :
    communityOf p s =
      match findCommunity s.topo p with
      | none => .ok none (logErr .notFound p s)
      | some r => .ok (some r) s := rfl

/-- Everything `locate` can do. -/
theorem locate_eq (p : Nat) (s : State) :
    locate p s =
      match findPin s.topo p with
      | none => .ok none (logErr .notFound p s)
      | some l => .ok (some l) s := rfl

/-- Everything `translatePin` can do. -/
theorem translatePin_eq (lp : Nat) (s : State) :
    translatePin lp s =
      match mapPin s.topo lp with
      | none => .ok none (logErr .notFound lp s)
      | some p => .ok (some p) s := rfl

/-- Everything `readTrig` can do. -/
theorem readTrig_eq (p : Nat) (s : State) :
    readTrig p s =
      match tableGet s.trig p with
      | some t => .ok t s
      | none =>
        if s.lc = .started then .ok (Config.absentTrig s.free) { s with free := s.free + 1 } else .ok 0 s := rfl

theorem slotOf_some {s : State} {p : Nat} {sl : Slot} (h : tableGet s.slots p = some sl) : slotOf s p = sl := by
  simp [slotOf, h]

/-! ## How a command ends -/

/-- A legal operation runs its body and ends. -/
theorem perform_legal {i : Instr} {body : M Response} {s : State} (hw : i.wellFormed = true) (hl : legal i s = true) :
    perform i body s = .next (endCommand (body (takeCommand (.command i) s))) := by
  simp [perform, hw, hl]

/-- An operation that R99 refuses in this state is answered StateRefused. -/
theorem perform_refused {i : Instr} {body : M Response} {s : State} (hw : i.wellFormed = true) (hl : legal i s = false) :
    perform i body s = .next (respond (Response.of .stateRefused) (takeCommand (.command i) s)) := by
  simp [perform, hw, hl, endCommand]

/-- Every operation answers a next state: the answer to an illegal packet, to a refused one, or the end of its body. -/
theorem perform_next (i : Instr) (body : M Response) (s : State) : ∃ t, perform i body s = .next t := ⟨_, rfl⟩

/-- What a body's end says of the state the operation ends in: answered IllegalCommand or StateRefused, or its response or
its raise on the bus-idle sequencer, or abandoned. -/
theorem perform_ends {i : Instr} {body : M Response} {s t : State} {I A : State → Prop} (h : perform i body s = .next t)
    (hs : I (takeCommand (.command i) s))
    (hb : i.wellFormed = true → legal i s = true → M.Ends body (takeCommand (.command i) s) (fun _ u => I u) I A) :
    (∃ r u, I u ∧ t = respond r u) ∨ A t := by
  unfold perform at h
  cases h
  split
  · exact .inl ⟨_, _, hs, rfl⟩
  · split
    · exact .inl ⟨_, _, hs, rfl⟩
    · rename_i hw hl
      have := hb (by simpa using hw) (by simpa using hl)
      unfold M.Ends at this
      unfold endCommand
      split <;> rename_i hm <;> rw [hm] at this
      · exact .inl ⟨_, _, this, rfl⟩
      · exact .inl ⟨_, _, this, rfl⟩
      · exact .inr this

end Sys2Proof.Machine
end

