-- ==== Sys2Proof/Laws/Bodies.lean ====
section
/-! SUPPORT. What each shared body does with no outside move: the guard predicates, SETTRIG, ENABLE, MASKUNMASK, REGISTER and
UNREGISTER on a pin that is found and whose registers are reachable (41_guard.md R151 to R157; 42_interrupt.md R173 to R183). -/

namespace Sys2Proof.Machine

/-! ## Memories that agree outside some words -/

theorem SameOutside.refl (m : Memory) (l : List (Nat × Nat)) : SameOutside m m l := fun _ _ => rfl

theorem SameOutside.trans {m m' m'' : Memory} {l : List (Nat × Nat)} (h : SameOutside m m' l) (h' : SameOutside m' m'' l) :
    SameOutside m m'' l := fun a ha => (h' a ha).trans (h a ha)

theorem SameOutside.mono {m m' : Memory} {l l' : List (Nat × Nat)} (h : SameOutside m m' l) (hl : ∀ x ∈ l, x ∈ l') :
    SameOutside m m' l' := fun a ha => h a fun x hx => ha x (hl x hx)

/-- A write changes no byte outside its word. -/
theorem sameOutside_padWrite (cfg : Params) (m : Memory) (w off : Nat) (v : Word) (l : List (Nat × Nat)) (h : m.wf = true)
    (hl : (w, off) ∈ l) : SameOutside m (padWrite cfg m w off v) l := by
  intro a ha
  exact get_writeWord_of_outside _ _ _ _ h (ha (w, off) hl)

/-- A word that lies outside every word of the list reads the same in two memories that agree outside the list. -/
theorem SameOutside.winWord {cfg : Params} {m m' : Memory} {l : List (Nat × Nat)} (h : SameOutside m m' l) {w off : Nat}
    (hok : accessOk cfg w off = true) (hl : ∀ x ∈ l, accessOk cfg x.1 x.2 = true) (hn : (w, off) ∉ l) :
    winWord m' w off = winWord m w off := by
  have key : ∀ k, k < 4 → Memory.get m' (winAddr w off + k) = Memory.get m (winAddr w off + k) := by
    intro k hk
    refine h _ fun x hx => ?_
    have hne : (w, off) ≠ (x.1, x.2) := fun e => hn (e ▸ hx)
    have := winAddr_disjoint hok (hl x hx) hne
    omega
  simp only [Machine.winWord, readWord]
  rw [key 3 (by omega), key 2 (by omega), key 1 (by omega), ← Nat.add_zero (winAddr w off), key 0 (by omega)]

/-! ## The guard predicates -/

/-- HOSTOWN's predicate on a located pin (R151). -/
theorem hostOwned_quiet {s : State} {p ci gi : Nat} {c : Community} {g : Group}
    (hc : findCommunity s.topo p = some (ci, c)) (hg : findGroup c p = some (gi, g)) (henv : s.env = [])
    (hok : ∀ x ∈ guardRegsOf s.cfg c p g, accessOk s.cfg x.1 x.2 = true) :
    ∃ b q, hostOwned p s = .ok (isOwned s c g p) { s with bus := s.bus ++ b, seq := q } := by
  unfold hostOwned isOwned
  simp only [M.bind, communityOf, hc]
  cases ho : c.ownOff with
  | none => exact ⟨[], s.seq, by simp⟩
  | some b =>
    have h1 : accessOk s.cfg c.barno (ownOff b g (p - g.base)) = true :=
      hok (c.barno, ownOff b g (p - g.base)) (by simp [guardRegsOf, ho])
    simp only [hg, M.bind, winRead_quiet h1 henv]
    exact ⟨[_], s.seq.advance, rfl⟩

/-- GPIOMODE's predicate on a located pin (R154). -/
theorem gpioMode_quiet {s : State} {p ci gi : Nat} {c : Community} {g : Group}
    (hc : findCommunity s.topo p = some (ci, c)) (hg : findGroup c p = some (gi, g)) (henv : s.env = [])
    (hok : ∀ x ∈ guardRegsOf s.cfg c p g, accessOk s.cfg x.1 x.2 = true) :
    ∃ b q, gpioMode p s = .ok (isUsable s c g p) { s with bus := s.bus ++ b, seq := q } := by
  unfold gpioMode isUsable
  simp only [M.bind, communityOf, hc]
  cases ho : c.hostmodeOff with
  | none => exact ⟨[], s.seq, by simp⟩
  | some b =>
    have h1 : accessOk s.cfg c.barno (bankOff b g.regNum) = true :=
      hok (c.barno, bankOff b g.regNum) (by simp [guardRegsOf, ho])
    simp only [hg, M.bind, winRead_quiet h1 henv]
    exact ⟨[_], s.seq.advance, rfl⟩

/-- LOCKED's predicate on a located pin (R156). -/
theorem lockedPin_quiet {s : State} {p ci gi : Nat} {c : Community} {g : Group}
    (hc : findCommunity s.topo p = some (ci, c)) (hg : findGroup c p = some (gi, g)) (henv : s.env = [])
    (hok : ∀ x ∈ guardRegsOf s.cfg c p g, accessOk s.cfg x.1 x.2 = true) :
    ∃ b q, lockedPin p s = .ok (isLocked s c g p) { s with bus := s.bus ++ b, seq := q } := by
  unfold lockedPin isLocked
  simp only [M.bind, communityOf, hc]
  cases ho : c.lockOff with
  | none => exact ⟨[], s.seq, by simp⟩
  | some b =>
    have h1 : accessOk s.cfg c.barno (lockOff s.cfg b g) = true :=
      hok (c.barno, lockOff s.cfg b g) (by simp [guardRegsOf, ho])
    have h2 : accessOk s.cfg c.barno (lockTxOff s.cfg b g) = true :=
      hok (c.barno, lockTxOff s.cfg b g) (by simp [guardRegsOf, ho])
    simp only [hg, M.bind, M.look_apply, winRead_quiet h1 henv]
    by_cases hb : (winWord s.mem c.barno (lockOff s.cfg b g)).getLsbD (p - g.base) = true
    · simp only [hb, if_true, Bool.true_or]
      exact ⟨[_], s.seq.advance, rfl⟩
    · rw [if_neg hb, M.bind_ok (winRead_quiet (by simpa using h2) (by simpa using henv))]
      simp only [Bool.not_eq_true] at hb
      simp only [hb, Bool.false_or]
      exact ⟨_, s.seq.advance.advance, by simp only [record, M.pure, List.append_assoc]; rfl⟩

/-! ## The router's bodies -/

/-- The state after a read-modify-write of the word at (w, off) (R67). -/
def modified (w off : Nat) (f : Word → Word) (s : State) : State :=
  record (.write w off (f (winWord s.mem w off)))
    (putWord w off (f (winWord s.mem w off)) (record (.read w off (winWord s.mem w off)) s))

/-- The bus log and the sequencer apart, a read-modify-write changes the windows only. -/
theorem modified_eq (w off : Nat) (f : Word → Word) (s : State) :
    modified w off f s =
      { s with mem := padWrite s.cfg s.mem w off (f (winWord s.mem w off))
               bus := s.bus ++ [.read w off (winWord s.mem w off), .write w off (f (winWord s.mem w off))]
               seq := s.seq.advance.advance } := by
  simp [modified, record, putWord]

/-- ENABLE on a located pin (R176): the pending bit first. -/
theorem enableBody_quiet {s : State} {p : Nat} {l : Location} (hl : findPin s.topo p = some l) (henv : s.env = [])
    (h1 : accessOk s.cfg l.c.barno (bankOff l.c.isOff l.g.regNum) = true)
    (h2 : accessOk s.cfg l.c.barno (bankOff l.c.ieOff l.g.regNum) = true) :
    enableBody p s = .ok .ok (modified l.c.barno (bankOff l.c.ieOff l.g.regNum) (fun v => v ||| bit l.o)
      (record (.write l.c.barno (bankOff l.c.isOff l.g.regNum) (bit l.o))
        (putWord l.c.barno (bankOff l.c.isOff l.g.regNum) (bit l.o) s))) := by
  unfold enableBody modified
  simp only [M.bind, locate, hl, winWrite_quiet h1 henv]
  rw [winModify_quiet (by simpa using h2) (by simpa using henv)]
  rfl

/-- MASKUNMASK on a located pin (R178). -/
theorem maskBody_quiet {s : State} {p : Nat} {m : Bool} {l : Location} (hl : findPin s.topo p = some l) (henv : s.env = [])
    (h2 : accessOk s.cfg l.c.barno (bankOff l.c.ieOff l.g.regNum) = true) :
    maskBody p m s = .ok .ok (modified l.c.barno (bankOff l.c.ieOff l.g.regNum)
      (fun v => if m then v &&& ~~~(bit l.o) else v ||| bit l.o) s) := by
  unfold maskBody modified
  simp only [M.bind, locate, hl]
  rw [winModify_quiet h2 henv]
  rfl

/-- UNREGISTER on a located pin (R183): mask, then clear. -/
theorem unregisterBody_quiet {s : State} {p : Nat} {l : Location} (hl : findPin s.topo p = some l) (henv : s.env = [])
    (h2 : accessOk s.cfg l.c.barno (bankOff l.c.ieOff l.g.regNum) = true) :
    unregisterBody p s = .ok .ok (setTrig p 0 (setSlot p Slot.free
      (modified l.c.barno (bankOff l.c.ieOff l.g.regNum) (fun v => v &&& ~~~(bit l.o)) s))) := by
  unfold unregisterBody
  rw [M.bind_ok (maskBody_quiet hl henv h2)]
  rfl

/-- SETTRIG on a located pin in GPIO mode (R173). -/
theorem setTrigBody_usable {s : State} {p ci gi : Nat} {t : BitVec 8} {c : Community} {g : Group}
    (hc : findCommunity s.topo p = some (ci, c)) (hg : findGroup c p = some (gi, g)) (henv : s.env = [])
    (hok : ∀ x ∈ guardRegsOf s.cfg c p g, accessOk s.cfg x.1 x.2 = true)
    (h0 : accessOk s.cfg c.barno (cfg0Off c p) = true) (hu : isUsable s c g p = true) :
    ∃ b q, setTrigBody p t s = .ok .ok (setTrig p t (modified c.barno (cfg0Off c p) (fun v => setTrigWord s.cfg v t)
      { s with bus := s.bus ++ b, seq := q })) := by
  obtain ⟨b, q, h⟩ := gpioMode_quiet hc hg henv hok
  refine ⟨b, q, ?_⟩
  unfold setTrigBody modified
  simp only [M.bind, communityOf, hc, h, hu, if_true, M.look_apply]
  rw [winModify_quiet (by simpa using h0) (by simpa using henv)]
  rfl

/-- SETTRIG on a located pin in ACPI mode (R173). -/
theorem setTrigBody_refused {s : State} {p ci gi : Nat} {t : BitVec 8} {c : Community} {g : Group}
    (hc : findCommunity s.topo p = some (ci, c)) (hg : findGroup c p = some (gi, g)) (henv : s.env = [])
    (hok : ∀ x ∈ guardRegsOf s.cfg c p g, accessOk s.cfg x.1 x.2 = true) (hu : isUsable s c g p = false) :
    ∃ b q, setTrigBody p t s = .ok .modeConflict { s with bus := s.bus ++ b, seq := q } := by
  obtain ⟨b, q, h⟩ := gpioMode_quiet hc hg henv hok
  refine ⟨b, q, ?_⟩
  unfold setTrigBody
  simp only [M.bind, communityOf, hc, h, hu]
  rfl

/-- REGISTER on a pin that a community holds (R181). -/
theorem registerBody_eq {s : State} {p : Nat} {owner cb ctx : Token} {r : Nat × Community}
    (hc : findCommunity s.topo p = some r) :
    registerBody p owner cb ctx s =
      if (slotOf s p).valid then .ok .alreadyRegistered s else .ok .ok (setSlot p ⟨true, owner, cb, ctx⟩ s) := by
  unfold registerBody
  simp only [M.bind, communityOf, hc, M.look_apply]
  cases (slotOf s p).valid <;> rfl

/-! ## Bits -/

/-- `BIT(n)` (R10). -/
theorem getLsbD_bit (n i : Nat) : (bit n).getLsbD i = (decide (i < 32) && decide (i = n)) := by
  unfold bit
  simp only [BitVec.getLsbD_shiftLeft, BitVec.getLsbD_one]
  rw [Bool.eq_iff_iff]
  simp only [Bool.and_eq_true, Bool.not_eq_true', decide_eq_false_iff_not, decide_eq_true_eq]
  omega

/-- The bits SETTRIG writes: the two of the TRIG field and INV (R173). -/
theorem getLsbD_trigMask (cfg : Params) (i : Nat) :
    (trigMask cfg).getLsbD i =
      (decide (cfg.trigShift.val ≤ i ∧ i < cfg.trigShift.val + 2) || decide (i = cfg.invBit.val)) := by
  have hs := cfg.trigShift.isLt
  have hv := cfg.invBit.isLt
  have h3 : ∀ k, (3#32).getLsbD k = decide (k < 2) := by
    intro k
    by_cases hk : k < 32
    · revert k; decide
    · rw [BitVec.getLsbD_of_ge _ _ (by omega)]; simp; omega
  unfold trigMask
  rw [BitVec.getLsbD_or, BitVec.getLsbD_shiftLeft, getLsbD_bit, h3, Bool.eq_iff_iff]
  simp only [Bool.or_eq_true, Bool.and_eq_true, Bool.not_eq_true', decide_eq_false_iff_not, decide_eq_true_eq]
  omega

/-- The trigger word, bit by bit (R172, R173). -/
theorem getLsbD_setTrigWord (cfg : Params) (v : Word) (t : BitVec 8) (i : Nat) (hi : i < 32) :
    (setTrigWord cfg v t).getLsbD i =
      if cfg.trigShift.val ≤ i ∧ i < cfg.trigShift.val + 2 then
        (trigField cfg (classify cfg t)).getLsbD (i - cfg.trigShift.val) ||
          (decide (i = cfg.invBit.val) && trigInvert (classify cfg t))
      else if i = cfg.invBit.val then trigInvert (classify cfg t) else v.getLsbD i := by
  unfold setTrigWord
  have hif : (if trigInvert (classify cfg t) then bit cfg.invBit.val else 0).getLsbD i =
      (decide (i = cfg.invBit.val) && trigInvert (classify cfg t)) := by
    cases trigInvert (classify cfg t)
    · simp
    · rw [if_pos rfl, getLsbD_bit]; simp [hi]
  rw [BitVec.getLsbD_or, BitVec.getLsbD_or, BitVec.getLsbD_and, BitVec.getLsbD_not, getLsbD_trigMask,
    BitVec.getLsbD_shiftLeft, BitVec.getLsbD_setWidth, hif]
  by_cases h1 : cfg.trigShift.val ≤ i ∧ i < cfg.trigShift.val + 2
  · have h2 : ¬ i < cfg.trigShift.val := by omega
    have h3 : i - cfg.trigShift.val < 32 := by omega
    simp [h1, h2, h3, hi]
  · rw [if_neg h1]
    have h4 : (!decide (i < cfg.trigShift.val) && (decide (i - cfg.trigShift.val < 32) &&
        (trigField cfg (classify cfg t)).getLsbD (i - cfg.trigShift.val))) = false := by
      by_cases h5 : i < cfg.trigShift.val
      · simp [h5]
      · rw [BitVec.getLsbD_of_ge _ (i - cfg.trigShift.val) (by omega)]
        simp
    rw [Bool.and_assoc, h4]
    by_cases h6 : i = cfg.invBit.val <;> simp [h1, h6, hi]

/-- Setting the trigger fields twice is setting them once (R173). -/
theorem setTrigWord_idem (cfg : Params) (v : Word) (t : BitVec 8) :
    setTrigWord cfg (setTrigWord cfg v t) t = setTrigWord cfg v t := by
  apply BitVec.eq_of_getLsbD_eq
  intro i hi
  rw [getLsbD_setTrigWord _ _ _ _ hi, getLsbD_setTrigWord _ _ _ _ hi]
  split
  · rfl
  · split <;> rfl

end Sys2Proof.Machine
end

