-- ==== Sys2Proof/Laws/Decode.lean ====
section
/-! SUPPORT. The laws of packets: their bits by field, cutting and laying out, and when each format accepts a packet
(30_encoding.md R91, R92, R97). -/

namespace Sys2Proof

/-- Bit `i` of a packet, by the field it lies in (R91). -/
theorem getLsbD_pack (k : Fields) (i : Nat) :
    (pack k).getLsbD i =
      if i < 8 then k.op.getLsbD i
      else if i < 16 then k.sel.getLsbD (i - 8)
      else if i < 32 then k.pin.getLsbD (i - 16)
      else if i < 64 then k.owner.getLsbD (i - 32)
      else if i < 96 then k.cb.getLsbD (i - 64)
      else k.ctx.getLsbD (i - 96) := by
  unfold pack
  simp only [BitVec.getLsbD_append, Nat.sub_sub]
  repeat' split
  all_goals first | rfl | omega

/-- Cutting a packet that was laid out gives its fields back (R91). -/
theorem unpack_pack (k : Fields) : unpack (pack k) = k := by
  obtain ⟨op, sel, pin, owner, cb, ctx⟩ := k
  simp only [unpack, Fields.mk.injEq]
  refine ⟨?_, ?_, ?_, ?_, ?_, ?_⟩ <;>
  · apply BitVec.eq_of_getLsbD_eq
    intro i hi
    simp only [BitVec.getLsbD_extractLsb', getLsbD_pack, hi, decide_true, Bool.true_and]
    repeat' split
    all_goals first | omega | (congr 1; omega)

/-- Laying out the fields a packet was cut into gives the packet back: the fields cover all 128 bits (R91). -/
theorem pack_unpack (w : Packet) : pack (unpack w) = w := by
  apply BitVec.eq_of_getLsbD_eq
  intro i hi
  rw [getLsbD_pack]
  simp only [unpack, BitVec.getLsbD_extractLsb']
  repeat' split
  · rw [decide_eq_true (by omega), Bool.true_and, Nat.zero_add]
  · rw [decide_eq_true (by omega), Bool.true_and]; congr 1; omega
  · rw [decide_eq_true (by omega), Bool.true_and]; congr 1; omega
  · rw [decide_eq_true (by omega), Bool.true_and]; congr 1; omega
  · rw [decide_eq_true (by omega), Bool.true_and]; congr 1; omega
  · rw [decide_eq_true (by omega), Bool.true_and]; congr 1; omega

/-- Masking a packet masks its fields. -/
theorem pack_and (k m : Fields) :
    pack k &&& pack m =
      pack ⟨k.op &&& m.op, k.sel &&& m.sel, k.pin &&& m.pin, k.owner &&& m.owner, k.cb &&& m.cb, k.ctx &&& m.ctx⟩ := by
  apply BitVec.eq_of_getLsbD_eq
  intro i hi
  simp only [BitVec.getLsbD_and, getLsbD_pack]
  repeat' split
  all_goals rfl

/-- Format Z accepts exactly the packets whose other fields are zero (R97). -/
theorem formZ_ok {k : Fields} {i j : Instr} :
    formZ k i = .ok j ↔ i = j ∧ k.sel = 0 ∧ k.pin = 0 ∧ k.owner = 0 ∧ k.cb = 0 ∧ k.ctx = 0 := by
  unfold formZ
  split <;> rename_i h
  · simp [h]
  · simp only [reduceCtorEq, false_iff, not_and]
    intro _ a b c d e
    exact h ⟨a, b, c, d, e⟩

/-- Format P accepts exactly the packets whose other fields are zero (R97). -/
theorem formP_ok {k : Fields} {f : PinNum → Instr} {j : Instr} :
    formP k f = .ok j ↔ f k.pin = j ∧ k.sel = 0 ∧ k.owner = 0 ∧ k.cb = 0 ∧ k.ctx = 0 := by
  unfold formP
  split <;> rename_i h
  · simp [h]
  · simp only [reduceCtorEq, false_iff, not_and]
    intro _ a b c d
    exact h ⟨a, b, c, d⟩

/-- Format S accepts exactly the packets whose other fields are zero and whose selector the operation admits (R92, R97). -/
theorem formS_ok {k : Fields} {f : PinNum → BitVec 8 → Instr} {j : Instr} :
    formS k f = .ok j ↔
      f k.pin k.sel = j ∧ (f k.pin k.sel).wellFormed = true ∧ k.owner = 0 ∧ k.cb = 0 ∧ k.ctx = 0 := by
  unfold formS
  split <;> rename_i h
  · split <;> rename_i hw
    · simp [h, hw]
    · simp [hw]
  · simp only [reduceCtorEq, false_iff, not_and]
    intro _ _ a b c
    exact h ⟨a, b, c⟩

/-- Format R accepts exactly the packets whose selector is zero (R97). -/
theorem formR_ok {k : Fields} {f : PinNum → Token → Token → Token → Instr} {j : Instr} :
    formR k f = .ok j ↔ f k.pin k.owner k.cb k.ctx = j ∧ k.sel = 0 := by
  unfold formR
  split <;> rename_i h
  · simp [h]
  · simp only [reduceCtorEq, false_iff, not_and]
    exact fun _ => h

end Sys2Proof
end

