-- ==== Sys2Proof/Laws/Keeps.lean ====
section
/-! SUPPORT. What every body keeps, in every environment: a property closed under the few things a body can do to the state is
kept by the body, so that a claim over all operations is one closure argument (60_exceptions.md R252; 20_memory.md R77). -/

namespace Sys2Proof.Machine

/-- `I` is closed under what every body can do without writing: the fault flag, the outside moves short of a reset, a read, an
entry in the error log, a free value, a move of the sequencer inside the pseudocode; a reset among the outside moves leads to `A`. -/
structure Kept (I A : State → Prop) : Prop where
  fault : ∀ t, I t → I { t with busFault := true }
  tick : ∀ t, I t → resetComing t = false → I (envTick t)
  abandon : ∀ t, I t → resetComing t = true → A (envTick t)
  read : ∀ w off v t, I t → I (record (.read w off v) t)
  log : ∀ st p t, I t → I (logErr st p t)
  free : ∀ t, I t → I { t with free := t.free + 1 }
  stand : ∀ f t, I t → I (standAt f t)

/-- The registers an operation may write, by class (R259). -/
def writableRegs (topo : List Community) : List (Nat × Nat) := pendRegs topo ++ enableRegs topo ++ configRegs topo

/-- `I` fixes the topology and is closed under writes to the registers an operation may write. -/
structure Writes (T : List Community) (I : State → Prop) : Prop where
  topo : ∀ t, I t → t.topo = T
  write : ∀ w off v t, (w, off) ∈ writableRegs T → I t → I (record (.write w off v) (putWord w off v t))

variable {I A : State → Prop} {T : List Community}

theorem pendReg_writable {c : Community} {g : Group} (hc : c ∈ T) (hg : g ∈ c.groups) :
    (c.barno, bankOff c.isOff g.regNum) ∈ writableRegs T := by
  simp only [writableRegs, List.mem_append]
  exact .inl (.inl (List.mem_flatMap.mpr ⟨c, hc, List.mem_map.mpr ⟨g, hg, rfl⟩⟩))

theorem enableReg_writable {c : Community} {g : Group} (hc : c ∈ T) (hg : g ∈ c.groups) :
    (c.barno, bankOff c.ieOff g.regNum) ∈ writableRegs T := by
  simp only [writableRegs, List.mem_append]
  exact .inl (.inr (List.mem_flatMap.mpr ⟨c, hc, List.mem_map.mpr ⟨g, hg, rfl⟩⟩))

theorem pinReg_writable {c : Community} {p : Nat} {x : Nat × Nat} (hc : c ∈ T) (hp : p ∈ c.pins) (hx : x ∈ pinRegs c p) :
    x ∈ writableRegs T := by
  simp only [writableRegs, List.mem_append]
  exact .inr (List.mem_flatMap.mpr ⟨c, hc, List.mem_flatMap.mpr ⟨p, hp, hx⟩⟩)

/-! ## One access -/

theorem winRead_keeps (hk : Kept I A) (w off : Nat) {s : State} (hs : I s) :
    M.Ends (winRead w off) s (fun _ t => I t) I A :=
  access_ends w off _ hs (hk.fault s hs) hk.tick hk.abandon fun t ht => hk.read _ _ _ t ht

theorem winWrite_keeps (hk : Kept I A) (hw : Writes T I) {w off : Nat} (v : Word) (hm : (w, off) ∈ writableRegs T)
    {s : State} (hs : I s) : M.Ends (winWrite w off v) s (fun _ t => I t) I A :=
  access_ends w off _ hs (hk.fault s hs) hk.tick hk.abandon fun t ht => hw.write _ _ _ t hm ht

theorem winModify_keeps (hk : Kept I A) (hw : Writes T I) {w off : Nat} (f : Word → Word) (hm : (w, off) ∈ writableRegs T)
    {s : State} (hs : I s) : M.Ends (winModify w off f) s (fun _ t => I t) I A := by
  unfold winModify
  rw [M.ends_bind]
  exact (winRead_keeps hk w off hs).imp fun v t ht => winWrite_keeps hk hw (f v) hm ht

/-! ## Lookups -/

/-- `communityOf` keeps `I`; what it finds lies in the topology (R120). -/
theorem communityOf_keeps (hk : Kept I A) (p : Nat) {s : State} (hs : I s) :
    M.Ends (communityOf p) s
      (fun r t => I t ∧ ∀ ci c, r = some (ci, c) → findCommunity t.topo p = some (ci, c) ∧ c ∈ t.topo ∧ p ∈ c.pins) I A := by
  unfold M.Ends
  rw [communityOf_eq]
  cases h : findCommunity s.topo p with
  | none => exact ⟨hk.log _ _ _ hs, fun _ _ h => by cases h⟩
  | some r =>
    refine ⟨hs, fun ci c hr => ?_⟩
    cases hr
    obtain ⟨-, h2, h3⟩ := findCommunity_mem h
    exact ⟨h, h2, (mem_communityPins c p).mpr h3⟩

/-- `locate` keeps `I`; what it finds lies in the topology (R120). -/
theorem locate_keeps (hk : Kept I A) (p : Nat) {s : State} (hs : I s) :
    M.Ends (locate p) s (fun r t => I t ∧ ∀ l, r = some l → l.c ∈ t.topo ∧ l.g ∈ l.c.groups) I A := by
  unfold M.Ends
  rw [locate_eq]
  cases h : findPin s.topo p with
  | none => exact ⟨hk.log _ _ _ hs, fun _ h => by cases h⟩
  | some l =>
    refine ⟨hs, fun l' hr => ?_⟩
    cases hr
    obtain ⟨-, -, h3, h4, -⟩ := findPin_some h
    exact ⟨h3, h4⟩

theorem translatePin_keeps (hk : Kept I A) (lp : Nat) {s : State} (hs : I s) :
    M.Ends (translatePin lp) s (fun _ t => I t) I A := by
  unfold M.Ends
  rw [translatePin_eq]
  cases h : mapPin s.topo lp with
  | none => exact hk.log _ _ _ hs
  | some l => exact hs

theorem readTrig_keeps (hk : Kept I A) (p : Nat) {s : State} (hs : I s) :
    M.Ends (readTrig p) s (fun _ t => I t) I A := by
  unfold M.Ends
  rw [readTrig_eq]
  cases h : tableGet s.trig p with
  | none =>
    by_cases hl : s.lc = .started
    · simp only [if_pos hl]
      exact hk.free _ hs
    · simp only [if_neg hl]
      exact hs
  | some t => exact hs

/-! ## The guard -/

theorem hostOwned_keeps (hk : Kept I A) (p : Nat) {s : State} (hs : I s) :
    M.Ends (hostOwned p) s (fun _ t => I t) I A := by
  unfold hostOwned
  rw [M.ends_bind]
  refine (communityOf_keeps hk p hs).imp fun r t ht => ?_
  replace ht := ht.1
  split
  · exact ht
  · split
    · exact ht
    · split
      · exact hk.log _ _ _ ht
      · rw [M.ends_bind]
        exact (winRead_keeps hk _ _ ht).imp fun _ _ hu => hu

theorem gpioMode_keeps (hk : Kept I A) (p : Nat) {s : State} (hs : I s) :
    M.Ends (gpioMode p) s (fun _ t => I t) I A := by
  unfold gpioMode
  rw [M.ends_bind]
  refine (communityOf_keeps hk p hs).imp fun r t ht => ?_
  replace ht := ht.1
  split
  · exact ht
  · split
    · exact ht
    · split
      · exact hk.log _ _ _ ht
      · rw [M.ends_bind]
        exact (winRead_keeps hk _ _ ht).imp fun _ _ hu => hu

theorem lockedPin_keeps (hk : Kept I A) (p : Nat) {s : State} (hs : I s) :
    M.Ends (lockedPin p) s (fun _ t => I t) I A := by
  unfold lockedPin
  rw [M.ends_bind]
  refine (communityOf_keeps hk p hs).imp fun r t ht => ?_
  replace ht := ht.1
  split
  · exact ht
  · split
    · exact ht
    · split
      · exact hk.log _ _ _ ht
      · rw [M.ends_bind, M.ends_look, M.ends_bind]
        refine (winRead_keeps hk _ _ ht).imp fun _ u hu => ?_
        split
        · exact hu
        · rw [M.ends_bind]
          exact (winRead_keeps hk _ _ hu).imp fun _ _ hv => hv

/-! ## The router -/

theorem setTrigBody_keeps (hk : Kept I A) (hw : Writes T I) (p : Nat) (ty : BitVec 8)
    (htrig : ∀ t, I t → I (setTrig p ty t)) {s : State} (hs : I s) :
    M.Ends (setTrigBody p ty) s (fun _ t => I t) I A := by
  unfold setTrigBody
  rw [M.ends_bind]
  refine (communityOf_keeps hk p hs).imp fun r t ht => ?_
  obtain ⟨ht, hr⟩ := ht
  split
  · exact ht
  · rename_i ci c
    obtain ⟨-, hc, hp⟩ := hr ci c rfl
    rw [hw.topo t ht] at hc
    rw [M.ends_bind]
    refine (gpioMode_keeps hk p ht).imp fun b u hu => ?_
    split
    · rw [M.ends_bind, M.ends_look, M.ends_bind]
      refine (winModify_keeps hk hw _ (pinReg_writable hc hp (by simp [pinRegs])) hu).imp fun _ v hv => ?_
      exact htrig v hv
    · exact hu

theorem enableBody_keeps (hk : Kept I A) (hw : Writes T I) (p : Nat) {s : State} (hs : I s) :
    M.Ends (enableBody p) s (fun _ t => I t) I A := by
  unfold enableBody
  rw [M.ends_bind]
  refine (locate_keeps hk p hs).imp fun r t ht => ?_
  obtain ⟨ht, hr⟩ := ht
  split
  · exact ht
  · rename_i l
    obtain ⟨hc, hg⟩ := hr l rfl
    rw [hw.topo t ht] at hc
    rw [M.ends_bind]
    refine (winWrite_keeps hk hw _ (pendReg_writable hc hg) ht).imp fun _ u hu => ?_
    rw [M.ends_bind]
    exact (winModify_keeps hk hw _ (enableReg_writable hc hg) hu).imp fun _ _ hv => hv

theorem maskBody_keeps (hk : Kept I A) (hw : Writes T I) (p : Nat) (m : Bool) {s : State} (hs : I s) :
    M.Ends (maskBody p m) s (fun _ t => I t) I A := by
  unfold maskBody
  rw [M.ends_bind]
  refine (locate_keeps hk p hs).imp fun r t ht => ?_
  obtain ⟨ht, hr⟩ := ht
  split
  · exact ht
  · rename_i l
    obtain ⟨hc, hg⟩ := hr l rfl
    rw [hw.topo t ht] at hc
    rw [M.ends_bind]
    exact (winModify_keeps hk hw _ (enableReg_writable hc hg) ht).imp fun _ _ hv => hv

theorem registerBody_keeps (hk : Kept I A) (p : Nat) (owner cb ctx : Token)
    (hslot : ∀ t, I t → I (setSlot p ⟨true, owner, cb, ctx⟩ t)) {s : State} (hs : I s) :
    M.Ends (registerBody p owner cb ctx) s (fun _ t => I t) I A := by
  unfold registerBody
  rw [M.ends_bind]
  refine (communityOf_keeps hk p hs).imp fun r t ht => ?_
  replace ht := ht.1
  split
  · exact ht
  · rw [M.ends_bind, M.ends_look]
    split
    · exact ht
    · exact hslot t ht

theorem unregisterBody_keeps (hk : Kept I A) (hw : Writes T I) (p : Nat)
    (hslot : ∀ t, I t → I (setSlot p Slot.free t)) (htrig : ∀ t, I t → I (setTrig p 0 t)) {s : State} (hs : I s) :
    M.Ends (unregisterBody p) s (fun _ t => I t) I A := by
  unfold unregisterBody
  rw [M.ends_bind]
  refine (maskBody_keeps hk hw p true hs).imp fun st t ht => ?_
  split
  · exact ht
  · exact htrig _ (hslot _ ht)

theorem dispatchPin_keeps (hk : Kept I A) (hw : Writes T I)
    (hcall : ∀ p t, I t → (slotOf t p).valid = true → I (emitCallback (slotOf t p) p t)) (p n : Nat) {s : State} (hs : I s) :
    M.Ends (dispatchPin p n) s (fun _ t => I t) I A := by
  unfold dispatchPin
  rw [M.ends_bind, M.ends_look, M.ends_bind]
  have h1 : M.Ends (if (slotOf s p).valid then M.update (emitCallback (slotOf s p) p) else M.pure ()) s (fun _ t => I t) I A := by
    split
    · rename_i hv
      exact hcall p s hs hv
    · exact hs
  refine h1.imp fun _ t ht => ?_
  rw [M.ends_bind]
  refine (readTrig_keeps hk p ht).imp fun ty u hu => ?_
  rw [M.ends_bind, M.ends_look, M.ends_bind]
  have h2 : M.Ends (if isLevel u.cfg ty then M.bind (enableBody p) fun _ => M.pure () else M.pure ()) u (fun _ t => I t) I A := by
    split
    · rw [M.ends_bind]
      exact (enableBody_keeps hk hw p hu).imp fun _ _ hv => hv
    · exact hu
  exact h2.imp fun _ _ hv => hv

theorem dispatchBody_keeps (hk : Kept I A) (hw : Writes T I)
    (hcall : ∀ p t, I t → (slotOf t p).valid = true → I (emitCallback (slotOf t p) p t)) {s : State} (hs : I s) :
    M.Ends dispatchBody s (fun _ t => I t) I A := by
  unfold dispatchBody
  rw [M.ends_stand, M.ends_bind, M.ends_look, M.ends_bind]
  refine (M.ends_fold _ _ _ _ I I A (hk.stand _ s hs) fun n c t _ ht => ?_).imp fun _ _ h => h
  rw [M.ends_stand]
  refine M.ends_fold _ _ _ _ I I A (hk.stand _ t ht) fun k g u _ hu => ?_
  rw [M.ends_stand]
  replace hu := hk.stand (.atGroup g.2) u hu
  unfold dispatchGroup
  rw [M.ends_bind]
  refine (winRead_keeps hk _ _ hu).imp fun pend v hv => ?_
  rw [M.ends_bind]
  refine (winRead_keeps hk _ _ hv).imp fun en x hx => ?_
  refine M.ends_fold _ _ _ x I I A hx fun k i y _ hy => ?_
  rw [M.ends_stand]
  replace hy := hk.stand (.atItem i) y hy
  split
  · exact dispatchPin_keeps hk hw hcall _ _ hy
  · exact hy

/-! ## Logical pins -/

theorem onLogical_keeps (hk : Kept I A) (lp : Nat) (body : Nat → M Response) {s : State} (hs : I s)
    (hb : ∀ p t, I t → M.Ends (body p) t (fun _ u => I u) I A) :
    M.Ends (onLogical lp body) s (fun _ t => I t) I A := by
  unfold onLogical
  rw [M.ends_bind]
  refine (translatePin_keeps hk lp hs).imp fun r t ht => ?_
  split
  · exact ht
  · exact hb _ t ht

theorem getTypeBody_keeps (hk : Kept I A) (p : Nat) {s : State} (hs : I s) :
    M.Ends (getTypeBody p) s (fun _ t => I t) I A := by
  unfold getTypeBody
  rw [M.ends_bind]
  exact (readTrig_keeps hk p hs).imp fun _ _ h => h

theorem statusOnly_keeps (m : M Status) {s : State} (h : M.Ends m s (fun _ t => I t) I A) :
    M.Ends (statusOnly m) s (fun _ t => I t) I A := by
  unfold statusOnly
  rw [M.ends_bind]
  exact h.imp fun _ _ h => h

theorem answerBool_keeps (m : M Bool) {s : State} (h : M.Ends m s (fun _ t => I t) I A) :
    M.Ends (answerBool m) s (fun _ t => I t) I A := by
  unfold answerBool
  rw [M.ends_bind]
  exact h.imp fun _ _ h => h

theorem done_keeps (m : M Unit) {s : State} (h : M.Ends m s (fun _ t => I t) I A) :
    M.Ends (done m) s (fun _ t => I t) I A := by
  unfold done
  rw [M.ends_bind]
  exact h.imp fun _ _ h => h

/-! ## Sweeps -/

theorem eachPin_keeps (hk : Kept I A) (f : Community → Nat → M Unit) {s : State} (hs : I s)
    (hf : ∀ c p t, c ∈ s.topo → p ∈ c.pins → I t → M.Ends (f c p) t (fun _ u => I u) I A) :
    M.Ends (eachPin f) s (fun _ t => I t) I A := by
  unfold eachPin
  rw [M.ends_stand, M.ends_bind, M.ends_look]
  refine M.ends_each _ _ _ I I A (hk.stand _ s hs) fun c t hc ht => ?_
  rw [M.ends_stand]
  refine M.ends_each _ _ _ I I A (hk.stand _ t ht) fun p u hp hu => ?_
  rw [M.ends_stand]
  obtain ⟨c, ci⟩ := c
  exact hf c p _ (List.fst_mem_of_mem_zipIdx hc) hp (hk.stand _ u hu)

theorem eachGroup_keeps (hk : Kept I A) (f : Nat → Community → Nat → Group → M Unit) {s : State} (hs : I s)
    (hf : ∀ ci c gi g t, c ∈ s.topo → g ∈ c.groups → I t → M.Ends (f ci c gi g) t (fun _ u => I u) I A) :
    M.Ends (eachGroup f) s (fun _ t => I t) I A := by
  unfold eachGroup
  rw [M.ends_stand, M.ends_bind, M.ends_look]
  refine M.ends_each _ _ _ I I A (hk.stand _ s hs) fun c t hc ht => ?_
  rw [M.ends_stand]
  refine M.ends_each _ _ _ I I A (hk.stand _ t ht) fun g u hg hu => ?_
  rw [M.ends_stand]
  obtain ⟨c, ci⟩ := c
  obtain ⟨g, gi⟩ := g
  exact hf ci c gi g _ (List.fst_mem_of_mem_zipIdx hc) (List.fst_mem_of_mem_zipIdx hg) (hk.stand _ u hu)

theorem eachRegistered_keeps (hk : Kept I A) (f : Nat → M Unit) {s : State} (hs : I s)
    (hf : ∀ p t, I t → M.Ends (f p) t (fun _ u => I u) I A) :
    M.Ends (eachRegistered f) s (fun _ t => I t) I A := by
  unfold eachRegistered
  refine eachPin_keeps hk _ hs fun c p t _ _ ht => ?_
  rw [M.ends_bind, M.ends_look]
  split
  · exact hf p t ht
  · exact ht

/-! ## The power context engine -/

theorem capturable_keeps (hk : Kept I A) (p : Nat) {s : State} (hs : I s) :
    M.Ends (capturable p) s (fun _ t => I t) I A := by
  unfold capturable
  rw [M.ends_bind]
  refine (hostOwned_keeps hk p hs).imp fun b t ht => ?_
  split
  · rw [M.ends_bind]
    refine (lockedPin_keeps hk p ht).imp fun b u hu => ?_
    split
    · exact hu
    · exact hu
  · exact ht

theorem capturePin_keeps (hk : Kept I A) (c : Community) (p : Nat)
    (hcap : ∀ k t, I t → I (setPad p (fun e => { e with captured := k }) t))
    (h0 : ∀ v t, I t → I (setPad p (fun e => { e with cfg0 := clearRxState t.cfg v }) t))
    (h1 : ∀ v t, I t → I (setPad p (fun e => { e with cfg1 := v }) t))
    (h2 : ∀ v t, I t → I (setPad p (fun e => { e with cfg2 := v }) t)) {s : State} (hs : I s) :
    M.Ends (capturePin c p) s (fun _ t => I t) I A := by
  unfold capturePin
  rw [M.ends_bind]
  refine (capturable_keeps hk p hs).imp fun k t ht => ?_
  rw [M.ends_bind, M.ends_update]
  have ht' := hcap k t ht
  split
  · rw [M.ends_bind]
    refine (winRead_keeps hk _ _ ht').imp fun v0 u hu => ?_
    rw [M.ends_bind, M.ends_update, M.ends_bind]
    refine (winRead_keeps hk _ _ (h0 v0 u hu)).imp fun v1 v hv => ?_
    rw [M.ends_bind, M.ends_update]
    split
    · exact h1 v1 v hv
    · rw [M.ends_bind]
      exact (winRead_keeps hk _ _ (h1 v1 v hv)).imp fun v2 x hx => h2 v2 x hx
  · exact ht'

theorem ctxSuspendBody_keeps (hk : Kept I A)
    (hcap : ∀ p k t, I t → I (setPad p (fun e => { e with captured := k }) t))
    (h0 : ∀ p v t, I t → I (setPad p (fun e => { e with cfg0 := clearRxState t.cfg v }) t))
    (h1 : ∀ p v t, I t → I (setPad p (fun e => { e with cfg1 := v }) t))
    (h2 : ∀ p v t, I t → I (setPad p (fun e => { e with cfg2 := v }) t))
    (hsh : ∀ ci gi v t, I t → I (setShadow ci gi v t)) {s : State} (hs : I s) :
    M.Ends ctxSuspendBody s (fun _ t => ∃ u, I u ∧ t = { u with cs := .saved }) I A := by
  unfold ctxSuspendBody
  rw [M.ends_bind]
  refine (eachPin_keeps hk _ hs fun c p t _ _ ht =>
    capturePin_keeps hk c p (hcap p) (h0 p) (h1 p) (h2 p) ht).imp fun _ t ht => ?_
  rw [M.ends_bind]
  refine (eachGroup_keeps hk _ ht fun ci c gi g u _ _ hu => ?_).imp fun _ u hu => ⟨u, hu, rfl⟩
  unfold captureGroup
  rw [M.ends_bind]
  exact (winRead_keeps hk _ _ hu).imp fun v x hx => hsh ci gi v x hx

theorem restoreReg_keeps (hk : Kept I A) (hw : Writes T I) {w off : Nat} (clean : Word → Word) (sh : Word)
    (hm : (w, off) ∈ writableRegs T) {s : State} (hs : I s) :
    M.Ends (restoreReg w off clean sh) s (fun _ t => I t) I A := by
  unfold restoreReg
  rw [M.ends_bind]
  refine (winRead_keeps hk _ _ hs).imp fun cur t ht => ?_
  split
  · exact ht
  · exact winWrite_keeps hk hw _ hm ht

theorem restorePin_keeps (hk : Kept I A) (hw : Writes T I) (c : Community) (p : Nat) (hc : c ∈ T) (hp : p ∈ c.pins)
    {s : State} (hs : I s) : M.Ends (restorePin c p) s (fun _ t => I t) I A := by
  unfold restorePin
  rw [M.ends_bind, M.ends_look]
  split
  · rw [M.ends_bind]
    refine (restoreReg_keeps hk hw _ _ (pinReg_writable hc hp (by simp [pinRegs])) hs).imp fun _ t ht => ?_
    rw [M.ends_bind]
    refine (restoreReg_keeps hk hw _ _ (pinReg_writable hc hp (by simp [pinRegs])) ht).imp fun _ u hu => ?_
    split
    · exact hu
    · rename_i a ha
      exact restoreReg_keeps hk hw _ _ (pinReg_writable hc hp (by simp [pinRegs, ha])) hu
  · exact hs

theorem ctxResumeBody_keeps (hk : Kept I A) (hw : Writes T I) {s : State} (hs : I s) :
    M.Ends ctxResumeBody s (fun _ t => ∃ u, I u ∧ t = { u with cs := .idle }) I A := by
  unfold ctxResumeBody
  rw [M.ends_bind]
  refine (eachGroup_keeps hk _ hs fun ci c gi g t hc hg ht => ?_).imp fun _ t ht => ?_
  · rw [hw.topo s hs] at hc
    unfold baselineGroup
    rw [M.ends_bind]
    exact (winWrite_keeps hk hw _ (enableReg_writable hc hg) ht).imp fun _ u hu =>
      winWrite_keeps hk hw _ (pendReg_writable hc hg) hu
  · rw [M.ends_bind]
    refine (eachPin_keeps hk _ ht fun c p u hc hp hu => ?_).imp fun _ u hu => ?_
    · rw [hw.topo t ht] at hc
      exact restorePin_keeps hk hw c p hc hp hu
    · rw [M.ends_bind]
      refine (eachGroup_keeps hk _ hu fun ci c gi g v hc hg hv => ?_).imp fun _ v hv => ⟨v, hv, rfl⟩
      rw [hw.topo u hu] at hc
      unfold restoreGroup
      rw [M.ends_bind, M.ends_look]
      exact winWrite_keeps hk hw _ (enableReg_writable hc hg) hv

theorem logRefusal_keeps (hk : Kept I A) (p : Nat) (st : Status) {s : State} (hs : I s) :
    M.Ends (logRefusal p st) s (fun _ t => I t) I A := by
  unfold logRefusal
  split
  · exact hs
  · exact hk.log _ _ _ hs

theorem powerOffPin_keeps (hk : Kept I A) (hw : Writes T I) (p : Nat) {s : State} (hs : I s) :
    M.Ends (powerOffPin p) s (fun _ t => I t) I A := by
  unfold powerOffPin
  rw [M.ends_bind]
  exact (maskBody_keeps hk hw p true hs).imp fun st t ht => logRefusal_keeps hk p st ht

theorem powerOnPin_keeps (hk : Kept I A) (hw : Writes T I) (htrig : ∀ p ty t, I t → I (setTrig p ty t)) (p : Nat)
    {s : State} (hs : I s) : M.Ends (powerOnPin p) s (fun _ t => I t) I A := by
  unfold powerOnPin
  rw [M.ends_bind]
  refine (readTrig_keeps hk p hs).imp fun ty t ht => ?_
  rw [M.ends_bind]
  refine (setTrigBody_keeps hk hw p ty (htrig p ty) ht).imp fun st u hu => ?_
  split
  · rw [M.ends_bind]
    exact (enableBody_keeps hk hw p hu).imp fun st v hv => logRefusal_keeps hk p st hv
  · exact hk.log _ _ _ hu

/-! ## Topology and control -/

theorem readPadBases_keeps (hk : Kept I A) (ci : Nat) (cs : List Community) {s : State} (hs : I s) :
    M.Ends (readPadBases ci cs) s (fun r t => I t ∧ ∀ vs, r = some vs → vs.length = cs.length) I A := by
  induction cs generalizing s ci with
  | nil => exact ⟨hs, fun vs h => by cases h; rfl⟩
  | cons c cs ih =>
    unfold readPadBases
    rw [M.ends_stand, M.ends_bind, M.ends_look]
    replace hs := hk.stand (.atCommunity ci) s hs
    split
    · rw [M.ends_bind]
      refine (winRead_keeps hk _ _ hs).imp fun v t ht => ?_
      rw [M.ends_bind]
      refine (ih (ci + 1) ht).imp fun r u hu => ?_
      rw [M.ends_pure]
      refine ⟨hu.1, fun vs hv => ?_⟩
      rw [Option.map_eq_some_iff] at hv
      obtain ⟨l, hl, rfl⟩ := hv
      simp [hu.2 l hl]
    · exact ⟨hs, fun vs h => by cases h⟩

/-- START ends with its tables set, or with only what its reads do (R124). -/
theorem startBody_ends (hk : Kept I A) {s : State} (hs : I s) :
    M.Ends startBody s
      (fun _ t => I t ∨ ∃ bases u, I u ∧ bases.length = s.topo.length ∧ tablesFit u.cfg s.topo = true ∧
        t = { ctxInitBody (startTables bases u) with lc := .started }) I A := by
  unfold startBody
  rw [M.ends_stand, M.ends_bind, M.ends_look, M.ends_bind]
  refine (readPadBases_keeps hk 0 s.topo (hk.stand _ s hs)).imp fun r t ht => ?_
  split
  · exact .inl ht.1
  · rename_i bases
    rw [M.ends_bind, M.ends_look]
    split
    · rename_i hf
      exact .inr ⟨bases, t, ht.1, ht.2 bases rfl, hf, rfl⟩
    · exact .inl ht.1

/-- STOP ends with its tables emptied (R125). -/
theorem stopBody_ends (hk : Kept I A) (hw : Writes T I) (hslot : ∀ p t, I t → I (setSlot p Slot.free t))
    (htrig : ∀ p t, I t → I (setTrig p 0 t)) {s : State} (hs : I s) :
    M.Ends stopBody s
      (fun _ t => ∃ u, I u ∧ t = stopTables (if u.cs = .none then u else ctxReleaseBody u)) I A := by
  unfold stopBody
  rw [M.ends_bind]
  refine (eachRegistered_keeps hk _ hs fun p t ht => ?_).imp fun _ t ht => ⟨t, ht, rfl⟩
  rw [M.ends_bind]
  exact (unregisterBody_keeps hk hw p (hslot p) (htrig p) ht).imp fun _ _ h => h

theorem rescomBody_keeps (hk : Kept I A) (p : Nat) {s : State} (hs : I s) :
    M.Ends (rescomBody p) s (fun _ t => I t) I A := by
  unfold rescomBody
  rw [M.ends_bind]
  refine (communityOf_keeps hk p hs).imp fun r t ht => ?_
  split <;> exact ht.1

theorem resgrpBody_keeps (hk : Kept I A) (ci p : Nat) {s : State} (hs : I s) :
    M.Ends (resgrpBody ci p) s (fun _ t => I t) I A := by
  unfold M.Ends resgrpBody
  split <;> rename_i h <;> split at h
  · cases h; exact hk.log _ _ _ hs
  · split at h
    · cases h; exact hk.log _ _ _ hs
    · cases h; exact hs
  all_goals first | cases h | (split at h <;> cases h)

theorem regoffBody_keeps (hk : Kept I A) (p which : Nat) {s : State} (hs : I s) :
    M.Ends (regoffBody p which) s (fun _ t => I t) I A := by
  unfold regoffBody
  rw [M.ends_bind]
  refine (communityOf_keeps hk p hs).imp fun r t ht => ?_
  split
  · exact ht.1
  · split <;> exact ht.1

theorem mappinBody_keeps (hk : Kept I A) (lp : Nat) {s : State} (hs : I s) :
    M.Ends (mappinBody lp) s (fun _ t => I t) I A := by
  unfold mappinBody
  rw [M.ends_bind]
  refine (translatePin_keeps hk lp hs).imp fun r t ht => ?_
  split <;> exact ht

end Sys2Proof.Machine
end

