-- ==== Sys2Proof/Laws/Exec.lean ====
section
/-! SUPPORT. One closure argument for every operation: a property closed under what an operation may do is kept by it
(60_exceptions.md R252), in every environment; and the case where the reset input is not asserted (R280). -/

namespace Sys2Proof.Machine

/-! ## Which operations may change which tables -/

/-- The operations that may write a slot (R181, R183, R192, R193), START and STOP apart. -/
def writesSlots : Instr → Bool
  | .register _ _ _ _ | .regint _ _ _ _ | .unregister _ | .unregint _ => true
  | _ => false

/-- The operations that may write a recorded type (R173, R183, R193, R196, R220), START and STOP apart. -/
def writesTrig : Instr → Bool
  | .settrig _ _ | .settypeint _ _ | .unregister _ | .unregint _ | .pwron => true
  | _ => false

/-- The operations that take a snapshot (R212, R219). -/
def takesSnapshot : Instr → Bool
  | .ctxsuspend | .pwroff => true
  | _ => false

/-- The operations that restore one (R215, R220). -/
def restoresSnapshot : Instr → Bool
  | .ctxresume | .pwron => true
  | _ => false

/-- `I` is closed under the table updates that operation `i` may make. -/
structure Touches (i : Instr) (I : State → Prop) : Prop where
  slot : writesSlots i = true → ∀ p sl t, I t → (sl.valid = false → sl = Slot.free) → I (setSlot p sl t)
  trig : writesTrig i = true → ∀ p ty t, I t → I (setTrig p ty t)
  call : i = .dispatch → ∀ p t, I t → (slotOf t p).valid = true → I (emitCallback (slotOf t p) p t)
  captured : takesSnapshot i = true → ∀ p k t, I t → I (setPad p (fun e => { e with captured := k }) t)
  cfg0 : takesSnapshot i = true → ∀ p v t, I t → I (setPad p (fun e => { e with cfg0 := clearRxState t.cfg v }) t)
  cfg1 : takesSnapshot i = true → ∀ p v t, I t → I (setPad p (fun e => { e with cfg1 := v }) t)
  cfg2 : takesSnapshot i = true → ∀ p v t, I t → I (setPad p (fun e => { e with cfg2 := v }) t)
  shadow : takesSnapshot i = true → ∀ ci gi v t, I t → I (setShadow ci gi v t)
  saved : takesSnapshot i = true → ∀ t : State, I t → I { t with cs := .saved }
  idle : restoresSnapshot i = true → ∀ t : State, I t → I { t with cs := .idle }
  init : i = .ctxinit → ∀ t, I t → I (ctxInitBody t)
  release : i = .ctxrelease → ∀ t, I t → I (ctxReleaseBody t)

/-- BUILD, START and STOP, which change the topology. -/
def changesTopology : Instr → Bool
  | .build | .start | .stop => true
  | _ => false

variable {I A : State → Prop} {T : List Community}

/-- What an operation that leaves the topology alone keeps: its own state is answered, or the reset input abandoned it. -/
theorem exec_keeps {i : Instr} {s t : State} (hk : Kept I A) (hw : Writes T I) (hu : Touches i I)
    (hc : changesTopology i = false) (hs : legal i s = true → I (takeCommand (.command i) s)) (h : exec i s = .next t) :
    (∃ r u, (I u ∨ u = takeCommand (.command i) s) ∧ t = respond r u) ∨ A t := by
  have key : ∀ body : M Response, perform i body s = .next t →
      (I (takeCommand (.command i) s) → M.Ends body (takeCommand (.command i) s) (fun _ u => I u) I A) →
      (∃ r u, (I u ∨ u = takeCommand (.command i) s) ∧ t = respond r u) ∨ A t := by
    intro body hp hb
    exact perform_ends (I := fun u => I u ∨ u = takeCommand (.command i) s) hp (.inr rfl) fun _ hl =>
      (hb (hs hl)).mono (fun _ _ h => .inl h) (fun _ h => .inl h) fun _ h => h
  have sus : takesSnapshot i = true → ∀ t, I t → M.Ends ctxSuspendBody t (fun _ u => I u) I A := fun hi t ht =>
    (ctxSuspendBody_keeps hk (hu.captured hi) (hu.cfg0 hi) (hu.cfg1 hi) (hu.cfg2 hi) (hu.shadow hi) ht).imp
      fun _ u ⟨v, hv, e⟩ => e ▸ hu.saved hi v hv
  have res : restoresSnapshot i = true → ∀ t, I t → M.Ends ctxResumeBody t (fun _ u => I u) I A := fun hi t ht =>
    (ctxResumeBody_keeps hk hw ht).imp fun _ u ⟨v, hv, e⟩ => e ▸ hu.idle hi v hv
  have reg : writesSlots i = true → ∀ p a b c t, I t → I (setSlot p ⟨true, a, b, c⟩ t) := fun hi p a b c t ht =>
    hu.slot hi p _ t ht fun h => by cases h
  have unreg : writesSlots i = true → ∀ p t, I t → I (setSlot p Slot.free t) := fun hi p t ht =>
    hu.slot hi p _ t ht fun _ => rfl
  cases i with
  | build => cases hc
  | start => cases hc
  | stop => cases hc
  | rescom pin => exact key _ h fun hs => rescomBody_keeps hk _ hs
  | resgrp ci pin => exact key _ h fun hs => resgrpBody_keeps hk _ _ hs
  | regoff pin sel => exact key _ h fun hs => regoffBody_keeps hk _ _ hs
  | mappin pin => exact key _ h fun hs => mappinBody_keeps hk _ hs
  | getstatus => exact key _ h fun hs => hs
  | hostown pin => exact key _ h fun hs => answerBool_keeps _ (hostOwned_keeps hk _ hs)
  | gpiomode pin => exact key _ h fun hs => answerBool_keeps _ (gpioMode_keeps hk _ hs)
  | locked pin => exact key _ h fun hs => answerBool_keeps _ (lockedPin_keeps hk _ hs)
  | settrig pin ty => exact key _ h fun hs => statusOnly_keeps _ (setTrigBody_keeps hk hw _ _ (hu.trig rfl _ _) hs)
  | enable pin => exact key _ h fun hs => statusOnly_keeps _ (enableBody_keeps hk hw _ hs)
  | maskunmask pin sel => exact key _ h fun hs => statusOnly_keeps _ (maskBody_keeps hk hw _ _ hs)
  | register pin owner cb ctx =>
    exact key _ h fun hs => statusOnly_keeps _ (registerBody_keeps hk _ _ _ _ (reg rfl _ _ _ _) hs)
  | unregister pin =>
    exact key _ h fun hs => statusOnly_keeps _ (unregisterBody_keeps hk hw _ (unreg rfl _) (hu.trig rfl _ _) hs)
  | dispatch => exact key _ h fun hs => dispatchBody_keeps hk hw (hu.call rfl) hs
  | gettype pin => exact key _ h fun hs => onLogical_keeps hk _ _ hs fun p t ht => getTypeBody_keeps hk p ht
  | regint pin owner cb ctx =>
    exact key _ h fun hs => onLogical_keeps hk _ _ hs fun p t ht =>
      statusOnly_keeps _ (registerBody_keeps hk _ _ _ _ (reg rfl _ _ _ _) ht)
  | unregint pin =>
    exact key _ h fun hs => onLogical_keeps hk _ _ hs fun p t ht =>
      statusOnly_keeps _ (unregisterBody_keeps hk hw _ (unreg rfl _) (hu.trig rfl _ _) ht)
  | enint pin =>
    exact key _ h fun hs => onLogical_keeps hk _ _ hs fun p t ht => statusOnly_keeps _ (enableBody_keeps hk hw _ ht)
  | disint pin =>
    exact key _ h fun hs => onLogical_keeps hk _ _ hs fun p t ht => statusOnly_keeps _ (maskBody_keeps hk hw _ _ ht)
  | settypeint pin ty =>
    exact key _ h fun hs => onLogical_keeps hk _ _ hs fun p t ht =>
      statusOnly_keeps _ (setTrigBody_keeps hk hw _ _ (hu.trig rfl _ _) ht)
  | ctxinit => exact key _ h fun hs => done_keeps _ (hu.init rfl _ hs)
  | ctxsuspend => exact key _ h fun hs => done_keeps _ (sus rfl _ hs)
  | ctxresume => exact key _ h fun hs => done_keeps _ (res rfl _ hs)
  | ctxrelease => exact key _ h fun hs => done_keeps _ (hu.release rfl _ hs)
  | pwroff =>
    refine key _ h fun hs => done_keeps _ ?_
    rw [M.ends_bind]
    exact (eachRegistered_keeps hk _ hs fun p t ht => powerOffPin_keeps hk hw p ht).imp fun _ t ht => sus rfl t ht
  | pwron =>
    refine key _ h fun hs => done_keeps _ ?_
    rw [M.ends_bind]
    exact (res rfl _ hs).imp fun _ t ht => eachRegistered_keeps hk _ ht fun p u hu' =>
      powerOnPin_keeps hk hw (hu.trig rfl) p hu'

/-- What BUILD does (R121): the topology and `lc`, or nothing. -/
theorem exec_build_cases {s t : State} (h : exec .build s = .next t) :
    ∃ r u, t = respond r u ∧ (u = takeCommand (.command .build) s ∨
      s.lc = .reset ∧ ∃ topo, buildTopo s.cfg.desc = some topo ∧
        u = { takeCommand (.command .build) s with topo := topo, lc := .built }) := by
  have hp := perform_ends (body := buildBody) (A := fun _ => False)
    (I := fun u => u = takeCommand (.command .build) s ∨
      s.lc = .reset ∧ ∃ topo, buildTopo s.cfg.desc = some topo ∧
        u = { takeCommand (.command .build) s with topo := topo, lc := .built }) h (.inl rfl) fun _ hl => by
      have hr : s.lc = .reset := by simpa [legal, legalLc, legalCs] using hl
      unfold M.Ends buildBody
      cases hb : buildTopo s.cfg.desc with
      | none => simp only [takeCommand_cfg, hb]; exact .inl trivial
      | some topo => simp only [takeCommand_cfg, hb]; exact .inr ⟨hr, topo, rfl, rfl⟩
  rcases hp with ⟨r, u, hu, ht⟩ | hf
  · exact ⟨r, u, ht, hu⟩
  · exact hf.elim

/-- What START does (R124): its tables, or only what its reads do, or an abandonment. -/
theorem exec_start_cases {s t : State} (hk : Kept I A) (hs : I (takeCommand (.command .start) s))
    (h : exec .start s = .next t) :
    (∃ r u, t = respond r u ∧ (I u ∨ s.lc = .built ∧ ∃ bases v, I v ∧ bases.length = s.topo.length ∧
      tablesFit v.cfg s.topo = true ∧ u = { ctxInitBody (startTables bases v) with lc := .started })) ∨ A t := by
  have hp := perform_ends (body := startBody) (A := A)
    (I := fun u => I u ∨ s.lc = .built ∧ ∃ bases v, I v ∧ bases.length = s.topo.length ∧
      tablesFit v.cfg s.topo = true ∧ u = { ctxInitBody (startTables bases v) with lc := .started }) h (.inl hs) fun _ hl => by
      have hr : s.lc = .built := by simpa [legal, legalLc, legalCs] using hl
      refine (startBody_ends hk hs).mono (fun _ u hu => ?_) (fun _ h => .inl h) fun _ h => h
      rcases hu with hu | ⟨bases, v, hv, hlen, hf, e⟩
      · exact .inl hu
      · exact .inr ⟨hr, bases, v, hv, hlen, hf, e⟩
  rcases hp with ⟨r, u, hu, ht⟩ | hf
  · exact .inl ⟨r, u, ht, hu⟩
  · exact .inr hf

/-- What STOP does (R125): its tables emptied after the sweep, or a part of the sweep, or an abandonment. -/
theorem exec_stop_cases {s t : State} (hk : Kept I A) (hw : Writes T I) (hslot : ∀ p t, I t → I (setSlot p Slot.free t))
    (htrig : ∀ p t, I t → I (setTrig p 0 t)) (hs : I (takeCommand (.command .stop) s)) (h : exec .stop s = .next t) :
    (∃ r u, t = respond r u ∧ (I u ∨ s.lc = .started ∧ ∃ v, I v ∧
      u = stopTables (if v.cs = .none then v else ctxReleaseBody v))) ∨ A t := by
  have hp := perform_ends (body := stopBody) (A := A)
    (I := fun u => I u ∨ s.lc = .started ∧ ∃ v, I v ∧ u = stopTables (if v.cs = .none then v else ctxReleaseBody v))
    h (.inl hs) fun _ hl => by
      have hr : s.lc = .started := by simpa [legal, legalLc, legalCs] using hl
      refine (stopBody_ends hk hw hslot htrig hs).mono (fun _ u hu => .inr ⟨hr, hu⟩) (fun _ h => .inl h) fun _ h => h
  rcases hp with ⟨r, u, hu, ht⟩ | hf
  · exact .inl ⟨r, u, ht, hu⟩
  · exact .inr hf

/-! ## Where the reset input is not asserted -/

theorem resetComing_of_noReset {s : State} (h : NoReset s) : resetComing s = false := by
  unfold resetComing
  split
  · rfl
  · rename_i batch rest he
    have := h batch (by rw [he]; exact List.mem_cons_self)
    simpa using this

/-- A property closed under any change of what the outside moves change is `Kept`, with nothing abandoned. -/
theorem kept_of_noReset {J : State → Prop} (henv : ∀ t : State, J t → ∀ m n c e, J { t with mem := m, irqNotif := n, cmds := c, env := e })
    (hfault : ∀ t : State, J t → J { t with busFault := true }) (hread : ∀ w off v t, J t → J (record (.read w off v) t))
    (hlog : ∀ st p t, J t → J (logErr st p t)) (hfree : ∀ t : State, J t → J { t with free := t.free + 1 })
    (hseq : ∀ t : State, J t → ∀ q, J { t with seq := q }) :
    Kept (fun t => J t ∧ NoReset t) (fun _ => False) where
  fault t h := ⟨hfault t h.1, h.2⟩
  tick t h hr := by
    obtain ⟨m, n, c, he⟩ := envTick_of_noReset hr
    rw [he]
    exact ⟨henv t h.1 m n c _, fun b hb => h.2 b (List.mem_of_mem_tail hb)⟩
  abandon t h hr := by rw [resetComing_of_noReset h.2] at hr; cases hr
  read w off v t h := ⟨hread w off v t h.1, h.2⟩
  log st p t h := ⟨hlog st p t h.1, h.2⟩
  free t h := ⟨hfree t h.1, h.2⟩
  stand f t h := ⟨hseq t h.1 _, h.2⟩

end Sys2Proof.Machine
end

