-- ==== Sys2Proof/Laws/PerInstr.lean ====
section
/-! SUPPORT. One lemma a constructor: its packets match its row of spec/opcode_table.json (30_encoding.md R96). -/

namespace Sys2Proof.Laws.TableRow

/-- The `mask` column of the operation's row. -/
def rowMask : Instr → Packet
  | .build => 0xFFFFFFFFFFFFFFFFFFFFFFFFFFFFFFFF
  | .start => 0xFFFFFFFFFFFFFFFFFFFFFFFFFFFFFFFF
  | .stop => 0xFFFFFFFFFFFFFFFFFFFFFFFFFFFFFFFF
  | .rescom _ => 0xFFFFFFFFFFFFFFFFFFFFFFFF0000FFFF
  | .resgrp _ _ => 0xFFFFFFFFFFFFFFFFFFFFFFFF000000FF
  | .regoff _ _ => 0xFFFFFFFFFFFFFFFFFFFFFFFF0000FCFF
  | .mappin _ => 0xFFFFFFFFFFFFFFFFFFFFFFFF0000FFFF
  | .getstatus => 0xFFFFFFFFFFFFFFFFFFFFFFFFFFFFFFFF
  | .hostown _ => 0xFFFFFFFFFFFFFFFFFFFFFFFF0000FFFF
  | .gpiomode _ => 0xFFFFFFFFFFFFFFFFFFFFFFFF0000FFFF
  | .locked _ => 0xFFFFFFFFFFFFFFFFFFFFFFFF0000FFFF
  | .settrig _ _ => 0xFFFFFFFFFFFFFFFFFFFFFFFF000000FF
  | .enable _ => 0xFFFFFFFFFFFFFFFFFFFFFFFF0000FFFF
  | .maskunmask _ _ => 0xFFFFFFFFFFFFFFFFFFFFFFFF0000FEFF
  | .register _ _ _ _ => 0x0000000000000000000000000000FFFF
  | .unregister _ => 0xFFFFFFFFFFFFFFFFFFFFFFFF0000FFFF
  | .dispatch => 0xFFFFFFFFFFFFFFFFFFFFFFFFFFFFFFFF
  | .gettype _ => 0xFFFFFFFFFFFFFFFFFFFFFFFF0000FFFF
  | .regint _ _ _ _ => 0x0000000000000000000000000000FFFF
  | .unregint _ => 0xFFFFFFFFFFFFFFFFFFFFFFFF0000FFFF
  | .enint _ => 0xFFFFFFFFFFFFFFFFFFFFFFFF0000FFFF
  | .disint _ => 0xFFFFFFFFFFFFFFFFFFFFFFFF0000FFFF
  | .settypeint _ _ => 0xFFFFFFFFFFFFFFFFFFFFFFFF000000FF
  | .ctxinit => 0xFFFFFFFFFFFFFFFFFFFFFFFFFFFFFFFF
  | .ctxsuspend => 0xFFFFFFFFFFFFFFFFFFFFFFFFFFFFFFFF
  | .ctxresume => 0xFFFFFFFFFFFFFFFFFFFFFFFFFFFFFFFF
  | .ctxrelease => 0xFFFFFFFFFFFFFFFFFFFFFFFFFFFFFFFF
  | .pwroff => 0xFFFFFFFFFFFFFFFFFFFFFFFFFFFFFFFF
  | .pwron => 0xFFFFFFFFFFFFFFFFFFFFFFFFFFFFFFFF

/-- The `match` column of the operation's row. -/
def rowMatch : Instr → Packet
  | .build => 0x01
  | .start => 0x02
  | .stop => 0x03
  | .rescom _ => 0x04
  | .resgrp _ _ => 0x05
  | .regoff _ _ => 0x06
  | .mappin _ => 0x07
  | .getstatus => 0x08
  | .hostown _ => 0x10
  | .gpiomode _ => 0x11
  | .locked _ => 0x12
  | .settrig _ _ => 0x20
  | .enable _ => 0x21
  | .maskunmask _ _ => 0x22
  | .register _ _ _ _ => 0x23
  | .unregister _ => 0x24
  | .dispatch => 0x25
  | .gettype _ => 0x30
  | .regint _ _ _ _ => 0x31
  | .unregint _ => 0x32
  | .enint _ => 0x33
  | .disint _ => 0x34
  | .settypeint _ _ => 0x35
  | .ctxinit => 0x40
  | .ctxsuspend => 0x41
  | .ctxresume => 0x42
  | .ctxrelease => 0x43
  | .pwroff => 0x44
  | .pwron => 0x45

/-- A well-formed operation's packet, under the mask of its row, is the row's match. -/
def Statement (i : Instr) : Prop := i.wellFormed = true → encode i &&& rowMask i = rowMatch i

/-- A packet under a mask given field by field. -/
theorem masked (k m : Fields) (w v : Packet) (hw : w = pack m)
    (hv : v = pack ⟨k.op &&& m.op, k.sel &&& m.sel, k.pin &&& m.pin, k.owner &&& m.owner, k.cb &&& m.cb, k.ctx &&& m.ctx⟩) :
    pack k &&& w = v := by rw [hw, hv, pack_and]

theorem and_ff (x : BitVec 8) : x &&& 255#8 = x := BitVec.and_allOnes

/-- Format P: every bit but the pin's is fixed. -/
theorem pin_row (op : BitVec 8) (pin : PinNum) :
    pack ⟨op, 0, pin, 0, 0, 0⟩ &&& 0xFFFFFFFFFFFFFFFFFFFFFFFF0000FFFF#128 = pack ⟨op, 0, 0, 0, 0, 0⟩ := by
  refine masked _ ⟨0xFF, 0xFF, 0, 0xFFFFFFFF, 0xFFFFFFFF, 0xFFFFFFFF⟩ _ _ (by decide) ?_
  simp [and_ff]

/-- Format S: every bit but the pin's and some of the selector's is fixed. -/
theorem sel_row (op sel sm : BitVec 8) (pin : PinNum) (w : Packet)
    (hw : w = pack ⟨0xFF, sm, 0, 0xFFFFFFFF, 0xFFFFFFFF, 0xFFFFFFFF⟩) (hs : sel &&& sm = 0) :
    pack ⟨op, sel, pin, 0, 0, 0⟩ &&& w = pack ⟨op, 0, 0, 0, 0, 0⟩ := by
  refine masked _ _ _ _ hw ?_
  simp [hs, and_ff]

/-- Format R: the operation code and the selector are fixed. -/
theorem reg_row (op : BitVec 8) (pin : PinNum) (owner cb ctx : Token) :
    pack ⟨op, 0, pin, owner, cb, ctx⟩ &&& 0xFFFF#128 = pack ⟨op, 0, 0, 0, 0, 0⟩ := by
  refine masked _ ⟨0xFF, 0xFF, 0, 0, 0, 0⟩ _ _ (by decide) ?_
  simp [and_ff]

theorem build : Statement .build := fun _ => by decide
theorem start : Statement .start := fun _ => by decide
theorem stop : Statement .stop := fun _ => by decide
theorem rescom (pin : PinNum) : Statement (.rescom pin) := fun _ => (pin_row 0x04 pin).trans rfl
theorem resgrp (ci : BitVec 8) (pin : PinNum) : Statement (.resgrp ci pin) := fun _ =>
  (sel_row 0x05 ci 0 pin _ rfl BitVec.and_zero).trans rfl
theorem regoff (pin : PinNum) (sel : BitVec 8) : Statement (.regoff pin sel) := fun h =>
  (sel_row 0x06 sel 0xFC pin _ rfl (by
    simp only [Instr.wellFormed, decide_eq_true_eq] at h
    revert h
    revert sel
    decide)).trans rfl
theorem mappin (pin : PinNum) : Statement (.mappin pin) := fun _ => (pin_row 0x07 pin).trans rfl
theorem getstatus : Statement .getstatus := fun _ => by decide
theorem hostown (pin : PinNum) : Statement (.hostown pin) := fun _ => (pin_row 0x10 pin).trans rfl
theorem gpiomode (pin : PinNum) : Statement (.gpiomode pin) := fun _ => (pin_row 0x11 pin).trans rfl
theorem locked (pin : PinNum) : Statement (.locked pin) := fun _ => (pin_row 0x12 pin).trans rfl
theorem settrig (pin : PinNum) (t : BitVec 8) : Statement (.settrig pin t) := fun _ =>
  (sel_row 0x20 t 0 pin _ rfl BitVec.and_zero).trans rfl
theorem enable (pin : PinNum) : Statement (.enable pin) := fun _ => (pin_row 0x21 pin).trans rfl
theorem maskunmask (pin : PinNum) (sel : BitVec 8) : Statement (.maskunmask pin sel) := fun h =>
  (sel_row 0x22 sel 0xFE pin _ rfl (by
    simp only [Instr.wellFormed, decide_eq_true_eq] at h
    revert h
    revert sel
    decide)).trans rfl
theorem register (pin : PinNum) (owner : Token) (cb : Token) (ctx : Token) : Statement (.register pin owner cb ctx) :=
  fun _ => (reg_row 0x23 pin owner cb ctx).trans rfl
theorem unregister (pin : PinNum) : Statement (.unregister pin) := fun _ => (pin_row 0x24 pin).trans rfl
theorem dispatch : Statement .dispatch := fun _ => by decide
theorem gettype (pin : PinNum) : Statement (.gettype pin) := fun _ => (pin_row 0x30 pin).trans rfl
theorem regint (pin : PinNum) (owner : Token) (cb : Token) (ctx : Token) : Statement (.regint pin owner cb ctx) :=
  fun _ => (reg_row 0x31 pin owner cb ctx).trans rfl
theorem unregint (pin : PinNum) : Statement (.unregint pin) := fun _ => (pin_row 0x32 pin).trans rfl
theorem enint (pin : PinNum) : Statement (.enint pin) := fun _ => (pin_row 0x33 pin).trans rfl
theorem disint (pin : PinNum) : Statement (.disint pin) := fun _ => (pin_row 0x34 pin).trans rfl
theorem settypeint (pin : PinNum) (t : BitVec 8) : Statement (.settypeint pin t) := fun _ =>
  (sel_row 0x35 t 0 pin _ rfl BitVec.and_zero).trans rfl
theorem ctxinit : Statement .ctxinit := fun _ => by decide
theorem ctxsuspend : Statement .ctxsuspend := fun _ => by decide
theorem ctxresume : Statement .ctxresume := fun _ => by decide
theorem ctxrelease : Statement .ctxrelease := fun _ => by decide
theorem pwroff : Statement .pwroff := fun _ => by decide
theorem pwron : Statement .pwron := fun _ => by decide

end Sys2Proof.Laws.TableRow
end

