-- ==== Sys2Proof/Laws/Step.lean ====
section
/-! SUPPORT. What the arbiter, a step and a dispatch pass can do (60_exceptions.md R252; 10_state.md R46). -/

namespace Sys2Proof.Machine

/-- The arbiter changes its own two fields only (R252, log 9). -/
theorem arbitrate_state (s : State) : ∃ a f, (arbitrate s).2 = { s with arb := a, free := f } := by
  unfold arbitrate
  split
  · exact ⟨s.arb, s.free, rfl⟩
  · exact ⟨s.arb, s.free, rfl⟩
  · exact ⟨s.arb, s.free, rfl⟩
  · split
    · exact ⟨_, s.free, rfl⟩
    · exact ⟨s.arb, _, rfl⟩

/-- The arbiter's turn is one that waits (R252). -/
theorem arbitrate_turn (s : State) :
    ((arbitrate s).1 = none ↔ s.cmds = [] ∧ s.irqNotif = 0) ∧
    ((arbitrate s).1 = some .command → s.cmds ≠ []) ∧ ((arbitrate s).1 = some .pass → s.irqNotif ≠ 0) := by
  unfold arbitrate
  split <;> rename_i hc hn
  · simp [hc, hn]
  · simp [hc, hn]
  · simp [hc, hn]
  · split
    · simp [hc, hn]
    · simp [hc, hn]

/-- Everything a step can do: after the outside moves and the arbiter's choice it does nothing, serves a notification, answers an
illegal packet, or runs an operation. -/
theorem step_cases {s t : State} (h : step s = .next t) :
    s.seq = .idle ∧ ∃ a f u, u = { envTick s with arb := a, free := f } ∧
      (t = u ∨ t = runPass u ∨ t = runIllegal u ∨ ∃ i, exec i u = .next t) := by
  unfold step at h
  split at h
  · cases h
  · rename_i hs
    obtain ⟨a, f, e⟩ := arbitrate_state (envTick s)
    refine ⟨hs, a, f, _, rfl, ?_⟩
    split at h <;> rename_i u he <;> rw [he] at e <;> dsimp only at e <;> rw [← e]
    · cases h
      exact .inl rfl
    · cases h
      exact .inr (.inl rfl)
    · split at h
      · exact .inr (.inr (.inr ⟨_, h⟩))
      · cases h
        exact .inr (.inr (.inl rfl))

/-- A step faults exactly in the middle of an operation, which no step leaves behind, and never refuses. -/
theorem step_of_idle {s : State} (h : s.seq = .idle) : ∃ t, step s = .next t := by
  unfold step
  rw [h]
  dsimp only
  split
  · exact ⟨_, rfl⟩
  · exact ⟨_, rfl⟩
  · split
    · rename_i i _
      cases i <;> exact perform_next _ _ _
    · exact ⟨_, rfl⟩

/-- Everything a dispatch pass can leave: the sequencer idle after the body's end, or an abandonment. -/
theorem runPass_ends {s : State} {I A : State → Prop}
    (hb : M.Ends dispatchBody (takePass s) (fun _ u => I u) I A) :
    (∃ u, I u ∧ runPass s = { u with seq := .idle }) ∨ A (runPass s) := by
  unfold M.Ends at hb
  unfold runPass endPass
  split <;> rename_i hm <;> rw [hm] at hb
  · exact .inl ⟨_, hb, rfl⟩
  · exact .inl ⟨_, hb, rfl⟩
  · exact .inr hb

end Sys2Proof.Machine
end

