-- ==== Sys2Proof/Laws/Topology.lean ====
section
/-! SUPPORT. What BUILD's and START's shared operations give: the numbered groups (40_topology.md R121 to R123) and the PADBASE
reads (R124). -/

namespace Sys2Proof.Machine

/-- The groups numbered from `acc`: as many as the descriptor's, none over 32 pins, copied, each numbered by the increments
before it (R121, R123). -/
theorem numberGroups_some {f : Option Nat} {acc : Nat} {gs : List GroupDesc} {out : List Group}
    (h : numberGroups f acc gs = some out) :
    out.length = gs.length ∧ ∀ (gi : Nat) (gd : GroupDesc) (g : Group), gs[gi]? = some gd → out[gi]? = some g →
      g.regNum = gd.regNum ∧ g.base = gd.base ∧ g.size = gd.size ∧ g.gpioBase = gd.gpioBase ∧ g.size ≤ 32 ∧
        g.ownWord = acc + ((gs.take gi).map fun x => ownIncrement f x.size).sum := by
  induction gs generalizing acc out with
  | nil =>
    cases h
    exact ⟨rfl, fun gi gd g h => by simp at h⟩
  | cons g gs ih =>
    unfold numberGroups at h
    split at h
    · cases h
    · rename_i h32
      rw [Option.map_eq_some_iff] at h
      obtain ⟨t, ht, rfl⟩ := h
      obtain ⟨hlen, hall⟩ := ih ht
      refine ⟨by simp [hlen], fun gi gd g' h1 h2 => ?_⟩
      cases gi with
      | zero =>
        simp only [List.getElem?_cons_zero, Option.some.injEq] at h1 h2
        subst h1 h2
        exact ⟨rfl, rfl, rfl, rfl, Nat.not_lt.mp h32, by simp⟩
      | succ n =>
        simp only [List.getElem?_cons_succ] at h1 h2
        obtain ⟨a, b, c, d, e, k⟩ := hall n gd g' h1 h2
        refine ⟨a, b, c, d, e, ?_⟩
        rw [k, List.take_succ_cons, List.map_cons, List.sum_cons]
        omega

/-- Numbering fails exactly when a group exceeds 32 pins (R121, R122). -/
theorem numberGroups_eq_none {f : Option Nat} {acc : Nat} {gs : List GroupDesc} :
    numberGroups f acc gs = none ↔ ∃ g ∈ gs, 32 < g.size := by
  induction gs generalizing acc with
  | nil => simp [numberGroups]
  | cons g gs ih =>
    unfold numberGroups
    split
    · simp [*]
    · rename_i h
      simp [ih, h]

/-- A bus check that passes is a window that exists (R66). -/
theorem lt_nwin_of_accessOk {cfg : Params} {w off : Nat} (h : accessOk cfg w off = true) : w < cfg.nwin := by
  unfold accessOk at h
  split at h
  · cases h
  · rename_i n hn
    exact (List.getElem?_eq_some_iff.mp hn).1

/-- The PADBASE reads with no outside move: one read a community, in order (R124). -/
theorem readPadBases_quiet (ci : Nat) (cs : List Community) {s : State} (henv : s.env = [])
    (hok : ∀ x ∈ cs, accessOk s.cfg x.barno s.cfg.padbaseOffset = true) :
    ∃ q, readPadBases ci cs s =
      .ok (some (cs.map fun c => winWord s.mem c.barno s.cfg.padbaseOffset))
        { s with seq := q
                 bus := s.bus ++ cs.map fun c =>
                   BusAccess.read c.barno s.cfg.padbaseOffset (winWord s.mem c.barno s.cfg.padbaseOffset) } := by
  induction cs generalizing s ci with
  | nil => exact ⟨s.seq, by simp [readPadBases]⟩
  | cons c cs ih =>
    have hc := hok c List.mem_cons_self
    obtain ⟨q, e⟩ := ih (ci + 1)
      (s := record (.read c.barno s.cfg.padbaseOffset (winWord s.mem c.barno s.cfg.padbaseOffset))
        (standAt (.atCommunity ci) s)) henv
      fun x hx => hok x (List.mem_cons_of_mem _ hx)
    refine ⟨q, ?_⟩
    have hr : winRead c.barno s.cfg.padbaseOffset (standAt (.atCommunity ci) s) = _ := winRead_quiet hc henv
    rw [standAt_mem] at hr
    simp [readPadBases, lt_nwin_of_accessOk hc, M.bind, hr, e]

/-- The PADBASE reads after a prefix that goes through: a community whose window does not exist ends them with none (R124). -/
theorem readPadBases_append_missing (ci : Nat) (cs rest : List Community) (c : Community) {s : State} (henv : s.env = [])
    (hok : ∀ x ∈ cs, accessOk s.cfg x.barno s.cfg.padbaseOffset = true) (hc : s.cfg.nwin ≤ c.barno) :
    ∃ q, readPadBases ci (cs ++ c :: rest) s =
      .ok none
        { s with seq := q
                 bus := s.bus ++ cs.map fun c =>
                   BusAccess.read c.barno s.cfg.padbaseOffset (winWord s.mem c.barno s.cfg.padbaseOffset) } := by
  induction cs generalizing s ci with
  | nil =>
    refine ⟨(standAt (.atCommunity ci) s).seq, ?_⟩
    simp [readPadBases, Nat.not_lt.mpr hc]
    rfl
  | cons d cs ih =>
    have hd := hok d List.mem_cons_self
    obtain ⟨q, e⟩ := ih (ci + 1)
      (s := record (.read d.barno s.cfg.padbaseOffset (winWord s.mem d.barno s.cfg.padbaseOffset))
        (standAt (.atCommunity ci) s)) henv
      (fun x hx => hok x (List.mem_cons_of_mem _ hx)) hc
    refine ⟨q, ?_⟩
    have hr : winRead d.barno s.cfg.padbaseOffset (standAt (.atCommunity ci) s) = _ := winRead_quiet hd henv
    rw [standAt_mem] at hr
    simp [readPadBases, lt_nwin_of_accessOk hd, M.bind, hr, e]

end Sys2Proof.Machine
end

