-- ==== Sys2Proof/Tests/Slice0.lean ====
section
/-! SUPPORT. Tests: the checks of WellFormed refuse an ill-formed term; every constructor's packet, written out from
30_encoding.md R91 and R96, decodes to it; one step of every operation against the vectors of 95_test_vectors.md; and, for every
statement with hypotheses, a state that meets them. -/

namespace Sys2Proof.Tests

open Sys2Proof Sys2Proof.Machine

-- One after the other: each kernel evaluation waits for what stands before it, and so many waiting at once need too many threads.
set_option Elab.async false

/-! ## WellFormed -/

theorem test_regoff_selector_3_is_ill_formed : (Instr.regoff 30 3).wellFormed = false := by decide
theorem test_regoff_selector_2_is_well_formed : (Instr.regoff 30 2).wellFormed = true := by decide
theorem test_maskunmask_selector_2_is_ill_formed : (Instr.maskunmask 42 2).wellFormed = false := by decide
theorem test_refcfg_is_well_formed : Config.refParams.wellFormed = true := by decide
theorem test_ill_formed_parameters_are_refused :
    ({ Config.refParams with winSize := [0x1002] } : Params).wellFormed = false ∧
    ({ Config.refParams with invBit := 26 } : Params).wellFormed = false ∧
    ({ Config.refParams with trigBoth := 0 } : Params).wellFormed = false ∧
    ({ Config.refParams with lockStride := 6 } : Params).wellFormed = false ∧
    ({ Config.refParams with lockTxDelta := 2 } : Params).wellFormed = false ∧
    ({ Config.refParams with padbaseOffset := 13 } : Params).wellFormed = false ∧
    ({ Config.refParams with tRising := 3 } : Params).wellFormed = false ∧
    ({ Config.refParams with tFalling := 1 } : Params).wellFormed = false ∧
    ({ Config.refParams with irqMax := some 0 } : Params).wellFormed = false := by decide

/-! ## Decoding: packets written out from the tables of R91 and R96 -/

theorem test_decode_topology :
    (decode 0x01).toOption = some .build ∧ (decode 0x02).toOption = some .start ∧ (decode 0x03).toOption = some .stop ∧
    (decode 0x002A0004).toOption = some (.rescom 42) ∧ (decode 0x00180105).toOption = some (.resgrp 1 24) ∧
    (decode 0x001E0206).toOption = some (.regoff 30 2) ∧ (decode 0x00660007).toOption = some (.mappin 102) ∧
    (decode 0x08).toOption = some .getstatus := by decide +kernel

theorem test_decode_guard :
    (decode 0x00070010).toOption = some (.hostown 7) ∧ (decode 0x001A0011).toOption = some (.gpiomode 26) ∧
    (decode 0x00180012).toOption = some (.locked 24) := by decide +kernel

theorem test_decode_router :
    (decode 0x001E0820).toOption = some (.settrig 30 8) ∧ (decode 0x002A0021).toOption = some (.enable 42) ∧
    (decode 0x002A0122).toOption = some (.maskunmask 42 1) ∧
    (decode 0x000000C3000000B2000000A1002A0023).toOption = some (.register 42 0xA1 0xB2 0xC3) ∧
    (decode 0x002A0024).toOption = some (.unregister 42) ∧ (decode 0x25).toOption = some .dispatch := by decide +kernel

theorem test_decode_logical :
    (decode 0x00660030).toOption = some (.gettype 102) ∧
    (decode 0x000000C3000000B2000000A100660031).toOption = some (.regint 102 0xA1 0xB2 0xC3) ∧
    (decode 0x00660032).toOption = some (.unregint 102) ∧ (decode 0x00660033).toOption = some (.enint 102) ∧
    (decode 0x00660034).toOption = some (.disint 102) ∧ (decode 0x00CF0C35).toOption = some (.settypeint 207 0x0C) := by
  decide +kernel

theorem test_decode_context :
    (decode 0x40).toOption = some .ctxinit ∧ (decode 0x41).toOption = some .ctxsuspend ∧
    (decode 0x42).toOption = some .ctxresume ∧ (decode 0x43).toOption = some .ctxrelease ∧
    (decode 0x44).toOption = some .pwroff ∧ (decode 0x45).toOption = some .pwron := by decide +kernel

/-- 95_test_vectors.md 3.1. -/
theorem test_decode_illegal :
    ([0x00, 0x09, 0x00010001, 0x002A0121, 0x001E0306, 0x002A0222, 0x000000000000000000000001002A0123,
      0x000000000000000000000001002A0120] : List Packet).all (fun w => (decode w).toOption.isNone) = true := by decide +kernel

theorem test_decodeTableWord : decodeTableWord 128 0x002A0021 = some (.enable 42) ∧ decodeTableWord 128 0x09 = none := by
  decide +kernel

/-- R102: the written form. -/
theorem test_written_form :
    (Instr.resgrp 1 24).written = "RESGRP 1, 24" ∧ (Instr.maskPin 42).written = "MASKUNMASK 42, 1" ∧
    Instr.dispatch.written = "DISPATCH" := by decide +kernel

/-! ## One step of every operation, REFCFG (95_test_vectors.md) -/

/-- Windows holding the words given as (window, offset, word). -/
def poke (l : List (Nat × Nat × Word)) : Memory := l.foldl (fun m e => writeWord m (winAddr e.1 e.2.1) e.2.2) []

/-- REFCFG after BUILD. -/
def built : State := { State.reset with topo := (buildTopo Config.refDesc).getD [], lc := .built }

/-- REFCFG after BUILD and START with the PADBASE words of section 1, the windows then holding `l`. -/
def live (l : List (Nat × Nat × Word)) : State :=
  { ctxInitBody (startTables [0x600, 0x400, 0x500] built) with lc := .started, mem := poke l }

/-- What a step shows: the last response, and the bus transactions. -/
def shown (o : Host.Outcome State Fault Refusal) : Option (Option (BitVec 64) × List BusAccess) :=
  match o with
  | .next s => some (s.resp.getLast?, s.bus)
  | .fault _ => none
  | .refused _ => none

/-- A view of the next state. -/
def next {α : Type} (f : State → α) (o : Host.Outcome State Fault Refusal) : Option α :=
  match o with
  | .next s => some (f s)
  | .fault _ => none
  | .refused _ => none

theorem test_build : next (fun s => s.topo.map fun c => c.groups.map fun g =>
      [g.regNum, g.base, g.size, g.gpioBase, g.ownWord]) (exec .build State.reset) =
    some [[[0, 0, 24, 0, 0], [1, 24, 16, 24, 3]], [[0, 40, 8, 100, 0]], [[0, 48, 32, 48, 0], [1, 80, 8, 200, 4]]] := by
  decide +kernel

theorem test_start : shown (exec .start { built with mem := poke [(0, 0xC, 0x600), (1, 0xC, 0x400), (2, 0xC, 0x500)] }) =
    some (some 0, [.read 0 0xC 0x600, .read 1 0xC 0x400, .read 2 0xC 0x500]) := by decide +kernel

/-- 3.2: community 1 in a window that does not exist. -/
theorem test_start_missing_window :
    shown (exec .start { built with topo := built.topo.map fun c => if c.barno = 1 then { c with barno := 5 } else c }) =
      some (some 8, [.read 0 0xC 0]) := by decide +kernel

theorem test_stop : next (fun s => (s.lc, s.slots, s.bus)) (exec .stop (setSlot 42 ⟨true, 1, 2, 3⟩ (live [(1, 0x110, 7)]))) =
    some (.built, [], [.read 1 0x110 7, .write 1 0x110 3]) := by decide +kernel

theorem test_rescom : shown (exec (.rescom 87) built) = some (some 0x200, []) ∧
    shown (exec (.rescom 88) built) = some (some 1, []) := by decide +kernel

theorem test_resgrp : shown (exec (.resgrp 0 24) built) = some (some 0x100, []) ∧
    shown (exec (.resgrp 0 40) built) = some (some 1, []) := by decide +kernel

theorem test_regoff : shown (exec (.regoff 30 2) (live [])) = some (some 0x000007E800000000, []) ∧
    shown (exec (.regoff 42 2) (live [])) = some (some 5, []) ∧
    shown (exec (.regoff 87 1) (live [])) = some (some 0x0000063C00000200, []) := by decide +kernel

theorem test_mappin : shown (exec (.mappin 207) built) = some (some 0x0000005700000000, []) ∧
    shown (exec (.mappin 44) built) = some (some 1, []) := by decide +kernel

theorem test_getstatus : shown (exec .getstatus (live [])) = some (some 0x0000000600000000, []) := by decide +kernel

/-- 3.3. -/
def guarded : State := live [(0, 0x020, 0x10000000), (0, 0x028, 8), (0, 0x02C, 0x300), (0, 0x080, 0x20), (0, 0x08C, 1), (0, 0x0B4, 4)]

theorem test_hostown : shown (exec (.hostown 26) guarded) = some (some 0, [.read 0 0x02C 0x300]) ∧
    shown (exec (.hostown 23) guarded) = some (some 0x100000000, [.read 0 0x028 8]) := by decide +kernel

theorem test_gpiomode : shown (exec (.gpiomode 26) guarded) = some (some 0, [.read 0 0x0B4 4]) ∧
    shown (exec (.gpiomode 42) guarded) = some (some 0x100000000, []) := by decide +kernel

theorem test_locked : shown (exec (.locked 5) guarded) = some (some 0x100000000, [.read 0 0x080 0x20]) ∧
    shown (exec (.locked 24) guarded) = some (some 0x100000000, [.read 0 0x088 0, .read 0 0x08C 1]) := by decide +kernel

/-- 3.4, and S7. -/
theorem test_settrig :
    shown (exec (.settrig 42 0x02) (live [(1, 0x410, 0x44000302)])) =
      some (some 0, [.read 1 0x410 0x44000302, .write 1 0x410 0x42800302]) ∧
    shown (exec (.settrig 26 0x01) guarded) = some (some 4, [.read 0 0x0B4 4]) := by decide +kernel

/-- S5. -/
theorem test_enable : shown (exec (.enable 42) (live [(1, 0x100, 5), (1, 0x110, 3)])) =
    some (some 0, [.write 1 0x100 4, .read 1 0x110 3, .write 1 0x110 7]) ∧
    next (fun s => winWord s.mem 1 0x100) (exec (.enable 42) (live [(1, 0x100, 5), (1, 0x110, 3)])) = some 1 := by
  decide +kernel

/-- E3. -/
theorem test_maskunmask :
    shown (exec (.maskunmask 42 1) (live [(1, 0x110, 7)])) = some (some 0, [.read 1 0x110 7, .write 1 0x110 3]) ∧
    shown (exec (.maskunmask 42 0) (live [(1, 0x110, 3)])) = some (some 0, [.read 1 0x110 3, .write 1 0x110 7]) := by
  decide +kernel

/-- S8. -/
theorem test_register :
    next (fun s => slotOf s 42) (exec (.register 42 0xA1 0xB2 0xC3) (live [])) = some ⟨true, 0xA1, 0xB2, 0xC3⟩ ∧
    next (fun s => (slotOf s 42, s.resp)) (exec (.register 42 0xD4 0xE5 0xF6) (setSlot 42 ⟨true, 0xA1, 0xB2, 0xC3⟩ (live []))) =
      some (⟨true, 0xA1, 0xB2, 0xC3⟩, [3]) := by decide +kernel

/-- E5, and S10. -/
theorem test_unregister :
    shown (exec (.unregister 41) (live [])) = some (some 0, [.read 1 0x110 0, .write 1 0x110 0]) ∧
    next (fun s => (slotOf s 42, tableGet s.trig 42, winWord s.mem 1 0x110))
      (exec (.unregister 42) (setTrig 42 1 (setSlot 42 ⟨true, 1, 2, 3⟩ (live [(1, 0x110, 7)])))) =
        some (Slot.free, some 0, 3) := by decide +kernel

/-- S6: two callbacks, and the level pin's re-enable. -/
theorem test_dispatch :
    next (fun s => (s.calls, s.resp, winWord s.mem 1 0x100))
      (exec .dispatch (setTrig 42 4 (setTrig 40 1 (setSlot 42 ⟨true, 0x22, 0x2000, 0xBBBB⟩
        (setSlot 40 ⟨true, 0x11, 0x1000, 0xAAAA⟩ (live [(1, 0x100, 5), (1, 0x110, 7)])))))) =
      some ([0x280000AAAA0000100000000011, 0x2A0000BBBB0000200000000022], [0x200000000], 1) := by decide +kernel

/-- DV1: ten reads, no callback. -/
theorem test_dispatch_unregistered :
    next (fun s => (s.calls, s.resp, s.bus.length)) (exec .dispatch (live [(2, 0x104, 0x1FF), (2, 0x124, 0x1FF)])) =
      some ([], [0], 10) := by decide +kernel

theorem test_gettype : shown (exec (.gettype 102) (setTrig 42 0xF4 (live []))) = some (some 0x000000F400000000, []) ∧
    shown (exec (.gettype 99) (live [])) = some (some 1, []) := by decide +kernel

theorem test_regint :
    next (fun s => (slotOf s 42, s.resp)) (exec (.regint 102 1 2 3) (setSlot 42 ⟨true, 0xA1, 0xB2, 0xC3⟩ (live []))) =
      some (⟨true, 0xA1, 0xB2, 0xC3⟩, [3]) := by decide +kernel

theorem test_unregint :
    next (fun s => (slotOf s 42).valid) (exec (.unregint 102) (setSlot 42 ⟨true, 1, 2, 3⟩ (live []))) = some false := by
  decide +kernel

theorem test_enint : shown (exec (.enint 102) (live [(1, 0x100, 5), (1, 0x110, 3)])) =
    some (some 0, [.write 1 0x100 4, .read 1 0x110 3, .write 1 0x110 7]) := by decide +kernel

/-- E8. -/
theorem test_disint : shown (exec (.disint 102) (live [(1, 0x110, 7)])) = some (some 0, [.read 1 0x110 7, .write 1 0x110 3]) ∧
    shown (exec (.disint 44) (live [])) = some (some 1, []) := by decide +kernel

/-- P1 and 3.4: LevelLow on hardware pin 87. -/
theorem test_settypeint :
    next (fun s => (tableGet s.trig 87, winWord s.mem 2 0x638)) (exec (.settypeint 207 0x0C) (live [])) =
      some (some 0x0C, 0x00800000) := by decide +kernel

theorem test_ctxinit : shown (exec .ctxinit (live [])) = some (some 6, []) ∧
    next (fun s => (s.cs, s.pads.length)) (exec .ctxinit { live [] with cs := .none, pads := [], ieShadow := [] }) =
      some (.idle, 88) := by decide +kernel

/-- X1. -/
def suspendable : State := setSlot 42 ⟨true, 2, 0, 0⟩ (setSlot 40 ⟨true, 1, 0, 0⟩
  (live [(1, 0x400, 0x02000001), (1, 0x404, 0x11), (1, 0x410, 0x302), (1, 0x414, 0x22), (1, 0x110, 5), (1, 0x100, 2)]))

theorem test_ctxsuspend :
    next (fun s => (s.cs, tableGet s.pads 40, tableGet s.pads 42, s.ieShadow)) (exec .ctxsuspend suspendable) =
      some (.saved, some ⟨true, 0x02000001, 0x11, 0⟩, some ⟨true, 0x300, 0x22, 0⟩, [[0, 0], [5], [0, 0]]) := by
  decide +kernel

theorem test_ctxresume :
    next (fun s => (winWord s.mem 1 0x410, winWord s.mem 1 0x414, winWord s.mem 1 0x110, winWord s.mem 1 0x100))
      (exec .ctxresume (setPad 42 (fun _ => ⟨true, 0x300, 0x22, 0⟩)
        { live [(1, 0x410, 0x302), (1, 0x414, 0x99), (1, 0x110, 0xFF), (1, 0x100, 2)] with cs := .saved })) =
      some (0x302, 0x22, 0, 0) := by decide +kernel

theorem test_ctxrelease : next (fun s => (s.cs, s.pads, s.ieShadow)) (exec .ctxrelease (live [])) = some (.none, [], []) := by
  decide +kernel

theorem test_pwroff :
    next (fun s => (s.cs, winWord s.mem 1 0x110, (slotOf s 42).valid)) (exec .pwroff suspendable) = some (.saved, 0, true) := by
  decide +kernel

/-- R220: the registered pin comes back enabled, its type written. -/
theorem test_pwron :
    next (fun s => (s.cs, winWord s.mem 1 0x110, winWord s.mem 1 0x410))
      (exec .pwron (setTrig 42 1 (setSlot 42 ⟨true, 2, 0, 0⟩ { live [(1, 0x410, 0x302)] with cs := .saved }))) =
      some (.idle, 4, 0x02000302) := by decide +kernel

/-! ## Steps -/

theorem test_step_from_reset : next (fun s => (s.lc, s.resp)) (step (State.reset.withFetchWord 128 0x01)) = some (.built, [0]) := by
  decide +kernel

theorem test_step_illegal : next (fun s => (s.lc, s.resp)) (step (State.reset.withFetchWord 128 0x00010001)) = some (.reset, [7]) := by
  decide +kernel

/-- R46: two notifications come in, and one is served. -/
theorem test_step_pass :
    next (fun s => (s.irqNotif, s.resp, s.bus.length)) (step { live [] with env := [[.notify, .notify]] }) = some (1, [], 10) := by
  decide +kernel

/-- R46, R186, R12: a notification still counted when STOP has run is served by a pass over the groups that are left. -/
theorem test_pass_after_stop :
    next (fun s => (s.irqNotif, s.calls, s.resp, s.bus.length))
      (step { stopTables (ctxReleaseBody (live [(2, 0x104, 0x1FF), (2, 0x124, 0x1FF)])) with irqNotif := 1 }) =
      some (0, [], [], 10) := by decide +kernel

/-- R280: the reset input right after the last access of an ENABLE; the enable bit stays set, no response follows. -/
theorem test_reset_after_last_access :
    next (fun s => (s.lc, s.resp, s.bus.length, winWord s.mem 1 0x110))
      (exec (.enable 42) { live [(1, 0x110, 3)] with env := [[], [], [], [], [], [.reset]] }) = some (.reset, [], 3, 7) := by
  decide +kernel

/-- R47: where the sequencer stands when a dispatch pass has looked at its last bit: the third community, its second group, the
bit 7, ten accesses made. -/
theorem test_position : (dispatchBody (takePass (live []))).state.seq = .running .pass ⟨10, 1, 2, 1, 7⟩ := by decide +kernel

/-! ## Witnesses: a state and operands that meet the hypotheses of each statement, clause by clause -/

/-- Two small communities: pins 0 to 3 in two groups of two with every guard bitmap, pins 4 and 5 in one group with none. -/
def miniDesc : List CommunityDesc :=
  [{ barno := 0, ownOff := some 0x10, lockOff := some 0x20, hostmodeOff := some 0x30, ieOff := 0x50, isOff := 0x40,
     featDebounce := true, featAltpd := false, pinBase := 0, npins := 4, gpps := none, gppSize := 2, ownFixed := none },
   { barno := 1, ownOff := none, lockOff := none, hostmodeOff := none, ieOff := 0x50, isOff := 0x40,
     featDebounce := false, featAltpd := false, pinBase := 4, npins := 2,
     gpps := some [{ regNum := 0, base := 4, size := 2, gpioBase := 100 }], gppSize := 0, ownFixed := none }]

def mini : Params := { Config.refParams with desc := miniDesc, winSize := [0x100, 0x100] }

/-- `mini` after BUILD. -/
def smallBuilt : State :=
  { State.resetOf mini with topo := (buildTopo miniDesc).getD [], lc := .built, mem := poke [(0, 0xC, 0x80), (1, 0xC, 0x80)] }

/-- `mini` after START, the windows then holding `l`; pins 1 and 4 registered, pin 4 with a level type. -/
def small (l : List (Nat × Nat × Word)) : State :=
  setTrig 4 8 (setSlot 4 ⟨true, 4, 5, 6⟩ (setSlot 1 ⟨true, 1, 2, 3⟩
    { ctxInitBody (startTables [0x80, 0x80] smallBuilt) with lc := .started, mem := poke l }))

/-- Pending and enabled bits on pins 1 and 4, pin 1 in ACPI mode. -/
def busy : State := small [(0, 0x40, 2), (0, 0x50, 2), (1, 0x40, 1), (1, 0x50, 3), (0, 0x30, 2)]

/-- `busy` with a snapshot held. -/
def held : State := { setPad 4 (fun _ => ⟨true, 5, 6, 0⟩) busy with cs := .saved }

/-- A topology whose groups cover no pin. -/
def gap : State := { small [] with topo := (small []).topo.map fun c => { c with groups := [] } }

/-- A topology with a group, logical pins 300 and 301, that lies in no community's range. -/
def astray : State := { small [] with topo := (small []).topo.map fun c => { c with groups := [⟨0, 50, 2, 300, 0⟩] } }

/-- Where pin 5 lies: in the community without guard bitmaps. -/
def loc5 : Location := ((findPin (small []).topo 5).getD ⟨default, default, 0⟩)

def com0 : Community := (small []).topo.headD default
def com1 : Community := loc5.c
def grp00 : Machine.Group := com0.groups.headD default

theorem witness_DecodeOfEncodeIsTheInstruction :
    (Instr.regoff 65535 2).wellFormed = true ∧ (Instr.maskunmask 0 1).wellFormed = true := by decide

theorem witness_EncodeOfDecodeIsThePacket : decode 0x001E0206#128 = .ok (.regoff 30 2) := by rfl

theorem witness_UnassignedCodesAreIllegal :
    ∀ op ∈ [0x00, 0x09, 0x0F, 0x13, 0x1F, 0x26, 0x2F, 0x36, 0x3F, 0x46, 0xFF],
      op = ((BitVec.ofNat 128 (0x10000 + op)).extractLsb' 0 8).toNat ∧
      (op = 0x00 ∨ (0x09 ≤ op ∧ op ≤ 0x0F) ∨ (0x13 ≤ op ∧ op ≤ 0x1F) ∨ (0x26 ≤ op ∧ op ≤ 0x2F) ∨
        (0x36 ≤ op ∧ op ≤ 0x3F) ∨ (0x46 ≤ op ∧ op ≤ 0xFF)) := by decide

theorem witness_StepRunsTheDecodedInstruction :
    (State.reset.withFetchWord 128 1).seq = .idle ∧ decode 1#128 = .ok .build ∧
    arbitrate (envTick (State.reset.withFetchWord 128 1)) = (some .command, State.reset.withFetchWord 128 1) ∧
    Quiet (State.reset.withFetchWord 128 1) ∧ (State.reset.withFetchWord 128 1).irqNotif = 0 ∧
    (State.reset.withFetchWord 128 1).cmds = [1#128] := ⟨rfl, rfl, rfl, rfl, rfl, rfl⟩

theorem witness_IllegalPacketsAreOnlyAnswered :
    Quiet { busy with cmds := [9] } ∧ busy.seq = .idle ∧ busy.irqNotif = 0 ∧ IllegalPacket 9 ∧ IllegalPacket 0x000306 ∧
    IllegalPacket 0x000222 ∧ IllegalPacket 0x010001 ∧ ¬IllegalPacket 0x000206 ∧ ¬IllegalPacket 0x000122 ∧
    arbitrate (envTick { busy with cmds := [9] }) = (some .command, { busy with cmds := [9] }) := by
  unfold IllegalPacket
  exact ⟨rfl, rfl, rfl, by decide, by decide, by decide, by decide, by decide, by decide, rfl⟩

theorem witness_TheArbiterServesWhatWaits :
    busy.seq = .idle ∧ Quiet busy ∧ busy.cmds = [] ∧ busy.irqNotif = 0 ∧ ({ busy with irqNotif := 1 } : State).irqNotif ≠ 0 ∧
    decode 0x25#128 = .ok .dispatch ∧ ({ busy with cmds := [0x25], arb := [.command] } : State).arb = [.command] ∧
    ({ busy with cmds := [0x25], arb := [.pass] } : State).arb = [.pass] ∧ busy.arb = [] := by
  refine ⟨rfl, rfl, rfl, rfl, by decide, rfl, rfl, rfl, rfl⟩

theorem witness_NotificationsCountOnlyWhenStarted :
    State.reset.lc ≠ .started ∧ busy.lc = .started ∧ busy.cfg.irqMax = none ∧
    ({ busy with cfg := { mini with irqMax := some 3 }, irqNotif := 2 } : State).irqNotif < 3 ∧
    3 ≤ ({ busy with cfg := { mini with irqMax := some 3 }, irqNotif := 3 } : State).irqNotif := by decide

theorem witness_PassIsDispatchWithoutAResponse : busy.lc = .started ∧ Quiet busy ∧ ∃ t, exec .dispatch busy = .next t :=
  ⟨rfl, rfl, perform_next _ _ _⟩

theorem witness_ResetAbandonsEnableBetweenAccesses :
    ({ busy with env := [[], [.reset]] } : State).lc = .started ∧ busy.mem.wf = true ∧ findPin busy.topo 5 = some loc5 ∧
    accessOk busy.cfg loc5.c.barno (bankOff loc5.c.isOff loc5.g.regNum) = true ∧
    accessOk busy.cfg loc5.c.barno (bankOff loc5.c.ieOff loc5.g.regNum) = true ∧
    isPendingWord busy.cfg loc5.c.barno (bankOff loc5.c.isOff loc5.g.regNum) = true := by decide +kernel

theorem witness_OutOfStateOperationsAreRefused :
    smallBuilt.lc ≠ .reset ∧ busy.lc ≠ .built ∧ State.reset.lc = .reset ∧ smallBuilt.lc ≠ .started ∧ busy.cs ≠ .none ∧
    ({ busy with cs := .none } : State).cs = .none ∧ busy.cs ≠ .saved ∧ TablesAgree smallBuilt := by decide +kernel

theorem witness_BadSelectorsAreIllegal : 3 ≤ (3#8).toNat ∧ 2 ≤ (2#8).toNat := by decide

theorem witness_EveryCommandGetsOneResponse :
    NoReset { busy with env := [[.notify], [.pend 0 0 1]] } ∧
    ∃ t, exec .ctxsuspend { busy with env := [[.notify], [.pend 0 0 1]] } = .next t :=
  ⟨by decide, perform_next _ _ _⟩

theorem witness_PortPacketsHaveTheirLayout : 65535 < 2 ^ 16 := by decide

theorem witness_ErrorLogSaturates : 65535 < 2 ^ 16 ∧ ({ busy with errCount := 0xFFFF } : State).errCount = 0xFFFF := by decide

/-- The community without guard bitmaps, its registers at the end of a window too small for the enable word. -/
def cut : State := { busy with cfg := { mini with winSize := [0x100, 0x50] } }

theorem witness_FailedCheckIsABusError :
    accessOk cut.cfg 1 0x50 = false ∧ accessOk cut.cfg 1 0x4C = true ∧ accessOk cut.cfg 1 0x42 = false ∧
    cut.lc = .started ∧ Quiet cut ∧ cut.mem.wf = true ∧ findPin cut.topo (5#16).toNat = some loc5 ∧
    pendReg loc5.c loc5.g = (1, 0x40) ∧ accessOk cut.cfg 1 0x40 = true ∧ isPendingWord cut.cfg 1 0x40 = true ∧
    enableReg loc5.c loc5.g = (1, 0x50) ∧
    accessOk { mini with winSize := [0x100, 0x40] } 1 0x40 = false ∧
    findCommunity cut.topo (5#16).toNat = some (1, com1) ∧ com1.hostmodeOff = none ∧
    (com1.barno, cfg0Off com1 5) = (1, 0x88) ∧ accessOk cut.cfg 1 0x88 = false := by decide +kernel

theorem witness_WritesFollowThePadRule :
    Quiet busy ∧ busy.mem.wf = true ∧ accessOk busy.cfg 0 0x40 = true ∧ accessOk busy.cfg 0 0xFC = true ∧
    ((0, 0xFC) : Nat × Nat) ≠ (0, 0x40) := by decide +kernel

theorem witness_BuildKeepsAValidTopology :
    State.reset.lc = .reset ∧ (buildTopo State.reset.cfg.desc).isSome = true ∧
    ∃ d ∈ [{ (default : CommunityDesc) with npins := 66, gppSize := 33 }], ∃ g ∈ groupsOf d, 32 < g.size := by
  decide +kernel

theorem witness_BuiltTopologyCopiesTheDescriptors :
    buildTopo miniDesc = some smallBuilt.topo ∧ (miniDesc[1]?).isSome = true ∧ (smallBuilt.topo[1]?).isSome = true ∧
    ((groupsOf (miniDesc.headD default))[1]?).isSome = true ∧ (com0.groups[1]?).isSome = true := by decide +kernel

theorem witness_SynthesizedGroupsCoverTheRange :
    (miniDesc[1]?.getD default).gpps = some [{ regNum := 0, base := 4, size := 2, gpioBase := 100 }] ∧
    (miniDesc.headD default).gpps = none ∧ 1 ≤ (miniDesc.headD default).gppSize ∧
    ((groupsOf (miniDesc.headD default))[0]?).isSome = true ∧ 0 + 1 < (groupsOf (miniDesc.headD default)).length := by
  decide +kernel

theorem witness_StartResolvesAndClears :
    smallBuilt.lc = .built ∧ Quiet smallBuilt ∧
    (∀ c ∈ smallBuilt.topo, accessOk smallBuilt.cfg c.barno smallBuilt.cfg.padbaseOffset = true) ∧
    (smallBuilt.topo.map Community.npins).sum ≤ smallBuilt.cfg.maxPins ∧
    (smallBuilt.topo.map fun c => c.groups.length).sum ≤ smallBuilt.cfg.maxGroups := by decide +kernel

theorem witness_FailedStartKeepsNothing :
    smallBuilt.lc = .built ∧ Quiet smallBuilt ∧
    (∀ x ∈ [com0], accessOk mini x.barno mini.padbaseOffset = true) ∧
    ({ mini with winSize := [0x100] } : Params).nwin ≤ com1.barno ∧
    com1.barno < ({ mini with winSize := [0x100, 8] } : Params).nwin ∧
    accessOk { mini with winSize := [0x100, 8] } com1.barno mini.padbaseOffset = false ∧
    smallBuilt.topo = [{ com0 with padRegsOff := none }] ++ { com1 with padRegsOff := none } :: [] ∧
    ({ mini with maxPins := 5 } : Params).maxPins < (smallBuilt.topo.map Community.npins).sum := by decide +kernel

theorem witness_StopUnregistersEveryPin :
    busy.lc = .started ∧ Quiet busy ∧ busy.mem.wf = true ∧ (busy.cs = .none → busy.pads = [] ∧ busy.ieShadow = []) ∧
    (∀ p ∈ pinsOf busy.topo, (slotOf busy p).valid = true → ∃ l, findPin busy.topo p = some l ∧
      accessOk busy.cfg l.c.barno (bankOff l.c.ieOff l.g.regNum) = true ∧
      isPendingWord busy.cfg l.c.barno (bankOff l.c.ieOff l.g.regNum) = false) ∧
    (slotOf busy 1).valid = true := by
  have h : ∀ p ∈ pinsOf busy.topo, (findPin busy.topo p).any (fun l =>
      accessOk busy.cfg l.c.barno (bankOff l.c.ieOff l.g.regNum) &&
        !isPendingWord busy.cfg l.c.barno (bankOff l.c.ieOff l.g.regNum)) = true := by decide +kernel
  refine ⟨rfl, rfl, by decide +kernel, by decide +kernel, fun p hp _ => ?_, by decide +kernel⟩
  have := h p hp
  cases hl : findPin busy.topo p with
  | none => simp [hl] at this
  | some l => exact ⟨l, rfl, by simpa [hl] using this⟩

theorem witness_RescomFindsTheCommunity :
    smallBuilt.lc ≠ .reset ∧ (smallBuilt.topo[1]?).isSome = true ∧ (4 ≤ (4#16).toNat ∧ (4#16).toNat < 4 + 2) ∧
    ¬(0 ≤ (4#16).toNat ∧ (4#16).toNat < 0 + 4) ∧
    (∀ c ∈ smallBuilt.topo, ¬(c.pinBase ≤ (6#16).toNat ∧ (6#16).toNat < c.pinBase + c.npins)) := by decide +kernel

theorem witness_ResgrpFindsTheGroup :
    smallBuilt.lc ≠ .reset ∧ (smallBuilt.topo[(0#8).toNat]?).map Community.groups = some com0.groups ∧
    (∀ g ∈ com0.groups[1]?, g.base ≤ (2#16).toNat ∧ (2#16).toNat < g.base + g.size) ∧
    (∀ g ∈ com0.groups[0]?, ¬(g.base ≤ (2#16).toNat ∧ (2#16).toNat < g.base + g.size)) ∧
    (∀ g ∈ com0.groups, ¬(g.base ≤ (4#16).toNat ∧ (4#16).toNat < g.base + g.size)) ∧ smallBuilt.topo[(2#8).toNat]? = none := by
  decide +kernel

theorem witness_RegoffComputesTheOffset :
    busy.lc = .started ∧ (2#8).toNat < 3 ∧ findCommunity busy.topo (5#16).toNat = some (1, com1) ∧
    com1.padRegsOff = some 0x80 ∧ ((2#8) = 2 ∧ com1.featDebounce = false) ∧ ¬((1#8) = 2 ∧ com1.featDebounce = false) ∧
    findCommunity busy.topo (3#16).toNat = some (0, com0) ∧ com0.padRegsOff = some 0x80 ∧
    ¬((2#8) = 2 ∧ com0.featDebounce = false) ∧ com1.barno < 256 ∧
    (∀ c ∈ busy.topo, ¬(c.pinBase ≤ (6#16).toNat ∧ (6#16).toNat < c.pinBase + c.npins)) := by decide +kernel

theorem witness_MappinTranslatesTheLogicalPin :
    smallBuilt.lc ≠ .reset ∧ smallBuilt.topo.length = 2 ∧ com1.groups.length = 1 ∧
    (∀ g ∈ com1.groups, g.gpioBase ≤ (101#16).toNat ∧ (101#16).toNat < g.gpioBase + g.size ∧
      g.base + ((101#16).toNat - g.gpioBase) < 2 ^ 32) ∧
    (∀ g ∈ com0.groups, ¬(g.gpioBase ≤ (101#16).toNat ∧ (101#16).toNat < g.gpioBase + g.size)) ∧
    (∀ g ∈ smallBuilt.topo.flatMap Community.groups, ¬(g.gpioBase ≤ (102#16).toNat ∧ (102#16).toNat < g.gpioBase + g.size)) := by
  decide +kernel

theorem witness_HostownReadsTheOwnershipSlot :
    busy.lc = .started ∧ Quiet busy ∧ findCommunity busy.topo (5#16).toNat = some (1, com1) ∧ com1.ownOff = none ∧
    findCommunity busy.topo (1#16).toNat = some (0, com0) ∧ com0.ownOff = some 0x10 ∧
    findGroup com0 (1#16).toNat = some (0, grp00) ∧ accessOk busy.cfg com0.barno (ownOff 0x10 grp00 1) = true := by
  decide +kernel

theorem witness_GpiomodeReadsTheModeBit :
    busy.lc = .started ∧ Quiet busy ∧ findCommunity busy.topo (5#16).toNat = some (1, com1) ∧ com1.hostmodeOff = none ∧
    findCommunity busy.topo (1#16).toNat = some (0, com0) ∧ com0.hostmodeOff = some 0x30 ∧
    findGroup com0 (1#16).toNat = some (0, grp00) ∧ accessOk busy.cfg com0.barno (bankOff 0x30 grp00.regNum) = true := by
  decide +kernel

theorem witness_LockedReadsTheLockBits :
    busy.lc = .started ∧ Quiet busy ∧ findCommunity busy.topo (5#16).toNat = some (1, com1) ∧ com1.lockOff = none ∧
    findCommunity busy.topo (1#16).toNat = some (0, com0) ∧ com0.lockOff = some 0x20 ∧
    findGroup com0 (1#16).toNat = some (0, grp00) ∧ accessOk busy.cfg com0.barno (lockOff busy.cfg 0x20 grp00) = true ∧
    accessOk busy.cfg com0.barno (lockTxOff busy.cfg 0x20 grp00) = true ∧
    (winWord busy.mem 0 0x20).getLsbD 1 = false ∧ (winWord (small [(0, 0x20, 2)]).mem 0 0x20).getLsbD 1 = true := by
  decide +kernel

theorem witness_UnknownPinsGetTheSafeDefault :
    busy.lc = .started ∧ findCommunity busy.topo (6#16).toNat = none ∧ gap.lc = .started ∧
    (findCommunity gap.topo (0#16).toNat).map (fun r => (findGroup r.2 0, r.2.ownOff, r.2.hostmodeOff, r.2.lockOff)) =
      some (none, some 0x10, some 0x30, some 0x20) := by decide +kernel

theorem witness_TriggerTypesClassify :
    mini.wellFormed = true ∧ mini.tRising = 0x01 ∧ mini.tFalling = 0x02 ∧ mini.tLevelHigh = 0x04 ∧ mini.tLevelLow = 0x08 ∧
    isLevel mini 0x0C = true := by decide

theorem witness_TriggerWordHasItsFields :
    mini.wellFormed = true ∧ 24 ≠ mini.trigShift.val ∧ 24 ≠ mini.trigShift.val + 1 ∧ 24 ≠ mini.invBit.val := by decide

theorem witness_SettrigWritesPadcfgAndRecords :
    busy.lc = .started ∧ Quiet busy ∧ busy.mem.wf = true ∧
    (findCommunity busy.topo 5 = some (1, com1) ∧ com1.hostmodeOff = none ∧ accessOk busy.cfg com1.barno (cfg0Off com1 5) = true ∧
      isPendingWord busy.cfg com1.barno (cfg0Off com1 5) = false ∧ (tableGet busy.trig 5).isSome = true) ∧
    mapPin busy.topo (101#16).toNat = some 5 ∧
    (findCommunity busy.topo 0 = some (0, com0) ∧ com0.hostmodeOff = some 0x30 ∧ findGroup com0 0 = some (0, grp00) ∧
      accessOk busy.cfg com0.barno (bankOff 0x30 grp00.regNum) = true ∧
      (winWord busy.mem com0.barno (bankOff 0x30 grp00.regNum)).getLsbD (0 - grp00.base) = false ∧
      accessOk busy.cfg com0.barno (cfg0Off com0 0) = true ∧ isPendingWord busy.cfg com0.barno (cfg0Off com0 0) = false ∧
      (tableGet busy.trig 0).isSome = true) := by decide +kernel

theorem witness_SettrigRefusesAcpiPins :
    busy.lc = .started ∧ Quiet busy ∧ findCommunity busy.topo 1 = some (0, com0) ∧ com0.hostmodeOff = some 0x30 ∧
    findGroup com0 1 = some (0, grp00) ∧ accessOk busy.cfg com0.barno (bankOff 0x30 grp00.regNum) = true ∧
    (winWord busy.mem com0.barno (bankOff 0x30 grp00.regNum)).getLsbD (1 - grp00.base) = true ∧
    mapPin busy.topo (1#16).toNat = some 1 ∧
    (findCommunity gap.topo 0).map (fun r => (r.2.hostmodeOff, findGroup r.2 0)) = some (some 0x30, none) := by decide +kernel

theorem witness_EnableClearsThenSets :
    busy.lc = .started ∧ Quiet busy ∧ busy.mem.wf = true ∧ findPin busy.topo 5 = some loc5 ∧
    mapPin busy.topo (101#16).toNat = some 5 ∧ accessOk busy.cfg loc5.c.barno (bankOff loc5.c.isOff loc5.g.regNum) = true ∧
    accessOk busy.cfg loc5.c.barno (bankOff loc5.c.ieOff loc5.g.regNum) = true ∧
    isPendingWord busy.cfg loc5.c.barno (bankOff loc5.c.isOff loc5.g.regNum) = true ∧
    isPendingWord busy.cfg loc5.c.barno (bankOff loc5.c.ieOff loc5.g.regNum) = false := by decide +kernel

theorem witness_EnableOrderHoldsInEveryEnvironment :
    busy.lc = .started ∧ NoReset { busy with env := [[.pend 1 0 2], [.store 1 0x50 0]] } ∧ findPin busy.topo 5 = some loc5 ∧
    accessOk busy.cfg loc5.c.barno (bankOff loc5.c.isOff loc5.g.regNum) = true ∧
    accessOk busy.cfg loc5.c.barno (bankOff loc5.c.ieOff loc5.g.regNum) = true := by decide +kernel

theorem witness_MaskChangesOnlyTheEnableBit :
    Instr.maskunmask 5 1 = .maskunmask 5 (if true then 1 else 0) ∧ Instr.maskunmask 5 0 = .maskunmask 5 (if false then 1 else 0) ∧
    mapPin busy.topo (101#16).toNat = some 5 ∧ busy.lc = .started ∧ Quiet busy ∧ busy.mem.wf = true ∧
    findPin busy.topo 5 = some loc5 ∧ accessOk busy.cfg loc5.c.barno (bankOff loc5.c.ieOff loc5.g.regNum) = true ∧
    isPendingWord busy.cfg loc5.c.barno (bankOff loc5.c.ieOff loc5.g.regNum) = false := by decide +kernel

theorem witness_RegisterIsExclusive :
    busy.lc = .started ∧ findCommunity busy.topo 5 = some (1, com1) ∧ tableGet busy.slots 5 = some Slot.free ∧
    mapPin busy.topo (101#16).toNat = some 5 ∧ findCommunity busy.topo 4 = some (1, com1) ∧
    tableGet busy.slots 4 = some ⟨true, 4, 5, 6⟩ := by decide +kernel

theorem witness_UnregisterMasksAndClears :
    busy.lc = .started ∧ Quiet busy ∧ busy.mem.wf = true ∧ findPin busy.topo 5 = some loc5 ∧
    mapPin busy.topo (101#16).toNat = some 5 ∧ accessOk busy.cfg loc5.c.barno (bankOff loc5.c.ieOff loc5.g.regNum) = true ∧
    isPendingWord busy.cfg loc5.c.barno (bankOff loc5.c.ieOff loc5.g.regNum) = false ∧
    (tableGet busy.slots 5).isSome = true ∧ (tableGet busy.trig 5).isSome = true := by decide +kernel

theorem witness_GettypeReturnsTheRecordedType :
    busy.lc = .started ∧ mapPin busy.topo (100#16).toNat = some 4 ∧ tableGet busy.trig 4 = some 8 ∧
    astray.lc = .started ∧ mapPin astray.topo (301#16).toNat = some 51 ∧ tableGet astray.trig 51 = none := by decide +kernel

theorem witness_UnresolvedPinsAreNotFound :
    busy.lc = .started ∧ mapPin busy.topo (102#16).toNat = none ∧ findCommunity busy.topo (6#16).toNat = none ∧
    findPin busy.topo (6#16).toNat = none ∧ astray.lc = .started ∧ mapPin astray.topo (301#16).toNat = some 51 ∧
    findCommunity astray.topo 51 = none ∧ findPin astray.topo 51 = none := by decide +kernel

theorem small_is_tidy : Tidy busy.topo := by decide +kernel
theorem small_is_separate : Separate busy := by decide +kernel
theorem small_is_reachable :
    Reachable busy.cfg (pendRegs busy.topo ++ enableRegs busy.topo ++ configRegs busy.topo ++ allGuardRegs busy.cfg busy.topo) := by
  decide +kernel
theorem held_is_separate : Separate held := by decide +kernel

theorem witness_DispatchServesTheAssertedPins :
    busy.lc = .started ∧ Quiet busy ∧ busy.mem.wf = true ∧ Tidy busy.topo ∧ Separate busy ∧
    Reachable busy.cfg (pendRegs busy.topo ++ enableRegs busy.topo) ∧ (∀ c ∈ busy.topo, ∀ g ∈ c.groups, g.size ≤ 32) ∧
    busy.trig.map Prod.fst = pinsOf busy.topo :=
  ⟨rfl, rfl, by decide +kernel, small_is_tidy, small_is_separate, by decide +kernel, by decide +kernel, by decide +kernel⟩

theorem witness_OnlyRegisteredPinsAreCalledBack :
    NoReset { busy with env := [[.pend 1 0 2]] } ∧ ∃ t, exec .dispatch { busy with env := [[.pend 1 0 2]] } = .next t :=
  ⟨by decide, perform_next _ _ _⟩

theorem witness_ContextTablesAreAllocatedAndReleased :
    busy.lc = .started ∧ busy.cs ≠ .none ∧ ({ busy with cs := .none } : State).cs = .none ∧ smallBuilt.lc ≠ .started := by
  decide +kernel

theorem witness_SuspendTakesTheSnapshot :
    busy.lc = .started ∧ busy.cs ≠ .none ∧ Quiet busy ∧ Tidy busy.topo ∧
    Reachable busy.cfg (enableRegs busy.topo ++ configRegs busy.topo ++ allGuardRegs busy.cfg busy.topo) ∧
    busy.pads.map Prod.fst = pinsOf busy.topo ∧ busy.ieShadow.map List.length = (busy.topo.map fun c => c.groups.length) :=
  ⟨rfl, by decide, rfl, small_is_tidy, by decide +kernel, by decide +kernel, by decide +kernel⟩

theorem witness_ResumeRestoresTheSnapshot :
    held.lc = .started ∧ held.cs = .saved ∧ Quiet held ∧ held.mem.wf = true ∧ Separate held ∧
    Reachable held.cfg (pendRegs held.topo ++ enableRegs held.topo ++ configRegs held.topo) ∧
    (padOf held 4).captured = true ∧ (padOf held 5).captured = false :=
  ⟨rfl, rfl, rfl, by decide +kernel, held_is_separate, by decide +kernel, by decide +kernel, by decide +kernel⟩

theorem witness_SuspendThenResumeIsARoundTrip :
    busy.lc = .started ∧ busy.cs ≠ .none ∧ Quiet busy ∧ busy.mem.wf = true ∧ Tidy busy.topo ∧ Separate busy ∧
    Reachable busy.cfg (pendRegs busy.topo ++ enableRegs busy.topo ++ configRegs busy.topo ++ allGuardRegs busy.cfg busy.topo) ∧
    busy.pads.map Prod.fst = pinsOf busy.topo ∧ busy.ieShadow.map List.length = (busy.topo.map fun c => c.groups.length) :=
  ⟨rfl, by decide, rfl, by decide +kernel, small_is_tidy, small_is_separate, small_is_reachable, by decide +kernel,
    by decide +kernel⟩

theorem witness_PowerOffMasksThenSuspends :
    busy.lc = .started ∧ busy.cs ≠ .none ∧ Quiet busy ∧ busy.mem.wf = true ∧ Tidy busy.topo ∧ Separate busy ∧
    Reachable busy.cfg (enableRegs busy.topo ++ configRegs busy.topo ++ allGuardRegs busy.cfg busy.topo) ∧
    busy.pads.map Prod.fst = pinsOf busy.topo ∧ busy.ieShadow.map List.length = (busy.topo.map fun c => c.groups.length) :=
  ⟨rfl, by decide, rfl, by decide +kernel, small_is_tidy, small_is_separate, by decide +kernel, by decide +kernel,
    by decide +kernel⟩

theorem witness_PowerOnResumesThenRearms :
    held.lc = .started ∧ held.cs = .saved ∧ Quiet held ∧ held.mem.wf = true ∧ Tidy held.topo ∧ Separate held ∧
    Reachable held.cfg (pendRegs held.topo ++ enableRegs held.topo ++ configRegs held.topo ++ allGuardRegs held.cfg held.topo) ∧
    held.trig.map Prod.fst = pinsOf held.topo ∧ isUsable held com0 grp00 1 = false ∧ (slotOf held 1).valid = true ∧
    (slotOf held 4).valid = true ∧ (padOf held 4).captured = true ∧ (padOf held 5).captured = false :=
  ⟨rfl, rfl, rfl, by decide +kernel, small_is_tidy, held_is_separate, small_is_reachable, by decide +kernel,
    by decide +kernel, by decide +kernel, by decide +kernel, by decide +kernel, by decide +kernel⟩

theorem witness_LifecycleAndContextTransitions :
    NoReset { smallBuilt with env := [[.notify]] } ∧ ∃ t, exec .start { smallBuilt with env := [[.notify]] } = .next t :=
  ⟨by decide, perform_next _ _ _⟩

theorem witness_OnlyTheirWritersChangeTheTables : NoReset busy ∧ ∃ t, exec .pwroff busy = .next t :=
  ⟨by decide, perform_next _ _ _⟩

theorem witness_SomeOperationsNeverReachTheBus : ∃ t, exec (.regoff 5 2) busy = .next t := perform_next _ _ _

theorem witness_WritesGoOnlyToTheirRegisters : NoReset busy ∧ ∃ t, exec .dispatch busy = .next t :=
  ⟨by decide, perform_next _ _ _⟩

theorem witness_StepKeepsTheMemoryCanonical :
    MemoryCanonical { busy with env := [[.reset, .store 1 0x50 0]] } ∧
    ∃ t, step { busy with env := [[.reset, .store 1 0x50 0]] } = .next t := ⟨by decide +kernel, step_of_idle rfl⟩

theorem witness_StepKeepsTheTablesInAgreement :
    TablesAgree { busy with cmds := [0x03] } ∧ ∃ t, step { busy with cmds := [0x03] } = .next t :=
  ⟨by decide +kernel, step_of_idle rfl⟩

theorem witness_StepKeepsShadowsAndSlotsClean :
    ShadowsClean { busy with cmds := [0x41] } ∧ FreeSlotsEmpty { busy with cmds := [0x41] } ∧
    ∃ t, step { busy with cmds := [0x41] } = .next t := ⟨by decide +kernel, by decide +kernel, step_of_idle rfl⟩

end Sys2Proof.Tests
end

/-! PROOFS. The statements about packets and about legality by state (30_encoding.md R97, R98, R99). -/

namespace Sys2Proof.Machine

/-! ## The operation map by format (R91, R96) -/

/-- What the operation map (R96) makes of the fields `k`: the form of the operation's format, on an operation whose packet
has the code `k.op`; or the rejection of an unassigned code. -/
inductive Decoding (k : Fields) : Except Reject Instr → Prop where
  | formatZ (i : Instr) (code : k.op ∈ codesZ) (fields : i.fields = ⟨k.op, 0, 0, 0, 0, 0⟩) : Decoding k (formZ k i)
  | formatP (f : PinNum → Instr) (code : k.op ∈ codesP) (fields : ∀ pin, (f pin).fields = ⟨k.op, 0, pin, 0, 0, 0⟩) :
      Decoding k (formP k f)
  | formatS (f : PinNum → BitVec 8 → Instr) (code : k.op ∈ codesS)
      (fields : ∀ pin sel, (f pin sel).fields = ⟨k.op, sel, pin, 0, 0, 0⟩) : Decoding k (formS k f)
  | formatR (f : PinNum → Token → Token → Token → Instr) (code : k.op ∈ codesR)
      (fields : ∀ pin owner cb ctx, (f pin owner cb ctx).fields = ⟨k.op, 0, pin, owner, cb, ctx⟩) :
      Decoding k (formR k f)
  | unassigned (code : k.op ∉ codesZ ++ codesP ++ codesS ++ codesR) : Decoding k (.error .unassignedOp)

/-- The decoder's one case analysis over the 29 codes; the laws of the decoder follow from it format by format. -/
theorem decodeFields_decoding (k : Fields) : Decoding k (decodeFields k) := by
  obtain ⟨op, sel, pin, owner, cb, ctx⟩ := k
  unfold decodeFields
  dsimp only
  split
  next => exact .formatZ .build (by simp [codesZ]) rfl
  next => exact .formatZ .start (by simp [codesZ]) rfl
  next => exact .formatZ .stop (by simp [codesZ]) rfl
  next => exact .formatP .rescom (by simp [codesP]) (fun _ => rfl)
  next => exact .formatS (fun pin ci => .resgrp ci pin) (by simp [codesS]) (fun _ _ => rfl)
  next => exact .formatS .regoff (by simp [codesS]) (fun _ _ => rfl)
  next => exact .formatP .mappin (by simp [codesP]) (fun _ => rfl)
  next => exact .formatZ .getstatus (by simp [codesZ]) rfl
  next => exact .formatP .hostown (by simp [codesP]) (fun _ => rfl)
  next => exact .formatP .gpiomode (by simp [codesP]) (fun _ => rfl)
  next => exact .formatP .locked (by simp [codesP]) (fun _ => rfl)
  next => exact .formatS .settrig (by simp [codesS]) (fun _ _ => rfl)
  next => exact .formatP .enable (by simp [codesP]) (fun _ => rfl)
  next => exact .formatS .maskunmask (by simp [codesS]) (fun _ _ => rfl)
  next => exact .formatR .register (by simp [codesR]) (fun _ _ _ _ => rfl)
  next => exact .formatP .unregister (by simp [codesP]) (fun _ => rfl)
  next => exact .formatZ .dispatch (by simp [codesZ]) rfl
  next => exact .formatP .gettype (by simp [codesP]) (fun _ => rfl)
  next => exact .formatR .regint (by simp [codesR]) (fun _ _ _ _ => rfl)
  next => exact .formatP .unregint (by simp [codesP]) (fun _ => rfl)
  next => exact .formatP .enint (by simp [codesP]) (fun _ => rfl)
  next => exact .formatP .disint (by simp [codesP]) (fun _ => rfl)
  next => exact .formatS .settypeint (by simp [codesS]) (fun _ _ => rfl)
  next => exact .formatZ .ctxinit (by simp [codesZ]) rfl
  next => exact .formatZ .ctxsuspend (by simp [codesZ]) rfl
  next => exact .formatZ .ctxresume (by simp [codesZ]) rfl
  next => exact .formatZ .ctxrelease (by simp [codesZ]) rfl
  next => exact .formatZ .pwroff (by simp [codesZ]) rfl
  next => exact .formatZ .pwron (by simp [codesZ]) rfl
  next => exact .unassigned (by simp_all [codesZ, codesP, codesS, codesR])

/-- The fields that decode to an operation are that operation's fields: no bit of a legal packet is ignored (R91, R97). -/
theorem fields_of_decodeFields {k : Fields} {i : Instr} (h : decodeFields k = .ok i) : i.fields = k := by
  have hd := decodeFields_decoding k
  generalize decodeFields k = r at hd h
  obtain ⟨op, sel, pin, owner, cb, ctx⟩ := k
  cases hd with
  | formatZ j _ fields =>
    obtain ⟨rfl, rfl, rfl, rfl, rfl, rfl⟩ := formZ_ok.mp h
    exact fields
  | formatP f _ fields =>
    obtain ⟨rfl, rfl, rfl, rfl, rfl⟩ := formP_ok.mp h
    exact fields pin
  | formatS f _ fields =>
    obtain ⟨rfl, _, rfl, rfl, rfl⟩ := formS_ok.mp h
    exact fields pin sel
  | formatR f _ fields =>
    obtain ⟨rfl, rfl⟩ := formR_ok.mp h
    exact fields pin owner cb ctx
  | unassigned => cases h

/-- A packet that decodes is the packet of the operation it decodes to (R91, R97). -/
theorem encode_of_decode {w : Packet} {i : Instr} (h : decode w = .ok i) : encode i = w := by
  rw [encode, fields_of_decodeFields h, pack_unpack]

/-- A packet whose code is outside the operation map is rejected for that, whatever its other fields hold (R98). -/
theorem decode_of_unassigned {w : Packet} (h : (unpack w).op ∉ codesZ ++ codesP ++ codesS ++ codesR) :
    decode w = .error .unassignedOp := by
  have hd := decodeFields_decoding (unpack w)
  unfold decode
  generalize decodeFields (unpack w) = r at hd ⊢
  simp only [List.mem_append, not_or] at h
  obtain ⟨⟨⟨hz, hp⟩, hs⟩, hr⟩ := h
  cases hd with
  | formatZ _ code => exact absurd code hz
  | formatP _ code => exact absurd code hp
  | formatS _ code => exact absurd code hs
  | formatR _ code => exact absurd code hr
  | unassigned => rfl

/-! ## R97's conditions by format -/

/-- Bits 7:1 of the selector byte are nonzero exactly when it holds 2 or more (R97). -/
theorem selectorHigh_ne_zero_iff (w : Packet) : w.extractLsb' 9 7 ≠ 0 ↔ 2 ≤ (w.extractLsb' 8 8).toNat := by
  simp only [ne_eq, ← BitVec.toNat_inj, BitVec.extractLsb'_toNat, Nat.shiftRight_eq_div_pow,
    BitVec.ofNat_eq_ofNat, BitVec.toNat_ofNat, Nat.reducePow, Nat.zero_mod]
  omega

/-- What a legal packet's selector must satisfy: REGOFF's is below 3, MASKUNMASK's below 2 (R92, R97). -/
theorem wellFormed_iff_fields (i : Instr) :
    i.wellFormed = true ↔ (i.fields.op = 0x06 → i.fields.sel.toNat < 3) ∧ (i.fields.op = 0x22 → i.fields.sel.toNat < 2) := by
  cases i with
  | regoff pin sel => simp [Instr.fields, Instr.opcode, Instr.wellFormed]
  | maskunmask pin sel => simp [Instr.fields, Instr.opcode, Instr.wellFormed]
  | _ => simp [Instr.fields, Instr.opcode, Instr.wellFormed]

/-! A code belongs to one format, and only format S has codes with a selector check (R96). -/

theorem codesZ_disjoint : ∀ op ∈ codesZ, op ∉ codesP ∧ op ∉ codesS ∧ op ∉ codesR ∧ op ≠ 0x06 ∧ op ≠ 0x22 := by decide
theorem codesP_disjoint : ∀ op ∈ codesP, op ∉ codesZ ∧ op ∉ codesS ∧ op ∉ codesR ∧ op ≠ 0x06 ∧ op ≠ 0x22 := by decide
theorem codesS_disjoint : ∀ op ∈ codesS, op ∉ codesZ ∧ op ∉ codesP ∧ op ∉ codesR := by decide
theorem codesR_disjoint : ∀ op ∈ codesR, op ∉ codesZ ∧ op ∉ codesP ∧ op ∉ codesS ∧ op ≠ 0x06 ∧ op ≠ 0x22 := by decide

/-- R97's conditions, the packet cut into its fields. -/
theorem illegalPacket_iff_fields {w : Packet} {k : Fields} (hk : unpack w = k) :
    IllegalPacket w ↔
      k.op ∉ codesZ ++ codesP ++ codesS ++ codesR ∨ (k.op ∈ codesZ ++ codesP ++ codesR ∧ k.sel ≠ 0) ∨
      (k.op ∈ codesZ ∧ k.pin ≠ 0) ∨
      (k.op ∈ codesZ ++ codesP ++ codesS ∧ (k.owner ≠ 0 ∨ k.cb ≠ 0 ∨ k.ctx ≠ 0)) ∨
      (k.op = 0x06 ∧ 3 ≤ k.sel.toNat) ∨ (k.op = 0x22 ∧ 2 ≤ k.sel.toNat) := by
  subst hk
  rw [IllegalPacket, selectorHigh_ne_zero_iff]
  rfl

theorem exists_error_iff {ε α : Type} (r : Except ε α) : (∃ e, r = .error e) ↔ ∀ a, r ≠ .ok a := by
  cases r <;> simp

/-- The decoder rejects exactly the packets that R97 calls illegal. In each format the code decides which of R97's conditions
can apply, and these are the negation of what the format's law asks; what is left is propositional. -/
theorem decode_error_iff (w : Packet) : (∃ why, decode w = .error why) ↔ IllegalPacket w := by
  rw [exists_error_iff, illegalPacket_iff_fields rfl]
  unfold decode
  generalize unpack w = k
  have hd := decodeFields_decoding k
  generalize decodeFields k = r at hd ⊢
  cases hd with
  | formatZ i code =>
    obtain ⟨hp, hs, hr, h6, h22⟩ := codesZ_disjoint k.op code
    simp only [ne_eq, formZ_ok, List.mem_append, code, hp, hs, hr, h6, h22]
    grind
  | formatP f code =>
    obtain ⟨hz, hs, hr, h6, h22⟩ := codesP_disjoint k.op code
    simp only [ne_eq, formP_ok, List.mem_append, code, hz, hs, hr, h6, h22]
    grind
  | formatS f code fields =>
    obtain ⟨hz, hp, hr⟩ := codesS_disjoint k.op code
    simp only [ne_eq, formS_ok, wellFormed_iff_fields, fields, List.mem_append, code, hz, hp, hr]
    grind
  | formatR f code =>
    obtain ⟨hz, hp, hs, h6, h22⟩ := codesR_disjoint k.op code
    simp only [ne_eq, formR_ok, List.mem_append, code, hz, hp, hs, h6, h22]
    grind
  | unassigned code => exact iff_of_true (by simp) (.inl code)

/-! ## A step that takes a packet (R90, R252) -/

/-- With no outside move and no notification waiting, the arbiter takes a waiting packet (R252). -/
theorem arbitrate_of_quiet {s : State} {pkt : Packet} {rest : List Packet} (hq : Quiet s) (hn : s.irqNotif = 0)
    (hc : s.cmds = pkt :: rest) : arbitrate (envTick s) = (some .command, s) := by
  simp [envTick, hq, arbitrate, hc, hn]

/-- An illegal packet that the arbiter takes is answered, with no other effect (R97). -/
theorem step_of_illegal {s t : State} {pkt : Packet} {rest : List Packet} (hs : s.seq = .idle) (hw : IllegalPacket pkt)
    (ha : arbitrate (envTick s) = (some .command, t)) (hc : t.cmds = pkt :: rest) :
    step s = .next (answer t .illegalCommand 0 0) := by
  obtain ⟨why, hwhy⟩ := (decode_error_iff pkt).mpr hw
  have hf : fetch t = .error why := by simp [fetch, hc, hwhy]
  simp only [step, hs, ha, hf]
  rfl

/-- Settles O6: the rejections format by format, then the one branch of a step that an illegal packet takes. -/
theorem illegalPacketsAreOnlyAnswered : Obligations.IllegalPacketsAreOnlyAnswered := by
  refine ⟨decode_error_iff, fun s t pkt rest hs hw => ⟨step_of_illegal hs hw, fun hq hn hc => ?_⟩⟩
  exact step_of_illegal hs hw (arbitrate_of_quiet hq hn hc) hc

/-! ## Unassigned codes (R98) -/

/-- The ranges of R98, as numbers. -/
def UnassignedCode (op : Nat) : Prop :=
  op = 0x00 ∨ (0x09 ≤ op ∧ op ≤ 0x0F) ∨ (0x13 ≤ op ∧ op ≤ 0x1F) ∨ (0x26 ≤ op ∧ op ≤ 0x2F) ∨
    (0x36 ≤ op ∧ op ≤ 0x3F) ∨ (0x46 ≤ op ∧ op ≤ 0xFF)

/-- No code of the operation map (R96) lies in R98's ranges. -/
theorem not_unassignedCode_of_mem : ∀ op ∈ codesZ ++ codesP ++ codesS ++ codesR, ¬UnassignedCode op.toNat := by
  unfold UnassignedCode
  decide

/-- Settles O4: R98's ranges avoid every code of the map, and an operation has one packet, its encoding. -/
theorem unassignedCodesAreIllegal : Obligations.UnassignedCodesAreIllegal := by
  refine ⟨?_, fun w w' i h h' => (encode_of_decode h).symm.trans (encode_of_decode h')⟩
  rintro w _ rfl hop
  have code : (unpack w).op ∉ codesZ ++ codesP ++ codesS ++ codesR := fun hmem => not_unassignedCode_of_mem _ hmem hop
  exact ⟨.inl code, decode_of_unassigned code⟩

/-! ## Refusal by state (R99) -/

/-- An operation whose row of R99 excludes the state is answered StateRefused, with no other effect. -/
theorem exec_refused {i : Instr} {s : State} (hw : i.wellFormed = true) (hl : legal i s = false) :
    exec i s = .next (answer s .stateRefused 0 0) := by
  cases i <;> exact perform_refused hw hl

theorem exec_refused_of_lc {i : Instr} {s : State} (hw : i.wellFormed = true) (hlc : legalLc i s.lc = false) :
    exec i s = .next (answer s .stateRefused 0 0) :=
  exec_refused hw (by simp [legal, hlc])

theorem exec_refused_of_cs {i : Instr} {s : State} (hw : i.wellFormed = true) (hcs : legalCs i s.cs = false) :
    exec i s = .next (answer s .stateRefused 0 0) :=
  exec_refused hw (by simp [legal, hcs])

/-- Settles O12, row by row of R99: each operation named is well formed, and its row excludes the state. -/
theorem outOfStateOperationsAreRefused : Obligations.OutOfStateOperationsAreRefused := by
  intro s pin b m owner cb ctx
  refine ⟨fun h => ?_, fun h => ?_, fun h i hi => ?_, fun h i hi => ?_, fun h => ?_, fun h i hi => ?_, fun h i hi => ?_,
    fun ht h => ?_⟩
  · exact exec_refused_of_lc rfl (by simp [legalLc, h])
  · exact exec_refused_of_lc rfl (by simp [legalLc, h])
  · obtain ⟨hw, hrow⟩ : i.wellFormed = true ∧ legalLc i s.lc = false := by
      revert i
      simp [Instr.wellFormed, legalLc, h]
    exact exec_refused_of_lc hw hrow
  · obtain ⟨hw, hrow⟩ : i.wellFormed = true ∧ legalLc i s.lc = false := by
      revert i
      cases m <;> simp [Instr.wellFormed, legalLc, h]
    exact exec_refused_of_lc hw hrow
  · exact exec_refused_of_cs rfl (by simp [legalCs, h])
  · obtain ⟨hw, hrow⟩ : i.wellFormed = true ∧ legalCs i s.cs = false := by
      revert i
      simp [Instr.wellFormed, legalCs, h]
    exact exec_refused_of_cs hw hrow
  · obtain ⟨hw, hrow⟩ : i.wellFormed = true ∧ legalCs i s.cs = false := by
      revert i
      simp [Instr.wellFormed, legalCs, h]
    exact exec_refused_of_cs hw hrow
  · obtain ⟨_, _, _, stopped, _⟩ := ht
    obtain ⟨_, _, _, hcs⟩ := stopped h
    exact hcs

end Sys2Proof.Machine

/-! PROOFS. GETSTATUS and the status word (40_topology.md R130). -/

namespace Sys2Proof.Machine

/-! ## The status word, field by field (R130) -/

theorem statusWord_lc (s : State) : (statusWord s).extractLsb' 0 2 = s.lc.code := by
  simp (disch := decide) only [statusWord, BitVec.extractLsb'_append_eq_of_add_le, BitVec.extractLsb'_eq_self]

theorem statusWord_cs (s : State) : (statusWord s).extractLsb' 2 2 = s.cs.code := by
  simp (disch := decide) only [statusWord, BitVec.extractLsb'_append_eq_of_le, BitVec.extractLsb'_append_eq_of_add_le,
    BitVec.extractLsb'_eq_self, Nat.reduceSub]

theorem statusWord_busFault (s : State) : (statusWord s).getLsbD 4 = s.busFault := by
  simp only [statusWord, BitVec.getLsbD_append]
  simp

theorem statusWord_reserved (s : State) : (statusWord s).extractLsb' 5 3 = 0#3 := by
  simp (disch := decide) only [statusWord, BitVec.extractLsb'_append_eq_of_le, BitVec.extractLsb'_append_eq_of_add_le,
    BitVec.extractLsb'_eq_self, Nat.reduceSub]

theorem statusWord_errLastCode (s : State) : (statusWord s).extractLsb' 8 8 = s.errLastCode := by
  simp (disch := decide) only [statusWord, BitVec.extractLsb'_append_eq_of_le, BitVec.extractLsb'_append_eq_of_add_le,
    BitVec.extractLsb'_eq_self, Nat.reduceSub]

theorem statusWord_errCount (s : State) : (statusWord s).extractLsb' 16 16 = s.errCount := by
  simp (disch := decide) only [statusWord, BitVec.extractLsb'_append_eq_of_le, BitVec.extractLsb'_eq_self, Nat.reduceSub]

theorem Lifecycle.code_toNat (lc : Lifecycle) :
    lc.code.toNat = (match lc with | .reset => 0 | .built => 1 | .started => 2) := by
  cases lc <;> rfl

theorem CtxState.code_toNat (cs : CtxState) :
    cs.code.toNat = (match cs with | .none => 0 | .idle => 1 | .saved => 2) := by
  cases cs <;> rfl

/-! ## The operation -/

/-- GETSTATUS is legal in every state, so its one effect is its response (R99, R130). -/
theorem exec_getstatus (s : State) :
    exec .getstatus s = .next (respond (statusResponse s) (takeCommand (.command .getstatus) s)) :=
  perform_legal rfl rfl

/-- Right after reset the lifecycle and the context have the code 0, and the log and the count are empty (R50, R130). -/
theorem statusResponse_reset : statusResponse State.reset = ⟨.ok, 0, 0, 0⟩ := rfl

/-- Settles O29: the response is the only effect, and its word is the status word, read field by field. -/
theorem getstatusShowsTheState : Obligations.GetstatusShowsTheState := by
  refine ⟨rfl, rfl, ?_, fun s => ⟨statusWord s, exec_getstatus s, ?_, ?_, statusWord_busFault s, statusWord_reserved s,
    statusWord_errLastCode s, statusWord_errCount s⟩⟩
  · rw [exec_getstatus, statusResponse_reset]
    rfl
  · rw [statusWord_lc]
    exact s.lc.code_toNat
  · rw [statusWord_cs]
    exact s.cs.code_toNat

end Sys2Proof.Machine

/-! PROOFS. The guard predicates on a pin the topology does not know (41_guard.md R150). -/

namespace Sys2Proof.Machine

/-- The topology does not place the pin in the bitmap that a predicate reads: no community holds it, or its community has the
bitmap and none of the community's groups holds it (R150). -/
inductive Unplaced (topo : List Community) (p : Nat) (bitmap : Community → Option Word) : Prop
  | noCommunity (hc : findCommunity topo p = none)
  | noGroup {ci : Nat} {c : Community} {b : Word} (hc : findCommunity topo p = some (ci, c)) (hb : bitmap c = some b)
      (hg : findGroup c p = none)

theorem Unplaced.of_findGroup {topo : List Community} {p ci : Nat} {c : Community} {bitmap : Community → Option Word}
    (hc : findCommunity topo p = some (ci, c)) (hg : findGroup c p = none) (hb : bitmap c ≠ none) :
    Unplaced topo p bitmap := by
  obtain ⟨b, hb⟩ := Option.ne_none_iff_exists'.mp hb
  exact .noGroup hc hb hg

/-! ## The predicates (R151, R154, R156) -/

theorem communityOf_of_none {s : State} {p : Nat} (h : findCommunity s.topo p = none) :
    communityOf p s = .ok none (logErr .notFound p s) := by rw [communityOf_eq, h]

theorem communityOf_of_some {s : State} {p : Nat} {r : Nat × Community} (h : findCommunity s.topo p = some r) :
    communityOf p s = .ok (some r) s := by rw [communityOf_eq, h]

theorem hostOwned_of_unplaced {s : State} {p : Nat} (h : Unplaced s.topo p (·.ownOff)) :
    hostOwned p s = .ok false (logErr .notFound p s) := by
  unfold hostOwned
  cases h with
  | noCommunity hc => rw [M.bind_ok (communityOf_of_none hc)]; rfl
  | noGroup hc hb hg => rw [M.bind_ok (communityOf_of_some hc)]; simp [hb, hg]

theorem gpioMode_of_unplaced {s : State} {p : Nat} (h : Unplaced s.topo p (·.hostmodeOff)) :
    gpioMode p s = .ok false (logErr .notFound p s) := by
  unfold gpioMode
  cases h with
  | noCommunity hc => rw [M.bind_ok (communityOf_of_none hc)]; rfl
  | noGroup hc hb hg => rw [M.bind_ok (communityOf_of_some hc)]; simp [hb, hg]

theorem lockedPin_of_unplaced {s : State} {p : Nat} (h : Unplaced s.topo p (·.lockOff)) :
    lockedPin p s = .ok true (logErr .notFound p s) := by
  unfold lockedPin
  cases h with
  | noCommunity hc => rw [M.bind_ok (communityOf_of_none hc)]; rfl
  | noGroup hc hb hg => rw [M.bind_ok (communityOf_of_some hc)]; simp [hb, hg]

/-! ## The predicate operations (R152, R155, R157) -/

/-- A legal predicate operation whose predicate does no more than reach `t` answers OK with the truth value. The taking of the
command stands in both states: what the predicate did is the step from `s` to `t`. -/
theorem perform_answerBool {i : Instr} {m : M Bool} {b : Bool} {s t : State} (hw : i.wellFormed = true) (hl : legal i s = true)
    (hm : m (takeCommand (.command i) s) = .ok b (takeCommand (.command i) t)) :
    perform i (answerBool m) s = .next (answer t .ok 0 (boolWord b)) := by
  rw [perform_legal hw hl, answerBool, M.bind_ok hm]
  rfl

theorem boolWord_false : boolWord false = 0 := rfl
theorem boolWord_true : boolWord true = 1 := rfl

theorem exec_hostown (pin : PinNum) (s : State) :
    exec (.hostown pin) s = perform (.hostown pin) (answerBool (hostOwned pin.toNat)) s := rfl

theorem exec_gpiomode (pin : PinNum) (s : State) :
    exec (.gpiomode pin) s = perform (.gpiomode pin) (answerBool (gpioMode pin.toNat)) s := rfl

theorem exec_locked (pin : PinNum) (s : State) :
    exec (.locked pin) s = perform (.locked pin) (answerBool (lockedPin pin.toNat)) s := rfl

theorem exec_hostown_of_unplaced {s : State} {pin : PinNum} (hs : s.lc = .started)
    (h : Unplaced s.topo pin.toNat (·.ownOff)) :
    exec (.hostown pin) s = .next (answer (logErr .notFound pin.toNat s) .ok 0 0) := by
  have hm : hostOwned pin.toNat (takeCommand (.command (.hostown pin)) s) =
      .ok false (takeCommand (.command (.hostown pin)) (logErr .notFound pin.toNat s)) := hostOwned_of_unplaced h
  rw [exec_hostown, perform_answerBool rfl (by simp [legal, legalLc, legalCs, hs]) hm, boolWord_false]

theorem exec_gpiomode_of_unplaced {s : State} {pin : PinNum} (hs : s.lc = .started)
    (h : Unplaced s.topo pin.toNat (·.hostmodeOff)) :
    exec (.gpiomode pin) s = .next (answer (logErr .notFound pin.toNat s) .ok 0 0) := by
  have hm : gpioMode pin.toNat (takeCommand (.command (.gpiomode pin)) s) =
      .ok false (takeCommand (.command (.gpiomode pin)) (logErr .notFound pin.toNat s)) := gpioMode_of_unplaced h
  rw [exec_gpiomode, perform_answerBool rfl (by simp [legal, legalLc, legalCs, hs]) hm, boolWord_false]

theorem exec_locked_of_unplaced {s : State} {pin : PinNum} (hs : s.lc = .started)
    (h : Unplaced s.topo pin.toNat (·.lockOff)) :
    exec (.locked pin) s = .next (answer (logErr .notFound pin.toNat s) .ok 0 1) := by
  have hm : lockedPin pin.toNat (takeCommand (.command (.locked pin)) s) =
      .ok true (takeCommand (.command (.locked pin)) (logErr .notFound pin.toNat s)) := lockedPin_of_unplaced h
  rw [exec_locked, perform_answerBool rfl (by simp [legal, legalLc, legalCs, hs]) hm, boolWord_true]

/-- Settles O33: a pin of no community is unplaced for each of the three bitmaps, a pin of no group for those its community
has, and an unplaced pin gets the safe value. -/
theorem unknownPinsGetTheSafeDefault : Obligations.UnknownPinsGetTheSafeDefault := by
  intro s pin hs
  refine ⟨fun hc => ?_, fun ci c hc hg => ⟨fun hb => ?_, fun hb => ?_, fun hb => ?_⟩⟩
  · exact ⟨hostOwned_of_unplaced (.noCommunity hc), gpioMode_of_unplaced (.noCommunity hc),
      lockedPin_of_unplaced (.noCommunity hc), exec_hostown_of_unplaced hs (.noCommunity hc),
      exec_gpiomode_of_unplaced hs (.noCommunity hc), exec_locked_of_unplaced hs (.noCommunity hc)⟩
  · have hu : Unplaced s.topo pin.toNat (·.ownOff) := .of_findGroup hc hg hb
    exact ⟨hostOwned_of_unplaced hu, exec_hostown_of_unplaced hs hu⟩
  · have hu : Unplaced s.topo pin.toNat (·.hostmodeOff) := .of_findGroup hc hg hb
    exact ⟨gpioMode_of_unplaced hu, exec_gpiomode_of_unplaced hs hu⟩
  · have hu : Unplaced s.topo pin.toNat (·.lockOff) := .of_findGroup hc hg hb
    exact ⟨lockedPin_of_unplaced hu, exec_locked_of_unplaced hs hu⟩

end Sys2Proof.Machine

/-! PROOFS. Trigger types and the word SETTRIG writes (42_interrupt.md R171, R172, R174). -/

namespace Sys2Proof.Machine

/-! ## The flags of a type -/

/-- The type `t` carries the flag `f`: the test R171 makes of each flag. -/
def carries (t f : BitVec 8) : Bool := decide (t &&& f ≠ 0)

theorem isFlag_twoPow {f : BitVec 8} (h : isFlag f = true) : ∃ i < 8, f = BitVec.twoPow 8 i := by
  revert f
  decide

/-- A flag is one bit, so carrying it is having that bit (D49). -/
theorem carries_twoPow (t : BitVec 8) {i : Nat} (hi : i < 8) : carries t (BitVec.twoPow 8 i) = t.getLsbD i := by
  have nonzero : BitVec.twoPow 8 i ≠ 0 := fun h => by simpa [hi] using congrArg (BitVec.getLsbD · i) h
  rw [carries, BitVec.and_twoPow]
  cases t.getLsbD i with
  | false => simp
  | true => simpa using nonzero

theorem carries_eq_true_iff {t f : BitVec 8} : carries t f = true ↔ t &&& f ≠ 0 := decide_eq_true_iff

theorem carries_eq_false_iff {t f : BitVec 8} : carries t f = false ↔ t &&& f = 0 := by simp [carries]

theorem carries_zero (f : BitVec 8) : carries 0 f = false := by simp [carries]

section
variable {f : BitVec 8} (hf : isFlag f = true)
include hf

theorem carries_or (s t : BitVec 8) : carries (s ||| t) f = (carries s f || carries t f) := by
  obtain ⟨i, hi, rfl⟩ := isFlag_twoPow hf
  simp only [carries_twoPow _ hi, BitVec.getLsbD_or]

theorem carries_and (s t : BitVec 8) : carries (s &&& t) f = (carries s f && carries t f) := by
  obtain ⟨i, hi, rfl⟩ := isFlag_twoPow hf
  simp only [carries_twoPow _ hi, BitVec.getLsbD_and]

/-- Among the flags, each carries itself alone. -/
theorem carries_flag {g : BitVec 8} (hg : isFlag g = true) : carries g f = decide (g = f) := by
  revert f g
  decide

/-- What a mask of one flag leaves of a type. -/
theorem and_flag (t : BitVec 8) : t &&& f = if carries t f then f else 0 := by
  obtain ⟨i, hi, rfl⟩ := isFlag_twoPow hf
  rw [carries_twoPow _ hi, BitVec.and_twoPow]
  rfl

/-- The two flags of a mask decide what the mask leaves of a type. -/
theorem and_flags_eq_iff {g u : BitVec 8} (hg : isFlag g = true) (hu : u &&& (f ||| g) = u) (t : BitVec 8) :
    t &&& (f ||| g) = u ↔ carries t f = carries u f ∧ carries t g = carries u g := by
  constructor
  · rintro rfl
    simp [carries_and, carries_or, carries_flag, hf, hg]
  · rintro ⟨hcf, hcg⟩
    rw [← hu, BitVec.and_or_distrib_left, BitVec.and_or_distrib_left, and_flag hf t, and_flag hg t, hcf,
      hcg, and_flag hf u, and_flag hg u]

theorem and_flags_eq_both_iff {g : BitVec 8} (hg : isFlag g = true) (t : BitVec 8) :
    t &&& (f ||| g) = f ||| g ↔ carries t f = true ∧ carries t g = true := by
  rw [and_flags_eq_iff hf hg BitVec.and_self]
  simp [carries_or, carries_flag, hf, hg]

theorem and_flags_eq_zero_iff {g : BitVec 8} (hg : isFlag g = true) (t : BitVec 8) :
    t &&& (f ||| g) = 0 ↔ carries t f = false ∧ carries t g = false := by
  rw [and_flags_eq_iff hf hg (u := 0) BitVec.zero_and, carries_zero, carries_zero]

theorem and_flags_eq_left_iff {g : BitVec 8} (hg : isFlag g = true) (hne : f ≠ g) (t : BitVec 8) :
    t &&& (f ||| g) = f ↔ carries t f = true ∧ carries t g = false := by
  have absorb : f &&& (f ||| g) = f := by grind
  rw [and_flags_eq_iff hf hg absorb]
  simp [carries_flag, hf, hg, hne]

end

theorem and_flags_eq_right_iff {f g : BitVec 8} (hf : isFlag f = true) (hg : isFlag g = true) (hne : f ≠ g)
    (t : BitVec 8) : t &&& (f ||| g) = g ↔ carries t f = false ∧ carries t g = true := by
  rw [BitVec.or_comm, and_flags_eq_left_iff hg hf hne.symm, and_comm]

/-! ## Classification (R171) -/

/-- The four trigger flags are flags, and no two are the same (D49). -/
structure DistinctFlags (cfg : Params) : Prop where
  rising : isFlag cfg.tRising = true
  falling : isFlag cfg.tFalling = true
  high : isFlag cfg.tLevelHigh = true
  low : isFlag cfg.tLevelLow = true
  rising_ne_falling : cfg.tRising ≠ cfg.tFalling
  rising_ne_high : cfg.tRising ≠ cfg.tLevelHigh
  rising_ne_low : cfg.tRising ≠ cfg.tLevelLow
  falling_ne_high : cfg.tFalling ≠ cfg.tLevelHigh
  falling_ne_low : cfg.tFalling ≠ cfg.tLevelLow
  high_ne_low : cfg.tLevelHigh ≠ cfg.tLevelLow

theorem distinctFlags_of_wellFormed {cfg : Params} (h : cfg.wellFormed = true) : DistinctFlags cfg := by
  simp only [Params.wellFormed, Bool.and_eq_true, List.all_cons, List.all_nil, decide_eq_true_eq] at h
  obtain ⟨⟨⟨_, hr, hf, hh, hl, _⟩, hnodup⟩, _⟩ := h
  simp only [List.nodup_cons, List.mem_cons, List.not_mem_nil, or_false, not_or] at hnodup
  obtain ⟨⟨hrf, hrh, hrl⟩, ⟨hfh, hfl⟩, hhl, _⟩ := hnodup
  exact ⟨hr, hf, hh, hl, hrf, hrh, hrl, hfh, hfl, hhl⟩

/-- The class, from which of the rising, falling, level-high and level-low flags a type carries. -/
def classOf : (rising falling high low : Bool) → TrigClass
  | true, true, _, _ => .both
  | true, false, _, _ => .rising
  | false, true, _, _ => .falling
  | false, false, _, true => .levelLow
  | false, false, true, false => .levelHigh
  | false, false, false, false => .disabled

theorem classOf_eq_both_iff : ∀ r f h l, classOf r f h l = .both ↔ r = true ∧ f = true := by decide
theorem classOf_eq_rising_iff : ∀ r f h l, classOf r f h l = .rising ↔ r = true ∧ f = false := by decide
theorem classOf_eq_falling_iff : ∀ r f h l, classOf r f h l = .falling ↔ r = false ∧ f = true := by decide
theorem classOf_eq_levelLow_iff :
    ∀ r f h l, classOf r f h l = .levelLow ↔ (r = false ∧ f = false) ∧ l = true := by decide
theorem classOf_eq_levelHigh_iff :
    ∀ r f h l, classOf r f h l = .levelHigh ↔ (r = false ∧ f = false) ∧ h = true ∧ l = false := by decide
theorem classOf_eq_disabled_iff :
    ∀ r f h l, classOf r f h l = .disabled ↔ (r = false ∧ f = false) ∧ h = false ∧ l = false := by decide

/-- The levels are the two level classes (R174). -/
theorem isLevel_iff {cfg : Params} {t : BitVec 8} :
    isLevel cfg t = true ↔ classify cfg t = .levelHigh ∨ classify cfg t = .levelLow := by
  simp [isLevel]

/-- The flag `f`, or no flag. -/
def flagIf (b : Bool) (f : BitVec 8) : BitVec 8 := if b then f else 0

theorem carries_flagIf {f g : BitVec 8} (hf : isFlag f = true) (hg : isFlag g = true) (b : Bool) :
    carries (flagIf b g) f = (b && decide (g = f)) := by
  cases b with
  | false => exact carries_zero f
  | true => exact carries_flag hf hg

namespace DistinctFlags

variable {cfg : Params} (d : DistinctFlags cfg)
include d

/-- `Classify` depends on the type's four flags only (R171). -/
theorem classify_eq (t : BitVec 8) :
    classify cfg t =
      classOf (carries t cfg.tRising) (carries t cfg.tFalling) (carries t cfg.tLevelHigh) (carries t cfg.tLevelLow) := by
  have level : t &&& (cfg.tLevelHigh ||| cfg.tLevelLow) ≠ 0 ↔
      ¬(carries t cfg.tLevelHigh = false ∧ carries t cfg.tLevelLow = false) :=
    not_congr (and_flags_eq_zero_iff d.high d.low t)
  simp only [classify, and_flags_eq_both_iff d.rising d.falling, level, ← carries_eq_true_iff]
  generalize carries t cfg.tRising = r, carries t cfg.tFalling = f, carries t cfg.tLevelHigh = h,
    carries t cfg.tLevelLow = l
  revert r f h l
  decide

/-- The class of every union of flags. -/
theorem classify_flags (r f h l : Bool) :
    classify cfg (flagIf r cfg.tRising ||| flagIf f cfg.tFalling ||| flagIf h cfg.tLevelHigh ||| flagIf l cfg.tLevelLow) =
      classOf r f h l := by
  rw [d.classify_eq]
  obtain ⟨hr, hf, hh, hl, hrf, hrh, hrl, hfh, hfl, hhl⟩ := d
  simp [carries_or, carries_flagIf, hr, hf, hh, hl, hrf, hrh, hrl, hfh, hfl, hhl, hrf.symm, hrh.symm, hrl.symm, hfh.symm,
    hfl.symm, hhl.symm]

/-- The bits outside the four flags never change the class (R171). -/
theorem classify_and_flags (t : BitVec 8) :
    classify cfg (t &&& (cfg.tRising ||| cfg.tFalling ||| cfg.tLevelHigh ||| cfg.tLevelLow)) = classify cfg t := by
  rw [d.classify_eq, d.classify_eq]
  simp [carries_and, carries_or, carries_flag, d.rising, d.falling, d.high, d.low]

/-! ### Each class, from the edge and the level flags of the type -/

theorem classify_eq_both_iff (t : BitVec 8) :
    classify cfg t = .both ↔ t &&& (cfg.tRising ||| cfg.tFalling) = cfg.tRising ||| cfg.tFalling := by
  rw [d.classify_eq, classOf_eq_both_iff, and_flags_eq_both_iff d.rising d.falling]

theorem classify_eq_rising_iff (t : BitVec 8) :
    classify cfg t = .rising ↔ t &&& (cfg.tRising ||| cfg.tFalling) = cfg.tRising := by
  rw [d.classify_eq, classOf_eq_rising_iff, and_flags_eq_left_iff d.rising d.falling d.rising_ne_falling]

theorem classify_eq_falling_iff (t : BitVec 8) :
    classify cfg t = .falling ↔ t &&& (cfg.tRising ||| cfg.tFalling) = cfg.tFalling := by
  rw [d.classify_eq, classOf_eq_falling_iff, and_flags_eq_right_iff d.rising d.falling d.rising_ne_falling]

theorem classify_eq_levelLow_iff (t : BitVec 8) :
    classify cfg t = .levelLow ↔ t &&& (cfg.tRising ||| cfg.tFalling) = 0 ∧ t &&& cfg.tLevelLow ≠ 0 := by
  rw [d.classify_eq, classOf_eq_levelLow_iff, and_flags_eq_zero_iff d.rising d.falling, carries_eq_true_iff]

theorem classify_eq_levelHigh_iff (t : BitVec 8) :
    classify cfg t = .levelHigh ↔
      t &&& (cfg.tRising ||| cfg.tFalling) = 0 ∧ t &&& (cfg.tLevelHigh ||| cfg.tLevelLow) = cfg.tLevelHigh := by
  rw [d.classify_eq, classOf_eq_levelHigh_iff, and_flags_eq_zero_iff d.rising d.falling,
    and_flags_eq_left_iff d.high d.low d.high_ne_low]

theorem classify_eq_disabled_iff (t : BitVec 8) :
    classify cfg t = .disabled ↔
      t &&& (cfg.tRising ||| cfg.tFalling) = 0 ∧ t &&& (cfg.tLevelHigh ||| cfg.tLevelLow) = 0 := by
  rw [d.classify_eq, classOf_eq_disabled_iff, and_flags_eq_zero_iff d.rising d.falling,
    and_flags_eq_zero_iff d.high d.low]

/-- A type with an edge flag is no level (R174). -/
theorem and_edges_eq_zero_of_isLevel {t : BitVec 8} (h : isLevel cfg t = true) :
    t &&& cfg.tRising = 0 ∧ t &&& cfg.tFalling = 0 := by
  rw [isLevel_iff, d.classify_eq, classOf_eq_levelHigh_iff, classOf_eq_levelLow_iff, ← and_or_left] at h
  obtain ⟨⟨hr, hf⟩, _⟩ := h
  exact ⟨carries_eq_false_iff.mp hr, carries_eq_false_iff.mp hf⟩

/-! ### Unions of flags -/

/-- A level flag never changes the class of an edge type (R171). -/
theorem classify_edges_or_levels {u : BitVec 8}
    (hu : u ∈ [0, cfg.tLevelHigh, cfg.tLevelLow, cfg.tLevelHigh ||| cfg.tLevelLow]) :
    classify cfg (cfg.tRising ||| u) = .rising ∧ classify cfg (cfg.tFalling ||| u) = .falling ∧
      classify cfg (cfg.tRising ||| cfg.tFalling ||| u) = .both := by
  obtain ⟨h, l, rfl⟩ : ∃ h l, u = flagIf h cfg.tLevelHigh ||| flagIf l cfg.tLevelLow := by
    simp only [List.mem_cons, List.not_mem_nil, or_false] at hu
    rcases hu with rfl | rfl | rfl | rfl
    · exact ⟨false, false, by simp [flagIf]⟩
    · exact ⟨true, false, by simp [flagIf]⟩
    · exact ⟨false, true, by simp [flagIf]⟩
    · exact ⟨true, true, by simp [flagIf]⟩
  refine ⟨?_, ?_, ?_⟩
  · simpa [flagIf, classOf, BitVec.or_assoc] using d.classify_flags true false h l
  · simpa [flagIf, classOf, BitVec.or_assoc] using d.classify_flags false true h l
  · simpa [flagIf, classOf, BitVec.or_assoc] using d.classify_flags true true h l

/-- The class of each symbolic type (R103). -/
theorem classify_typeValue (n : TypeName) :
    classify cfg (typeValue cfg n) =
      (match n with
        | .none => .disabled | .rising => .rising | .falling => .falling | .both => .both | .high => .levelHigh
        | .low => .levelLow) := by
  cases n with
  | none => simpa [typeValue, flagIf, classOf] using d.classify_flags false false false false
  | rising => simpa [typeValue, flagIf, classOf] using d.classify_flags true false false false
  | falling => simpa [typeValue, flagIf, classOf] using d.classify_flags false true false false
  | both => simpa [typeValue, flagIf, classOf] using d.classify_flags true true false false
  | high => simpa [typeValue, flagIf, classOf] using d.classify_flags false false true false
  | low => simpa [typeValue, flagIf, classOf] using d.classify_flags false false false true

theorem classify_high_or_low : classify cfg (cfg.tLevelHigh ||| cfg.tLevelLow) = .levelLow := by
  simpa [flagIf, classOf] using d.classify_flags false false true true

end DistinctFlags

/-- The classes R171 lists for the general-knowledge flag values. -/
theorem classify_gkValues {cfg : Params} (hr : cfg.tRising = 0x01) (hf : cfg.tFalling = 0x02) (hh : cfg.tLevelHigh = 0x04)
    (hl : cfg.tLevelLow = 0x08) :
    [0x03, 0x01, 0x02, 0x04, 0x08, 0x0C, 0x00, 0x10, 0xF0, 0x05, 0x0B].map (classify cfg) =
      [.both, .rising, .falling, .levelHigh, .levelLow, .levelLow, .disabled, .disabled, .disabled, .rising, .both] := by
  simp only [List.map_cons, List.map_nil, classify, hr, hf, hh, hl]
  decide

/-- Settles O34: the four flags of a well-formed configuration are distinct bits, so the class is a function of which of them
the type carries. -/
theorem triggerTypesClassify : Obligations.TriggerTypesClassify := by
  intro cfg hw
  have d := distinctFlags_of_wellFormed hw
  refine ⟨?_, fun t => (d.classify_and_flags t).symm, classify_gkValues, d.classify_typeValue .none,
    d.classify_typeValue .rising, d.classify_typeValue .falling, d.classify_typeValue .both, d.classify_typeValue .high,
    d.classify_typeValue .low, d.classify_high_or_low, fun _ => d.classify_edges_or_levels⟩
  rintro t _ _ rfl rfl
  exact ⟨d.classify_eq_both_iff t, d.classify_eq_rising_iff t, d.classify_eq_falling_iff t, d.classify_eq_levelLow_iff t,
    d.classify_eq_levelHigh_iff t, d.classify_eq_disabled_iff t, isLevel_iff, d.and_edges_eq_zero_of_isLevel⟩

/-! ## The word SETTRIG writes (R172, R173) -/

/-- The INV bit lies outside the TRIG field (R7). -/
theorem invBit_not_in_trigField {cfg : Params} (h : cfg.wellFormed = true) :
    cfg.invBit.val ≠ cfg.trigShift.val ∧ cfg.invBit.val ≠ cfg.trigShift.val + 1 := by
  simp only [Params.wellFormed, Bool.and_eq_true, decide_eq_true_eq, List.nodup_cons, List.mem_cons, List.not_mem_nil,
    or_false, not_or] at h
  omega

theorem setTrigWord_trigField {cfg : Params} (hw : cfg.wellFormed = true) (v : Word) (t : BitVec 8) :
    (setTrigWord cfg v t).extractLsb' cfg.trigShift.val 2 = trigField cfg (classify cfg t) := by
  have hinv := invBit_not_in_trigField hw
  have hshift := cfg.trigShift.isLt
  apply BitVec.eq_of_getLsbD_eq
  intro j hj
  have field : cfg.trigShift.val ≤ cfg.trigShift.val + j ∧ cfg.trigShift.val + j < cfg.trigShift.val + 2 := by omega
  have not_inv : cfg.trigShift.val + j ≠ cfg.invBit.val := by omega
  rw [BitVec.getLsbD_extractLsb', getLsbD_setTrigWord _ _ _ _ (by omega), if_pos field]
  simp [hj, not_inv]

theorem setTrigWord_invBit {cfg : Params} (hw : cfg.wellFormed = true) (v : Word) (t : BitVec 8) :
    (setTrigWord cfg v t).getLsbD cfg.invBit.val = trigInvert (classify cfg t) := by
  have hinv := invBit_not_in_trigField hw
  rw [getLsbD_setTrigWord _ _ _ _ cfg.invBit.isLt, if_neg (by omega), if_pos rfl]

theorem setTrigWord_other (cfg : Params) (v : Word) (t : BitVec 8) {i : Nat} (h0 : i ≠ cfg.trigShift.val)
    (h1 : i ≠ cfg.trigShift.val + 1) (hinv : i ≠ cfg.invBit.val) :
    (setTrigWord cfg v t).getLsbD i = v.getLsbD i := by
  by_cases hi : i < 32
  · rw [getLsbD_setTrigWord _ _ _ _ hi, if_neg (by omega), if_neg hinv]
  · rw [BitVec.getLsbD_of_ge _ _ (by omega), BitVec.getLsbD_of_ge _ _ (by omega)]

/-- Settles O35: the field, the INV bit and the rest of the word, each read off the word's bits. -/
theorem triggerWordHasItsFields : Obligations.TriggerWordHasItsFields := by
  intro cfg v t hw
  rw [setTrigWord_trigField hw, setTrigWord_invBit hw]
  refine ⟨?_, ?_, fun i => setTrigWord_other cfg v t⟩
  · cases classify cfg t <;> rfl
  · cases classify cfg t <;> rfl

end Sys2Proof.Machine

/-! PROOFS. The allocation and the release of the context tables (43_context.md R211, R218). -/

namespace Sys2Proof.Machine

/-- A legal operation whose body is one update makes that update and answers OK. -/
theorem perform_update {i : Instr} {f : State → State} {s : State} (hw : i.wellFormed = true) (hl : legal i s = true) :
    perform i (done (M.update f)) s = .next (respond (Response.of .ok) (f (takeCommand (.command i) s))) :=
  perform_legal hw hl

/-! ## The rows of R99 -/

theorem legal_ctxinit_iff (s : State) : legal .ctxinit s = true ↔ s.lc = .started ∧ s.cs = .none := by
  simp [legal, legalLc, legalCs]

/-- CTXRELEASE admits a context in use, with or without a snapshot (R99). -/
theorem legal_ctxrelease_iff (s : State) : legal .ctxrelease s = true ↔ s.lc = .started ∧ s.cs ≠ .none := by
  cases hcs : s.cs <;> simp [legal, legalLc, legalCs, hcs]

/-! ## The operations -/

/-- CTXINIT fills the tables from the topology, which taking the command leaves as it was (R211). -/
theorem exec_ctxinit {s : State} (hlc : s.lc = .started) (hcs : s.cs = .none) :
    exec .ctxinit s = .next { answer s .ok 0 0 with
      cs := .idle
      pads := tableInit (pinsOf s.topo) Pad.zero
      ieShadow := s.topo.map fun c => c.groups.map fun _ => 0 } :=
  perform_update rfl ((legal_ctxinit_iff s).mpr ⟨hlc, hcs⟩)

/-- CTXRELEASE empties the tables, whatever they hold (R218). -/
theorem exec_ctxrelease {s : State} (hlc : s.lc = .started) (hcs : s.cs ≠ .none) :
    exec .ctxrelease s = .next { answer s .ok 0 0 with cs := .none, pads := [], ieShadow := [] } :=
  perform_update rfl ((legal_ctxrelease_iff s).mpr ⟨hlc, hcs⟩)

theorem exec_ctxinit_refused {s : State} (h : s.lc ≠ .started ∨ s.cs ≠ .none) :
    exec .ctxinit s = .next (answer s .stateRefused 0 0) :=
  exec_refused rfl (by rwa [← Bool.not_eq_true, legal_ctxinit_iff, not_and_or])

theorem exec_ctxrelease_refused {s : State} (h : s.lc ≠ .started ∨ s.cs = .none) :
    exec .ctxrelease s = .next (answer s .stateRefused 0 0) :=
  exec_refused rfl (by rwa [← Bool.not_eq_true, legal_ctxrelease_iff, not_and_or, not_ne_iff])

/-- Settles O47: where R99 admits the operation its one effect is its table update, elsewhere it is refused. -/
theorem contextTablesAreAllocatedAndReleased : Obligations.ContextTablesAreAllocatedAndReleased :=
  ⟨rfl, rfl, fun _ => ⟨exec_ctxinit, exec_ctxrelease, exec_ctxinit_refused, exec_ctxrelease_refused⟩⟩

end Sys2Proof.Machine

/-! PROOFS. The round trip of packets, the packets the spec writes out, and the layout of the port packets (30_encoding.md
R91 to R98). -/

namespace Sys2Proof.Machine

/-! ## The round trip (R91, R97) -/

/-- The fields of a well-formed operation decode to it: its format finds zero every field the operation does not use. -/
theorem decodeFields_fields {i : Instr} (h : i.wellFormed = true) : decodeFields i.fields = .ok i := by
  cases i with
  | build | start | stop | getstatus | dispatch | ctxinit | ctxsuspend | ctxresume | ctxrelease | pwroff | pwron =>
    exact formZ_ok.mpr ⟨rfl, rfl, rfl, rfl, rfl, rfl⟩
  | rescom _ | mappin _ | hostown _ | gpiomode _ | locked _ | enable _ | unregister _ | gettype _ | unregint _ | enint _
  | disint _ => exact formP_ok.mpr ⟨rfl, rfl, rfl, rfl, rfl⟩
  | resgrp _ _ => exact (formS_ok (f := fun pin ci => .resgrp ci pin)).mpr ⟨rfl, h, rfl, rfl, rfl⟩
  | regoff _ _ | settrig _ _ | maskunmask _ _ | settypeint _ _ => exact formS_ok.mpr ⟨rfl, h, rfl, rfl, rfl⟩
  | register _ _ _ _ | regint _ _ _ _ => exact formR_ok.mpr ⟨rfl, rfl⟩

/-- Settles O1: cutting the packet gives the operation's fields back, and these decode to it. -/
theorem decodeOfEncodeIsTheInstruction : Obligations.DecodeOfEncodeIsTheInstruction := by
  intro i hw
  rw [decode, encode, unpack_pack, decodeFields_fields hw]

/-- A format other than S admits every operand, and format S checks the selector itself (R92, R97). -/
theorem wellFormed_of_decodeFields {k : Fields} {i : Instr} (h : decodeFields k = .ok i) : i.wellFormed = true := by
  have hf := fields_of_decodeFields h
  have hd := decodeFields_decoding k
  generalize decodeFields k = r at hd h
  cases hd with
  | formatZ j code =>
    obtain ⟨-, -, -, h6, h22⟩ := codesZ_disjoint k.op code
    rw [wellFormed_iff_fields, hf]
    exact ⟨fun e => absurd e h6, fun e => absurd e h22⟩
  | formatP f code =>
    obtain ⟨-, -, -, h6, h22⟩ := codesP_disjoint k.op code
    rw [wellFormed_iff_fields, hf]
    exact ⟨fun e => absurd e h6, fun e => absurd e h22⟩
  | formatS f code =>
    obtain ⟨rfl, hw, -⟩ := formS_ok.mp h
    exact hw
  | formatR f code =>
    obtain ⟨-, -, -, h6, h22⟩ := codesR_disjoint k.op code
    rw [wellFormed_iff_fields, hf]
    exact ⟨fun e => absurd e h6, fun e => absurd e h22⟩
  | unassigned => cases h

/-- Settles O2: the fields that decode are those of the operation, and its format has checked the selector. -/
theorem encodeOfDecodeIsThePacket : Obligations.EncodeOfDecodeIsThePacket :=
  fun _ _ h => ⟨wellFormed_of_decodeFields h, encode_of_decode h⟩

/-- Settles O3: the decoder evaluated on each packet. -/
theorem specPacketsDecode : Obligations.SpecPacketsDecode :=
  ⟨rfl, rfl, rfl, rfl, rfl, rfl, rfl, rfl, rfl, rfl⟩

/-! ## Response and callback packets (R93, R94) -/

theorem response_pack_fields (r : Response) :
    r.pack.extractLsb' 0 8 = r.status.code ∧ r.pack.extractLsb' 8 8 = r.aux ∧ r.pack.extractLsb' 16 16 = r.pinf ∧
      r.pack.extractLsb' 32 32 = r.val := by
  simp (disch := decide) only [Response.pack, BitVec.extractLsb'_append_eq_of_le,
    BitVec.extractLsb'_append_eq_of_add_le, BitVec.extractLsb'_eq_self, Nat.reduceSub, and_self]

theorem callbackPacket_fields (sl : Slot) (p : Nat) :
    (callbackPacket sl p).extractLsb' 0 32 = sl.owner ∧ (callbackPacket sl p).extractLsb' 32 32 = sl.cb ∧
      (callbackPacket sl p).extractLsb' 64 32 = sl.ctx ∧ (callbackPacket sl p).extractLsb' 96 16 = fieldOf 16 p ∧
      (callbackPacket sl p).extractLsb' 112 16 = 0#16 := by
  simp (disch := decide) only [callbackPacket, BitVec.extractLsb'_append_eq_of_le,
    BitVec.extractLsb'_append_eq_of_add_le, BitVec.extractLsb'_eq_self, Nat.reduceSub, and_self]

theorem fieldOf_toNat {w n : Nat} (h : n < 2 ^ w) : (fieldOf w n).toNat = n := by
  rw [fieldOf_of_lt h, BitVec.toNat_ofNat, Nat.mod_eq_of_lt h]

/-- Settles O15: each field of a concatenation read at its place; the pin of 16 bits fits its field. -/
theorem portPacketsHaveTheirLayout : Obligations.PortPacketsHaveTheirLayout := by
  refine ⟨response_pack_fields, fun sl p hp => ?_⟩
  obtain ⟨howner, hcb, hctx, hpin, hzero⟩ := callbackPacket_fields sl p
  exact ⟨howner, hcb, hctx, by rw [hpin, fieldOf_toNat hp], hzero⟩

/-! ## The error log (R44) -/

/-- The count of the error log after one more entry: it saturates at 0xFFFF (R44). -/
theorem logErr_errCount_toNat (st : Status) (p : Nat) (s : State) :
    (logErr st p s).errCount.toNat = min (s.errCount.toNat + 1) 0xFFFF := by
  have hlt := s.errCount.isLt
  rw [logErr_errCount]
  split
  next h => simp [h]
  next h =>
    have hne : s.errCount.toNat ≠ 0xFFFF := fun e => h (BitVec.eq_of_toNat_eq e)
    rw [BitVec.toNat_add, show (1 : BitVec 16).toNat = 1 from rfl]
    omega

/-- Settles O16: the count saturates, and the rest is the definition of `LogErr`. -/
theorem errorLogSaturates : Obligations.ErrorLogSaturates :=
  fun s st p hp => ⟨logErr_errCount_toNat st p s, rfl, fieldOf_toNat hp, rfl⟩

end Sys2Proof.Machine

/-! PROOFS. Steps, the arbiter, notifications and the reset state (60_exceptions.md R252; 10_state.md R46, R50). -/

namespace Sys2Proof.Machine

/-- A step whose turn is the command port's runs the operation that the packet at its head decodes to (R252). -/
theorem step_of_decoded {s t : State} {pkt : Packet} {rest : List Packet} {i : Instr} (hs : s.seq = .idle)
    (hd : decode pkt = .ok i) (ha : arbitrate (envTick s) = (some .command, t)) (hc : t.cmds = pkt :: rest) :
    step s = exec i t := by
  have hf : fetch t = .ok i := by simp [fetch, hc, hd]
  simp only [step, hs, ha, hf]

/-- A step whose turn is the notification's runs a dispatch pass (R46, R252). -/
theorem step_of_pass {s t : State} (hs : s.seq = .idle) (ha : arbitrate (envTick s) = (some .pass, t)) :
    step s = .next (runPass t) := by
  simp only [step, hs, ha]

/-- A step with nothing waiting leaves what the outside moves left (R281). -/
theorem step_of_nothing {s t : State} (hs : s.seq = .idle) (ha : arbitrate (envTick s) = (none, t)) :
    step s = .next t := by
  simp only [step, hs, ha]

/-- Settles O5: a step is the arbiter's choice, then the decoder's. -/
theorem stepRunsTheDecodedInstruction : Obligations.StepRunsTheDecodedInstruction :=
  fun _ _ _ _ _ hs hd => ⟨step_of_decoded hs hd, fun hq hn hc => step_of_decoded hs hd (arbitrate_of_quiet hq hn hc) hc⟩

/-! ## The arbiter's choice with no outside move (R252, log 9) -/

theorem arbitrate_nothing {s : State} (hc : s.cmds = []) (hn : s.irqNotif = 0) : arbitrate s = (none, s) := by
  simp [arbitrate, hc, hn]

theorem arbitrate_notification {s : State} (hc : s.cmds = []) (hn : s.irqNotif ≠ 0) :
    arbitrate s = (some .pass, s) := by
  obtain ⟨n, hn⟩ := Nat.exists_eq_succ_of_ne_zero hn
  simp [arbitrate, hc, hn]

theorem arbitrate_both_scheduled {s : State} {pkt : Packet} {rest : List Packet} {t : Turn} {more : List Turn}
    (hc : s.cmds = pkt :: rest) (hn : s.irqNotif ≠ 0) (ha : s.arb = t :: more) :
    arbitrate s = (some t, { s with arb := more }) := by
  obtain ⟨n, hn⟩ := Nat.exists_eq_succ_of_ne_zero hn
  simp [arbitrate, hc, hn, ha]

theorem arbitrate_both_free {s : State} {pkt : Packet} {rest : List Packet} (hc : s.cmds = pkt :: rest)
    (hn : s.irqNotif ≠ 0) (ha : s.arb = []) :
    arbitrate s = (some (if Config.commandFirst s.free then .command else .pass), { s with free := s.free + 1 }) := by
  obtain ⟨n, hn⟩ := Nat.exists_eq_succ_of_ne_zero hn
  simp [arbitrate, hc, hn, ha]

/-- Settles O7: what waits decides the arbiter's turn, and its turn decides the step. -/
theorem theArbiterServesWhatWaits : Obligations.TheArbiterServesWhatWaits := by
  intro s hs hq
  have ht : envTick s = s := envTick_quiet hq
  refine ⟨fun hc hn => ?_, fun hc hn => ?_, fun pkt rest i hn hc hd => ⟨fun more hm => ?_, fun more hm => ?_, fun hm => ?_⟩⟩
  · exact step_of_pass hs (by rw [ht, arbitrate_notification hc hn])
  · exact step_of_nothing hs (by rw [ht, arbitrate_nothing hc hn])
  · exact step_of_decoded hs hd (by rw [ht, arbitrate_both_scheduled hc hn hm]) hc
  · exact step_of_pass hs (by rw [ht, arbitrate_both_scheduled hc hn hm])
  · have ha := arbitrate_both_free hc hn hm
    cases hf : Config.commandFirst s.free with
    | true => exact .inl (step_of_decoded hs hd (by rw [ht, ha, hf]; rfl) hc)
    | false => exact .inr (step_of_pass hs (by rw [ht, ha, hf]; rfl))

/-! ## Notifications (R46) -/

/-- Settles O8: the lifecycle, then the bound, decide whether a notification is counted. -/
theorem notificationsCountOnlyWhenStarted : Obligations.NotificationsCountOnlyWhenStarted := by
  intro s
  have hn : envMove s .notify = notifyInput s := rfl
  rw [hn, notifyInput]
  refine ⟨fun h => ?_, fun h hb => ?_, fun m h hb hm => ?_, fun m h hb hm => ?_⟩
  · rw [if_neg h]
  · rw [if_pos h, hb]
  · rw [if_pos h, hb]
    exact if_pos hm
  · rw [if_pos h, hb]
    exact if_neg (Nat.not_lt.mpr hm)

/-! ## The reset state (R50) -/

/-- Settles O10: both states are `State.resetOf` in every field named. -/
theorem resetInputGivesResetValues : Obligations.ResetInputGivesResetValues := by
  intro s t ht
  simp only [List.mem_cons, List.not_mem_nil, or_false] at ht
  rcases ht with rfl | rfl
  · exact ⟨rfl, rfl, rfl, rfl, rfl, rfl, rfl, rfl, rfl, rfl, rfl, rfl, rfl, rfl, rfl, rfl, fun _ => ⟨rfl, rfl⟩⟩
  · refine ⟨rfl, rfl, rfl, rfl, rfl, rfl, rfl, rfl, rfl, rfl, rfl, rfl, rfl, rfl, rfl, rfl, fun h => ?_⟩
    rw [h]
    exact ⟨rfl, rfl⟩

/-- In LC_RESET with nothing built and no table the tables agree, whatever else the state holds. -/
theorem tablesAgree_of_reset {s : State} (hlc : s.lc = .reset) (htopo : s.topo = []) (hslots : s.slots = [])
    (htrig : s.trig = []) (hcs : s.cs = .none) (hpads : s.pads = []) (hsh : s.ieShadow = []) : TablesAgree s := by
  refine ⟨fun _ => htopo, fun h => absurd hlc h, fun h => ?_, fun _ => ⟨?_, hslots, htrig, hcs⟩, fun _ => ⟨hpads, hsh⟩,
    fun h => absurd hcs h⟩
  · rw [hlc] at h
    cases h
  · simp [htopo]

/-- Settles O57: every table is empty at reset. -/
theorem resetMeetsTheInvariants : Obligations.ResetMeetsTheInvariants :=
  ⟨rfl, tablesAgree_of_reset rfl rfl rfl rfl rfl rfl rfl, fun _ h => absurd h List.not_mem_nil,
    fun _ h => absurd h List.not_mem_nil, rfl⟩

/-! ## Selectors no legal packet carries (R97, log 16) -/

theorem perform_illformed {i : Instr} {body : M Response} {s : State} (hw : i.wellFormed = false) :
    perform i body s = .next (answer s .illegalCommand 0 0) := by
  simp only [perform, hw, if_true]
  rfl

/-- Settles O13: a selector out of its range makes the operation ill formed. -/
theorem badSelectorsAreIllegal : Obligations.BadSelectorsAreIllegal := by
  intro s pin sel
  exact ⟨fun h => perform_illformed (decide_eq_false (Nat.not_lt.mpr h)),
    fun h => perform_illformed (decide_eq_false (Nat.not_lt.mpr h))⟩

end Sys2Proof.Machine

/-! PROOFS. The invariants that every step keeps, the reset input included (10_state.md R21 to R31, R51; 20_memory.md R77;
70_reset_and_hazards.md R280). -/

namespace Sys2Proof.Machine

variable {s t u : State}

/-! ## One step, request by request -/

/-- What the outside moves, the arbiter and every request keep, a step keeps (R252). -/
theorem step_keeps {K : State → Prop} (h : step s = .next t) (htick : K (envTick s))
    (harb : ∀ u a f, K u → K { u with arb := a, free := f }) (hpass : ∀ u, K u → K (runPass u))
    (hill : ∀ u, K u → K (runIllegal u)) (hexec : ∀ i u v, K u → exec i u = .next v → K v) : K t := by
  obtain ⟨-, a, f, u, rfl, h⟩ := step_cases h
  have hu := harb _ a f htick
  rcases h with rfl | rfl | rfl | ⟨i, h⟩
  · exact hu
  · exact hpass _ hu
  · exact hill _ hu
  · exact hexec i _ _ hu h

/-! ## The tables agree with the lifecycle and the context state -/

theorem TablesAgree.setSlot (h : TablesAgree t) (p : Nat) (sl : Slot) : TablesAgree (setSlot p sl t) := by
  obtain ⟨hreset, hbuilt, hstarted, hstopped, hnone, hctx⟩ := h
  refine ⟨hreset, hbuilt, fun hl => ?_, fun hl => ?_, hnone, hctx⟩
  · obtain ⟨hbases, hslots, hrest⟩ := hstarted hl
    exact ⟨hbases, (tableSet_keys _ _ _).trans hslots, hrest⟩
  · obtain ⟨hbases, hslots, hrest⟩ := hstopped hl
    exact ⟨hbases, by rw [setSlot_slots, hslots]; rfl, hrest⟩

theorem TablesAgree.setTrig (h : TablesAgree t) (p : Nat) (ty : BitVec 8) : TablesAgree (setTrig p ty t) := by
  obtain ⟨hreset, hbuilt, hstarted, hstopped, hnone, hctx⟩ := h
  refine ⟨hreset, hbuilt, fun hl => ?_, fun hl => ?_, hnone, hctx⟩
  · obtain ⟨hbases, hslots, htrig, hrest⟩ := hstarted hl
    exact ⟨hbases, hslots, (tableSet_keys _ _ _).trans htrig, hrest⟩
  · obtain ⟨hbases, hslots, htrig, hcs⟩ := hstopped hl
    exact ⟨hbases, hslots, by rw [setTrig_trig, htrig]; rfl, hcs⟩

theorem TablesAgree.setPad (h : TablesAgree t) (p : Nat) (f : Pad → Pad) : TablesAgree (setPad p f t) := by
  obtain ⟨hreset, hbuilt, hstarted, hstopped, hnone, hctx⟩ := h
  refine ⟨hreset, hbuilt, hstarted, hstopped, fun hc => ?_, fun hc => ?_⟩
  · obtain ⟨hpads, hsh⟩ := hnone hc
    exact ⟨by rw [setPad_pads, hpads]; rfl, hsh⟩
  · obtain ⟨hpads, hsh⟩ := hctx hc
    exact ⟨(tableSet_keys _ _ _).trans hpads, hsh⟩

/-- Writing one word of a table of rows keeps the rows' lengths (R31). -/
theorem map_length_modify_set {α : Type} (l : List (List α)) (ci gi : Nat) (v : α) :
    (l.modify ci fun row => row.set gi v).map List.length = l.map List.length := by
  apply List.ext_getElem?
  intro n
  simp only [List.getElem?_map, List.getElem?_modify]
  split <;> cases l[n]? <;> simp

theorem TablesAgree.setShadow (h : TablesAgree t) (ci gi : Nat) (v : Word) : TablesAgree (setShadow ci gi v t) := by
  obtain ⟨hreset, hbuilt, hstarted, hstopped, hnone, hctx⟩ := h
  refine ⟨hreset, hbuilt, hstarted, hstopped, fun hc => ?_, fun hc => ?_⟩
  · obtain ⟨hpads, hsh⟩ := hnone hc
    exact ⟨hpads, by rw [setShadow_ieShadow, hsh]; exact List.modify_nil _ _⟩
  · obtain ⟨hpads, hsh⟩ := hctx hc
    exact ⟨hpads, (map_length_modify_set _ _ _ _).trans hsh⟩

/-- A context in use exists in LC_STARTED only (R29). -/
theorem TablesAgree.started_of_context (h : TablesAgree t) (hc : t.cs ≠ .none) : t.lc = .started := by
  obtain ⟨-, -, -, hstopped, -⟩ := h
  by_contra hl
  exact hc (hstopped hl).2.2.2

/-- The context state may change between CS_IDLE and CS_SAVED. -/
theorem TablesAgree.setContext (h : TablesAgree t) (hc : t.cs ≠ .none) {cs : CtxState} (hcs : cs ≠ .none) :
    TablesAgree { t with cs := cs } := by
  have hl := h.started_of_context hc
  obtain ⟨hreset, hbuilt, hstarted, -, -, hctx⟩ := h
  exact ⟨hreset, hbuilt, hstarted, fun hn => absurd hl hn, fun hn => absurd hn hcs, fun _ => hctx hc⟩

theorem TablesAgree.ctxInitBody (h : TablesAgree t) (hl : t.lc = .started) : TablesAgree (ctxInitBody t) := by
  obtain ⟨hreset, hbuilt, hstarted, -⟩ := h
  refine ⟨hreset, hbuilt, hstarted, fun hn => absurd hl hn, nofun, fun _ => ⟨tableInit_keys _ _, ?_⟩⟩
  simp

theorem TablesAgree.ctxReleaseBody (h : TablesAgree t) : TablesAgree (ctxReleaseBody t) := by
  obtain ⟨hreset, hbuilt, hstarted, hstopped, -⟩ := h
  refine ⟨hreset, hbuilt, hstarted, fun hn => ?_, fun _ => ⟨rfl, rfl⟩, fun hn => absurd rfl hn⟩
  obtain ⟨hbases, hslots, htrig, -⟩ := hstopped hn
  exact ⟨hbases, hslots, htrig, rfl⟩

/-! ### BUILD, START, STOP -/

/-- BUILD leaves every configuration-array base unresolved (R25, R121). -/
theorem padRegsOff_of_buildTopo {ds : List CommunityDesc} {topo : List Community} (h : buildTopo ds = some topo) :
    ∀ c ∈ topo, c.padRegsOff = none := by
  induction ds generalizing topo with
  | nil => cases h; simp
  | cons d ds ih =>
    unfold buildTopo at h
    split at h
    · cases h
    · rename_i c hc
      obtain ⟨l, hl, rfl⟩ := Option.map_eq_some_iff.mp h
      obtain ⟨gs, -, rfl⟩ := Option.map_eq_some_iff.mp hc
      simpa using ih hl

/-- Forgetting the bases of a topology that has none changes nothing. -/
theorem map_padRegsOff_none {topo : List Community} (h : ∀ c ∈ topo, c.padRegsOff = none) :
    (topo.map fun c => { c with padRegsOff := none }) = topo := by
  refine (List.map_congr_left fun c hc => ?_).trans (List.map_id topo)
  rw [← h c hc]
  rfl

theorem TablesAgree.build (h : TablesAgree t) (hl : t.lc = .reset) {topo : List Community}
    (hb : buildTopo t.cfg.desc = some topo) : TablesAgree { t with topo := topo, lc := .built } := by
  obtain ⟨-, -, -, hstopped, hnone, -⟩ := h
  obtain ⟨-, hslots, htrig, hcs⟩ := hstopped (by rw [hl]; decide)
  have hbases := padRegsOff_of_buildTopo hb
  refine ⟨nofun, fun _ => ?_, nofun, fun _ => ⟨hbases, hslots, htrig, hcs⟩, hnone,
    fun hn => absurd hcs hn⟩
  rw [map_padRegsOff_none hbases]
  exact hb

section
variable {topo : List Community} {bases : List Word} (hlen : bases.length = topo.length)
include hlen

/-- Resolving the bases changes nothing else of a topology: a function blind to them sees the same list. -/
theorem map_resolve {α : Type} (f : Community → α) (hf : ∀ c b, f { c with padRegsOff := b } = f c) :
    (List.zipWith (fun c v => { c with padRegsOff := some v }) topo bases).map f = topo.map f := by
  induction topo generalizing bases with
  | nil => simp
  | cons c topo ih =>
    cases bases with
    | nil => simp at hlen
    | cons b bases =>
      rw [List.zipWith_cons_cons, List.map_cons, List.map_cons, ih (by simpa using hlen), hf]

theorem pinsOf_resolve :
    pinsOf (List.zipWith (fun c v => { c with padRegsOff := some v }) topo bases) = pinsOf topo := by
  simp only [pinsOf, List.flatMap_def]
  rw [map_resolve hlen Community.pins fun _ _ => rfl]

end

theorem resolved_of_mem {topo : List Community} {bases : List Word} :
    ∀ c ∈ List.zipWith (fun (c : Community) v => { c with padRegsOff := some v }) topo bases,
      c.padRegsOff.isSome = true := by
  induction topo generalizing bases with
  | nil => simp
  | cons c topo ih =>
    cases bases with
    | nil => simp
    | cons b bases => simpa using ih

theorem TablesAgree.start (h : TablesAgree t) (hl : t.lc = .built) {bases : List Word}
    (hlen : bases.length = t.topo.length) (hfit : tablesFit t.cfg t.topo = true) :
    TablesAgree { Machine.ctxInitBody (startTables bases t) with lc := .started } := by
  obtain ⟨-, hbuilt, -⟩ := h
  simp only [tablesFit, Bool.and_eq_true, decide_eq_true_eq] at hfit
  obtain ⟨hpins, hgroups⟩ := hfit
  refine ⟨nofun, fun _ => ?_, fun _ => ⟨resolved_of_mem, ?_, ?_, ?_, ?_⟩, fun hn => absurd rfl hn,
    nofun, fun _ => ⟨tableInit_keys _ _, ?_⟩⟩
  · rw [ctxInitBody_topo, startTables_topo, map_resolve hlen _ fun _ _ => rfl]
    exact hbuilt (by rw [hl]; decide)
  · rw [ctxInitBody_topo, startTables_topo, pinsOf_resolve hlen]
    exact tableInit_keys _ _
  · rw [ctxInitBody_topo, startTables_topo, pinsOf_resolve hlen]
    exact tableInit_keys _ _
  · rw [ctxInitBody_topo, startTables_topo, map_resolve hlen _ fun _ _ => rfl]
    exact hpins
  · rw [ctxInitBody_topo, startTables_topo, map_resolve hlen _ fun _ _ => rfl]
    exact hgroups
  · simp

/-- The context as STOP leaves it: none (R125, R218). -/
def released (s : State) : State := if s.cs = .none then s else ctxReleaseBody s

/-- STOP's release changes the context only, and leaves it empty where an empty context has no tables. -/
theorem released_eq (s : State) (h : s.cs = .none → s.pads = [] ∧ s.ieShadow = []) :
    released s = { s with cs := .none, pads := [], ieShadow := [] } := by
  unfold released
  split
  next hc =>
    obtain ⟨hpads, hsh⟩ := h hc
    cases s
    simp_all
  next => rfl

theorem TablesAgree.stop (h : TablesAgree t) (hl : t.lc = .started) : TablesAgree (stopTables (released t)) := by
  obtain ⟨-, hbuilt, -, -, hnone, -⟩ := h
  rw [released_eq t hnone]
  refine ⟨nofun, fun _ => ?_, nofun, fun _ => ⟨by simp, rfl, rfl, rfl⟩,
    fun _ => ⟨rfl, rfl⟩, fun hn => absurd rfl hn⟩
  rw [stopTables_cfg, stopTables_topo, List.map_map]
  exact hbuilt (by rw [hl]; decide)

/-! ### The closure argument -/

/-- What a step that starts in agreement ends with (R51, R252). -/
structure Settled (s t : State) : Prop where
  agree : TablesAgree t
  cfg : t.cfg = s.cfg
  idle : t.seq = .idle

/-- What operation `i`, started in `s`, keeps while it runs and changes no topology. -/
structure Running (i : Instr) (s t : State) : Prop where
  agree : TablesAgree t
  cfg : t.cfg = s.cfg
  topo : t.topo = s.topo
  lc : t.lc = s.lc
  init : i = .ctxinit → t.lc = .started
  context : takesSnapshot i = true ∨ restoresSnapshot i = true → t.cs ≠ .none

/-- The reset input among the outside moves leaves the reset state (R280). -/
theorem settled_of_reset (h : resetComing t = true) (hcfg : t.cfg = s.cfg) : Settled s (envTick t) := by
  obtain ⟨m, c, e⟩ := envTick_of_reset h
  rw [e]
  exact ⟨tablesAgree_of_reset rfl rfl rfl rfl rfl rfl rfl, hcfg, rfl⟩

theorem running_kept (i : Instr) (s : State) : Kept (Running i s) (Settled s) where
  fault _ h := ⟨h.agree, h.cfg, h.topo, h.lc, h.init, h.context⟩
  tick t h hr := by
    obtain ⟨m, n, c, e⟩ := envTick_of_noReset hr
    rw [e]
    exact ⟨h.agree, h.cfg, h.topo, h.lc, h.init, h.context⟩
  abandon _ h hr := settled_of_reset hr h.cfg
  read _ _ _ _ h := ⟨h.agree, h.cfg, h.topo, h.lc, h.init, h.context⟩
  log _ _ _ h := ⟨h.agree, h.cfg, h.topo, h.lc, h.init, h.context⟩
  free _ h := ⟨h.agree, h.cfg, h.topo, h.lc, h.init, h.context⟩
  stand _ _ h := ⟨h.agree, h.cfg, h.topo, h.lc, h.init, h.context⟩

theorem running_writes (i : Instr) (s : State) : Writes s.topo (Running i s) where
  topo _ h := h.topo
  write _ _ _ _ _ h := ⟨h.agree, h.cfg, h.topo, h.lc, h.init, h.context⟩

theorem Running.setSlot {i : Instr} (h : Running i s t) (p : Nat) (sl : Slot) : Running i s (setSlot p sl t) :=
  ⟨h.agree.setSlot p sl, h.cfg, h.topo, h.lc, h.init, h.context⟩

theorem Running.setTrig {i : Instr} (h : Running i s t) (p : Nat) (ty : BitVec 8) : Running i s (setTrig p ty t) :=
  ⟨h.agree.setTrig p ty, h.cfg, h.topo, h.lc, h.init, h.context⟩

theorem Running.setPad {i : Instr} (h : Running i s t) (p : Nat) (f : Pad → Pad) : Running i s (setPad p f t) :=
  ⟨h.agree.setPad p f, h.cfg, h.topo, h.lc, h.init, h.context⟩

theorem running_touches (i : Instr) (s : State) : Touches i (Running i s) where
  slot _ p sl _ h _ := h.setSlot p sl
  trig _ p ty _ h := h.setTrig p ty
  call _ _ _ h _ := ⟨h.agree, h.cfg, h.topo, h.lc, h.init, h.context⟩
  captured _ p _ _ h := h.setPad p _
  cfg0 _ p _ _ h := h.setPad p _
  cfg1 _ p _ _ h := h.setPad p _
  cfg2 _ p _ _ h := h.setPad p _
  shadow _ ci gi v _ h := ⟨h.agree.setShadow ci gi v, h.cfg, h.topo, h.lc, h.init, h.context⟩
  saved hi _ h := ⟨h.agree.setContext (h.context (.inl hi)) (by decide), h.cfg, h.topo, h.lc, h.init, fun _ => by simp⟩
  idle hi _ h := ⟨h.agree.setContext (h.context (.inr hi)) (by decide), h.cfg, h.topo, h.lc, h.init, fun _ => by simp⟩
  init hi _ h := ⟨h.agree.ctxInitBody (h.init hi), h.cfg, h.topo, h.lc, h.init, fun _ => by simp⟩
  release hi _ h := ⟨h.agree.ctxReleaseBody, h.cfg, h.topo, h.lc, h.init, fun hs => by subst hi; simp [takesSnapshot, restoresSnapshot] at hs⟩

/-- R99 gives an operation the lifecycle and the context that its body counts on. -/
theorem running_takeCommand {i : Instr} (h : TablesAgree s) (hl : legal i s = true) :
    Running i s (takeCommand (.command i) s) := by
  refine ⟨h, rfl, rfl, rfl, ?_, ?_⟩
  · rintro rfl
    exact ((legal_ctxinit_iff s).mp hl).1
  · intro hi hc
    rw [takeCommand_cs] at hc
    cases i with
    | ctxsuspend | ctxresume | pwroff | pwron => simp [legal, legalCs, hc] at hl
    | _ => simp [takesSnapshot, restoresSnapshot] at hi

theorem Running.settled {i : Instr} (h : Running i s t) (r : Response) : Settled s (respond r t) :=
  ⟨h.agree, h.cfg, rfl⟩

/-- Every operation keeps the tables in agreement. -/
theorem exec_settled {i : Instr} (ha : TablesAgree s) (h : exec i s = .next t) : Settled s t := by
  have hk := running_kept i s
  have hrefused : ∀ r, Settled s (respond r (takeCommand (.command i) s)) := fun r => ⟨ha, rfl, rfl⟩
  by_cases hi : changesTopology i = false
  · rcases exec_keeps hk (running_writes i s) (running_touches i s) hi (running_takeCommand ha) h with
      ⟨r, u, hu | rfl, rfl⟩ | hA
    · exact hu.settled r
    · exact hrefused r
    · exact hA
  · have hs : Running i s (takeCommand (.command i) s) := by
      refine ⟨ha, rfl, rfl, rfl, ?_, ?_⟩ <;> cases i <;> simp_all [changesTopology, takesSnapshot, restoresSnapshot]
    cases i with
    | build =>
      obtain ⟨r, u, rfl, rfl | ⟨hl, topo, hb, rfl⟩⟩ := exec_build_cases h
      · exact hrefused r
      · exact ⟨TablesAgree.build ha hl hb, rfl, rfl⟩
    | start =>
      rcases exec_start_cases hk hs h with ⟨r, u, rfl, hu | ⟨hl, bases, v, hv, hlen, hfit, rfl⟩⟩ | hA
      · exact hu.settled r
      · rw [← hv.topo] at hlen hfit
        exact ⟨hv.agree.start (hv.lc.trans hl) hlen hfit, hv.cfg, rfl⟩
      · exact hA
    | stop =>
      rcases exec_stop_cases hk (running_writes _ s) (fun p _ h => h.setSlot p _) (fun p _ h => h.setTrig p _) hs h with
        ⟨r, u, rfl, hu | ⟨hl, v, hv, rfl⟩⟩ | hA
      · exact hu.settled r
      · refine ⟨hv.agree.stop (hv.lc.trans hl), ?_, rfl⟩
        have hcfg : (if v.cs = .none then v else ctxReleaseBody v).cfg = v.cfg := by split <;> rfl
        exact hcfg.trans hv.cfg
      · exact hA
    | _ => exact absurd rfl hi

theorem runPass_settled (h : TablesAgree s) : Settled s (runPass s) := by
  have hs : Running .dispatch s (takePass s) :=
    ⟨h, rfl, rfl, rfl, nofun, fun hi => by simp [takesSnapshot, restoresSnapshot] at hi⟩
  rcases runPass_ends (dispatchBody_keeps (running_kept _ s) (running_writes _ s) ((running_touches _ s).call rfl) hs) with
    ⟨u, hu, e⟩ | hA
  · rw [e]
    exact ⟨hu.agree, hu.cfg, rfl⟩
  · exact hA

theorem envTick_settled (h : TablesAgree s) (hi : s.seq = .idle) : Settled s (envTick s) := by
  cases hr : resetComing s with
  | true => exact settled_of_reset hr rfl
  | false =>
    obtain ⟨m, n, c, e⟩ := envTick_of_noReset hr
    rw [e]
    exact ⟨h, rfl, hi⟩

/-- Settles O59: the outside moves, a pass and every operation keep the tables in agreement, and a request ends with the
sequencer idle. -/
theorem stepKeepsTheTablesInAgreement : Obligations.StepKeepsTheTablesInAgreement := by
  intro s t ha h
  have hend : Settled s t := by
    refine step_keeps h (envTick_settled ha (step_cases h).1) (fun u a f hu => ⟨hu.agree, hu.cfg, hu.idle⟩)
      (fun u hu => ?_) (fun u hu => ⟨hu.agree, hu.cfg, rfl⟩) (fun i u v hu hx => ?_)
    · have hp := runPass_settled hu.agree
      exact ⟨hp.agree, hp.cfg.trans hu.cfg, hp.idle⟩
    · have hx := exec_settled hu.agree hx
      exact ⟨hx.agree, hx.cfg.trans hu.cfg, hx.idle⟩
  exact ⟨hend.agree, hend.cfg, hend.idle⟩

end Sys2Proof.Machine

/-! PROOFS. The windows' canonical form, the shadows and the slots, step by step (20_memory.md R60; 10_state.md R26, R30). -/

namespace Sys2Proof.Machine

variable {s t u : State}

/-! ## The canonical form of the windows (log 3) -/

theorem memoryCanonical_envMove (h : MemoryCanonical s) (e : EnvMove) : MemoryCanonical (envMove s e) := by
  cases e with
  | pend ci gi bits =>
    unfold envMove
    simp only
    split
    · exact h
    · exact wf_storeWord _ _ _ _ _ h
  | rxState p level =>
    unfold envMove
    simp only
    split
    · exact h
    · exact wf_storeWord _ _ _ _ _ h
  | store w off v => exact wf_storeWord _ _ _ _ _ h
  | notify =>
    show MemoryCanonical (notifyInput s)
    unfold notifyInput
    repeat' split
    all_goals exact h
  | offer pkt => exact h
  | reset => exact h

theorem memoryCanonical_envTick (h : MemoryCanonical s) : MemoryCanonical (envTick s) := by
  unfold envTick
  split
  · exact h
  · rename_i batch rest _
    exact List.foldlRecOn (motive := MemoryCanonical) batch envMove h fun _ ht e _ => memoryCanonical_envMove ht e

/-- The windows are canonical and the topology is `T`. -/
def CanonicalOver (T : List Community) (s : State) : Prop := MemoryCanonical s ∧ s.topo = T

theorem canonicalOver_kept (T : List Community) : Kept (CanonicalOver T) MemoryCanonical where
  fault _ h := h
  tick t h hr := by
    obtain ⟨m, n, c, e⟩ := envTick_of_noReset hr
    refine ⟨memoryCanonical_envTick h.1, ?_⟩
    rw [e]
    exact h.2
  abandon _ h _ := memoryCanonical_envTick h.1
  read _ _ _ _ h := h
  log _ _ _ h := h
  free _ h := h
  stand _ _ h := h

theorem canonicalOver_writes (T : List Community) : Writes T (CanonicalOver T) where
  topo _ h := h.2
  write _ _ _ _ _ h := ⟨wf_padWrite _ _ _ _ _ h.1, h.2⟩

theorem canonicalOver_touches (i : Instr) (T : List Community) : Touches i (CanonicalOver T) where
  slot _ _ _ _ h _ := h
  trig _ _ _ _ h := h
  call _ _ _ h _ := h
  captured _ _ _ _ h := h
  cfg0 _ _ _ _ h := h
  cfg1 _ _ _ _ h := h
  cfg2 _ _ _ _ h := h
  shadow _ _ _ _ _ h := h
  saved _ _ h := h
  idle _ _ h := h
  init _ _ h := h
  release _ _ h := h

theorem released_mem (s : State) : (released s).mem = s.mem := by
  unfold released
  split <;> rfl

theorem exec_memoryCanonical {i : Instr} (hm : MemoryCanonical s) (h : exec i s = .next t) : MemoryCanonical t := by
  have hk := canonicalOver_kept s.topo
  have hs : CanonicalOver s.topo (takeCommand (.command i) s) := ⟨hm, rfl⟩
  by_cases hi : changesTopology i = false
  · rcases exec_keeps hk (canonicalOver_writes s.topo) (canonicalOver_touches i s.topo) hi (fun _ => hs) h with
      ⟨r, u, hu | rfl, rfl⟩ | hA
    · exact hu.1
    · exact hm
    · exact hA
  · cases i with
    | build =>
      obtain ⟨r, u, rfl, rfl | ⟨-, topo, -, rfl⟩⟩ := exec_build_cases h
      · exact hm
      · exact hm
    | start =>
      rcases exec_start_cases hk hs h with ⟨r, u, rfl, hu | ⟨-, bases, v, hv, -, -, rfl⟩⟩ | hA
      · exact hu.1
      · exact hv.1
      · exact hA
    | stop =>
      rcases exec_stop_cases hk (canonicalOver_writes s.topo) (fun _ _ h => h) (fun _ _ h => h) hs h with
        ⟨r, u, rfl, hu | ⟨-, v, hv, rfl⟩⟩ | hA
      · exact hu.1
      · have hmem : (released v).mem.wf = true := by rw [released_mem]; exact hv.1
        exact hmem
      · exact hA
    | _ => exact absurd rfl hi

theorem runPass_memoryCanonical (hm : MemoryCanonical s) : MemoryCanonical (runPass s) := by
  have hb := dispatchBody_keeps (canonicalOver_kept s.topo) (canonicalOver_writes s.topo)
    ((canonicalOver_touches .dispatch s.topo).call rfl) (s := takePass s) ⟨hm, rfl⟩
  rcases runPass_ends hb with ⟨u, hu, e⟩ | hA
  · rw [e]
    exact hu.1
  · exact hA

/-- Settles O58: every write of a word, the VGC's or an outside agent's, keeps the canonical form. -/
theorem stepKeepsTheMemoryCanonical : Obligations.StepKeepsTheMemoryCanonical := fun _ _ hm h =>
  step_keeps h (memoryCanonical_envTick hm) (fun _ _ _ hu => hu) (fun _ => runPass_memoryCanonical) (fun _ hu => hu)
    fun _ _ _ => exec_memoryCanonical

/-! ## The shadows and the slots -/

/-- An entry of a table after a write is an old one or has the value written. -/
theorem mem_tableSet {α : Type} {tb : Table α} {p : Nat} {x : α} {e : Nat × α} (h : e ∈ tableSet tb p x) :
    e ∈ tb ∨ e.2 = x := by
  obtain ⟨e', he', rfl⟩ := List.mem_map.mp h
  split
  · exact .inr rfl
  · exact .inl he'

theorem mem_tableInit {α : Type} {ps : List Nat} {x : α} {e : Nat × α} (h : e ∈ tableInit ps x) : e.2 = x := by
  obtain ⟨p, -, rfl⟩ := List.mem_map.mp h
  rfl

/-- The shadow of a pin is free of the live-state bit: an entry of the table, or the zero shadow. -/
theorem ShadowsClean.padOf (h : ShadowsClean s) (p : Nat) : (padOf s p).cfg0.getLsbD s.cfg.rxStateBit.val = false := by
  unfold Machine.padOf
  cases hp : tableGet s.pads p with
  | none => simp [Pad.zero]
  | some e => exact h _ (tableGet_mem _ _ _ hp)

theorem ShadowsClean.setPad (h : ShadowsClean s) (p : Nat) (f : Pad → Pad)
    (hf : (f (Machine.padOf s p)).cfg0.getLsbD s.cfg.rxStateBit.val = false) : ShadowsClean (setPad p f s) := by
  intro e he
  rcases mem_tableSet he with he | he
  · exact h e he
  · rw [he]
    exact hf

theorem getLsbD_clearRxState (cfg : Params) (v : Word) (i : Nat) :
    (clearRxState cfg v).getLsbD i = (v.getLsbD i && !decide (i = cfg.rxStateBit.val)) := by
  unfold clearRxState
  by_cases hi : i < 32
  · rw [BitVec.getLsbD_and, BitVec.getLsbD_not, getLsbD_bit]
    simp only [hi, decide_true, Bool.true_and]
  · rw [BitVec.getLsbD_of_ge _ _ (by omega), BitVec.getLsbD_of_ge _ _ (by omega)]
    rfl

theorem clearRxState_rxState (cfg : Params) (v : Word) :
    (clearRxState cfg v).getLsbD cfg.rxStateBit.val = false := by
  rw [getLsbD_clearRxState, decide_eq_true rfl, Bool.not_true, Bool.and_false]

theorem FreeSlotsEmpty.setSlot (h : FreeSlotsEmpty s) (p : Nat) {sl : Slot} (hsl : sl.valid = false → sl = Slot.free) :
    FreeSlotsEmpty (setSlot p sl s) := by
  intro e he hv
  rcases mem_tableSet he with he | he
  · exact h e he hv
  · rw [he] at hv ⊢
    exact hsl hv

/-- The shadows and the free slots are clean. -/
structure Clean (s : State) : Prop where
  shadows : ShadowsClean s
  slots : FreeSlotsEmpty s

/-- Empty tables are clean. -/
theorem clean_of_empty (hpads : s.pads = []) (hslots : s.slots = []) : Clean s := by
  refine ⟨fun e he => ?_, fun e he => ?_⟩
  · rw [hpads] at he
    exact absurd he List.not_mem_nil
  · rw [hslots] at he
    exact absurd he List.not_mem_nil

theorem clean_of_reset (hr : resetComing s = true) : Clean (envTick s) := by
  obtain ⟨m, c, e⟩ := envTick_of_reset hr
  rw [e]
  exact clean_of_empty rfl rfl

theorem clean_envTick (h : Clean s) : Clean (envTick s) := by
  cases hr : resetComing s with
  | true => exact clean_of_reset hr
  | false =>
    obtain ⟨m, n, c, e⟩ := envTick_of_noReset hr
    rw [e]
    exact ⟨h.shadows, h.slots⟩

/-- The tables are clean and the topology is `T`. -/
structure CleanOver (T : List Community) (s : State) : Prop where
  shadows : ShadowsClean s
  slots : FreeSlotsEmpty s
  topo : s.topo = T

theorem CleanOver.clean {T : List Community} (h : CleanOver T s) : Clean s := ⟨h.shadows, h.slots⟩

theorem cleanOver_kept (T : List Community) : Kept (CleanOver T) Clean where
  fault _ h := ⟨h.shadows, h.slots, h.topo⟩
  tick t h hr := by
    obtain ⟨m, n, c, e⟩ := envTick_of_noReset hr
    rw [e]
    exact ⟨h.shadows, h.slots, h.topo⟩
  abandon _ _ hr := clean_of_reset hr
  read _ _ _ _ h := ⟨h.shadows, h.slots, h.topo⟩
  log _ _ _ h := ⟨h.shadows, h.slots, h.topo⟩
  free _ h := ⟨h.shadows, h.slots, h.topo⟩
  stand _ _ h := ⟨h.shadows, h.slots, h.topo⟩

theorem cleanOver_writes (T : List Community) : Writes T (CleanOver T) where
  topo _ h := h.topo
  write _ _ _ _ _ h := ⟨h.shadows, h.slots, h.topo⟩

theorem cleanOver_touches (i : Instr) (T : List Community) : Touches i (CleanOver T) where
  slot _ p _ _ h hsl := ⟨h.shadows, h.slots.setSlot p hsl, h.topo⟩
  trig _ _ _ _ h := ⟨h.shadows, h.slots, h.topo⟩
  call _ _ _ h _ := ⟨h.shadows, h.slots, h.topo⟩
  captured _ p _ _ h := ⟨h.shadows.setPad p _ (h.shadows.padOf p), h.slots, h.topo⟩
  cfg0 _ p v _ h := ⟨h.shadows.setPad p _ (clearRxState_rxState _ v), h.slots, h.topo⟩
  cfg1 _ p _ _ h := ⟨h.shadows.setPad p _ (h.shadows.padOf p), h.slots, h.topo⟩
  cfg2 _ p _ _ h := ⟨h.shadows.setPad p _ (h.shadows.padOf p), h.slots, h.topo⟩
  shadow _ _ _ _ _ h := ⟨h.shadows, h.slots, h.topo⟩
  saved _ _ h := ⟨h.shadows, h.slots, h.topo⟩
  idle _ _ h := ⟨h.shadows, h.slots, h.topo⟩
  init _ _ h := ⟨fun e he => by simp [mem_tableInit he, Pad.zero], h.slots, h.topo⟩
  release _ _ h := ⟨nofun, h.slots, h.topo⟩

theorem exec_clean {i : Instr} (hc : Clean s) (h : exec i s = .next t) : Clean t := by
  have hk := cleanOver_kept s.topo
  have hs : CleanOver s.topo (takeCommand (.command i) s) := ⟨hc.shadows, hc.slots, rfl⟩
  have hrefused : ∀ r, Clean (respond r (takeCommand (.command i) s)) := fun r => ⟨hc.shadows, hc.slots⟩
  by_cases hi : changesTopology i = false
  · rcases exec_keeps hk (cleanOver_writes s.topo) (cleanOver_touches i s.topo) hi (fun _ => hs) h with
      ⟨r, u, hu | rfl, rfl⟩ | hA
    · exact ⟨hu.shadows, hu.slots⟩
    · exact hrefused r
    · exact hA
  · cases i with
    | build =>
      obtain ⟨r, u, rfl, rfl | ⟨-, topo, -, rfl⟩⟩ := exec_build_cases h
      · exact hrefused r
      · exact ⟨hc.shadows, hc.slots⟩
    | start =>
      rcases exec_start_cases hk hs h with ⟨r, u, rfl, hu | ⟨-, bases, v, hv, -, -, rfl⟩⟩ | hA
      · exact ⟨hu.shadows, hu.slots⟩
      · exact ⟨fun e he => by simp [mem_tableInit he, Pad.zero], fun e he _ => mem_tableInit he⟩
      · exact hA
    | stop =>
      rcases exec_stop_cases hk (cleanOver_writes s.topo) (fun p _ h => ⟨h.shadows, h.slots.setSlot p fun _ => rfl, h.topo⟩)
        (fun _ _ h => ⟨h.shadows, h.slots, h.topo⟩) hs h with ⟨r, u, rfl, hu | ⟨-, v, hv, rfl⟩⟩ | hA
      · exact ⟨hu.shadows, hu.slots⟩
      · refine ⟨?_, nofun⟩
        split
        · exact hv.shadows
        · exact nofun
      · exact hA
    | _ => exact absurd rfl hi

theorem runPass_clean (hc : Clean s) : Clean (runPass s) := by
  have hb := dispatchBody_keeps (cleanOver_kept s.topo) (cleanOver_writes s.topo)
    ((cleanOver_touches .dispatch s.topo).call rfl) (s := takePass s) ⟨hc.shadows, hc.slots, rfl⟩
  rcases runPass_ends hb with ⟨u, hu, e⟩ | hA
  · rw [e]
    exact ⟨hu.shadows, hu.slots⟩
  · exact hA

/-- Settles O60: a shadow is written without the live-state bit, and a slot is freed by emptying it. -/
theorem stepKeepsShadowsAndSlotsClean : Obligations.StepKeepsShadowsAndSlotsClean := by
  intro s t hsh hsl h
  have hend : Clean t :=
    step_keeps h (clean_envTick ⟨hsh, hsl⟩) (fun _ _ _ hu => ⟨hu.shadows, hu.slots⟩) (fun _ => runPass_clean)
      (fun _ hu => ⟨hu.shadows, hu.slots⟩) fun _ _ _ => exec_clean
  exact ⟨hend.shadows, hend.slots⟩

end Sys2Proof.Machine

/-! PROOFS. What every operation keeps in every environment short of a reset: one frame of the state, closed under whatever an
operation does, and the ends of BUILD, START and STOP beside it (60_exceptions.md R252; 20_memory.md R77). -/

namespace Sys2Proof.Machine

variable {s t u : State} {i : Instr}

/-! ## The frame of an operation -/

/-- The moves of the context state that an operation may make, START and STOP apart (R29). -/
def ContextMove (i : Instr) (cs cs' : CtxState) : Prop :=
  cs' = cs ∨ (i = .ctxinit ∧ cs = .none ∧ cs' = .idle) ∨
    ((i = .ctxsuspend ∨ i = .pwroff) ∧ cs ≠ .none ∧ cs' = .saved) ∨
    ((i = .ctxresume ∨ i = .pwron) ∧ cs = .saved ∧ cs' = .idle) ∨ (i = .ctxrelease ∧ cs ≠ .none ∧ cs' = .none)

/-- The packets `l` are callbacks of slots that are valid in `s`, and only DISPATCH has any (R256). -/
def CalledBack (i : Instr) (s : State) (l : List Packet) : Prop :=
  (∀ pkt ∈ l, ∃ p, (slotOf s p).valid = true ∧ pkt = callbackPacket (slotOf s p) p) ∧ (i ≠ .dispatch → l = [])

/-- The writes among the transactions `l` go to registers that an operation may write (R259). -/
def WritesWithin (T : List Community) (l : List BusAccess) : Prop :=
  ∀ w off v, BusAccess.write w off v ∈ l → (w, off) ∈ writableRegs T

/-- What operation `i`, started in `s`, has kept when it has come to `t` without changing the topology. -/
structure RunFrame (i : Instr) (s t : State) : Prop where
  cfg : t.cfg = s.cfg
  fault : s.busFault = true → t.busFault = true
  lc : t.lc = s.lc
  topo : t.topo = s.topo
  slots : writesSlots i = false → i ≠ .stop → t.slots = s.slots
  trig : writesTrig i = false → i ≠ .stop → t.trig = s.trig
  shadows : takesSnapshot i = false → i ≠ .ctxinit → i ≠ .ctxrelease → t.pads = s.pads ∧ t.ieShadow = s.ieShadow
  resp : t.resp = s.resp
  cs : ContextMove i s.cs t.cs
  calls : ∃ l, t.calls = s.calls ++ l ∧ CalledBack i s l
  bus : ∃ l, t.bus = s.bus ++ l ∧ WritesWithin s.topo l

/-- The operation is legal where it started; a pass has no such check (R12). -/
def Admitted (i : Instr) (s : State) : Prop := i ≠ .dispatch → legal i s = true

theorem RunFrame.record (h : RunFrame i s t) (a : BusAccess) (m : Memory)
    (ha : ∀ w off v, a = .write w off v → (w, off) ∈ writableRegs s.topo) :
    RunFrame i s (record a { t with mem := m }) := by
  obtain ⟨l, hl, hin⟩ := h.bus
  refine ⟨h.cfg, h.fault, h.lc, h.topo, h.slots, h.trig, h.shadows, h.resp, h.cs, h.calls, l ++ [a], ?_, ?_⟩
  · rw [record_bus, hl, List.append_assoc]
  · intro w off v hm
    rcases List.mem_append.mp hm with hm | hm
    · exact hin w off v hm
    · exact ha w off v (List.mem_singleton.mp hm).symm

theorem RunFrame.emitCallback (h : RunFrame i s t) (hi : i = .dispatch) (p : Nat) (hv : (slotOf t p).valid = true) :
    RunFrame i s (emitCallback (slotOf t p) p t) := by
  subst hi
  obtain ⟨l, hl, hin, -⟩ := h.calls
  have hslot : slotOf t p = slotOf s p := by
    unfold slotOf
    rw [h.slots rfl (by decide)]
  refine ⟨h.cfg, h.fault, h.lc, h.topo, h.slots, h.trig, h.shadows, h.resp, h.cs,
    ⟨l ++ [callbackPacket (slotOf t p) p], ?_, ?_, fun hn => absurd rfl hn⟩, h.bus⟩
  · rw [emitCallback_calls, hl, List.append_assoc]
  · intro pkt hm
    rcases List.mem_append.mp hm with hm | hm
    · exact hin pkt hm
    · rw [List.mem_singleton.mp hm]
      exact ⟨p, by rw [← hslot]; exact hv, by rw [hslot]⟩

theorem runFrame_kept (i : Instr) (s : State) :
    Kept (fun t => (RunFrame i s t ∧ Admitted i s) ∧ NoReset t) fun _ => False :=
  kept_of_noReset
    (fun _ h _ _ _ _ => ⟨{ h.1 with }, h.2⟩)
    (fun _ h => ⟨{ h.1 with fault := fun _ => rfl }, h.2⟩)
    (fun _ _ _ t h => ⟨h.1.record _ t.mem nofun, h.2⟩)
    (fun _ _ _ h => ⟨{ h.1 with }, h.2⟩)
    (fun _ h => ⟨{ h.1 with }, h.2⟩)
    (fun _ h _ => ⟨{ h.1 with }, h.2⟩)

theorem runFrame_writes (i : Instr) (s : State) :
    Writes s.topo (fun t => (RunFrame i s t ∧ Admitted i s) ∧ NoReset t) where
  topo _ h := h.1.1.topo
  write w off v t hm h := by
    refine ⟨⟨h.1.1.record _ (putWord w off v t).mem ?_, h.1.2⟩, h.2⟩
    intro w' off' v' e
    cases e
    exact hm

theorem runFrame_touches (i : Instr) (s : State) :
    Touches i (fun t => (RunFrame i s t ∧ Admitted i s) ∧ NoReset t) where
  slot hi _ _ _ h _ := ⟨⟨{ h.1.1 with slots := fun hn => by rw [hi] at hn; cases hn }, h.1.2⟩, h.2⟩
  trig hi _ _ _ h := ⟨⟨{ h.1.1 with trig := fun hn => by rw [hi] at hn; cases hn }, h.1.2⟩, h.2⟩
  call hi p _ h hv := ⟨⟨h.1.1.emitCallback hi p hv, h.1.2⟩, h.2⟩
  captured hi _ _ _ h := ⟨⟨{ h.1.1 with shadows := fun hn => by rw [hi] at hn; cases hn }, h.1.2⟩, h.2⟩
  cfg0 hi _ _ _ h := ⟨⟨{ h.1.1 with shadows := fun hn => by rw [hi] at hn; cases hn }, h.1.2⟩, h.2⟩
  cfg1 hi _ _ _ h := ⟨⟨{ h.1.1 with shadows := fun hn => by rw [hi] at hn; cases hn }, h.1.2⟩, h.2⟩
  cfg2 hi _ _ _ h := ⟨⟨{ h.1.1 with shadows := fun hn => by rw [hi] at hn; cases hn }, h.1.2⟩, h.2⟩
  shadow hi _ _ _ _ h := ⟨⟨{ h.1.1 with shadows := fun hn => by rw [hi] at hn; cases hn }, h.1.2⟩, h.2⟩
  saved hi t h := by
    refine ⟨⟨{ h.1.1 with cs := .inr (.inr (.inl ?_)) }, h.1.2⟩, h.2⟩
    have hl := h.1.2
    cases i with
    | ctxsuspend | pwroff =>
      refine ⟨by simp, fun hc => ?_, rfl⟩
      simp [Admitted, legal, legalCs, hc] at hl
    | _ => simp [takesSnapshot] at hi
  idle hi t h := by
    refine ⟨⟨{ h.1.1 with cs := .inr (.inr (.inr (.inl ?_))) }, h.1.2⟩, h.2⟩
    have hl := h.1.2
    cases i with
    | ctxresume | pwron =>
      simp only [Admitted, legal, legalCs, Bool.and_eq_true, decide_eq_true_eq] at hl
      exact ⟨by simp, (hl nofun).2, rfl⟩
    | _ => simp [restoresSnapshot] at hi
  init hi t h := by
    subst hi
    obtain ⟨-, hcs⟩ := (legal_ctxinit_iff s).mp (h.1.2 nofun)
    exact ⟨⟨{ h.1.1 with shadows := fun _ hn => absurd rfl hn, cs := .inr (.inl ⟨rfl, hcs, rfl⟩) }, h.1.2⟩, h.2⟩
  release hi t h := by
    subst hi
    obtain ⟨-, hcs⟩ := (legal_ctxrelease_iff s).mp (h.1.2 nofun)
    exact ⟨⟨{ h.1.1 with shadows := fun _ _ hn => absurd rfl hn, cs := .inr (.inr (.inr (.inr ⟨rfl, hcs, rfl⟩))) }, h.1.2⟩, h.2⟩

/-- The frame holds of every state that differs from the start in the packets waiting, the notifications and the sequencer. -/
theorem RunFrame.refl (i : Instr) (s : State) (n : Nat) (c : List Packet) (q : Sequencer) :
    RunFrame i s { s with irqNotif := n, cmds := c, seq := q } :=
  ⟨rfl, id, rfl, rfl, fun _ _ => rfl, fun _ _ => rfl, fun _ _ _ => ⟨rfl, rfl⟩, rfl, .inl rfl,
    ⟨[], (List.append_nil _).symm, nofun, fun _ => rfl⟩, [], (List.append_nil _).symm, nofun⟩

theorem runFrame_takeCommand (i : Instr) (s : State) : RunFrame i s (takeCommand (.command i) s) :=
  RunFrame.refl i s s.irqNotif s.cmds.tail _

/-! ## How an operation ends -/

/-- How operation `i`, started in `s`, ends but for its response: in its frame, or with the topology that BUILD made, the tables
that START set, or the tables that STOP emptied. -/
inductive RunEnd (s : State) : Instr → State → Prop where
  | framed {i : Instr} {u : State} (h : RunFrame i s u) : RunEnd s i u
  | built (topo : List Community) (hl : s.lc = .reset) :
      RunEnd s .build { takeCommand (.command .build) s with topo := topo, lc := .built }
  | started (bases : List Word) {v : State} (hl : s.lc = .built) (h : RunFrame .start s v) :
      RunEnd s .start { ctxInitBody (startTables bases v) with lc := .started }
  | stopped {v : State} (hl : s.lc = .started) (h : RunFrame .stop s v) : RunEnd s .stop (stopTables (released v))

/-- Every operation ends with one response after one of these ends. -/
theorem exec_runEnd (hn : NoReset s) (h : exec i s = .next t) : ∃ r u, RunEnd s i u ∧ t = respond r u := by
  have hk := runFrame_kept i s
  have hw := runFrame_writes i s
  by_cases hi : changesTopology i = false
  · have hs : legal i s = true → (RunFrame i s (takeCommand (.command i) s) ∧ Admitted i s) ∧ NoReset _ :=
      fun hl => ⟨⟨runFrame_takeCommand i s, fun _ => hl⟩, hn⟩
    rcases exec_keeps hk hw (runFrame_touches i s) hi hs h with ⟨r, u, hu | rfl, rfl⟩ | hA
    · exact ⟨r, u, .framed hu.1.1, rfl⟩
    · exact ⟨r, _, .framed (runFrame_takeCommand i s), rfl⟩
    · exact hA.elim
  · cases i with
    | build =>
      obtain ⟨r, u, rfl, rfl | ⟨hl, topo, -, rfl⟩⟩ := exec_build_cases h
      · exact ⟨r, _, .framed (runFrame_takeCommand _ s), rfl⟩
      · exact ⟨r, _, .built topo hl, rfl⟩
    | start =>
      by_cases hl : legal .start s = true
      · rcases exec_start_cases hk ⟨⟨runFrame_takeCommand _ s, fun _ => hl⟩, hn⟩ h with
          ⟨r, u, rfl, hu | ⟨hb, bases, v, hv, -, -, rfl⟩⟩ | hA
        · exact ⟨r, u, .framed hu.1.1, rfl⟩
        · exact ⟨r, _, .started bases hb hv.1.1, rfl⟩
        · exact hA.elim
      · rw [exec_refused rfl (Bool.not_eq_true _ ▸ hl)] at h
        cases h
        exact ⟨_, _, .framed (runFrame_takeCommand _ s), rfl⟩
    | stop =>
      by_cases hl : legal .stop s = true
      · rcases exec_stop_cases hk hw (fun _ _ h => ⟨⟨{ h.1.1 with slots := fun _ hn => absurd rfl hn }, h.1.2⟩, h.2⟩)
          (fun _ _ h => ⟨⟨{ h.1.1 with trig := fun _ hn => absurd rfl hn }, h.1.2⟩, h.2⟩)
          ⟨⟨runFrame_takeCommand _ s, fun _ => hl⟩, hn⟩ h with ⟨r, u, rfl, hu | ⟨hb, v, hv, rfl⟩⟩ | hA
        · exact ⟨r, u, .framed hu.1.1, rfl⟩
        · exact ⟨r, _, .stopped hb hv.1.1, rfl⟩
        · exact hA.elim
      · rw [exec_refused rfl (Bool.not_eq_true _ ▸ hl)] at h
        cases h
        exact ⟨_, _, .framed (runFrame_takeCommand _ s), rfl⟩
    | _ => exact absurd rfl hi

/-- A pass ends in the frame of DISPATCH (R46, R186). -/
theorem runPass_runFrame (hn : NoReset s) : ∃ u, RunFrame .dispatch s u ∧ runPass s = { u with seq := .idle } := by
  have hs : (RunFrame .dispatch s (takePass s) ∧ Admitted .dispatch s) ∧ NoReset (takePass s) :=
    ⟨⟨RunFrame.refl .dispatch s (s.irqNotif - 1) s.cmds _, fun hd => absurd rfl hd⟩, hn⟩
  have hb := dispatchBody_keeps (runFrame_kept .dispatch s) (runFrame_writes .dispatch s)
    ((runFrame_touches .dispatch s).call rfl) hs
  rcases runPass_ends hb with ⟨u, hu, e⟩ | hA
  · exact ⟨u, hu.1.1, e⟩
  · exact hA.elim

/-! ### What STOP's release keeps -/

theorem released_cs (s : State) : (released s).cs = .none := by
  unfold released
  split
  · assumption
  · rfl

theorem released_frame (s : State) :
    (released s).cfg = s.cfg ∧ (released s).busFault = s.busFault ∧ (released s).resp = s.resp ∧
      (released s).calls = s.calls ∧ (released s).bus = s.bus := by
  unfold released
  split <;> exact ⟨rfl, rfl, rfl, rfl, rfl⟩

/-! ## The ends, field by field -/

namespace RunEnd

theorem cfg (h : RunEnd s i u) : u.cfg = s.cfg := by
  cases h with
  | framed h => exact h.cfg
  | built topo hl => rfl
  | started bases hl h => exact h.cfg
  | stopped hl h => exact (released_frame _).1.trans h.cfg

theorem fault (h : RunEnd s i u) (hf : s.busFault = true) : u.busFault = true := by
  cases h with
  | framed h => exact h.fault hf
  | built topo hl => exact hf
  | started bases hl h => exact h.fault hf
  | stopped hl h => exact (released_frame _).2.1.trans (h.fault hf)

theorem resp (h : RunEnd s i u) : u.resp = s.resp := by
  cases h with
  | framed h => exact h.resp
  | built topo hl => rfl
  | started bases hl h => exact h.resp
  | stopped hl h => exact (released_frame _).2.2.1.trans h.resp

theorem calls (h : RunEnd s i u) : ∃ l, u.calls = s.calls ++ l ∧ CalledBack i s l := by
  cases h with
  | framed h => exact h.calls
  | built topo hl => exact ⟨[], (List.append_nil _).symm, nofun, fun _ => rfl⟩
  | started bases hl h => exact h.calls
  | stopped hl h =>
    rw [stopTables_calls, (released_frame _).2.2.2.1]
    exact h.calls

theorem bus (h : RunEnd s i u) : ∃ l, u.bus = s.bus ++ l ∧ WritesWithin s.topo l := by
  cases h with
  | framed h => exact h.bus
  | built topo hl => exact ⟨[], (List.append_nil _).symm, nofun⟩
  | started bases hl h => exact h.bus
  | stopped hl h =>
    rw [stopTables_bus, (released_frame _).2.2.2.2]
    exact h.bus

theorem lc (h : RunEnd s i u) :
    u.lc = s.lc ∨ (i = .build ∧ s.lc = .reset ∧ u.lc = .built) ∨ (i = .start ∧ s.lc = .built ∧ u.lc = .started) ∨
      (i = .stop ∧ s.lc = .started ∧ u.lc = .built) := by
  cases h with
  | framed h => exact .inl h.lc
  | built topo hl => exact .inr (.inl ⟨rfl, hl, rfl⟩)
  | started bases hl h => exact .inr (.inr (.inl ⟨rfl, hl, rfl⟩))
  | stopped hl h => exact .inr (.inr (.inr ⟨rfl, hl, rfl⟩))

theorem cs (h : RunEnd s i u) :
    ContextMove i s.cs u.cs ∨ (i = .start ∧ u.cs = .idle) ∨ (i = .stop ∧ u.cs = .none) := by
  cases h with
  | framed h => exact .inl h.cs
  | built topo hl => exact .inl (.inl rfl)
  | started bases hl h => exact .inr (.inl ⟨rfl, rfl⟩)
  | stopped hl h => exact .inr (.inr ⟨rfl, released_cs _⟩)

/-- Apart from BUILD, START and STOP an operation ends in its frame. -/
theorem frame (h : RunEnd s i u) (hi : i ≠ .build) (hs : i ≠ .start) (hp : i ≠ .stop) : RunFrame i s u := by
  cases h with
  | framed h => exact h
  | built topo hl => exact absurd rfl hi
  | started bases hl h => exact absurd rfl hs
  | stopped hl h => exact absurd rfl hp

/-- BUILD writes no table of pins. -/
theorem slots (h : RunEnd s i u) (hw : writesSlots i = false) (hs : i ≠ .start) (hp : i ≠ .stop) : u.slots = s.slots := by
  cases h with
  | framed h => exact h.slots hw hp
  | built topo hl => rfl
  | started bases hl h => exact absurd rfl hs
  | stopped hl h => exact absurd rfl hp

theorem trig (h : RunEnd s i u) (hw : writesTrig i = false) (hs : i ≠ .start) (hp : i ≠ .stop) : u.trig = s.trig := by
  cases h with
  | framed h => exact h.trig hw hp
  | built topo hl => rfl
  | started bases hl h => exact absurd rfl hs
  | stopped hl h => exact absurd rfl hp

theorem shadows (h : RunEnd s i u) (hw : takesSnapshot i = false) (hi : i ≠ .ctxinit) (hr : i ≠ .ctxrelease)
    (hs : i ≠ .start) (hp : i ≠ .stop) : u.pads = s.pads ∧ u.ieShadow = s.ieShadow := by
  cases h with
  | framed h => exact h.shadows hw hi hr
  | built topo hl => exact ⟨rfl, rfl⟩
  | started bases hl h => exact absurd rfl hs
  | stopped hl h => exact absurd rfl hp

end RunEnd

/-! ## The statements -/

/-- Settles O14: an operation ends with a response, and nothing before its end touches the response port. -/
theorem everyCommandGetsOneResponse : Obligations.EveryCommandGetsOneResponse := by
  intro i s t hn h
  obtain ⟨r, u, hu, rfl⟩ := exec_runEnd hn h
  exact ⟨rfl, r, by rw [respond_resp, hu.resp]⟩

/-- Settles O53: the moves of `lc` and `cs` at each end. -/
theorem lifecycleAndContextTransitions : Obligations.LifecycleAndContextTransitions := by
  intro i s t hn h
  obtain ⟨r, u, hu, rfl⟩ := exec_runEnd hn h
  refine ⟨hu.lc, ?_⟩
  rcases hu.cs with (hc | hc | hc | hc | hc) | hc | hc
  · exact .inl hc
  · exact .inr (.inl hc)
  · exact .inr (.inr (.inl hc))
  · exact .inr (.inr (.inr (.inl hc)))
  · exact .inr (.inr (.inr (.inr (.inl hc))))
  · exact .inr (.inr (.inr (.inr (.inr (.inl hc)))))
  · exact .inr (.inr (.inr (.inr (.inr (.inr hc)))))

/-! The statement of O54 names the writers operand by operand. -/

theorem writesSlots_eq_false (h : ∀ pin owner cb ctx, i ≠ .register pin owner cb ctx ∧ i ≠ .regint pin owner cb ctx ∧
    i ≠ .unregister pin ∧ i ≠ .unregint pin) : writesSlots i = false := by
  cases i with
  | register pin owner cb ctx => exact absurd rfl (h pin owner cb ctx).1
  | regint pin owner cb ctx => exact absurd rfl (h pin owner cb ctx).2.1
  | unregister pin => exact absurd rfl (h pin 0 0 0).2.2.1
  | unregint pin => exact absurd rfl (h pin 0 0 0).2.2.2
  | _ => rfl

theorem writesTrig_eq_false (h : ∀ pin ty, i ≠ .settrig pin ty ∧ i ≠ .settypeint pin ty ∧ i ≠ .unregister pin ∧
    i ≠ .unregint pin) (hp : i ≠ .pwron) : writesTrig i = false := by
  cases i with
  | settrig pin ty => exact absurd rfl (h pin ty).1
  | settypeint pin ty => exact absurd rfl (h pin ty).2.1
  | unregister pin => exact absurd rfl (h pin 0).2.2.1
  | unregint pin => exact absurd rfl (h pin 0).2.2.2
  | pwron => exact absurd rfl hp
  | _ => rfl

theorem takesSnapshot_eq_false (hs : i ≠ .ctxsuspend) (hp : i ≠ .pwroff) : takesSnapshot i = false := by
  cases i with
  | ctxsuspend => exact absurd rfl hs
  | pwroff => exact absurd rfl hp
  | _ => rfl

/-- Settles O54: each table at each end. -/
theorem onlyTheirWritersChangeTheTables : Obligations.OnlyTheirWritersChangeTheTables := by
  intro i s t hn h
  obtain ⟨r, u, hu, rfl⟩ := exec_runEnd hn h
  exact ⟨hu.cfg, hu.fault, fun hb hs hp => (hu.frame hb hs hp).topo, fun hw => hu.slots (writesSlots_eq_false hw),
    fun hw hs hp hon => hu.trig (writesTrig_eq_false hw hon) hs hp,
    fun hs hp hi hr hsus hoff => hu.shadows (takesSnapshot_eq_false hsus hoff) hi hr hs hp⟩

/-- Settles O46: the callbacks at each end, and those of a pass. -/
theorem onlyRegisteredPinsAreCalledBack : Obligations.OnlyRegisteredPinsAreCalledBack := by
  refine fun s hn => ⟨fun t h => ?_, fun i t hi h => ?_⟩
  · rcases h with h | rfl
    · obtain ⟨r, u, hu, rfl⟩ := exec_runEnd hn h
      obtain ⟨l, hl, hin, -⟩ := hu.calls
      exact ⟨l, hl, hin⟩
    · obtain ⟨u, hu, e⟩ := runPass_runFrame hn
      obtain ⟨l, hl, hin, -⟩ := hu.calls
      exact ⟨l, by rw [e]; exact hl, hin⟩
  · obtain ⟨r, u, hu, rfl⟩ := exec_runEnd hn h
    obtain ⟨l, hl, -, hnone⟩ := hu.calls
    rw [respond_calls, hl, hnone hi, List.append_nil]

/-! ## Operations that only read (R159, R261) -/

/-- The transactions from `s` to `t` are reads. -/
def OnlyReads (s t : State) : Prop := ∃ l, t.bus = s.bus ++ l ∧ ∀ w off v, BusAccess.write w off v ∉ l

theorem onlyReads_refl (s : State) : OnlyReads s s := ⟨[], (List.append_nil _).symm, nofun⟩

theorem onlyReads_kept (s : State) : Kept (fun t => OnlyReads s t ∧ NoReset t) fun _ => False := by
  refine kept_of_noReset (fun _ h _ _ _ _ => h) (fun _ h => h) (fun w off v t h => ?_) (fun _ _ _ h => h) (fun _ h => h)
    fun _ h _ => h
  obtain ⟨l, hl, hin⟩ := h
  refine ⟨l ++ [.read w off v], by rw [record_bus, hl, List.append_assoc], fun w' off' v' hm => ?_⟩
  rcases List.mem_append.mp hm with hm | hm
  · exact hin w' off' v' hm
  · cases List.mem_singleton.mp hm

/-- An operation whose body only reads, answered or refused, has only read. -/
theorem perform_onlyReads {body : M Response} (hn : NoReset s) (h : perform i body s = .next t)
    (hb : ∀ u, OnlyReads s u ∧ NoReset u → M.Ends body u (fun _ v => OnlyReads s v ∧ NoReset v)
      (fun v => OnlyReads s v ∧ NoReset v) fun _ => False) : OnlyReads s t := by
  have hs : OnlyReads s (takeCommand (.command i) s) ∧ NoReset (takeCommand (.command i) s) := ⟨onlyReads_refl s, hn⟩
  rcases perform_ends (I := fun v => OnlyReads s v ∧ NoReset v) h hs fun _ _ => hb _ hs with ⟨r, u, hu, rfl⟩ | hA
  · exact hu.1
  · exact hA.elim

/-- START, the guard operations and CTXSUSPEND write nothing. -/
theorem onlyReads_of_exec {pin : PinNum} (hn : NoReset s)
    (h : exec .start s = .next t ∨ exec (.hostown pin) s = .next t ∨ exec (.gpiomode pin) s = .next t ∨
      exec (.locked pin) s = .next t ∨ exec .ctxsuspend s = .next t) : OnlyReads s t := by
  have hk := onlyReads_kept s
  rcases h with h | h | h | h | h
  · exact perform_onlyReads hn h fun u hu => (startBody_ends hk hu).imp fun _ v hv => by
      rcases hv with hv | ⟨bases, x, hx, -, -, rfl⟩
      · exact hv
      · exact hx
  · exact perform_onlyReads hn h fun u hu => answerBool_keeps _ (hostOwned_keeps hk _ hu)
  · exact perform_onlyReads hn h fun u hu => answerBool_keeps _ (gpioMode_keeps hk _ hu)
  · exact perform_onlyReads hn h fun u hu => answerBool_keeps _ (lockedPin_keeps hk _ hu)
  · refine perform_onlyReads hn h fun u hu => done_keeps _ ?_
    exact (ctxSuspendBody_keeps hk (fun _ _ _ h => h) (fun _ _ _ h => h) (fun _ _ _ h => h) (fun _ _ _ h => h)
      (fun _ _ _ _ h => h) hu).imp fun _ v ⟨x, hx, e⟩ => e ▸ hx

/-- Settles O56: the transactions at each end and of a pass; a run that only reads has no write among them. -/
theorem writesGoOnlyToTheirRegisters : Obligations.WritesGoOnlyToTheirRegisters := by
  intro s hn t h
  obtain ⟨l, hl, hin⟩ : ∃ l, t.bus = s.bus ++ l ∧ WritesWithin s.topo l := by
    rcases h with ⟨i, h⟩ | rfl
    · obtain ⟨r, u, hu, rfl⟩ := exec_runEnd hn h
      exact hu.bus
    · obtain ⟨u, hu, e⟩ := runPass_runFrame hn
      rw [e]
      exact hu.bus
  refine ⟨l, hl, hin, fun pin hx => ?_⟩
  obtain ⟨l', hl', hreads⟩ := onlyReads_of_exec hn hx
  rw [List.append_cancel_left (hl.symm.trans hl')]
  exact hreads

/-! ## Operations that never reach the bus (R61) -/

/-- The windows, the record of transactions and the schedule of outside moves are as they were. -/
def OffBus (s t : State) : Prop := t.bus = s.bus ∧ t.mem = s.mem ∧ t.env = s.env

/-- A body that stays off the bus, whatever way it ends, and is not abandoned. -/
def StaysOff {α : Type} (m : M α) : Prop :=
  ∀ s t, OffBus s t → M.Ends m t (fun _ u => OffBus s u) (OffBus s) fun _ => False

theorem StaysOff.bind {α β : Type} {m : M α} {f : α → M β} (hm : StaysOff m) (hf : ∀ a, StaysOff (f a)) :
    StaysOff (M.bind m f) := fun s t h => (M.ends_bind _ _ _ _ _ _).mpr ((hm s t h).imp fun a u hu => hf a s u hu)

theorem StaysOff.pure {α : Type} (a : α) : StaysOff (M.pure a) := fun _ _ h => h

theorem StaysOff.look {α : Type} (f : State → α) : StaysOff (M.look f) := fun _ _ h => h

theorem StaysOff.update {f : State → State} (hf : ∀ s t, OffBus s t → OffBus s (f t)) : StaysOff (M.update f) := hf

theorem communityOf_staysOff (p : Nat) : StaysOff (communityOf p) := by
  intro s t h
  unfold M.Ends
  rw [communityOf_eq]
  cases findCommunity t.topo p <;> exact h

theorem translatePin_staysOff (lp : Nat) : StaysOff (translatePin lp) := by
  intro s t h
  unfold M.Ends
  rw [translatePin_eq]
  cases mapPin t.topo lp <;> exact h

theorem readTrig_staysOff (p : Nat) : StaysOff (readTrig p) := by
  intro s t h
  unfold M.Ends
  rw [readTrig_eq]
  cases tableGet t.trig p with
  | some ty => exact h
  | none =>
    by_cases hl : t.lc = .started
    · simp only [if_pos hl]
      exact h
    · simp only [if_neg hl]
      exact h

theorem buildBody_staysOff : StaysOff buildBody := by
  intro s t h
  unfold M.Ends buildBody
  cases buildTopo t.cfg.desc <;> exact h

theorem rescomBody_staysOff (p : Nat) : StaysOff (rescomBody p) := by
  refine (communityOf_staysOff p).bind fun found => ?_
  cases found <;> exact .pure _

theorem resgrpBody_staysOff (ci p : Nat) : StaysOff (resgrpBody ci p) := by
  intro s t h
  unfold M.Ends resgrpBody
  cases t.topo[ci]? with
  | none => exact h
  | some c =>
    dsimp only
    cases findGroup c p <;> exact h

theorem regoffBody_staysOff (p which : Nat) : StaysOff (regoffBody p which) := by
  refine (communityOf_staysOff p).bind fun found => ?_
  cases found with
  | none => exact .pure _
  | some r => dsimp only; split <;> exact .pure _

theorem mappinBody_staysOff (lp : Nat) : StaysOff (mappinBody lp) := by
  refine (translatePin_staysOff lp).bind fun found => ?_
  cases found <;> exact .pure _

theorem registerBody_staysOff (p : Nat) (owner cb ctx : Token) : StaysOff (registerBody p owner cb ctx) := by
  refine (communityOf_staysOff p).bind fun found => ?_
  cases found with
  | none => exact .pure _
  | some r =>
    refine (StaysOff.look _).bind fun taken => ?_
    cases taken with
    | true => exact .pure _
    | false => exact (StaysOff.update (f := setSlot p ⟨true, owner, cb, ctx⟩) fun _ _ h => h).bind fun _ => .pure _

theorem statusOnly_staysOff {m : M Status} (h : StaysOff m) : StaysOff (statusOnly m) := h.bind fun _ => .pure _

theorem onLogical_staysOff (lp : Nat) {body : Nat → M Response} (h : ∀ p, StaysOff (body p)) :
    StaysOff (onLogical lp body) := by
  refine (translatePin_staysOff lp).bind fun found => ?_
  cases found with
  | none => exact .pure _
  | some p => exact h p

theorem perform_offBus {body : M Response} (hb : StaysOff body) (h : perform i body s = .next t) : OffBus s t := by
  have hs : OffBus s (takeCommand (.command i) s) := ⟨rfl, rfl, rfl⟩
  rcases perform_ends h hs fun _ _ => hb s _ hs with ⟨r, u, hu, rfl⟩ | hA
  · exact hu
  · exact hA.elim

/-- Settles O55: body by body, lookups and table updates only. -/
theorem someOperationsNeverReachTheBus : Obligations.SomeOperationsNeverReachTheBus := by
  intro s t pin b sel owner cb ctx i hi h
  simp only [List.mem_cons, List.not_mem_nil, or_false] at hi
  rcases hi with rfl | rfl | rfl | rfl | rfl | rfl | rfl | rfl | rfl | rfl | rfl
  · exact perform_offBus buildBody_staysOff h
  · exact perform_offBus (rescomBody_staysOff _) h
  · exact perform_offBus (resgrpBody_staysOff _ _) h
  · exact perform_offBus (regoffBody_staysOff _ _) h
  · exact perform_offBus (mappinBody_staysOff _) h
  · exact perform_offBus (.look _) h
  · exact perform_offBus (statusOnly_staysOff (registerBody_staysOff _ _ _ _)) h
  · exact perform_offBus (onLogical_staysOff _ fun p => statusOnly_staysOff (registerBody_staysOff p _ _ _)) h
  · exact perform_offBus (onLogical_staysOff _ fun p => (readTrig_staysOff p).bind fun _ => .pure _) h
  · exact perform_offBus ((StaysOff.update (f := ctxInitBody) fun _ _ h => h).bind fun _ => .pure _) h
  · exact perform_offBus ((StaysOff.update (f := ctxReleaseBody) fun _ _ h => h).bind fun _ => .pure _) h

end Sys2Proof.Machine

/-! PROOFS. BUILD's topology and START's reads (40_topology.md R121 to R124). -/

namespace Sys2Proof.Machine

variable {s : State} {i : Instr}

/-! ## The topology that BUILD makes (R121 to R123) -/

/-- BUILD makes one community a descriptor, in order. -/
theorem buildTopo_some {ds : List CommunityDesc} {topo : List Community} (h : buildTopo ds = some topo) :
    topo.length = ds.length ∧
      ∀ (ci : Nat) (d : CommunityDesc) (c : Community), ds[ci]? = some d → topo[ci]? = some c → buildCommunity d = some c := by
  induction ds generalizing topo with
  | nil =>
    cases h
    exact ⟨rfl, fun ci d c h => by simp at h⟩
  | cons d ds ih =>
    unfold buildTopo at h
    split at h
    · cases h
    · rename_i c hc
      obtain ⟨l, hl, rfl⟩ := Option.map_eq_some_iff.mp h
      obtain ⟨hlen, hall⟩ := ih hl
      refine ⟨by simp [hlen], fun ci d' c' h1 h2 => ?_⟩
      cases ci with
      | zero =>
        simp only [List.getElem?_cons_zero, Option.some.injEq] at h1 h2
        rw [← h1, ← h2, hc]
      | succ n =>
        simp only [List.getElem?_cons_succ] at h1 h2
        exact hall n d' c' h1 h2

/-- A group of more than 32 pins anywhere makes BUILD fail (R122). -/
theorem buildTopo_eq_none {ds : List CommunityDesc} (h : ∃ d ∈ ds, ∃ g ∈ groupsOf d, 32 < g.size) :
    buildTopo ds = none := by
  induction ds with
  | nil => simp at h
  | cons d ds ih =>
    unfold buildTopo
    cases hc : buildCommunity d with
    | none => rfl
    | some c =>
      have hd : ¬∃ g ∈ groupsOf d, 32 < g.size := by
        intro hg
        rw [buildCommunity, numberGroups_eq_none.mpr hg] at hc
        cases hc
      obtain ⟨d', hd', hg⟩ := h
      rcases List.mem_cons.mp hd' with rfl | hm
      · exact absurd hg hd
      · simp [ih ⟨d', hm, hg⟩]

/-- The increments of R123, the ceiling written out. -/
theorem ownIncrement_eq (f : Option Nat) (size : Nat) :
    ownIncrement f size = match f with | some f => f | none => (size * 4 + 31) / 32 := by
  cases f with
  | some f => rfl
  | none => simp [ownIncrement, ceilDiv]

/-- Settles O20: descriptor by descriptor, then group by group. -/
theorem builtTopologyCopiesTheDescriptors : Obligations.BuiltTopologyCopiesTheDescriptors := by
  intro ds topo h
  obtain ⟨hlen, hall⟩ := buildTopo_some h
  refine ⟨hlen, fun ci d c hd hc => ?_⟩
  obtain ⟨gs, hgs, rfl⟩ := Option.map_eq_some_iff.mp (hall ci d c hd hc)
  obtain ⟨hglen, hgall⟩ := numberGroups_some hgs
  refine ⟨⟨rfl, rfl, rfl, rfl, rfl, rfl, rfl, rfl, rfl, rfl, rfl, rfl⟩, hglen, fun gi gd g hgd hg => ?_⟩
  obtain ⟨hreg, hbase, hsize, hgpio, h32, hown⟩ := hgall gi gd g hgd hg
  refine ⟨hreg, hbase, hsize, hgpio, h32, ?_⟩
  rw [hown, Nat.zero_add]
  exact congrArg List.sum (List.map_congr_left fun x _ => ownIncrement_eq _ _)

theorem exec_build_of_some {topo : List Community} (hl : s.lc = .reset) (h : buildTopo s.cfg.desc = some topo) :
    exec .build s = .next { answer s .ok 0 0 with topo := topo, lc := .built } := by
  have hb : buildBody (takeCommand (.command .build) s) =
      .ok (Response.of .ok) { takeCommand (.command .build) s with topo := topo, lc := .built } := by
    simp only [buildBody, takeCommand_cfg, h]
  exact (perform_legal rfl (by simp [legal, legalLc, legalCs, hl])).trans (by rw [hb]; rfl)

theorem exec_build_of_none (hl : s.lc = .reset) (h : buildTopo s.cfg.desc = none) :
    exec .build s = .next (answer s .invalidTopology 0 0) := by
  have hb : buildBody (takeCommand (.command .build) s) =
      .ok (Response.of .invalidTopology) (takeCommand (.command .build) s) := by
    simp only [buildBody, takeCommand_cfg, h]
  exact (perform_legal rfl (by simp [legal, legalLc, legalCs, hl])).trans (by rw [hb]; rfl)

/-- Settles O19: the topology made is kept; a group of more than 32 pins makes none. -/
theorem buildKeepsAValidTopology : Obligations.BuildKeepsAValidTopology :=
  fun _ hl => ⟨fun _ h => exec_build_of_some hl h, fun h => exec_build_of_none hl (buildTopo_eq_none h)⟩

/-! ## Synthesized groups (R121) -/

/-- A group index is below the number of groups exactly when the group starts inside the range. -/
theorem lt_ceilDiv_iff {n k i : Nat} (hk : 1 ≤ k) : i < ceilDiv n k ↔ i * k < n := by
  rw [ceilDiv, if_neg (by omega), Nat.lt_iff_add_one_le, Nat.le_div_iff_mul_le hk, Nat.add_mul]
  omega

/-- The sizes of the first `m` groups, each the nominal size or the remainder, sum up to as much of the range. -/
theorem sum_sizes (n k m : Nat) : ((List.range m).map fun i => min k (n - i * k)).sum = min (m * k) n := by
  induction m with
  | zero => simp
  | succ m ih =>
    rw [List.range_succ, List.map_append, List.sum_append, ih, Nat.add_mul]
    simp only [List.map_cons, List.map_nil, List.sum_cons, List.sum_nil]
    omega

section
variable {d : CommunityDesc} (hd : d.gpps = none) (hk : 1 ≤ d.gppSize)
include hd

theorem groupsOf_synthesized :
    groupsOf d = (List.range (ceilDiv d.npins d.gppSize)).map fun i =>
      { regNum := i, base := d.pinBase + i * d.gppSize, size := min d.gppSize (d.npins - i * d.gppSize),
        gpioBase := d.pinBase + i * d.gppSize } := by rw [groupsOf, hd]

include hk

/-- The group at index `i` starts inside the range, so it is not empty; one that is not the last is full. -/
theorem synthesized_group {i : Nat} {g : GroupDesc} (h : (groupsOf d)[i]? = some g) :
    g.regNum = i ∧ g.base = d.pinBase + i * d.gppSize ∧ g.gpioBase = g.base ∧ 1 ≤ g.size ∧ g.size ≤ d.gppSize ∧
      (i + 1 < (groupsOf d).length → g.size = d.gppSize) := by
  rw [groupsOf_synthesized hd] at h ⊢
  rw [List.getElem?_map, Option.map_eq_some_iff] at h
  obtain ⟨j, hj, rfl⟩ := h
  obtain ⟨hlt, rfl⟩ := List.getElem?_eq_some_iff.mp hj
  rw [List.length_range, lt_ceilDiv_iff hk] at hlt
  simp only [List.getElem_range, List.length_map, List.length_range, lt_ceilDiv_iff hk, Nat.add_mul]
  exact ⟨trivial, trivial, trivial, by omega, by omega, by omega⟩

theorem synthesized_sum : ((groupsOf d).map GroupDesc.size).sum = d.npins := by
  rw [groupsOf_synthesized hd, List.map_map]
  refine (sum_sizes d.npins d.gppSize (ceilDiv d.npins d.gppSize)).trans ?_
  have h := (lt_ceilDiv_iff (n := d.npins) (i := ceilDiv d.npins d.gppSize) hk).not.mp (Nat.lt_irrefl _)
  omega

/-- A pin of the range lies in the group whose index is its offset's quotient by the nominal size. -/
theorem synthesized_covers (p : Nat) :
    (d.pinBase ≤ p ∧ p < d.pinBase + d.npins) ↔ ∃ g ∈ groupsOf d, g.base ≤ p ∧ p < g.base + g.size := by
  rw [groupsOf_synthesized hd]
  simp only [List.mem_map, List.mem_range, lt_ceilDiv_iff hk]
  constructor
  · rintro ⟨hlo, hhi⟩
    have hq := Nat.div_add_mod (p - d.pinBase) d.gppSize
    have hr := Nat.mod_lt (p - d.pinBase) hk
    rw [Nat.mul_comm] at hq
    exact ⟨_, ⟨(p - d.pinBase) / d.gppSize, by omega, rfl⟩, by dsimp only; omega, by dsimp only; omega⟩
  · rintro ⟨_, ⟨i, hi, rfl⟩, hlo, hhi⟩
    dsimp only at hlo hhi
    omega

end

/-- Settles O21: the groups start at the multiples of the nominal size that lie inside the range. -/
theorem synthesizedGroupsCoverTheRange : Obligations.SynthesizedGroupsCoverTheRange := by
  intro d
  refine ⟨fun l hl => by rw [groupsOf, hl], fun hd hk => ⟨fun i g hg => ?_, synthesized_sum hd hk, synthesized_covers hd hk⟩⟩
  exact synthesized_group hd hk hg

/-! ## START (R124) -/

/-- The bus record after the PADBASE reads of the communities `cs`. -/
def padBaseReads (s : State) (cs : List Community) : List BusAccess :=
  cs.map fun c => .read c.barno s.cfg.padbaseOffset (winWord s.mem c.barno s.cfg.padbaseOffset)

/-- The PADBASE read of a community whose window exists, then those of the rest. -/
theorem readPadBases_cons {ci : Nat} {c : Community} {rest : List Community} (hc : c.barno < s.cfg.nwin) :
    readPadBases ci (c :: rest) s =
      M.bind (winRead c.barno s.cfg.padbaseOffset)
        (fun v => M.bind (readPadBases (ci + 1) rest) fun vs => M.pure (vs.map fun l => v :: l))
        (standAt (.atCommunity ci) s) := by
  show (if c.barno < s.cfg.nwin then _ else M.pure none : M (Option (List Word))) _ = _
  rw [if_pos hc]
  rfl

/-- The PADBASE reads after a beginning that goes through: one that fails the check ends START (R66, R124). -/
theorem readPadBases_append_bad (ci : Nat) (cs rest : List Community) (c : Community) (henv : s.env = [])
    (hok : ∀ x ∈ cs, accessOk s.cfg x.barno s.cfg.padbaseOffset = true) (hc : c.barno < s.cfg.nwin)
    (hbad : accessOk s.cfg c.barno s.cfg.padbaseOffset = false) :
    ∃ q, readPadBases ci (cs ++ c :: rest) s =
      .raised .busError { s with seq := q, bus := s.bus ++ padBaseReads s cs, busFault := true } := by
  induction cs generalizing s ci with
  | nil =>
    have hr : winRead c.barno s.cfg.padbaseOffset (standAt (.atCommunity ci) s) = _ := access_bad _ hbad
    refine ⟨(standAt (.atCommunity ci) s).seq, ?_⟩
    rw [List.nil_append, readPadBases_cons hc, M.bind_raised hr, padBaseReads, List.map_nil, List.append_nil]
    rfl
  | cons d cs ih =>
    have hd := hok d List.mem_cons_self
    have hr : winRead d.barno s.cfg.padbaseOffset (standAt (.atCommunity ci) s) = _ := winRead_quiet hd henv
    obtain ⟨q, e⟩ := ih (ci + 1)
      (s := record (.read d.barno s.cfg.padbaseOffset (winWord s.mem d.barno s.cfg.padbaseOffset))
        (standAt (.atCommunity ci) s)) henv (fun x hx => hok x (List.mem_cons_of_mem _ hx)) hc hbad
    refine ⟨q, ?_⟩
    rw [List.cons_append, readPadBases_cons (lt_nwin_of_accessOk hd), M.bind_ok hr]
    refine (M.bind_raised e).trans ?_
    rw [record_bus, List.append_assoc]
    rfl

/-- START in LC_BUILT runs its body. -/
theorem exec_start (hl : s.lc = .built) :
    exec .start s = .next (endCommand (startBody (takeCommand (.command .start) s))) :=
  perform_legal rfl (by simp [legal, legalLc, legalCs, hl])

/-- START whose reads go through: its tables are set where the topology fits them (R124). -/
theorem exec_start_of_reads (hl : s.lc = .built) (henv : s.env = [])
    (hok : ∀ c ∈ s.topo, accessOk s.cfg c.barno s.cfg.padbaseOffset = true) :
    exec .start s = .next
      (if tablesFit s.cfg s.topo then
        { answer s .ok 0 0 with
          lc := .started
          cs := .idle
          topo := s.topo.map fun c => { c with padRegsOff := some (winWord s.mem c.barno s.cfg.padbaseOffset) }
          slots := tableInit (pinsOf s.topo) Slot.free
          trig := tableInit (pinsOf s.topo) 0
          pads := tableInit (pinsOf s.topo) Pad.zero
          ieShadow := s.topo.map fun c => c.groups.map fun _ => 0
          bus := s.bus ++ padBaseReads s s.topo }
      else { answer s .resourceFailure 0 0 with bus := s.bus ++ padBaseReads s s.topo }) := by
  obtain ⟨q, hr⟩ := readPadBases_quiet 0 s.topo (s := standAt .nextLoop (takeCommand (.command .start) s)) henv hok
  have hpins : ∀ f : Community → Option Word, pinsOf (s.topo.map fun c => { c with padRegsOff := f c }) = pinsOf s.topo :=
    fun f => by rw [pinsOf, List.flatMap_map]; rfl
  rw [exec_start hl, startBody, M.bind_stand, M.bind_look]
  simp only [standAt_topo, takeCommand_topo, M.bind_ok hr, M.bind_look]
  cases hf : tablesFit s.cfg s.topo with
  | true =>
    simp [hf, endCommand, respond, ctxInitBody, startTables, answer, List.zipWith_map_right, List.zipWith_self, hpins,
      padBaseReads, Response.of, Function.comp_def]
  | false => simp [hf, endCommand, respond, answer, padBaseReads, Response.of]

/-- Settles O22: the reads go through and the tables fit. -/
theorem startResolvesAndClears : Obligations.StartResolvesAndClears := by
  intro s hl henv hok hpins hgroups
  rw [exec_start_of_reads hl henv hok, if_pos (by simp [tablesFit, hpins, hgroups])]
  rfl

/-- Settles O23: the read of the community in question ends START, or every read goes through and the tables do not fit. -/
theorem failedStartKeepsNothing : Obligations.FailedStartKeepsNothing := by
  intro s before after c hl henv hok
  refine ⟨fun ht hc => ?_, fun ht hc hbad => ?_, fun ht hbig => ?_⟩
  · obtain ⟨q, hr⟩ := readPadBases_append_missing 0 before after c
      (s := standAt .nextLoop (takeCommand (.command .start) s)) henv hok hc
    rw [exec_start hl, startBody, M.bind_stand, M.bind_look, standAt_topo, takeCommand_topo, ht, M.bind_ok hr]
    rfl
  · obtain ⟨q, hr⟩ := readPadBases_append_bad 0 before after c
      (s := standAt .nextLoop (takeCommand (.command .start) s)) henv hok hc hbad
    rw [exec_start hl, startBody, M.bind_stand, M.bind_look, standAt_topo, takeCommand_topo, ht, M.bind_raised hr]
    rfl
  · rw [exec_start_of_reads hl henv (ht ▸ hok), if_neg, ht]
    · rfl
    · simp only [tablesFit, Bool.and_eq_true, decide_eq_true_eq, not_and_or, Nat.not_le]
      exact hbig

end Sys2Proof.Machine

/-! PROOFS. Lookups over the topology (40_topology.md R120, R126 to R129). -/

namespace Sys2Proof.Machine

variable {s : State} {pin : PinNum}

/-! ## Found and not found (R120, R129) -/

theorem Community.not_holds {c : Community} {p : Nat} (h : ¬(c.pinBase ≤ p ∧ p < c.pinBase + c.npins)) :
    c.holds p = false := by rwa [← Bool.not_eq_true, Community.holds_iff]

theorem Group.not_holds {g : Group} {p : Nat} (h : ¬(g.base ≤ p ∧ p < g.base + g.size)) : g.holds p = false := by
  rwa [← Bool.not_eq_true, Group.holds_iff]

/-- The first community whose range holds the pin is the one found. -/
theorem findCommunity_of_first {topo : List Community} {p ci : Nat} {c : Community} (hc : topo[ci]? = some c)
    (hp : c.pinBase ≤ p ∧ p < c.pinBase + c.npins)
    (hfirst : ∀ (j : Nat) (c' : Community), j < ci → topo[j]? = some c' → ¬(c'.pinBase ≤ p ∧ p < c'.pinBase + c'.npins)) :
    findCommunity topo p = some (ci, c) :=
  (firstMatch_some _ _ _ _ _).mpr ⟨Nat.zero_le _, hc, (Community.holds_iff c p).mpr hp,
    fun j c' hj hc' => Community.not_holds (hfirst j c' hj hc')⟩

theorem findCommunity_eq_none {topo : List Community} {p : Nat}
    (h : ∀ c ∈ topo, ¬(c.pinBase ≤ p ∧ p < c.pinBase + c.npins)) : findCommunity topo p = none :=
  (firstMatch_none _ _ _).mpr fun c hc => Community.not_holds (h c hc)

/-- The first group that holds the pin is the one found. -/
theorem findGroup_of_first {c : Community} {p gi : Nat} {g : Group} (hg : c.groups[gi]? = some g)
    (hp : g.base ≤ p ∧ p < g.base + g.size)
    (hfirst : ∀ (j : Nat) (g' : Group), j < gi → c.groups[j]? = some g' → ¬(g'.base ≤ p ∧ p < g'.base + g'.size)) :
    findGroup c p = some (gi, g) :=
  (firstMatch_some _ _ _ _ _).mpr ⟨Nat.zero_le _, hg, (Group.holds_iff g p).mpr hp,
    fun j g' hj hg' => Group.not_holds (hfirst j g' hj hg')⟩

theorem findGroup_eq_none {c : Community} {p : Nat} (h : ∀ g ∈ c.groups, ¬(g.base ≤ p ∧ p < g.base + g.size)) :
    findGroup c p = none :=
  (firstMatch_none _ _ _).mpr fun g hg => Group.not_holds (h g hg)

theorem Group.holdsLogical_iff (g : Group) (lp : Nat) :
    g.holdsLogical lp = true ↔ g.gpioBase ≤ lp ∧ lp < g.gpioBase + g.size := by simp [Group.holdsLogical]

/-- The hardware pin that a group gives a logical pin, if its logical range holds it (R129). -/
def groupPin (lp : Nat) (g : Group) : Option Nat := if g.holdsLogical lp then some (g.base + (lp - g.gpioBase)) else none

/-- The pin map goes through all groups, in community then group order. -/
theorem mapPin_eq (topo : List Community) (lp : Nat) :
    mapPin topo lp = (topo.flatMap Community.groups).findSome? (groupPin lp) := by
  show (topo.findSome? fun c => c.groups.findSome? (groupPin lp)) = _
  induction topo with
  | nil => rfl
  | cons c topo ih =>
    rw [List.flatMap_cons, List.findSome?_append, ← ih, List.findSome?_cons]
    cases c.groups.findSome? (groupPin lp) <;> rfl

theorem groupPin_eq_none {lp : Nat} {g : Group} (h : ¬(g.gpioBase ≤ lp ∧ lp < g.gpioBase + g.size)) :
    groupPin lp g = none := by rw [groupPin, if_neg (by rwa [Group.holdsLogical_iff])]

theorem mapPin_eq_none {topo : List Community} {lp : Nat}
    (h : ∀ g ∈ topo.flatMap Community.groups, ¬(g.gpioBase ≤ lp ∧ lp < g.gpioBase + g.size)) : mapPin topo lp = none := by
  rw [mapPin_eq, List.findSome?_eq_none_iff]
  exact fun g hg => groupPin_eq_none (h g hg)

/-- The first group whose logical range holds the logical pin maps it. -/
theorem mapPin_of_first {before after : List Community} {c : Community} {gbefore gafter : List Group} {g : Group} {lp : Nat}
    (hc : c.groups = gbefore ++ g :: gafter) (hp : g.gpioBase ≤ lp ∧ lp < g.gpioBase + g.size)
    (hfirst : ∀ g' ∈ before.flatMap Community.groups ++ gbefore, ¬(g'.gpioBase ≤ lp ∧ lp < g'.gpioBase + g'.size)) :
    mapPin (before ++ c :: after) lp = some (g.base + (lp - g.gpioBase)) := by
  have hnone : (before.flatMap Community.groups ++ gbefore).findSome? (groupPin lp) = none :=
    List.findSome?_eq_none_iff.mpr fun g' hg' => groupPin_eq_none (hfirst g' hg')
  have hsome : groupPin lp g = some (g.base + (lp - g.gpioBase)) := by
    rw [groupPin, if_pos ((Group.holdsLogical_iff g lp).mpr hp)]
  rw [mapPin_eq, List.flatMap_append, List.flatMap_cons, hc, ← List.append_assoc, ← List.append_assoc, List.append_assoc,
    List.findSome?_append, hnone, List.cons_append, List.findSome?_cons, hsome]
  rfl

/-! ## The operations (R126 to R129) -/

theorem translatePin_of_none {lp : Nat} (h : mapPin s.topo lp = none) :
    translatePin lp s = .ok none (logErr .notFound lp s) := by rw [translatePin_eq, h]

theorem translatePin_of_some {lp p : Nat} (h : mapPin s.topo lp = some p) : translatePin lp s = .ok (some p) s := by
  rw [translatePin_eq, h]

/-- A legal operation whose body reaches `t` from `s` with a response, the taking of the command standing in both states. -/
theorem perform_answer {i : Instr} {body : M Response} {st : Status} {aux : BitVec 8} {val : Word} {t : State}
    (hw : i.wellFormed = true) (hl : legal i s = true)
    (hb : body (takeCommand (.command i) s) = .ok ⟨st, aux, 0, val⟩ (takeCommand (.command i) t)) :
    perform i body s = .next (answer t st aux val) := by
  rw [perform_legal hw hl, hb]
  rfl

theorem legal_of_ne_reset {i : Instr} (hi : i = .rescom pin ∨ (∃ ci, i = .resgrp ci pin) ∨ i = .mappin pin)
    (hl : s.lc ≠ .reset) : legal i s = true := by
  rcases hi with rfl | ⟨ci, rfl⟩ | rfl <;> cases h : s.lc <;> simp_all [legal, legalLc, legalCs]

theorem rescomBody_of_some {p ci : Nat} {c : Community} (h : findCommunity s.topo p = some (ci, c)) :
    rescomBody p s = .ok ⟨.ok, fieldOf 8 ci, 0, 0⟩ s := by rw [rescomBody, M.bind_ok (communityOf_of_some h)]; rfl

theorem rescomBody_of_none {p : Nat} (h : findCommunity s.topo p = none) :
    rescomBody p s = .ok (Response.of .notFound) (logErr .notFound p s) := by
  rw [rescomBody, M.bind_ok (communityOf_of_none h)]; rfl

/-- Settles O25: what `FindCommunity` finds. -/
theorem rescomFindsTheCommunity : Obligations.RescomFindsTheCommunity := by
  intro s pin hl
  have hlegal : legal (.rescom pin) s = true := legal_of_ne_reset (.inl rfl) hl
  refine ⟨fun ci c hc hlo hhi hfirst h256 => ?_, fun hnone => ?_⟩
  · rw [← fieldOf_of_lt h256]
    exact perform_answer rfl hlegal (rescomBody_of_some (findCommunity_of_first hc ⟨hlo, hhi⟩ hfirst))
  · exact perform_answer rfl hlegal (rescomBody_of_none (findCommunity_eq_none hnone))

theorem resgrpBody_of_some {ci p gi : Nat} {c : Community} {g : Group} (hc : s.topo[ci]? = some c)
    (hg : findGroup c p = some (gi, g)) : resgrpBody ci p s = .ok ⟨.ok, fieldOf 8 gi, 0, 0⟩ s := by
  simp only [resgrpBody, hc, hg]

theorem resgrpBody_of_none {ci p : Nat} (h : ∀ c, s.topo[ci]? = some c → findGroup c p = none) :
    resgrpBody ci p s = .ok (Response.of .notFound) (logErr .notFound p s) := by
  unfold resgrpBody
  cases hc : s.topo[ci]? with
  | none => rfl
  | some c => simp only [h c hc]

/-- Settles O26: what `FindGroup` finds in the community, if there is one. -/
theorem resgrpFindsTheGroup : Obligations.ResgrpFindsTheGroup := by
  intro s ci pin hl
  have hlegal : legal (.resgrp ci pin) s = true := legal_of_ne_reset (.inr (.inl ⟨ci, rfl⟩)) hl
  refine ⟨fun c gi g hc hg hlo hhi hfirst h256 => ?_, fun hnone => ?_⟩
  · rw [← fieldOf_of_lt h256]
    exact perform_answer rfl hlegal (resgrpBody_of_some hc (findGroup_of_first hg ⟨hlo, hhi⟩ hfirst))
  · exact perform_answer rfl hlegal (resgrpBody_of_none fun c hc => findGroup_eq_none (hnone c hc))

/-- The offset of a configuration register, written out (R69). -/
theorem cfgOff_of_base {c : Community} {base : Word} (hb : c.padRegsOff = some base) {p which : Nat}
    (hw : ¬(which = 2 ∧ c.featDebounce = false)) :
    cfgOff c p which = some (base.toNat + which * 4 + (p - c.pinBase) * (if c.featDebounce then 16 else 8)) := by
  rw [cfgOff, if_neg hw, padRegs, hb]
  cases c.featDebounce <;> simp [stride, Nat.mul_assoc]

theorem selector_eq_two_iff {sel : BitVec 8} : sel = 2 ↔ sel.toNat = 2 := by
  rw [← BitVec.toNat_inj]
  rfl

theorem regoffBody_of_some {p which ci off : Nat} {c : Community} (hc : findCommunity s.topo p = some (ci, c))
    (ho : cfgOff c p which = some off) : regoffBody p which s = .ok ⟨.ok, fieldOf 8 c.barno, 0, fieldOf 32 off⟩ s := by
  rw [regoffBody, M.bind_ok (communityOf_of_some hc)]
  simp only [ho, M.pure_apply]

theorem regoffBody_no_register {p which ci : Nat} {c : Community} (hc : findCommunity s.topo p = some (ci, c))
    (ho : cfgOff c p which = none) : regoffBody p which s = .ok (Response.of .noRegister) s := by
  rw [regoffBody, M.bind_ok (communityOf_of_some hc)]
  simp only [ho, M.pure_apply]

theorem regoffBody_of_none {p which : Nat} (h : findCommunity s.topo p = none) :
    regoffBody p which s = .ok (Response.of .notFound) (logErr .notFound p s) := by
  rw [regoffBody, M.bind_ok (communityOf_of_none h)]; rfl

/-- Settles O27: the register offset of the community found. -/
theorem regoffComputesTheOffset : Obligations.RegoffComputesTheOffset := by
  intro s pin sel hl hsel
  have hw : (Instr.regoff pin sel).wellFormed = true := decide_eq_true hsel
  have hlegal : legal (.regoff pin sel) s = true := by simp [legal, legalLc, legalCs, hl]
  refine ⟨fun ci c base hc hbase => ⟨fun h2 => ?_, fun h2 hbar hfit => ?_⟩, fun hnone => ?_⟩
  · rw [selector_eq_two_iff] at h2
    exact perform_answer hw hlegal (regoffBody_no_register hc ((cfgOff_eq_none _ _ _).mpr h2))
  · rw [selector_eq_two_iff] at h2
    rw [← fieldOf_of_lt hbar, ← fieldOf_of_lt hfit]
    exact perform_answer hw hlegal (regoffBody_of_some hc (cfgOff_of_base hbase h2))
  · exact perform_answer hw hlegal (regoffBody_of_none (findCommunity_eq_none hnone))

theorem mappinBody_of_some {lp p : Nat} (h : mapPin s.topo lp = some p) :
    mappinBody lp s = .ok ⟨.ok, 0, 0, fieldOf 32 p⟩ s := by rw [mappinBody, M.bind_ok (translatePin_of_some h)]; rfl

theorem mappinBody_of_none {lp : Nat} (h : mapPin s.topo lp = none) :
    mappinBody lp s = .ok (Response.of .notFound) (logErr .notFound lp s) := by
  rw [mappinBody, M.bind_ok (translatePin_of_none h)]; rfl

/-- Settles O28: what `MapPin` finds. -/
theorem mappinTranslatesTheLogicalPin : Obligations.MappinTranslatesTheLogicalPin := by
  intro s pin hl
  have hlegal : legal (.mappin pin) s = true := legal_of_ne_reset (.inr (.inr rfl)) hl
  refine ⟨fun before after c gbefore gafter g ht hc hlo hhi hfirst hfit => ?_, fun hnone => ?_⟩
  · have hm : mapPin s.topo pin.toNat = some (g.base + (pin.toNat - g.gpioBase)) := by
      rw [ht]
      exact mapPin_of_first hc ⟨hlo, hhi⟩ hfirst
    rw [← fieldOf_of_lt hfit]
    exact ⟨hm, perform_answer rfl hlegal (mappinBody_of_some hm)⟩
  · have hm := mapPin_eq_none hnone
    exact ⟨hm, perform_answer rfl hlegal (mappinBody_of_none hm)⟩

end Sys2Proof.Machine

/-! PROOFS. The guard operations on a located pin (41_guard.md R151 to R157). -/

namespace Sys2Proof.Machine

variable {s : State} {p ci gi : Nat} {c : Community} {g : Group} {b : Word}

/-! ## The predicates: with no bitmap there is no access; with one, the reads of the rule -/

theorem hostOwned_no_bitmap (hc : findCommunity s.topo p = some (ci, c)) (ho : c.ownOff = none) :
    hostOwned p s = .ok true s := by
  rw [hostOwned, M.bind_ok (communityOf_of_some hc)]
  simp only [ho, M.pure_apply]

theorem gpioMode_no_bitmap (hc : findCommunity s.topo p = some (ci, c)) (ho : c.hostmodeOff = none) :
    gpioMode p s = .ok true s := by
  rw [gpioMode, M.bind_ok (communityOf_of_some hc)]
  simp only [ho, M.pure_apply]

theorem lockedPin_no_bitmap (hc : findCommunity s.topo p = some (ci, c)) (ho : c.lockOff = none) :
    lockedPin p s = .ok false s := by
  rw [lockedPin, M.bind_ok (communityOf_of_some hc)]
  simp only [ho, M.pure_apply]

section
variable (hc : findCommunity s.topo p = some (ci, c)) (hg : findGroup c p = some (gi, g)) (henv : s.env = [])
include hc hg henv

theorem hostOwned_read (ho : c.ownOff = some b) (hok : accessOk s.cfg c.barno (ownOff b g (p - g.base)) = true) :
    hostOwned p s =
      .ok (decide (ownSlot (winWord s.mem c.barno (ownOff b g (p - g.base))) (p - g.base) &&& s.cfg.ownTestMask = 0))
        (record (.read c.barno (ownOff b g (p - g.base)) (winWord s.mem c.barno (ownOff b g (p - g.base)))) s) := by
  rw [hostOwned, M.bind_ok (communityOf_of_some hc)]
  simp only [ho, hg]
  rw [M.bind_ok (winRead_quiet hok henv)]
  rfl

theorem gpioMode_read (ho : c.hostmodeOff = some b) (hok : accessOk s.cfg c.barno (bankOff b g.regNum) = true) :
    gpioMode p s = .ok (!(winWord s.mem c.barno (bankOff b g.regNum)).getLsbD (p - g.base))
      (record (.read c.barno (bankOff b g.regNum) (winWord s.mem c.barno (bankOff b g.regNum))) s) := by
  rw [gpioMode, M.bind_ok (communityOf_of_some hc)]
  simp only [ho, hg]
  rw [M.bind_ok (winRead_quiet hok henv)]
  rfl

/-- LOCK's bit is set: LOCKTX is not read (R156). -/
theorem lockedPin_read_set (ho : c.lockOff = some b) (hok : accessOk s.cfg c.barno (lockOff s.cfg b g) = true)
    (hb : (winWord s.mem c.barno (lockOff s.cfg b g)).getLsbD (p - g.base) = true) :
    lockedPin p s = .ok true
      (record (.read c.barno (lockOff s.cfg b g) (winWord s.mem c.barno (lockOff s.cfg b g))) s) := by
  rw [lockedPin, M.bind_ok (communityOf_of_some hc)]
  simp only [ho, hg, M.bind_look]
  rw [M.bind_ok (winRead_quiet hok henv), if_pos hb]
  rfl

/-- LOCK's bit is clear: LOCKTX decides (R156). -/
theorem lockedPin_read_clear (ho : c.lockOff = some b) (hok : accessOk s.cfg c.barno (lockOff s.cfg b g) = true)
    (hok' : accessOk s.cfg c.barno (lockTxOff s.cfg b g) = true)
    (hb : (winWord s.mem c.barno (lockOff s.cfg b g)).getLsbD (p - g.base) = false) :
    lockedPin p s = .ok ((winWord s.mem c.barno (lockTxOff s.cfg b g)).getLsbD (p - g.base))
      (record (.read c.barno (lockTxOff s.cfg b g) (winWord s.mem c.barno (lockTxOff s.cfg b g)))
        (record (.read c.barno (lockOff s.cfg b g) (winWord s.mem c.barno (lockOff s.cfg b g))) s)) := by
  rw [lockedPin, M.bind_ok (communityOf_of_some hc)]
  simp only [ho, hg, M.bind_look]
  rw [M.bind_ok (winRead_quiet hok henv), if_neg (by simp [hb])]
  exact M.bind_ok (winRead_quiet hok' henv)

end

/-! ## The operations -/

/-- A legal predicate operation: its predicate run on the command taken, and the truth value answered (R152, R155, R157). -/
theorem perform_predicate {i : Instr} {m : M Bool} {v : Bool} {t : State} (hw : i.wellFormed = true) (hl : legal i s = true)
    (hm : m (takeCommand (.command i) s) = .ok v t) :
    perform i (answerBool m) s = .next (respond ⟨.ok, 0, 0, boolWord v⟩ t) := by
  rw [perform_legal hw hl, answerBool, M.bind_ok hm]
  rfl

theorem boolWord_not (v : Bool) : boolWord (!v) = if v then 0 else 1 := by cases v <;> rfl

/-- Settles O30: no bitmap, or one read of the pin's ownership word. -/
theorem hostownReadsTheOwnershipSlot : Obligations.HostownReadsTheOwnershipSlot := by
  intro s pin ci c hl henv hc
  have hlegal : legal (.hostown pin) s = true := by simp [legal, legalLc, legalCs, hl]
  refine ⟨fun ho => ?_, fun b gi g w off o ho hg hpo hoff hw hok => ?_⟩
  · exact perform_predicate (s := s) rfl hlegal (hostOwned_no_bitmap hc ho)
  · subst hpo hoff hw
    have h := perform_predicate (s := s) rfl hlegal (hostOwned_read hc hg henv ho hok)
    refine h.trans ?_
    simp only [boolWord, decide_eq_true_eq]
    rfl

/-- Settles O31: no bitmap, or one read of the group's host-mode word. -/
theorem gpiomodeReadsTheModeBit : Obligations.GpiomodeReadsTheModeBit := by
  intro s pin ci c hl henv hc
  have hlegal : legal (.gpiomode pin) s = true := by simp [legal, legalLc, legalCs, hl]
  refine ⟨fun ho => ?_, fun b gi g w off ho hg hoff hw hok => ?_⟩
  · exact perform_predicate (s := s) rfl hlegal (gpioMode_no_bitmap hc ho)
  · subst hoff hw
    have h := perform_predicate (s := s) rfl hlegal (gpioMode_read hc hg henv ho hok)
    rw [boolWord_not] at h
    exact h

/-- Settles O32: no bitmap, or LOCK, and LOCKTX where LOCK's bit is clear. -/
theorem lockedReadsTheLockBits : Obligations.LockedReadsTheLockBits := by
  intro s pin ci c hl henv hc
  have hlegal : legal (.locked pin) s = true := by simp [legal, legalLc, legalCs, hl]
  refine ⟨fun ho => ?_, fun b gi g off o w w' ho hg hpo hoff hw hw' hok => ⟨fun hb => ?_, fun hb hok' => ?_⟩⟩
  · exact perform_predicate (s := s) rfl hlegal (lockedPin_no_bitmap hc ho)
  · subst hpo hoff hw
    exact perform_predicate (s := s) rfl hlegal (lockedPin_read_set hc hg henv ho hok hb)
  · subst hpo hoff hw hw'
    have h := perform_predicate (s := s) rfl hlegal (lockedPin_read_clear hc hg henv ho hok hok' hb)
    refine h.trans ?_
    simp only [record, takeCommand_bus, List.append_assoc]
    rfl

end Sys2Proof.Machine

/-! PROOFS. The interrupt router on one pin, hardware or logical (42_interrupt.md R173 to R197). -/

namespace Sys2Proof.Machine

variable {s t : State} {i : Instr} {pin : PinNum} {p : Nat}

/-! ## One access (R62, R63, R66, R76) -/

/-- What the check before every access tests (R66). -/
theorem accessOk_iff {cfg : Params} {w off : Nat} :
    accessOk cfg w off = true ↔ ∃ n, cfg.winSize[w]? = some n ∧ off % 4 = 0 ∧ off + 4 ≤ n.toNat := by
  unfold accessOk
  cases cfg.winSize[w]? with
  | none => simp
  | some n => simp

theorem padValue_pending {cfg : Params} {w off : Nat} (h : isPendingWord cfg w off = true) (old v : Word) :
    padValue cfg w off old v = old &&& ~~~v := if_pos h

theorem padValue_other {cfg : Params} {w off : Nat} (h : isPendingWord cfg w off = false) (old v : Word) :
    padValue cfg w off old v = v := if_neg (by simp [h])

/-- Settles O18: one transaction, checked, with nothing before it and nothing after it. -/
theorem writesFollowThePadRule : Obligations.WritesFollowThePadRule := by
  intro s w off v henv hm hok
  refine ⟨winRead_quiet hok henv, padWrite s.cfg s.mem w off v, winWrite_quiet hok henv, wf_padWrite _ _ _ _ _ hm,
    winWord_padWrite _ _ _ _ _ hm, fun w' off' hok' hne => winWord_padWrite_of_ne _ _ _ _ _ _ _ hm hok hok' hne,
    sameOutside_padWrite _ _ _ _ _ _ hm List.mem_cons_self⟩

theorem winWrite_bad {w off : Nat} {v : Word} (h : accessOk s.cfg w off = false) :
    winWrite w off v s = .raised .busError { s with busFault := true } := access_bad _ h

theorem winRead_bad {w off : Nat} (h : accessOk s.cfg w off = false) :
    winRead w off s = .raised .busError { s with busFault := true } := access_bad _ h

theorem winModify_bad {w off : Nat} {f : Word → Word} (h : accessOk s.cfg w off = false) :
    winModify w off f s = .raised .busError { s with busFault := true } := M.bind_raised (winRead_bad h)

/-! ## An operation that ends with a status -/

theorem locate_of_some {l : Location} (h : findPin s.topo p = some l) : locate p s = .ok (some l) s := by
  rw [locate_eq, h]

theorem locate_of_none (h : findPin s.topo p = none) : locate p s = .ok none (logErr .notFound p s) := by
  rw [locate_eq, h]

theorem onLogical_of_some {lp : Nat} {body : Nat → M Response} (h : mapPin s.topo lp = some p) :
    onLogical lp body s = body p s := by rw [onLogical, M.bind_ok (translatePin_of_some h)]

theorem onLogical_of_none {lp : Nat} {body : Nat → M Response} (h : mapPin s.topo lp = none) :
    onLogical lp body s = .ok (Response.of .notFound) (logErr .notFound lp s) := by
  rw [onLogical, M.bind_ok (translatePin_of_none h)]; rfl

/-- Operation `i` of `s` is the body `m`, whose status it answers. -/
def RunsBody (i : Instr) (s : State) (m : M Status) : Prop :=
  exec i s = .next (endCommand (statusOnly m (takeCommand (.command i) s)))

theorem RunsBody.ok {m : M Status} {st : Status} (h : RunsBody i s m) (hm : m (takeCommand (.command i) s) = .ok st t) :
    exec i s = .next (respond (Response.of st) t) := by
  rw [h, statusOnly, M.bind_ok hm]
  rfl

theorem RunsBody.raised {m : M Status} {st : Status} (h : RunsBody i s m)
    (hm : m (takeCommand (.command i) s) = .raised st t) : exec i s = .next (respond (Response.of st) t) := by
  rw [h, statusOnly, M.bind_raised hm]
  rfl

theorem RunsBody.abandoned {m : M Status} (h : RunsBody i s m)
    (hm : m (takeCommand (.command i) s) = .abandoned t) : exec i s = .next t := by
  rw [h, statusOnly, M.bind_abandoned hm]
  rfl

section
variable (hl : s.lc = .started)
include hl

theorem runsBody_settrig (t : BitVec 8) : RunsBody (.settrig pin t) s (setTrigBody pin.toNat t) :=
  perform_legal rfl (by simp [legal, legalLc, legalCs, hl])

theorem runsBody_enable : RunsBody (.enable pin) s (enableBody pin.toNat) :=
  perform_legal rfl (by simp [legal, legalLc, legalCs, hl])

theorem runsBody_maskunmask (m : Bool) : RunsBody (.maskunmask pin (if m then 1 else 0)) s (maskBody pin.toNat m) := by
  cases m <;> exact perform_legal rfl (by simp [legal, legalLc, legalCs, hl])

theorem runsBody_register (owner cb ctx : Token) :
    RunsBody (.register pin owner cb ctx) s (registerBody pin.toNat owner cb ctx) :=
  perform_legal rfl (by simp [legal, legalLc, legalCs, hl])

theorem runsBody_unregister : RunsBody (.unregister pin) s (unregisterBody pin.toNat) :=
  perform_legal rfl (by simp [legal, legalLc, legalCs, hl])

section
variable (hm : mapPin s.topo pin.toNat = some p)
include hm

omit hl in
/-- An operation on a logical pin runs its body on the hardware pin it maps to (R197). -/
theorem perform_onLogical {body : Nat → M Response} (hw : i.wellFormed = true) (hi : legal i s = true) :
    perform i (onLogical pin.toNat body) s = .next (endCommand (body p (takeCommand (.command i) s))) := by
  rw [perform_legal hw hi, onLogical_of_some (s := takeCommand _ s) hm]

theorem runsBody_settypeint (t : BitVec 8) : RunsBody (.settypeint pin t) s (setTrigBody p t) :=
  perform_onLogical hm rfl (by simp [legal, legalLc, legalCs, hl])

theorem runsBody_enint : RunsBody (.enint pin) s (enableBody p) :=
  perform_onLogical hm rfl (by simp [legal, legalLc, legalCs, hl])

theorem runsBody_disint : RunsBody (.disint pin) s (maskBody p true) :=
  perform_onLogical hm rfl (by simp [legal, legalLc, legalCs, hl])

theorem runsBody_regint (owner cb ctx : Token) : RunsBody (.regint pin owner cb ctx) s (registerBody p owner cb ctx) :=
  perform_onLogical hm rfl (by simp [legal, legalLc, legalCs, hl])

theorem runsBody_unregint : RunsBody (.unregint pin) s (unregisterBody p) :=
  perform_onLogical hm rfl (by simp [legal, legalLc, legalCs, hl])

end

end

/-! ## Pins that do not resolve (R197, R242) -/

section
variable (h : findPin s.topo p = none)
include h

theorem enableBody_of_none : enableBody p s = .ok .notFound (logErr .notFound p s) := by
  rw [enableBody, M.bind_ok (locate_of_none h)]; rfl

theorem maskBody_of_none (m : Bool) : maskBody p m s = .ok .notFound (logErr .notFound p s) := by
  rw [maskBody, M.bind_ok (locate_of_none h)]; rfl

theorem unregisterBody_of_none : unregisterBody p s = .ok .notFound (logErr .notFound p s) := by
  rw [unregisterBody, M.bind_ok (maskBody_of_none h true)]; rfl

end

theorem setTrigBody_of_none {t : BitVec 8} (h : findCommunity s.topo p = none) :
    setTrigBody p t s = .ok .notFound (logErr .notFound p s) := by
  rw [setTrigBody, M.bind_ok (communityOf_of_none h)]; rfl

theorem registerBody_of_none {owner cb ctx : Token} (h : findCommunity s.topo p = none) :
    registerBody p owner cb ctx s = .ok .notFound (logErr .notFound p s) := by
  rw [registerBody, M.bind_ok (communityOf_of_none h)]; rfl

/-- An operation whose body finds no pin is answered NotFound, the lookup logged. -/
theorem RunsBody.notFound {m : M Status} (h : RunsBody i s m)
    (hm : m (takeCommand (.command i) s) = .ok .notFound (logErr .notFound p (takeCommand (.command i) s))) :
    exec i s = .next (answer (logErr .notFound p s) .notFound 0 0) := h.ok hm

/-- A logical pin that no group covers ends every operation on logical pins (R197). -/
theorem perform_unmapped {body : Nat → M Response} (hw : i.wellFormed = true) (hi : legal i s = true)
    (h : mapPin s.topo pin.toNat = none) :
    perform i (onLogical pin.toNat body) s = .next (answer (logErr .notFound pin.toNat s) .notFound 0 0) := by
  rw [perform_legal hw hi, onLogical_of_none (s := takeCommand _ s) h]
  rfl

/-- Settles O44: the lookup that fails comes first in each body. -/
theorem unresolvedPinsAreNotFound : Obligations.UnresolvedPinsAreNotFound := by
  intro s pin p t m owner cb ctx hl
  refine ⟨fun h i hi => ?_, fun hm h i hi => ?_, fun hm h i hi => ?_, fun h i hi => ?_, fun h i hi => ?_⟩ <;>
    simp only [List.mem_cons, List.not_mem_nil, or_false] at hi
  · have hlegal : legal i s = true := by rcases hi with rfl | rfl | rfl | rfl | rfl | rfl <;> simp [legal, legalLc, legalCs, hl]
    rcases hi with rfl | rfl | rfl | rfl | rfl | rfl <;> exact perform_unmapped rfl hlegal h
  · rcases hi with rfl | rfl
    · exact (runsBody_regint hl hm owner cb ctx).notFound (registerBody_of_none h)
    · exact (runsBody_settypeint hl hm t).notFound (setTrigBody_of_none h)
  · rcases hi with rfl | rfl | rfl
    · exact (runsBody_enint hl hm).notFound (enableBody_of_none h)
    · exact (runsBody_disint hl hm).notFound (maskBody_of_none (s := takeCommand _ s) h true)
    · exact (runsBody_unregint hl hm).notFound (unregisterBody_of_none h)
  · rcases hi with rfl | rfl
    · exact (runsBody_settrig hl t).notFound (setTrigBody_of_none h)
    · exact (runsBody_register hl owner cb ctx).notFound (registerBody_of_none h)
  · rcases hi with rfl | rfl | rfl
    · exact (runsBody_enable hl).notFound (enableBody_of_none h)
    · exact (runsBody_maskunmask hl m).notFound (maskBody_of_none (s := takeCommand _ s) h m)
    · exact (runsBody_unregister hl).notFound (unregisterBody_of_none h)

/-! ## GETTYPE (R191) -/

theorem readTrig_of_some {t : BitVec 8} (h : tableGet s.trig p = some t) : readTrig p s = .ok t s := by
  rw [readTrig_eq, h]

theorem readTrig_of_none (hl : s.lc = .started) (h : tableGet s.trig p = none) :
    readTrig p s = .ok (Config.absentTrig s.free) { s with free := s.free + 1 } := by
  rw [readTrig_eq, h]
  exact if_pos hl

/-- Settles O43: what `readTrig` gives, zero-extended. -/
theorem gettypeReturnsTheRecordedType : Obligations.GettypeReturnsTheRecordedType := by
  intro s pin p hl hm
  have hx : exec (.gettype pin) s = .next (endCommand (getTypeBody p (takeCommand (.command (.gettype pin)) s))) :=
    perform_onLogical hm rfl (by simp [legal, legalLc, legalCs, hl])
  refine ⟨fun t ht => ?_, fun ht => ⟨Config.absentTrig s.free, ?_⟩⟩
  · rw [hx, getTypeBody, M.bind_ok (readTrig_of_some (s := takeCommand _ s) ht)]
    rfl
  · rw [hx, getTypeBody, M.bind_ok (readTrig_of_none (s := takeCommand _ s) hl ht)]
    rfl

/-! ## REGISTER (R181) -/

/-- REGISTER and REGINT run one body. -/
theorem runsBody_of_register {owner cb ctx : Token} (hl : s.lc = .started)
    (hi : i = .register pin owner cb ctx ∧ p = pin.toNat ∨
      i = .regint pin owner cb ctx ∧ mapPin s.topo pin.toNat = some p) : RunsBody i s (registerBody p owner cb ctx) := by
  rcases hi with ⟨rfl, rfl⟩ | ⟨rfl, hm⟩
  · exact runsBody_register hl owner cb ctx
  · exact runsBody_regint hl hm owner cb ctx

/-- Settles O41: the slot decides, and a free one is written. -/
theorem registerIsExclusive : Obligations.RegisterIsExclusive := by
  intro s i pin owner cb ctx p ci c sl hi hl hc hsl
  have hx := runsBody_of_register hl hi
  have hb := registerBody_eq (s := takeCommand (.command i) s) (owner := owner) (cb := cb) (ctx := ctx) hc
  rw [slotOf_some (s := takeCommand (.command i) s) hsl] at hb
  refine ⟨fun hv => ?_, fun hv => ⟨tableSet s.slots p ⟨true, owner, cb, ctx⟩, ?_, ?_, fun q hq => ?_, tableSet_keys _ _ _⟩⟩
  · exact hx.ok (hb.trans (if_pos hv))
  · exact hx.ok (hb.trans (if_neg (by simp [hv])))
  · rw [tableGet_set_self, hsl]
    rfl
  · exact tableGet_set_of_ne _ _ _ _ hq

/-! ## ENABLE and MASKUNMASK (R176, R178) -/

/-- ENABLE and ENINT run one body. -/
theorem runsBody_of_enable (hl : s.lc = .started)
    (hi : i = .enable pin ∧ p = pin.toNat ∨ i = .enint pin ∧ mapPin s.topo pin.toNat = some p) :
    RunsBody i s (enableBody p) := by
  rcases hi with ⟨rfl, rfl⟩ | ⟨rfl, hm⟩
  · exact runsBody_enable hl
  · exact runsBody_enint hl hm

/-- Settles O38: the pending bit's write leaves the enable word for the read and the write that follow. -/
theorem enableClearsThenSets : Obligations.EnableClearsThenSets := by
  intro s i pin p l isw iew v hi hl henv hm hfind hisw hiew hv hok hok' hpend hpend'
  subst hisw hiew
  have hne : (l.c.barno, bankOff l.c.ieOff l.g.regNum) ≠ (l.c.barno, bankOff l.c.isOff l.g.regNum) := by
    intro e
    rw [Prod.mk.injEq] at e
    rw [← e.2, hpend'] at hpend
    cases hpend
  have hx := (runsBody_of_enable hl hi).ok (enableBody_quiet (s := takeCommand (.command i) s) hfind henv hok hok')
  have hm' := wf_padWrite s.cfg s.mem l.c.barno (bankOff l.c.isOff l.g.regNum) (bit l.o) hm
  have hread : winWord (padWrite s.cfg s.mem l.c.barno (bankOff l.c.isOff l.g.regNum) (bit l.o)) l.c.barno
      (bankOff l.c.ieOff l.g.regNum) = v := by rw [winWord_padWrite_of_ne _ _ _ _ _ _ _ hm hok hok' hne, hv]
  refine ⟨padWrite s.cfg (padWrite s.cfg s.mem l.c.barno (bankOff l.c.isOff l.g.regNum) (bit l.o)) l.c.barno
    (bankOff l.c.ieOff l.g.regNum) (v ||| bit l.o), ?_, ?_, ?_, ?_⟩
  · rw [hx, modified_eq]
    simp only [record_mem, putWord_mem, takeCommand_mem, takeCommand_cfg, record_cfg, putWord_cfg, hread, record_bus,
      putWord_bus, takeCommand_bus, List.append_assoc]
    rfl
  · rw [winWord_padWrite_of_ne _ _ _ _ _ _ _ hm' hok' hok hne.symm, winWord_padWrite _ _ _ _ _ hm, padValue_pending hpend]
  · rw [winWord_padWrite _ _ _ _ _ hm', padValue_other hpend']
  · exact (sameOutside_padWrite _ _ _ _ _ _ hm (by simp [pendReg])).trans
      (sameOutside_padWrite _ _ _ _ _ _ hm' (by simp [enableReg]))

/-- MASKUNMASK and DISINT run one body. -/
theorem runsBody_of_mask {m : Bool} (hl : s.lc = .started)
    (hi : i = .maskunmask pin (if m then 1 else 0) ∧ p = pin.toNat ∨
      i = .disint pin ∧ m = true ∧ mapPin s.topo pin.toNat = some p) : RunsBody i s (maskBody p m) := by
  rcases hi with ⟨rfl, rfl⟩ | ⟨rfl, rfl, hm⟩
  · exact runsBody_maskunmask hl m
  · exact runsBody_disint hl hm

/-- Settles O40: one read-modify-write of the enable word. -/
theorem maskChangesOnlyTheEnableBit : Obligations.MaskChangesOnlyTheEnableBit := by
  intro s i pin m p l iew v v' hi hl henv hm hfind hiew hv hv' hok hpend
  refine ⟨padWrite s.cfg s.mem l.c.barno iew v', ?_, ?_, sameOutside_padWrite _ _ _ _ _ _ hm (by simp [enableReg, hiew])⟩
  · subst hiew hv hv'
    have hx := (runsBody_of_mask hl hi).ok (maskBody_quiet (s := takeCommand (.command i) s) (m := m) hfind henv hok)
    rw [hx, modified_eq]
    rfl
  · rw [winWord_padWrite _ _ _ _ _ hm, padValue_other hpend]

/-- UNREGISTER and UNREGINT run one body. -/
theorem runsBody_of_unregister (hl : s.lc = .started)
    (hi : i = .unregister pin ∧ p = pin.toNat ∨ i = .unregint pin ∧ mapPin s.topo pin.toNat = some p) :
    RunsBody i s (unregisterBody p) := by
  rcases hi with ⟨rfl, rfl⟩ | ⟨rfl, hm⟩
  · exact runsBody_unregister hl
  · exact runsBody_unregint hl hm

/-- Settles O42: the mask, then one entry of each table. -/
theorem unregisterMasksAndClears : Obligations.UnregisterMasksAndClears := by
  intro s i pin p l iew v hi hl henv hm hfind hiew hv hok hpend hslot htrig
  obtain ⟨sl, hslot⟩ := Option.isSome_iff_exists.mp hslot
  obtain ⟨ty, htrig⟩ := Option.isSome_iff_exists.mp htrig
  refine ⟨padWrite s.cfg s.mem l.c.barno iew (v &&& ~~~(bit l.o)), tableSet s.slots p Slot.free, tableSet s.trig p 0,
    ?_, ?_, ?_, fun q hq => ⟨tableGet_set_of_ne _ _ _ _ hq, tableGet_set_of_ne _ _ _ _ hq⟩, tableSet_keys _ _ _,
    tableSet_keys _ _ _, ?_, sameOutside_padWrite _ _ _ _ _ _ hm (by simp [enableReg, hiew])⟩
  · subst hiew hv
    rw [(runsBody_of_unregister hl hi).ok (unregisterBody_quiet (s := takeCommand (.command i) s) hfind henv hok),
      modified_eq]
    rfl
  · rw [tableGet_set_self, hslot]
    rfl
  · rw [tableGet_set_self, htrig]
    rfl
  · rw [winWord_padWrite _ _ _ _ _ hm, padValue_other hpend]

/-! ## SETTRIG (R173) -/

/-- SETTRIG and SETTYPEINT run one body. -/
theorem runsBody_of_settrig {t : BitVec 8} (hl : s.lc = .started)
    (hi : i = .settrig pin t ∧ p = pin.toNat ∨ i = .settypeint pin t ∧ mapPin s.topo pin.toNat = some p) :
    RunsBody i s (setTrigBody p t) := by
  rcases hi with ⟨rfl, rfl⟩ | ⟨rfl, hm⟩
  · exact runsBody_settrig hl t
  · exact runsBody_settypeint hl hm t

/-- SETTRIG where the guard answers GPIO mode: a read-modify-write of PADCFG0, and the record of the type. -/
theorem setTrigBody_of_gpioMode {ci : Nat} {c : Community} {ty : BitVec 8} (hc : findCommunity s.topo p = some (ci, c))
    (hg : gpioMode p s = .ok true t) (henv : t.env = []) (hok : accessOk t.cfg c.barno (cfg0Off c p) = true) :
    setTrigBody p ty s =
      .ok .ok (setTrig p ty (modified c.barno (cfg0Off c p) (fun v => setTrigWord t.cfg v ty) t)) := by
  simp only [setTrigBody, M.bind_ok (communityOf_of_some hc), M.bind_ok hg, if_true, M.bind_look]
  rw [M.bind_ok (winModify_quiet hok henv)]
  rfl

/-- SETTRIG where the guard answers ACPI mode. -/
theorem setTrigBody_of_acpiMode {ci : Nat} {c : Community} {ty : BitVec 8} (hc : findCommunity s.topo p = some (ci, c))
    (hg : gpioMode p s = .ok false t) : setTrigBody p ty s = .ok .modeConflict t := by
  rw [setTrigBody, M.bind_ok (communityOf_of_some hc)]
  exact M.bind_ok hg

/-- The state after the transactions `l`. -/
def afterAccesses (l : List BusAccess) (q : Sequencer) (s : State) : State := { s with bus := s.bus ++ l, seq := q }

/-- The guard's answer GPIO mode, with the reads it makes. -/
theorem gpioMode_true {ci : Nat} {c : Community} {guard : List BusAccess} (hc : findCommunity s.topo p = some (ci, c))
    (henv : s.env = [])
    (h : c.hostmodeOff = none ∧ guard = [] ∨
      ∃ b gi g, c.hostmodeOff = some b ∧ findGroup c p = some (gi, g) ∧ accessOk s.cfg c.barno (bankOff b g.regNum) = true ∧
        (winWord s.mem c.barno (bankOff b g.regNum)).getLsbD (p - g.base) = false ∧
        guard = [.read c.barno (bankOff b g.regNum) (winWord s.mem c.barno (bankOff b g.regNum))]) :
    ∃ q, gpioMode p s = .ok true (afterAccesses guard q s) := by
  rcases h with ⟨ho, rfl⟩ | ⟨b, gi, g, ho, hg, hok, hb, rfl⟩
  · refine ⟨s.seq, (gpioMode_no_bitmap hc ho).trans ?_⟩
    simp [afterAccesses]
  · refine ⟨s.seq.advance, (gpioMode_read hc hg henv ho hok).trans ?_⟩
    rw [hb]
    rfl

/-- Settles O36: the guard, then the read-modify-write, then the record. -/
theorem settrigWritesPadcfgAndRecords : Obligations.SettrigWritesPadcfgAndRecords := by
  intro s i pin t p ci c guard hi hl henv hm hc hguard hok hpend htrig
  obtain ⟨q, hg⟩ := gpioMode_true (s := takeCommand (.command i) s) hc henv hguard
  have hx := (runsBody_of_settrig hl hi).ok (setTrigBody_of_gpioMode (s := takeCommand (.command i) s) hc hg henv hok)
  obtain ⟨ty, htrig⟩ := Option.isSome_iff_exists.mp htrig
  refine ⟨padWrite s.cfg s.mem c.barno (cfg0Off c p) (setTrigWord s.cfg (winWord s.mem c.barno (cfg0Off c p)) t),
    tableSet s.trig p t, ?_, ?_, fun q hq => tableGet_set_of_ne s.trig p q t hq, tableSet_keys _ _ _, ?_,
    sameOutside_padWrite s.cfg _ _ _ _ _ hm List.mem_cons_self⟩
  · rw [hx, modified_eq]
    rfl
  · rw [tableGet_set_self, htrig]
    rfl
  · rw [winWord_padWrite _ _ _ _ _ hm, padValue_other hpend]

/-- Settles O37: the guard answers ACPI mode, from the host-mode bit or because no group holds the pin. -/
theorem settrigRefusesAcpiPins : Obligations.SettrigRefusesAcpiPins := by
  intro s i pin t p ci c b gi g hi hl henv hc ho
  have hx := runsBody_of_settrig hl hi
  refine ⟨fun hg hok hb => ?_, fun hg => ?_⟩
  · have hguard := gpioMode_read (s := takeCommand (.command i) s) hc hg henv ho hok
    rw [takeCommand_mem, hb] at hguard
    exact hx.ok (setTrigBody_of_acpiMode (s := takeCommand (.command i) s) hc hguard)
  · have hguard := gpioMode_of_unplaced (s := takeCommand (.command i) s) (.noGroup hc ho hg)
    exact hx.ok (setTrigBody_of_acpiMode (s := takeCommand (.command i) s) hc hguard)

/-! ## A failed check (R66) -/

/-- ENABLE whose first access fails the check. -/
theorem enableBody_first_bad {l : Location} (hfind : findPin s.topo p = some l)
    (h : accessOk s.cfg l.c.barno (bankOff l.c.isOff l.g.regNum) = false) :
    enableBody p s = .raised .busError { s with busFault := true } := by
  rw [enableBody, M.bind_ok (locate_of_some hfind)]
  exact M.bind_raised (winWrite_bad h)

/-- ENABLE whose second access fails the check, the first made. -/
theorem enableBody_second_bad {l : Location} (hfind : findPin s.topo p = some l) (henv : s.env = [])
    (h : accessOk s.cfg l.c.barno (bankOff l.c.isOff l.g.regNum) = true)
    (h' : accessOk s.cfg l.c.barno (bankOff l.c.ieOff l.g.regNum) = false) :
    enableBody p s = .raised .busError
      { record (.write l.c.barno (bankOff l.c.isOff l.g.regNum) (bit l.o))
          (putWord l.c.barno (bankOff l.c.isOff l.g.regNum) (bit l.o) s) with busFault := true } := by
  simp only [enableBody, M.bind_ok (locate_of_some hfind), M.bind_ok (winWrite_quiet h henv)]
  exact M.bind_raised (winModify_bad h')

/-- Settles O17: the check stands before every access, and what was done before it stays done. -/
theorem failedCheckIsABusError : Obligations.FailedCheckIsABusError := by
  intro s w off v
  refine ⟨accessOk_iff, fun hbad => ⟨winRead_bad hbad, winWrite_bad hbad, fun pin l hl hfind hreg => ?_,
    fun pin l off' hl henv hm hfind hreg hok hpend hreg' => ?_, fun pin t ci c hl hc ho hreg => ?_⟩⟩
  · cases hreg
    exact (runsBody_enable hl).raised (enableBody_first_bad (s := takeCommand _ s) hfind hbad)
  · cases hreg
    have hx := (runsBody_enable hl).raised
      (enableBody_second_bad (s := takeCommand (.command (.enable pin)) s) hfind henv hok (by cases hreg'; exact hbad))
    exact ⟨_, hx, (winWord_padWrite _ _ _ _ _ hm).trans (padValue_pending hpend _ _),
      sameOutside_padWrite _ _ _ _ _ _ hm List.mem_cons_self⟩
  · cases hreg
    have hb : setTrigBody pin.toNat t (takeCommand (.command (.settrig pin t)) s) =
        .raised .busError { takeCommand (.command (.settrig pin t)) s with busFault := true } := by
      simp only [setTrigBody, M.bind_ok (communityOf_of_some (s := takeCommand (.command (.settrig pin t)) s) hc),
        M.bind_ok (gpioMode_no_bitmap (s := takeCommand (.command (.settrig pin t)) s) hc ho), if_true, M.bind_look]
      exact M.bind_raised (winModify_bad hbad)
    exact (runsBody_settrig hl t).raised hb

/-! ## ENABLE in other environments (R77, R280) -/

/-- A write after whose transaction the reset input is asserted (R280). -/
theorem winWrite_reset_after {w off : Nat} {v : Word} (henv : s.env = [[], [.reset]])
    (hok : accessOk s.cfg w off = true) :
    winWrite w off v s = .abandoned (resetInput (record (.write w off v) (putWord w off v { s with env := [] }))) := by
  simp [winWrite, access, check, outside, M.bind, hok, resetComing, envTick, henv, record, putWord, envMove]

/-- ENABLE with the reset input asserted after its first transaction. -/
theorem enableBody_reset_after {l : Location} (hfind : findPin s.topo p = some l) (henv : s.env = [[], [.reset]])
    (hok : accessOk s.cfg l.c.barno (bankOff l.c.isOff l.g.regNum) = true) :
    enableBody p s = .abandoned (resetInput (record (.write l.c.barno (bankOff l.c.isOff l.g.regNum) (bit l.o))
      (putWord l.c.barno (bankOff l.c.isOff l.g.regNum) (bit l.o) { s with env := [] }))) := by
  rw [enableBody, M.bind_ok (locate_of_some hfind)]
  exact M.bind_abandoned (winWrite_reset_after henv hok)

/-- Settles O11: the reset input falls after the write of the pending word. -/
theorem resetAbandonsEnableBetweenAccesses : Obligations.ResetAbandonsEnableBetweenAccesses := by
  intro s pin l hl henv hm hfind hok _ hpend
  have hb := enableBody_reset_after (s := takeCommand (.command (.enable pin)) s) hfind henv hok
  exact ⟨_, (runsBody_enable hl).abandoned hb, (winWord_padWrite _ _ _ _ _ hm).trans (padValue_pending hpend _ _),
    sameOutside_padWrite _ _ _ _ _ _ hm List.mem_cons_self⟩

/-- The access `a` was made between `s` and `t`, which no reset followed; the parameters, the topology and the response port are as
they were. -/
structure AccessMade (a : BusAccess) (s t : State) : Prop where
  bus : t.bus = s.bus ++ [a]
  cfg : t.cfg = s.cfg
  topo : t.topo = s.topo
  resp : t.resp = s.resp
  noReset : NoReset t

/-- Without a reset a checked access goes through, between two batches of outside moves (R77). -/
theorem access_noReset {α : Type} {w off : Nat} {act : State → α × State} (hn : NoReset s)
    (hok : accessOk s.cfg w off = true) (hact : ∀ u, (act u).2.env = u.env) :
    access w off act s = .ok (act (envTick s)).1 (envTick (act (envTick s)).2) := by
  have h1 := resetComing_of_noReset hn
  have h2 : resetComing (act (envTick s)).2 = false := by
    obtain ⟨m, n, c, e⟩ := envTick_of_noReset h1
    refine resetComing_of_noReset ?_
    rw [NoReset, hact, e]
    exact fun b hb => hn b (List.mem_of_mem_tail hb)
  rcases access_cases w off act s with ⟨hf, -⟩ | ⟨-, hf, -⟩ | ⟨-, -, hf, -⟩ | ⟨-, -, -, h⟩
  · rw [hok] at hf; cases hf
  · rw [h1] at hf; cases hf
  · rw [h2] at hf; cases hf
  · exact h

theorem accessMade_of_envTick {a : BusAccess} {u : State} (hn : NoReset s) (hbus : u.bus = (envTick s).bus ++ [a])
    (hcfg : u.cfg = (envTick s).cfg) (htopo : u.topo = (envTick s).topo) (hresp : u.resp = (envTick s).resp)
    (henv : u.env = (envTick s).env) : AccessMade a s (envTick u) := by
  obtain ⟨m, n, c, e⟩ := envTick_of_noReset (resetComing_of_noReset hn)
  rw [e] at hbus hcfg htopo hresp henv
  have hnu : NoReset u := by
    rw [NoReset, henv]
    exact fun b hb => hn b (List.mem_of_mem_tail hb)
  obtain ⟨m', n', c', e'⟩ := envTick_of_noReset (resetComing_of_noReset hnu)
  rw [e']
  exact ⟨hbus, hcfg, htopo, hresp, fun b hb => hnu b (List.mem_of_mem_tail hb)⟩

theorem winRead_noReset {w off : Nat} (hn : NoReset s) (hok : accessOk s.cfg w off = true) :
    ∃ v t, winRead w off s = .ok v t ∧ AccessMade (.read w off v) s t :=
  ⟨_, _, access_noReset hn hok fun _ => rfl, accessMade_of_envTick hn rfl rfl rfl rfl rfl⟩

theorem winWrite_noReset {w off : Nat} {v : Word} (hn : NoReset s) (hok : accessOk s.cfg w off = true) :
    ∃ t, winWrite w off v s = .ok () t ∧ AccessMade (.write w off v) s t :=
  ⟨_, access_noReset hn hok fun _ => rfl, accessMade_of_envTick hn rfl rfl rfl rfl rfl⟩

/-- Settles O39: three accesses, each made whatever moves stand between them. -/
theorem enableOrderHoldsInEveryEnvironment : Obligations.EnableOrderHoldsInEveryEnvironment := by
  intro s pin l isw iew hl hn hfind hisw hiew hok hok'
  subst hisw hiew
  obtain ⟨t1, h1, a1⟩ := winWrite_noReset (s := takeCommand (.command (.enable pin)) s) (v := bit l.o) hn hok
  obtain ⟨v, t2, h2, a2⟩ := winRead_noReset (s := t1) a1.noReset (by rw [a1.cfg]; exact hok')
  obtain ⟨t3, h3, a3⟩ := winWrite_noReset (s := t2) (v := v ||| bit l.o) a2.noReset (by rw [a2.cfg, a1.cfg]; exact hok')
  have hb : enableBody pin.toNat (takeCommand (.command (.enable pin)) s) = .ok .ok t3 := by
    simp only [enableBody, M.bind_ok (locate_of_some (s := takeCommand (.command (.enable pin)) s) hfind), M.bind_ok h1]
    rw [winModify, M.bind_assoc, M.bind_ok h2]
    exact M.bind_ok h3
  refine ⟨_, v, (runsBody_enable hl).ok hb, ?_, ?_⟩
  · rw [respond_resp, a3.resp, a2.resp, a1.resp]
    rfl
  · rw [respond_bus, a3.bus, a2.bus, a1.bus, takeCommand_bus, List.append_assoc, List.append_assoc]
    rfl

end Sys2Proof.Machine

/-! PROOFS. Sweeps over the topology with no outside move: the loop rules, and what a sweep that writes registers leaves
(43_context.md R210; 20_memory.md R76). -/

namespace Sys2Proof.Machine

variable {s t u : State}

/-! ## Loops that go through -/

/-- A loop each of whose turns goes through goes through; `I d` is what holds after the turns `d`. -/
theorem M.each_ok {α : Type} {f : α → M Unit} {I : List α → State → Prop} {xs : List α} {d : List α} {s : State}
    (h0 : I d s)
    (hstep : ∀ d' x r t, d' ++ x :: r = d ++ xs → x ∈ xs → I d' t → ∃ u, f x t = .ok () u ∧ I (d' ++ [x]) u) :
    ∃ u, M.each xs f s = .ok () u ∧ I (d ++ xs) u := by
  induction xs generalizing d s with
  | nil => exact ⟨s, rfl, by rwa [List.append_nil]⟩
  | cons x xs ih =>
    obtain ⟨t, ht, hI⟩ := hstep d x xs s rfl List.mem_cons_self h0
    obtain ⟨u, hu, hI'⟩ := ih hI fun d' y r v hd hy => hstep d' y r v (by rw [hd, List.append_assoc]; rfl)
      (List.mem_cons_of_mem _ hy)
    refine ⟨u, ?_, ?_⟩
    · rw [M.each_cons, M.bind_ok ht, hu]
    · rwa [List.append_assoc] at hI'

/-- The same for a loop that carries a value. -/
theorem M.fold_ok {α β : Type} {f : β → α → M β} {I : List α → β → State → Prop} {xs : List α} {d : List α} {b : β}
    {s : State} (h0 : I d b s)
    (hstep : ∀ d' x r b t, d' ++ x :: r = d ++ xs → x ∈ xs → I d' b t → ∃ b' u, f b x t = .ok b' u ∧ I (d' ++ [x]) b' u) :
    ∃ b' u, M.fold xs b f s = .ok b' u ∧ I (d ++ xs) b' u := by
  induction xs generalizing d b s with
  | nil => exact ⟨b, s, rfl, by rwa [List.append_nil]⟩
  | cons x xs ih =>
    obtain ⟨b1, t, ht, hI⟩ := hstep d x xs b s rfl List.mem_cons_self h0
    obtain ⟨b2, u, hu, hI'⟩ := ih hI fun d' y r b v hd hy => hstep d' y r b v (by rw [hd, List.append_assoc]; rfl)
      (List.mem_cons_of_mem _ hy)
    refine ⟨b2, u, ?_, ?_⟩
    · rw [M.fold_cons, M.bind_ok ht, hu]
    · rwa [List.append_assoc] at hI'

/-- Two nested loops with their moves of the sequencer: one loop over the turns `key a b` in order. -/
theorem M.each_nested_ok {α β γ : Type} {xs : List α} {items : α → List β} {key : α → β → γ} {out : α → Position → Position}
    {inn : β → Position → Position} {body : α → β → M Unit} {I : List γ → State → Prop} {d : List γ} {s : State}
    (hstand : ∀ d g t, I d t → I d (standAt g t)) (h0 : I d s)
    (hstep : ∀ d' a b r t, d' ++ key a b :: r = d ++ (xs.flatMap fun a => (items a).map (key a)) → a ∈ xs → b ∈ items a →
      I d' t → ∃ u, body a b t = .ok () u ∧ I (d' ++ [key a b]) u) :
    ∃ u, M.each xs (fun a => M.bind (M.stand (out a)) fun _ => M.each (items a) fun b =>
        M.bind (M.stand (inn b)) fun _ => body a b) s = .ok () u ∧
      I (d ++ xs.flatMap fun a => (items a).map (key a)) u := by
  induction xs generalizing d s with
  | nil => exact ⟨s, rfl, by rwa [List.flatMap_nil, List.append_nil]⟩
  | cons a xs ih =>
    obtain ⟨t, ht, hI⟩ := M.each_ok (I := fun bs t => I (d ++ bs.map (key a)) t) (d := []) (xs := items a)
      (f := fun b => M.bind (M.stand (inn b)) fun _ => body a b) (s := standAt (out a) s)
      (by simpa using hstand d _ s h0) fun bs b r t hbs hb hI => by
        obtain ⟨u, hu, hI'⟩ := hstep (d ++ bs.map (key a)) a b
          (r.map (key a) ++ xs.flatMap fun a => (items a).map (key a)) (standAt (inn b) t)
          (by rw [List.flatMap_cons, ← List.nil_append (items a), ← hbs]; simp) List.mem_cons_self hb (hstand _ _ _ hI)
        exact ⟨u, hu, by simpa using hI'⟩
    obtain ⟨u, hu, hI'⟩ := ih hI fun d' b c r v hd hb hc => hstep d' b c r v
      (by rw [hd, List.flatMap_cons]; simp) (List.mem_cons_of_mem _ hb) hc
    refine ⟨u, ?_, ?_⟩
    · rw [M.each_cons, M.bind_assoc, M.bind_stand, M.bind_ok ht, hu]
    · rw [List.flatMap_cons]
      simpa using hI'

/-! ## The sweeps (R210) -/

/-- The pins of a topology with their communities, in sweep order. -/
def pinSweep (topo : List Community) : List (Community × Nat) := topo.flatMap fun c => c.pins.map fun p => (c, p)

theorem pinSweep_pins (topo : List Community) : (pinSweep topo).map Prod.snd = pinsOf topo := by
  simp [pinSweep, pinsOf, List.map_flatMap, Function.comp_def]

theorem mem_pinSweep {topo : List Community} {c : Community} {p : Nat} :
    (c, p) ∈ pinSweep topo ↔ c ∈ topo ∧ p ∈ c.pins := by
  simp [pinSweep]

/-- A group of a topology with its indexes and its community. -/
structure GroupAt where
  ci : Nat
  c : Community
  gi : Nat
  g : Group

/-- The groups of a topology, in sweep order. -/
def groupSweep (topo : List Community) : List GroupAt :=
  topo.zipIdx.flatMap fun c => c.1.groups.zipIdx.map fun g => ⟨c.2, c.1, g.2, g.1⟩

theorem mem_groupSweep {topo : List Community} {e : GroupAt} :
    e ∈ groupSweep topo ↔ topo[e.ci]? = some e.c ∧ e.c.groups[e.gi]? = some e.g := by
  obtain ⟨ci, c, gi, g⟩ := e
  simp only [groupSweep, List.mem_flatMap, List.mem_map, Prod.exists, List.mem_zipIdx_iff_getElem?, GroupAt.mk.injEq]
  constructor
  · rintro ⟨c', ci', hc, g', gi', hg, rfl, rfl, rfl, rfl⟩
    exact ⟨hc, hg⟩
  · rintro ⟨hc, hg⟩
    exact ⟨c, ci, hc, g, gi, hg, rfl, rfl, rfl, rfl⟩

/-- A list of one item a group, whatever the indexes. -/
theorem groupSweep_map {α : Type} (topo : List Community) (f : Community → Group → α) :
    ((groupSweep topo).map fun e => f e.c e.g) = topo.flatMap fun c => c.groups.map (f c) := by
  have hzip : ∀ {β γ : Type} (l : List β) (k : β → List γ), (l.zipIdx.flatMap fun x => k x.1) = l.flatMap k := by
    intro β γ l k
    rw [← List.flatMap_map Prod.fst k, List.zipIdx_map_fst]
  have hmap : ∀ c : Community, (c.groups.zipIdx.map fun g => f c g.1) = c.groups.map (f c) := by
    intro c
    conv => rhs; rw [← List.zipIdx_map_fst 0 c.groups, List.map_map]
    rfl
  simp only [groupSweep, List.map_flatMap, List.map_map, Function.comp_def, hmap]
  exact hzip topo fun c => c.groups.map (f c)

/-- A sweep over the pins each of whose turns goes through. -/
theorem eachPin_ok {f : Community → Nat → M Unit} {I : List (Community × Nat) → State → Prop}
    (hstand : ∀ d g t, I d t → I d (standAt g t)) (h0 : I [] s)
    (hstep : ∀ d c p r t, d ++ (c, p) :: r = pinSweep s.topo → I d t → ∃ u, f c p t = .ok () u ∧ I (d ++ [(c, p)]) u) :
    ∃ u, eachPin f s = .ok () u ∧ I (pinSweep s.topo) u := by
  have hlist : (s.topo.zipIdx.flatMap fun c => c.1.pins.map fun p => (c.1, p)) = pinSweep s.topo := by
    rw [pinSweep, ← List.zipIdx_map_fst 0 s.topo, List.flatMap_map, List.zipIdx_map_fst]
  obtain ⟨u, hu, hI⟩ := M.each_nested_ok (xs := s.topo.zipIdx) (items := fun c => c.1.pins) (key := fun c p => (c.1, p))
    (out := fun c => .atCommunity c.2) (inn := fun p => .atItem p) (body := fun c p => f c.1 p) (d := [])
    (s := standAt .nextLoop s) hstand (hstand _ _ _ h0)
    fun d c p r t hd _ _ hI => hstep d c.1 p r t (by rw [hd, hlist]; rfl) hI
  rw [hlist] at hI
  exact ⟨u, hu, hI⟩

/-- A sweep over the groups each of whose turns goes through. -/
theorem eachGroup_ok {f : Nat → Community → Nat → Group → M Unit} {I : List GroupAt → State → Prop}
    (hstand : ∀ d g t, I d t → I d (standAt g t)) (h0 : I [] s)
    (hstep : ∀ d e r t, d ++ e :: r = groupSweep s.topo → I d t → ∃ u, f e.ci e.c e.gi e.g t = .ok () u ∧ I (d ++ [e]) u) :
    ∃ u, eachGroup f s = .ok () u ∧ I (groupSweep s.topo) u := by
  obtain ⟨u, hu, hI⟩ := M.each_nested_ok (xs := s.topo.zipIdx) (items := fun c => c.1.groups.zipIdx)
    (key := fun c g => (⟨c.2, c.1, g.2, g.1⟩ : GroupAt)) (out := fun c => .atCommunity c.2) (inn := fun g => .atGroup g.2)
    (body := fun c g => f c.2 c.1 g.2 g.1) (d := []) (s := standAt .nextLoop s) hstand (hstand _ _ _ h0)
    fun d c g r t hd _ _ hI => hstep d _ r t hd hI
  exact ⟨u, hu, hI⟩

/-- A sweep over the registered pins: a turn of a pin that is not registered does nothing. -/
theorem eachRegistered_ok {f : Nat → M Unit} {I : List (Community × Nat) → State → Prop}
    (hstand : ∀ d g t, I d t → I d (standAt g t)) (h0 : I [] s)
    (hskip : ∀ d c p r t, d ++ (c, p) :: r = pinSweep s.topo → I d t → (slotOf t p).valid = false → I (d ++ [(c, p)]) t)
    (hstep : ∀ d c p r t, d ++ (c, p) :: r = pinSweep s.topo → I d t → (slotOf t p).valid = true →
      ∃ u, f p t = .ok () u ∧ I (d ++ [(c, p)]) u) :
    ∃ u, eachRegistered f s = .ok () u ∧ I (pinSweep s.topo) u := by
  refine eachPin_ok hstand h0 fun d c p r t hd hI => ?_
  rw [M.bind_look]
  cases hv : (slotOf t p).valid with
  | false => exact ⟨t, rfl, hskip d c p r t hd hI hv⟩
  | true => exact hstep d c p r t hd hI hv

/-! ## What a stretch that writes registers leaves -/

/-- From `s` to `t` only the windows, the record of transactions and the sequencer moved; the windows stayed canonical and
changed at most in the words `l`. -/
structure Moved (l : List (Nat × Nat)) (s t : State) : Prop where
  rest : t = { s with mem := t.mem, bus := t.bus, seq := t.seq }
  bus : ∃ b, t.bus = s.bus ++ b
  wf : t.mem.wf = true
  same : SameOutside s.mem t.mem l

namespace Moved

variable {l l' : List (Nat × Nat)}

theorem refl (h : s.mem.wf = true) : Moved l s s := ⟨rfl, ⟨[], (List.append_nil _).symm⟩, h, .refl _ _⟩

theorem trans (h : Moved l s t) (h' : Moved l t u) : Moved l s u := by
  obtain ⟨b, hb⟩ := h.bus
  obtain ⟨b', hb'⟩ := h'.bus
  refine ⟨?_, ⟨b ++ b', by rw [hb', hb, List.append_assoc]⟩, h'.wf, h.same.trans h'.same⟩
  rw [h'.rest, h.rest]

theorem mono (h : Moved l s t) (hl : ∀ x ∈ l, x ∈ l') : Moved l' s t := ⟨h.rest, h.bus, h.wf, h.same.mono hl⟩

theorem stand (h : Moved l s t) (g : Position → Position) : Moved l s (standAt g t) :=
  ⟨by rw [standAt, h.rest], h.bus, h.wf, h.same⟩

theorem cfg (h : Moved l s t) : t.cfg = s.cfg := by rw [h.rest]
theorem env (h : Moved l s t) : t.env = s.env := by rw [h.rest]
theorem topo (h : Moved l s t) : t.topo = s.topo := by rw [h.rest]
theorem slotOf (h : Moved l s t) (p : Nat) : slotOf t p = slotOf s p := by rw [h.rest]; rfl
theorem padOf (h : Moved l s t) (p : Nat) : padOf t p = padOf s p := by rw [h.rest]; rfl
theorem shadowOf (h : Moved l s t) (ci gi : Nat) : shadowOf t ci gi = shadowOf s ci gi := by rw [h.rest]; rfl
theorem trig (h : Moved l s t) : t.trig = s.trig := by rw [h.rest]

/-- A checked word outside the list reads as before. -/
theorem winWord (h : Moved l s t) (hl : Reachable s.cfg l) {w off : Nat} (hok : accessOk s.cfg w off = true)
    (hn : (w, off) ∉ l) : winWord t.mem w off = winWord s.mem w off := h.same.winWord hok hl hn

end Moved

/-- A read moves nothing of the windows. -/
theorem winRead_moved {w off : Nat} (henv : s.env = []) (hm : s.mem.wf = true) (hok : accessOk s.cfg w off = true) :
    ∃ t, winRead w off s = .ok (winWord s.mem w off) t ∧ Moved [] s t ∧ t.mem = s.mem :=
  ⟨_, winRead_quiet hok henv, ⟨rfl, ⟨[_], rfl⟩, hm, .refl _ _⟩, rfl⟩

/-- A write moves its word, by the pad rule. -/
theorem winWrite_moved {w off : Nat} (v : Word) (henv : s.env = []) (hm : s.mem.wf = true)
    (hok : accessOk s.cfg w off = true) :
    ∃ t, winWrite w off v s = .ok () t ∧ Moved [(w, off)] s t ∧
      winWord t.mem w off = padValue s.cfg w off (winWord s.mem w off) v :=
  ⟨_, winWrite_quiet hok henv, ⟨rfl, ⟨[_], rfl⟩, wf_padWrite _ _ _ _ _ hm,
    sameOutside_padWrite _ _ _ _ _ _ hm List.mem_cons_self⟩, winWord_padWrite _ _ _ _ _ hm⟩

/-! ## A sweep whose turns write disjoint registers -/

/-- After the turns `d`, each of which writes its registers `regs` only, `Post` holds for each of them. -/
structure Swept {γ : Type} (regs : γ → List (Nat × Nat)) (Post : γ → Memory → Prop) (s : State) (d : List γ)
    (t : State) : Prop where
  moved : Moved (d.flatMap regs) s t
  post : ∀ e ∈ d, Post e t.mem

section
variable {γ : Type} {regs : γ → List (Nat × Nat)} {Post : γ → Memory → Prop}

/-- `Post e` speaks of the registers of `e` only. -/
def Local (regs : γ → List (Nat × Nat)) (Post : γ → Memory → Prop) : Prop :=
  ∀ e m m', (∀ x ∈ regs e, winWord m' x.1 x.2 = winWord m x.1 x.2) → Post e m → Post e m'

theorem Swept.nil (h : s.mem.wf = true) : Swept regs Post s [] s := ⟨.refl h, nofun⟩

theorem Swept.stand {d : List γ} (h : Swept regs Post s d t) (g : Position → Position) :
    Swept regs Post s d (standAt g t) := ⟨h.moved.stand g, h.post⟩

section
variable {L d r : List γ} {e : γ} (hL : d ++ e :: r = L) (hdis : L.Pairwise fun a b => List.Disjoint (regs a) (regs b))
  (hreach : Reachable s.cfg (L.flatMap regs)) (h : Swept regs Post s d t)
include hL hdis hreach h

/-- A turn finds its registers as the sweep found them. -/
theorem Swept.fresh : ∀ x ∈ regs e, Machine.winWord t.mem x.1 x.2 = Machine.winWord s.mem x.1 x.2 := by
  intro x hx
  subst hL
  rw [List.pairwise_append] at hdis
  refine h.moved.winWord (fun y hy => hreach y ?_) (hreach x ?_) fun hxd => ?_
  · rw [List.flatMap_append]
    exact List.mem_append_left _ hy
  · rw [List.flatMap_append, List.flatMap_cons]
    exact List.mem_append_right _ (List.mem_append_left _ hx)
  · obtain ⟨e', he', hx'⟩ := List.mem_flatMap.mp hxd
    exact hdis.2.2 e' he' e List.mem_cons_self hx' hx

/-- A turn leaves what the turns before it did. -/
theorem Swept.snoc (hlocal : Local regs Post) (hu : Moved (regs e) t u) (hp : Post e u.mem) :
    Swept regs Post s (d ++ [e]) u := by
  subst hL
  rw [List.pairwise_append] at hdis
  have hcfg := h.moved.cfg
  refine ⟨(h.moved.mono fun x hx => ?_).trans (hu.mono fun x hx => ?_), fun e' he' => ?_⟩
  · rw [List.flatMap_append]
    exact List.mem_append_left _ hx
  · rw [List.flatMap_append, List.flatMap_singleton]
    exact List.mem_append_right _ hx
  · rcases List.mem_append.mp he' with he' | he'
    · refine hlocal e' _ _ (fun x hx => ?_) (h.post e' he')
      refine hu.winWord (fun y hy => ?_) ?_ fun hxe => hdis.2.2 e' he' e List.mem_cons_self hx hxe
      · rw [hcfg]
        exact hreach y (List.mem_flatMap.mpr ⟨e, by simp, hy⟩)
      · rw [hcfg]
        exact hreach x (List.mem_flatMap.mpr ⟨e', by simp [he'], hx⟩)
    · rw [List.mem_singleton.mp he']
      exact hp

end
end

/-! ## Words and their bytes -/

/-- Byte `k` of a word. -/
theorem extractLsb'_readWord (m : Memory) (a k : Nat) (hk : k < 4) :
    (readWord m a).extractLsb' (8 * k) 8 = Memory.get m (a + k) := by
  unfold readWord
  rcases (by omega : k = 0 ∨ k = 1 ∨ k = 2 ∨ k = 3) with rfl | rfl | rfl | rfl <;>
    simp (disch := decide) only [BitVec.extractLsb'_append_eq_of_le, BitVec.extractLsb'_append_eq_of_add_le,
      BitVec.extractLsb'_eq_self, Nat.reduceSub, Nat.reduceMul, Nat.add_zero]

/-- Equal words have equal bytes. -/
theorem get_of_winWord_eq {m m' : Memory} {w off a : Nat} (h : winWord m' w off = winWord m w off)
    (ha : winAddr w off ≤ a ∧ a < winAddr w off + 4) : Memory.get m' a = Memory.get m a := by
  have hk : a - winAddr w off < 4 := by omega
  have ea : winAddr w off + (a - winAddr w off) = a := by omega
  have h' := congrArg (BitVec.extractLsb' (8 * (a - winAddr w off)) 8) h
  rwa [winWord, winWord, extractLsb'_readWord _ _ _ hk, extractLsb'_readWord _ _ _ hk, ea] at h'

/-- Words that read the same take nothing out of the agreement of two memories. -/
theorem SameOutside.of_words {m m' : Memory} {l l' : List (Nat × Nat)} (h : SameOutside m m' (l ++ l'))
    (hw : ∀ x ∈ l', Machine.winWord m' x.1 x.2 = Machine.winWord m x.1 x.2) : SameOutside m m' l := by
  intro a ha
  by_cases hin : ∃ x ∈ l', winAddr x.1 x.2 ≤ a ∧ a < winAddr x.1 x.2 + 4
  · obtain ⟨x, hx, hxa⟩ := hin
    exact get_of_winWord_eq (hw x hx) hxa
  · refine h a fun x hx => ?_
    rcases List.mem_append.mp hx with hx | hx
    · exact ha x hx
    · by_contra hc
      exact hin ⟨x, hx, by omega⟩

end Sys2Proof.Machine

/-! PROOFS. CTXRESUME with no outside move: three sweeps over disjoint registers (43_context.md R215, R216). -/

namespace Sys2Proof.Machine

variable {s t u : State}

/-! ## Sweeps whose turns write disjoint registers -/

section
variable {Post : GroupAt → Memory → Prop} {regs : GroupAt → List (Nat × Nat)}
  {f : Nat → Community → Nat → Group → M Unit}

/-- A sweep over the groups, each of which writes its own registers. -/
theorem eachGroup_swept (hm : s.mem.wf = true)
    (hdis : (groupSweep s.topo).Pairwise fun a b => List.Disjoint (regs a) (regs b))
    (hreach : Reachable s.cfg ((groupSweep s.topo).flatMap regs)) (hlocal : Local regs Post)
    (hturn : ∀ e ∈ groupSweep s.topo, ∀ l t, Moved l s t →
      (∀ x ∈ regs e, winWord t.mem x.1 x.2 = winWord s.mem x.1 x.2) →
      ∃ u, f e.ci e.c e.gi e.g t = .ok () u ∧ Moved (regs e) t u ∧ Post e u.mem) :
    ∃ u, eachGroup f s = .ok () u ∧ Swept regs Post s (groupSweep s.topo) u := by
  refine eachGroup_ok (I := Swept regs Post s) (fun _ g _ h => h.stand g) (.nil hm) fun d e r t hd hI => ?_
  obtain ⟨u, hu, hmoved, hp⟩ := hturn e (by rw [← hd]; simp) _ t hI.moved (hI.fresh hd hdis hreach)
  exact ⟨u, hu, hI.snoc hd hdis hreach hlocal hmoved hp⟩

end

section
variable {Post : Community × Nat → Memory → Prop} {regs : Community × Nat → List (Nat × Nat)} {f : Community → Nat → M Unit}

/-- A sweep over the pins, each of which writes its own registers. -/
theorem eachPin_swept (hm : s.mem.wf = true)
    (hdis : (pinSweep s.topo).Pairwise fun a b => List.Disjoint (regs a) (regs b))
    (hreach : Reachable s.cfg ((pinSweep s.topo).flatMap regs)) (hlocal : Local regs Post)
    (hturn : ∀ e ∈ pinSweep s.topo, ∀ l t, Moved l s t →
      (∀ x ∈ regs e, winWord t.mem x.1 x.2 = winWord s.mem x.1 x.2) →
      ∃ u, f e.1 e.2 t = .ok () u ∧ Moved (regs e) t u ∧ Post e u.mem) :
    ∃ u, eachPin f s = .ok () u ∧ Swept regs Post s (pinSweep s.topo) u := by
  refine eachPin_ok (I := Swept regs Post s) (fun _ g _ h => h.stand g) (.nil hm) fun d c p r t hd hI => ?_
  obtain ⟨u, hu, hmoved, hp⟩ := hturn (c, p) (by rw [← hd]; simp) _ t hI.moved (hI.fresh hd hdis hreach)
  exact ⟨u, hu, hI.snoc hd hdis hreach hlocal hmoved hp⟩

end

/-! ## The registers of a topology, group by group and pin by pin -/

theorem map_pendReg (topo : List Community) : ((groupSweep topo).map fun e => pendReg e.c e.g) = pendRegs topo :=
  groupSweep_map topo pendReg

theorem map_enableReg (topo : List Community) : ((groupSweep topo).map fun e => enableReg e.c e.g) = enableRegs topo :=
  groupSweep_map topo enableReg

theorem flatMap_pinRegs (topo : List Community) :
    ((pinSweep topo).flatMap fun e => pinRegs e.1 e.2) = configRegs topo := by
  simp [pinSweep, configRegs, List.flatMap_assoc, List.flatMap_map]

theorem pendReg_mem {topo : List Community} {e : GroupAt} (h : e ∈ groupSweep topo) : pendReg e.c e.g ∈ pendRegs topo := by
  rw [← map_pendReg]
  exact List.mem_map_of_mem h

theorem enableReg_mem {topo : List Community} {e : GroupAt} (h : e ∈ groupSweep topo) :
    enableReg e.c e.g ∈ enableRegs topo := by
  rw [← map_enableReg]
  exact List.mem_map_of_mem h

theorem pinRegs_mem {topo : List Community} {e : Community × Nat} (h : e ∈ pinSweep topo) {x : Nat × Nat}
    (hx : x ∈ pinRegs e.1 e.2) : x ∈ configRegs topo := by
  rw [← flatMap_pinRegs]
  exact List.mem_flatMap.mpr ⟨e, h, hx⟩

/-- A group of the topology is swept. -/
theorem mem_groupSweep_of_mem {topo : List Community} {c : Community} {g : Group} (hc : c ∈ topo) (hg : g ∈ c.groups) :
    ∃ e ∈ groupSweep topo, e.c = c ∧ e.g = g := by
  obtain ⟨ci, hci⟩ := List.getElem?_of_mem hc
  obtain ⟨gi, hgi⟩ := List.getElem?_of_mem hg
  exact ⟨⟨ci, c, gi, g⟩, mem_groupSweep.mpr ⟨hci, hgi⟩, rfl, rfl⟩

theorem cfg0_mem_pinRegs (c : Community) (p : Nat) : (c.barno, cfg0Off c p) ∈ pinRegs c p := by simp [pinRegs]

theorem cfg1_mem_pinRegs (c : Community) (p : Nat) : (c.barno, cfg1Off c p) ∈ pinRegs c p := by simp [pinRegs]

theorem cfg2_mem_pinRegs {c : Community} {p a : Nat} (h : cfgOff c p 2 = some a) : (c.barno, a) ∈ pinRegs c p := by
  simp [pinRegs, h]

/-- What `Separate` says of the words of two classes. -/
theorem Separate.pend_ne {s : State} (h : Separate s) {x y : Nat × Nat} (hx : x ∈ pendRegs s.topo)
    (hy : y ∈ enableRegs s.topo ++ configRegs s.topo ++ allGuardRegs s.cfg s.topo) : x ≠ y := by
  obtain ⟨-, -, -, hpend, hother, -⟩ := h
  rintro rfl
  have := (hpend x hx).symm.trans (hother x hy)
  cases this

/-! ## Step 1: mask, then clear every pending bit -/

/-- The words of a group's bank. -/
def bankRegs (e : GroupAt) : List (Nat × Nat) := [enableReg e.c e.g, pendReg e.c e.g]

/-- A group's bank words are clear. -/
def BankClear (e : GroupAt) (m : Memory) : Prop := ∀ x ∈ bankRegs e, winWord m x.1 x.2 = 0

theorem bankClear_local : Local bankRegs BankClear := fun _ _ _ hw h x hx => (hw x hx).trans (h x hx)

theorem mem_bankRegs {topo : List Community} {x : Nat × Nat} :
    x ∈ (groupSweep topo).flatMap bankRegs ↔ x ∈ pendRegs topo ∨ x ∈ enableRegs topo := by
  simp only [bankRegs, List.mem_flatMap, List.mem_cons, List.not_mem_nil, or_false, ← map_pendReg, ← map_enableReg,
    List.mem_map]
  grind

/-- The banks of two groups share no word. -/
theorem bankRegs_disjoint (hsep : Separate s) :
    (groupSweep s.topo).Pairwise fun a b => List.Disjoint (bankRegs a) (bankRegs b) := by
  have hne := fun a b (ha : a ∈ groupSweep s.topo) (hb : b ∈ groupSweep s.topo) =>
    hsep.pend_ne (pendReg_mem ha) (List.mem_append_left _ (List.mem_append_left _ (enableReg_mem hb)))
  obtain ⟨hpn, hen, -⟩ := hsep
  rw [← map_pendReg, List.Nodup, List.pairwise_map] at hpn
  rw [← map_enableReg, List.Nodup, List.pairwise_map] at hen
  refine (hpn.and hen).imp_of_mem fun {a b} ha hb hab => ?_
  simp only [bankRegs, List.disjoint_cons_left, List.mem_cons, List.not_mem_nil, or_false, not_or]
  exact ⟨⟨hab.2, (hne b a hb ha).symm⟩, ⟨hne a b ha hb, hab.1⟩, List.disjoint_nil_left _⟩

/-- Masking a group and clearing its pending bits (R215). -/
theorem baselineGroup_quiet {ci gi : Nat} {c : Community} {g : Group} (henv : s.env = []) (hm : s.mem.wf = true)
    (hok : Reachable s.cfg (bankRegs ⟨ci, c, gi, g⟩)) (hp : isPendingWord s.cfg (pendReg c g).1 (pendReg c g).2 = true)
    (he : isPendingWord s.cfg (enableReg c g).1 (enableReg c g).2 = false) :
    ∃ u, baselineGroup ci c gi g s = .ok () u ∧ Moved (bankRegs ⟨ci, c, gi, g⟩) s u ∧ BankClear ⟨ci, c, gi, g⟩ u.mem := by
  have hoe := hok (enableReg c g) (by simp [bankRegs])
  have hop := hok (pendReg c g) (by simp [bankRegs])
  obtain ⟨t, ht, hst, hwt⟩ := winWrite_moved 0 henv hm hoe
  obtain ⟨u, hu, htu, hwu⟩ := winWrite_moved (s := t) 0xFFFFFFFF (hst.env.trans henv) hst.wf (by rwa [hst.cfg])
  have hne : enableReg c g ≠ pendReg c g := by
    intro h
    rw [h, hp] at he
    cases he
  refine ⟨u, ?_, (hst.mono (by simp [bankRegs])).trans (htu.mono (by simp [bankRegs])), fun x hx => ?_⟩
  · exact (M.bind_ok ht).trans hu
  · simp only [bankRegs, List.mem_cons, List.not_mem_nil, or_false] at hx
    rcases hx with rfl | rfl
    · rw [htu.winWord (by rw [hst.cfg]; intro y hy; rw [List.mem_singleton.mp hy]; exact hop) (by rwa [hst.cfg])
        (by simpa using hne), hwt, padValue_other he]
    · rw [hwu, hst.cfg, padValue_pending hp]
      exact BitVec.and_zero

/-! ## Step 2: write back the registers that differ -/

/-- What step 2 leaves in a register that held `cur`. -/
def restoredWord (clean : Word → Word) (cur sh : Word) : Word := if clean cur = sh then cur else sh

theorem restoredWord_id (cur sh : Word) : restoredWord id cur sh = sh := by
  unfold restoredWord
  split
  · assumption
  · rfl

theorem restoreReg_quiet {w off : Nat} {clean : Word → Word} {sh : Word} (henv : s.env = []) (hm : s.mem.wf = true)
    (hok : accessOk s.cfg w off = true) (hp : isPendingWord s.cfg w off = false) :
    ∃ u, restoreReg w off clean sh s = .ok () u ∧ Moved [(w, off)] s u ∧
      winWord u.mem w off = restoredWord clean (winWord s.mem w off) sh := by
  obtain ⟨t, ht, hst, hmem⟩ := winRead_moved henv hm hok
  rw [restoreReg, M.bind_ok ht, restoredWord]
  split
  · exact ⟨t, rfl, hst.mono nofun, by rw [hmem]⟩
  · obtain ⟨u, hu, htu, hw⟩ := winWrite_moved sh (hst.env.trans henv) hst.wf (by rwa [hst.cfg])
    exact ⟨u, hu, (hst.mono nofun).trans htu, by rw [hw, padValue_other (by rwa [hst.cfg])]⟩

/-- The registers of the pin of `e` hold its shadow, where it is captured, and are as in `m0` else. -/
def Restored (s : State) (m0 : Memory) (e : Community × Nat) (m : Memory) : Prop :=
  ((padOf s e.2).captured = true →
    winWord m e.1.barno (cfg0Off e.1 e.2) =
      restoredWord (clearRxState s.cfg) (winWord m0 e.1.barno (cfg0Off e.1 e.2)) (padOf s e.2).cfg0 ∧
    winWord m e.1.barno (cfg1Off e.1 e.2) = (padOf s e.2).cfg1 ∧
    ∀ a, cfgOff e.1 e.2 2 = some a → winWord m e.1.barno a = (padOf s e.2).cfg2) ∧
  ((padOf s e.2).captured = false → ∀ x ∈ pinRegs e.1 e.2, winWord m x.1 x.2 = winWord m0 x.1 x.2)

theorem restored_local (s : State) (m0 : Memory) : Local (fun e => pinRegs e.1 e.2) (Restored s m0) := by
  intro e m m' hw h
  refine ⟨fun hk => ?_, fun hk x hx => (hw x hx).trans (h.2 hk x hx)⟩
  obtain ⟨h0, h1, h2⟩ := h.1 hk
  exact ⟨(hw _ (cfg0_mem_pinRegs _ _)).trans h0, (hw _ (cfg1_mem_pinRegs _ _)).trans h1,
    fun a ha => (hw _ (cfg2_mem_pinRegs ha)).trans (h2 a ha)⟩

/-- A stretch that goes through, then a stretch over other registers: both did what they did. -/
theorem Moved.kept_then {l l' : List (Nat × Nat)} (h : Moved l s t) (h' : Moved l' t u) {w off : Nat} {v : Word}
    (hv : Machine.winWord t.mem w off = v) (hok : Reachable s.cfg ((w, off) :: l')) (hn : (w, off) ∉ l') :
    Machine.winWord u.mem w off = v := by
  rw [← hv]
  exact h'.winWord (by rw [h.cfg]; exact fun x hx => hok x (List.mem_cons_of_mem _ hx))
    (by rw [h.cfg]; exact hok _ List.mem_cons_self) hn

theorem restorePin_quiet {c : Community} {p : Nat} (henv : s.env = []) (hm : s.mem.wf = true)
    (hok : Reachable s.cfg (pinRegs c p)) (hp : ∀ x ∈ pinRegs c p, isPendingWord s.cfg x.1 x.2 = false)
    (hnd : (pinRegs c p).Nodup) :
    ∃ u, restorePin c p s = .ok () u ∧ Moved (pinRegs c p) s u ∧ Restored s s.mem (c, p) u.mem := by
  unfold restorePin
  rw [M.bind_look]
  cases hk : (padOf s p).captured with
  | false => exact ⟨s, by simp, .refl hm, by simp [Restored, hk]⟩
  | true =>
    have h0 := cfg0_mem_pinRegs c p
    have h1 := cfg1_mem_pinRegs c p
    have hsub : ∀ x ∈ pinRegs c p, ∀ y ∈ pinRegs c p, Reachable s.cfg [x, y] := by
      intro x hx y hy z hz
      rcases List.mem_pair.mp hz with rfl | rfl
      · exact hok _ hx
      · exact hok _ hy
    obtain ⟨t0, ht0, m0, w0⟩ := restoreReg_quiet (clean := clearRxState s.cfg) (sh := (padOf s p).cfg0) henv hm
      (hok _ h0) (hp _ h0)
    obtain ⟨t1, ht1, m1, w1⟩ := restoreReg_quiet (clean := id) (sh := (padOf s p).cfg1) (m0.env.trans henv) m0.wf
      (by rw [m0.cfg]; exact hok _ h1) (by rw [m0.cfg]; exact hp _ h1)
    rw [restoredWord_id] at w1
    have hne : (c.barno, cfg0Off c p) ≠ (c.barno, cfg1Off c p) := by
      simp [cfg0Off, cfg1Off]
    have w0' := m0.kept_then m1 w0 (hsub _ h0 _ h1) (by simpa using hne)
    have m01 : Moved (pinRegs c p) s t1 := (m0.mono (by simpa using h0)).trans (m1.mono (by simpa using h1))
    simp only [if_true]
    rw [M.bind_ok ht0, M.bind_ok ht1]
    cases h2 : cfgOff c p 2 with
    | none => exact ⟨t1, rfl, m01, fun _ => ⟨w0', w1, by simp [h2]⟩, by simp [hk]⟩
    | some a =>
      have ha := cfg2_mem_pinRegs h2
      obtain ⟨t2, ht2, m2, w2⟩ := restoreReg_quiet (clean := id) (sh := (padOf s p).cfg2) (m01.env.trans henv) m01.wf
        (by rw [m01.cfg]; exact hok _ ha) (by rw [m01.cfg]; exact hp _ ha)
      rw [restoredWord_id] at w2
      simp only [pinRegs, h2, List.nodup_cons, List.mem_cons, List.not_mem_nil, or_false, not_or] at hnd
      obtain ⟨⟨-, hn0⟩, hn1, -⟩ := hnd
      refine ⟨t2, ht2, m01.trans (m2.mono (by simpa using ha)), fun _ => ⟨?_, ?_, fun b hb => ?_⟩, by simp [hk]⟩
      · exact m01.kept_then m2 w0' (hsub _ h0 _ ha) (by simpa using hn0)
      · exact m01.kept_then m2 w1 (hsub _ h1 _ ha) (by simpa using hn1)
      · rw [h2, Option.some.injEq] at hb
        rw [← hb, w2]

/-! ## Step 3: the captured enable words -/

/-- A group's enable word is its shadow. -/
def EnableShadowed (s : State) (e : GroupAt) (m : Memory) : Prop :=
  winWord m (enableReg e.c e.g).1 (enableReg e.c e.g).2 = shadowOf s e.ci e.gi

theorem restoreGroup_quiet {ci gi : Nat} {c : Community} {g : Group} (henv : s.env = []) (hm : s.mem.wf = true)
    (hok : accessOk s.cfg (enableReg c g).1 (enableReg c g).2 = true)
    (he : isPendingWord s.cfg (enableReg c g).1 (enableReg c g).2 = false) :
    ∃ u, restoreGroup ci c gi g s = .ok () u ∧ Moved [enableReg c g] s u ∧ EnableShadowed s ⟨ci, c, gi, g⟩ u.mem := by
  obtain ⟨u, hu, hsu, hw⟩ := winWrite_moved (shadowOf s ci gi) henv hm hok
  exact ⟨u, hu, hsu, hw.trans (padValue_other he _ _)⟩

/-! ## The whole of the body -/

/-- What CTXRESUME leaves in the windows. -/
structure Resumed (s : State) (m : Memory) : Prop where
  pend : ∀ x ∈ pendRegs s.topo, winWord m x.1 x.2 = 0
  enable : ∀ e ∈ groupSweep s.topo, EnableShadowed s e m
  config : ∀ e ∈ pinSweep s.topo, Restored s s.mem e m


section
variable (henv : s.env = []) (hm : s.mem.wf = true) (hsep : Separate s)
include henv hm hsep

/-- Step 1 (R215). -/
theorem baselineSweep_quiet (hok : Reachable s.cfg (pendRegs s.topo ++ enableRegs s.topo)) :
    ∃ t, eachGroup baselineGroup s = .ok () t ∧ Moved (pendRegs s.topo ++ enableRegs s.topo) s t ∧
      ∀ x ∈ pendRegs s.topo, winWord t.mem x.1 x.2 = 0 := by
  have hreach : Reachable s.cfg ((groupSweep s.topo).flatMap bankRegs) := fun x hx =>
    hok x (List.mem_append.mpr (mem_bankRegs.mp hx))
  obtain ⟨t, ht, hswept⟩ := eachGroup_swept (f := baselineGroup) hm (bankRegs_disjoint hsep) hreach bankClear_local
    fun e he l t hst _ => by
      obtain ⟨-, -, -, hpend, hother, -⟩ := hsep
      refine baselineGroup_quiet (hst.env.trans henv) hst.wf ?_ ?_ ?_ <;> rw [hst.cfg]
      · exact fun x hx => hreach x (List.mem_flatMap.mpr ⟨e, he, hx⟩)
      · exact hpend _ (pendReg_mem he)
      · exact hother _ (List.mem_append_left _ (List.mem_append_left _ (enableReg_mem he)))
  refine ⟨t, ht, hswept.moved.mono fun x hx => List.mem_append.mpr (mem_bankRegs.mp hx), fun x hx => ?_⟩
  rw [← map_pendReg] at hx
  obtain ⟨e, he, rfl⟩ := List.mem_map.mp hx
  exact hswept.post e he _ (by simp [bankRegs])

/-- Step 2 (R215). -/
theorem restoreSweep_quiet (hok : Reachable s.cfg (configRegs s.topo)) :
    ∃ t, eachPin restorePin s = .ok () t ∧ Moved (configRegs s.topo) s t ∧
      ∀ e ∈ pinSweep s.topo, Restored s s.mem e t.mem := by
  obtain ⟨-, -, hnd, -, hother, -⟩ := hsep
  rw [← flatMap_pinRegs] at hok hnd
  obtain ⟨hnd1, hdis⟩ := List.nodup_flatMap.mp hnd
  obtain ⟨t, ht, hswept⟩ := eachPin_swept (f := restorePin) hm hdis hok (restored_local s s.mem) fun e he l t hst hfresh => by
    have hin : ∀ x ∈ pinRegs e.1 e.2, x ∈ configRegs s.topo := fun x hx => pinRegs_mem he hx
    obtain ⟨u, hu, htu, hr⟩ := restorePin_quiet (c := e.1) (p := e.2) (hst.env.trans henv) hst.wf
      (by rw [hst.cfg]; exact fun x hx => hok x (List.mem_flatMap.mpr ⟨e, he, hx⟩))
      (by rw [hst.cfg]
          exact fun x hx => hother x (List.mem_append_left _ (List.mem_append_right _ (hin x hx)))) (hnd1 e he)
    refine ⟨u, hu, htu, ?_⟩
    obtain ⟨hcap, hkept⟩ := hr
    rw [hst.padOf, hst.cfg, hfresh _ (cfg0_mem_pinRegs _ _)] at hcap
    rw [hst.padOf] at hkept
    exact ⟨hcap, fun hk x hx => (hkept hk x hx).trans (hfresh x hx)⟩
  exact ⟨t, ht, by rw [← flatMap_pinRegs]; exact hswept.moved, hswept.post⟩

/-- Step 3 (R215). -/
theorem shadowSweep_quiet (hok : Reachable s.cfg (enableRegs s.topo)) :
    ∃ t, eachGroup restoreGroup s = .ok () t ∧ Moved (enableRegs s.topo) s t ∧
      ∀ e ∈ groupSweep s.topo, EnableShadowed s e t.mem := by
  obtain ⟨-, hnd, -, -, hother, -⟩ := hsep
  have hflat : (groupSweep s.topo).flatMap (fun e => [enableReg e.c e.g]) = enableRegs s.topo := by
    rw [← map_enableReg, List.map_eq_flatMap]
  obtain ⟨t, ht, hswept⟩ := eachGroup_swept (f := restoreGroup) (regs := fun e => [enableReg e.c e.g])
    (Post := EnableShadowed s) hm
    (by rw [← map_enableReg, List.Nodup, List.pairwise_map] at hnd; exact hnd.imp fun h => by simpa using h.symm)
    (by rwa [hflat]) (fun e m m' hw h => (hw _ List.mem_cons_self).trans h) fun e he l t hst _ => by
      obtain ⟨u, hu, htu, hr⟩ := restoreGroup_quiet (ci := e.ci) (gi := e.gi) (c := e.c) (g := e.g)
        (hst.env.trans henv) hst.wf (by rw [hst.cfg]; exact hok _ (enableReg_mem he))
        (by rw [hst.cfg]; exact hother _ (List.mem_append_left _ (List.mem_append_left _ (enableReg_mem he))))
      exact ⟨u, hu, htu, by rwa [EnableShadowed, hst.shadowOf] at hr⟩
  exact ⟨t, ht, by rw [← hflat]; exact hswept.moved, hswept.post⟩

end

theorem Moved.separate {l : List (Nat × Nat)} (h : Moved l s t) (hsep : Separate s) : Separate t := by
  unfold Separate
  rw [h.topo, h.cfg]
  exact hsep

theorem ctxResumeBody_quiet (henv : s.env = []) (hm : s.mem.wf = true) (hsep : Separate s)
    (hok : Reachable s.cfg (writableRegs s.topo)) :
    ∃ u, ctxResumeBody s = .ok () { u with cs := .idle } ∧ Moved (writableRegs s.topo) s u ∧ Resumed s u.mem := by
  have hpe : ∀ x ∈ pendRegs s.topo ++ enableRegs s.topo, x ∈ writableRegs s.topo := fun x hx => List.mem_append_left _ hx
  have hp : ∀ x ∈ pendRegs s.topo, x ∈ writableRegs s.topo := fun x hx => hpe x (List.mem_append_left _ hx)
  have he : ∀ x ∈ enableRegs s.topo, x ∈ writableRegs s.topo := fun x hx => hpe x (List.mem_append_right _ hx)
  have hc : ∀ x ∈ configRegs s.topo, x ∈ writableRegs s.topo := fun x hx => List.mem_append_right _ hx
  have hpne : ∀ x ∈ pendRegs s.topo, x ∉ enableRegs s.topo ++ configRegs s.topo := fun x hx hx' =>
    hsep.pend_ne hx (List.mem_append_left _ hx') rfl
  have hcne : ∀ x ∈ configRegs s.topo, x ∉ pendRegs s.topo ++ enableRegs s.topo := by
    intro x hx hx'
    rcases List.mem_append.mp hx' with hx' | hx'
    · exact hpne x hx' (List.mem_append_right _ hx)
    · exact hsep.2.2.2.2.2.1 x hx' (List.mem_append_left _ hx)
  obtain ⟨t1, ht1, m1, w1⟩ := baselineSweep_quiet henv hm hsep fun x hx => hok x (hpe x hx)
  obtain ⟨t2, ht2, m2, w2⟩ := restoreSweep_quiet (m1.env.trans henv) m1.wf (m1.separate hsep)
    (by rw [m1.topo, m1.cfg]; exact fun x hx => hok x (hc x hx))
  rw [m1.topo] at m2 w2
  have m12 := (m1.mono hpe).trans (m2.mono hc)
  obtain ⟨u, hu, m3, w3⟩ := shadowSweep_quiet (m12.env.trans henv) m12.wf (m12.separate hsep)
    (by rw [m12.topo, m12.cfg]; exact fun x hx => hok x (he x hx))
  rw [m12.topo] at m3 w3
  have hkeep : ∀ {x : Nat × Nat} {l : List (Nat × Nat)}, x ∈ writableRegs s.topo → (∀ y ∈ l, y ∈ writableRegs s.topo) →
      Reachable s.cfg ((x.1, x.2) :: l) := by
    intro x l hx hl y hy
    rcases List.mem_cons.mp hy with rfl | hy
    · exact hok _ hx
    · exact hok _ (hl y hy)
  refine ⟨u, ?_, m12.trans (m3.mono he), fun x hx => ?_, fun e hin => ?_, fun e hin => ?_⟩
  · rw [ctxResumeBody, M.bind_ok ht1, M.bind_ok ht2, M.bind_ok hu]
    rfl
  · have h2 := m1.kept_then m2 (w1 x hx) (hkeep (hp x hx) hc) fun h => hpne x hx (List.mem_append_right _ h)
    exact m12.kept_then m3 h2 (hkeep (hp x hx) he) fun h => hpne x hx (List.mem_append_left _ h)
  · have h := w3 e hin
    rwa [EnableShadowed, m12.shadowOf] at h
  · have hreg : ∀ x ∈ pinRegs e.1 e.2, x ∈ configRegs s.topo := fun x hx => pinRegs_mem hin hx
    refine restored_local s s.mem e t2.mem _ (fun x hx => ?_) ?_
    · exact m12.kept_then m3 rfl (hkeep (hc x (hreg x hx)) he) fun h =>
        hcne x (hreg x hx) (List.mem_append_right _ h)
    · have hfresh : ∀ x ∈ pinRegs e.1 e.2, winWord t1.mem x.1 x.2 = winWord s.mem x.1 x.2 := fun x hx =>
        m1.winWord (fun y hy => hok y (hpe y hy)) (hok x (hc x (hreg x hx))) (hcne x (hreg x hx))
      obtain ⟨hcap, hkept⟩ := w2 e hin
      rw [m1.padOf, m1.cfg, hfresh _ (cfg0_mem_pinRegs _ _)] at hcap
      rw [m1.padOf] at hkept
      exact ⟨hcap, fun hk x hx => (hkept hk x hx).trans (hfresh x hx)⟩

/-- CTXRESUME in one step (R215). -/
theorem exec_ctxresume_quiet (hl : s.lc = .started) (hcs : s.cs = .saved) (henv : s.env = []) (hm : s.mem.wf = true)
    (hsep : Separate s) (hok : Reachable s.cfg (writableRegs s.topo)) :
    ∃ m b, exec .ctxresume s = .next { answer s .ok 0 0 with cs := .idle, mem := m, bus := s.bus ++ b } ∧
      m.wf = true ∧ Resumed s m ∧ SameOutside s.mem m (writableRegs s.topo) := by
  obtain ⟨u, hu, hmoved, hres⟩ := ctxResumeBody_quiet (s := takeCommand (.command .ctxresume) s) henv hm hsep hok
  obtain ⟨b, hb⟩ := hmoved.bus
  have hx : exec .ctxresume s = _ := perform_legal rfl (by simp [legal, legalLc, legalCs, hl, hcs])
  refine ⟨u.mem, b, ?_, hmoved.wf, ⟨hres.pend, hres.enable, hres.config⟩, hmoved.same⟩
  rw [hx, done, M.bind_ok hu, hmoved.rest, hb]
  rfl

/-- Settles O49: the three sweeps of CTXRESUME, put together. -/
theorem resumeRestoresTheSnapshot : Obligations.ResumeRestoresTheSnapshot := by
  intro s hl hcs henv hm hsep hok
  obtain ⟨m, b, hx, -, ⟨hpend, henable, hconfig⟩, hsame⟩ := exec_ctxresume_quiet hl hcs henv hm hsep hok
  refine ⟨m, b, hx, fun c hc g hg => ?_, fun ci c gi g hci hgi => ?_, fun c hc p hp => ?_, fun c hc p hp => ?_, hsame⟩
  · obtain ⟨e, he, rfl, rfl⟩ := mem_groupSweep_of_mem hc hg
    exact hpend (pendReg e.c e.g) (pendReg_mem he)
  · exact henable ⟨ci, c, gi, g⟩ (mem_groupSweep.mpr ⟨hci, hgi⟩)
  · exact (hconfig (c, p) (mem_pinSweep.mpr ⟨hc, hp⟩)).1
  · exact (hconfig (c, p) (mem_pinSweep.mpr ⟨hc, hp⟩)).2

end Sys2Proof.Machine

/-! PROOFS. CTXSUSPEND with no outside move: the snapshot of the pins, then of the enable words (43_context.md R212 to
R214), and the round trip with CTXRESUME (R217). -/

namespace Sys2Proof.Machine

variable {s t u : State}

/-! ## Writing one shadow entry -/

theorem tableSet_tableSet {α : Type} (t : Table α) (p : Nat) (x y : α) :
    tableSet (tableSet t p x) p y = tableSet t p y := by
  simp only [tableSet, List.map_map]
  congr 1
  funext e
  simp only [Function.comp]
  split <;> simp

theorem padOf_of_some {p : Nat} {k : Pad} (h : tableGet s.pads p = some k) : padOf s p = k := by simp [padOf, h]

/-! ## One pin (R213, R214) -/

/-- R213 of a located pin. -/
def capturableOf (s : State) (c : Community) (g : Group) (p : Nat) : Bool :=
  isOwned s c g p && !isLocked s c g p && (slotOf s p).valid

/-- The shadow entry that the snapshot of a located pin makes of `old` (R212). -/
def snapshotOf (s : State) (c : Community) (g : Group) (p : Nat) (old : Pad) : Pad :=
  if capturableOf s c g p then
    { captured := true
      cfg0 := clearRxState s.cfg (winWord s.mem c.barno (cfg0Off c p))
      cfg1 := winWord s.mem c.barno (cfg1Off c p)
      cfg2 := match cfgOff c p 2 with
        | none => old.cfg2
        | some a => winWord s.mem c.barno a }
  else { old with captured := false }

theorem capturable_quiet {p ci gi : Nat} {c : Community} {g : Group} (hc : findCommunity s.topo p = some (ci, c))
    (hg : findGroup c p = some (gi, g)) (henv : s.env = []) (hok : Reachable s.cfg (guardRegsOf s.cfg c p g)) :
    ∃ b q, capturable p s = .ok (capturableOf s c g p) { s with bus := s.bus ++ b, seq := q } := by
  obtain ⟨b, q, ho⟩ := hostOwned_quiet hc hg henv hok
  rw [capturable, M.bind_ok ho, capturableOf]
  cases isOwned s c g p with
  | false => exact ⟨b, q, rfl⟩
  | true =>
    obtain ⟨b', q', hk⟩ := lockedPin_quiet (s := { s with bus := s.bus ++ b, seq := q }) hc hg henv hok
    have hk' : isLocked { s with bus := s.bus ++ b, seq := q } c g p = isLocked s c g p := rfl
    rw [hk'] at hk
    rw [if_pos rfl, M.bind_ok hk]
    refine ⟨b ++ b', q', ?_⟩
    cases isLocked s c g p <;> simp [slotOf]

/-- `s` after reads, the shadow entry of pin `p` being `k`. -/
def withPad (s : State) (p : Nat) (k : Pad) (b : List BusAccess) (q : Sequencer) : State :=
  { s with pads := tableSet s.pads p k, bus := s.bus ++ b, seq := q }

/-- A read taken into the shadow entry of a pin, then the rest. -/
theorem readIntoPad_quiet {p w off : Nat} {old k k' : Pad} {b : List BusAccess} {q : Sequencer} {rest : M Unit}
    (hold : tableGet s.pads p = some old) (henv : s.env = []) (hok : accessOk s.cfg w off = true)
    (f : Params → Word → Pad → Pad)
    (hrest : ∀ b q, ∃ b' q', rest (withPad s p (f s.cfg (winWord s.mem w off) k) b q) = .ok () (withPad s p k' b' q')) :
    ∃ b' q', M.bind (winRead w off) (fun v => M.bind (M.update fun t => setPad p (f t.cfg v) t) fun _ => rest)
        (withPad s p k b q) = .ok () (withPad s p k' b' q') := by
  obtain ⟨b', q', h⟩ := hrest (b ++ [.read w off (winWord s.mem w off)]) q.advance
  refine ⟨b', q', ?_⟩
  have hget : tableGet (tableSet s.pads p k) p = some k := by rw [tableGet_set_self, hold]; rfl
  rw [M.bind_ok (winRead_quiet (s := withPad s p k b q) hok henv), M.bind_update, ← h]
  simp only [withPad, setPad, record, padOf, hget, Option.getD_some, tableSet_tableSet, List.append_assoc]

theorem capturePin_quiet {p ci gi : Nat} {c : Community} {g : Group} {old : Pad}
    (hc : findCommunity s.topo p = some (ci, c)) (hg : findGroup c p = some (gi, g)) (henv : s.env = [])
    (hguard : Reachable s.cfg (guardRegsOf s.cfg c p g)) (hok : Reachable s.cfg (pinRegs c p))
    (hold : tableGet s.pads p = some old) :
    ∃ b q, capturePin c p s = .ok () (withPad s p (snapshotOf s c g p old) b q) := by
  obtain ⟨b, q, hk⟩ := capturable_quiet hc hg henv hguard
  have hset : setPad p (fun e => { e with captured := capturableOf s c g p }) { s with bus := s.bus ++ b, seq := q } =
      withPad s p { old with captured := capturableOf s c g p } b q := by
    simp [setPad, padOf, hold, withPad]
  rw [capturePin, M.bind_ok hk, M.bind_update, hset, snapshotOf]
  cases capturableOf s c g p with
  | false => exact ⟨b, q, rfl⟩
  | true =>
    refine readIntoPad_quiet hold henv (hok _ (cfg0_mem_pinRegs c p))
      (fun cfg v e => { e with cfg0 := clearRxState cfg v }) fun b q => ?_
    refine readIntoPad_quiet hold henv (hok _ (cfg1_mem_pinRegs c p)) (fun _ v e => { e with cfg1 := v }) fun b q => ?_
    cases h2 : cfgOff c p 2 with
    | none => exact ⟨b, q, rfl⟩
    | some a =>
      exact readIntoPad_quiet (rest := M.pure ()) hold henv (hok _ (cfg2_mem_pinRegs h2))
        (fun _ v e => { e with cfg2 := v }) fun b q => ⟨b, q, rfl⟩

/-! ## The sweep over the pins -/

/-- After the pins `d` of the sweep: their shadow entries are the snapshots, the others as before. -/
def PadsTaken (s : State) (d : List (Community × Nat)) (t : State) : Prop :=
  ∃ pads b q, t = { s with pads := pads, bus := s.bus ++ b, seq := q } ∧ pads.map Prod.fst = s.pads.map Prod.fst ∧
    (∀ e ∈ d, ∀ gi g old, findGroup e.1 e.2 = some (gi, g) → tableGet s.pads e.2 = some old →
      tableGet pads e.2 = some (snapshotOf s e.1 g e.2 old)) ∧
    ∀ p, p ∉ d.map Prod.snd → tableGet pads p = tableGet s.pads p

theorem PadsTaken.nil : PadsTaken s [] s := ⟨s.pads, [], s.seq, by simp, rfl, nofun, fun _ _ => rfl⟩

theorem PadsTaken.stand {d : List (Community × Nat)} (h : PadsTaken s d t) (g : Position → Position) :
    PadsTaken s d (standAt g t) := by
  obtain ⟨pads, b, q, rfl, h⟩ := h
  exact ⟨pads, b, _, rfl, h⟩

/-- What the claims about a snapshot assume: the pins are found, the registers reachable, and every pin has a shadow. -/
structure Snappable (s : State) : Prop where
  env : s.env = []
  tidy : Tidy s.topo
  reach : Reachable s.cfg (enableRegs s.topo ++ configRegs s.topo ++ allGuardRegs s.cfg s.topo)
  keys : s.pads.map Prod.fst = pinsOf s.topo
  rows : s.ieShadow.map List.length = s.topo.map fun c => c.groups.length

/-- A pin of a tidy topology is found there. -/
theorem Tidy.located {topo : List Community} (h : Tidy topo) {c : Community} {p : Nat} (hc : c ∈ topo) (hp : p ∈ c.pins) :
    ∃ ci gi g, findCommunity topo p = some (ci, c) ∧ findGroup c p = some (gi, g) := by
  obtain ⟨hfind, hgroup⟩ := h.2.1 c hc p hp
  obtain ⟨⟨ci, c'⟩, hc', rfl⟩ := Option.map_eq_some_iff.mp hfind
  obtain ⟨⟨gi, g⟩, hg⟩ := Option.isSome_iff_exists.mp hgroup
  exact ⟨ci, gi, g, hc', hg⟩

theorem guardRegsOf_mem {cfg : Params} {topo : List Community} {c : Community} {p gi : Nat} {g : Group} (hc : c ∈ topo)
    (hp : p ∈ c.pins) (hg : findGroup c p = some (gi, g)) {x : Nat × Nat} (hx : x ∈ guardRegsOf cfg c p g) :
    x ∈ allGuardRegs cfg topo :=
  List.mem_flatMap.mpr ⟨c, hc, List.mem_flatMap.mpr ⟨p, hp, by rwa [guardRegs, hg]⟩⟩

theorem capturePins_quiet (h : Snappable s) :
    ∃ t, eachPin capturePin s = .ok () t ∧ PadsTaken s (pinSweep s.topo) t := by
  refine eachPin_ok (I := PadsTaken s) (fun _ g _ h => h.stand g) .nil fun d c p r t hd hI => ?_
  obtain ⟨hc, hp⟩ := mem_pinSweep.mp (by rw [← hd]; simp : (c, p) ∈ pinSweep s.topo)
  obtain ⟨ci, gi, g, hfc, hfg⟩ := h.tidy.located hc hp
  have hnew : p ∉ d.map Prod.snd := by
    have hnd := h.tidy.1
    rw [← pinSweep_pins, ← hd, List.map_append, List.map_cons, List.nodup_append] at hnd
    exact fun hin => hnd.2.2 p hin p List.mem_cons_self rfl
  obtain ⟨pads, b, q, rfl, hkeys, hdone, hrest⟩ := hI
  obtain ⟨old, hold⟩ := Option.isSome_iff_exists.mp ((tableGet_isSome s.pads p).mpr
    (by rw [h.keys]; exact List.mem_flatMap.mpr ⟨c, hc, hp⟩))
  have hold' : tableGet pads p = some old := (hrest p hnew).trans hold
  obtain ⟨b', q', hx⟩ := capturePin_quiet (s := { s with pads := pads, bus := s.bus ++ b, seq := q }) hfc hfg h.env
    (fun x hx => h.reach x (List.mem_append_right _ (guardRegsOf_mem hc hp hfg hx)))
    (fun x hx => h.reach x (List.mem_append_left _ (List.mem_append_right _ (pinRegs_mem (mem_pinSweep.mpr ⟨hc, hp⟩) hx))))
    hold'
  refine ⟨_, hx, tableSet pads p (snapshotOf s c g p old), b ++ b', q', ?_, by rw [tableSet_keys, hkeys], ?_, ?_⟩
  · simp only [withPad, List.append_assoc]
    rfl
  · rintro e he gi' g' old' hg' hold2
    rcases List.mem_append.mp he with he | he
    · have hne : e.2 ≠ p := fun h => hnew (h ▸ List.mem_map_of_mem he)
      rw [tableGet_set_of_ne _ _ _ _ hne]
      exact hdone e he gi' g' old' hg' hold2
    · obtain rfl := List.mem_singleton.mp he
      rw [hfg] at hg'
      rw [hold] at hold2
      cases hg'
      cases hold2
      rw [tableGet_set_self, hold']
      rfl
  · intro p' hp'
    rw [List.map_append, List.mem_append, not_or] at hp'
    rw [tableGet_set_of_ne _ _ _ _ (by simpa using hp'.2)]
    exact hrest p' hp'.1

/-! ## The sweep over the groups -/

/-- The shadow word of group `gi` of community `ci`, if there is one. -/
def shadowAt (rows : List (List Word)) (ci gi : Nat) : Option Word := rows[ci]?.bind fun row => row[gi]?

/-- The enable word of the group of `e`. -/
def enableWordOf (s : State) (e : GroupAt) : Word := winWord s.mem e.c.barno (bankOff e.c.ieOff e.g.regNum)

/-- After the groups `d` of the sweep: their shadow words are the enable words. -/
def EnablesTaken (s : State) (d : List GroupAt) (t : State) : Prop :=
  ∃ rows b q, t = { s with ieShadow := rows, bus := s.bus ++ b, seq := q } ∧
    rows.map List.length = s.ieShadow.map List.length ∧ ∀ e ∈ d, shadowAt rows e.ci e.gi = some (enableWordOf s e)

theorem EnablesTaken.stand {d : List GroupAt} (h : EnablesTaken s d t) (g : Position → Position) :
    EnablesTaken s d (standAt g t) := by
  obtain ⟨rows, b, q, rfl, h⟩ := h
  exact ⟨rows, b, _, rfl, h⟩

theorem shadowAt_modify (rows : List (List Word)) (ci gi ci' gi' : Nat) (v : Word) :
    shadowAt (rows.modify ci fun row => row.set gi v) ci' gi' =
      if ci = ci' ∧ gi = gi' then (shadowAt rows ci gi).map fun _ => v else shadowAt rows ci' gi' := by
  unfold shadowAt
  rw [List.getElem?_modify]
  by_cases hc : ci = ci'
  · subst hc
    cases rows[ci]? with
    | none => simp
    | some row =>
      simp only [Option.bind_some, if_true, true_and]
      by_cases hg : gi = gi'
      · subst hg
        by_cases hl : gi < row.length <;> simp [hl]
      · simp [hg]
  · simp [hc]

/-- Rows of the right lengths have a word for every group. -/
theorem shadowAt_isSome {rows : List (List Word)} {topo : List Community} {e : GroupAt}
    (h : rows.map List.length = topo.map fun c => c.groups.length) (he : e ∈ groupSweep topo) :
    (shadowAt rows e.ci e.gi).isSome = true := by
  obtain ⟨hci, hgi⟩ := mem_groupSweep.mp he
  have hrow : (rows.map List.length)[e.ci]? = some e.c.groups.length := by rw [h, List.getElem?_map, hci]; rfl
  rw [List.getElem?_map, Option.map_eq_some_iff] at hrow
  obtain ⟨row, hr, hlen⟩ := hrow
  have hlt : e.gi < row.length := by rw [hlen]; exact (List.getElem?_eq_some_iff.mp hgi).1
  simp [shadowAt, hr, hlt]

/-- The indexes tell the groups of a topology apart. -/
theorem groupSweep_ext {topo : List Community} {e e' : GroupAt} (he : e ∈ groupSweep topo) (he' : e' ∈ groupSweep topo)
    (hc : e.ci = e'.ci) (hg : e.gi = e'.gi) : e = e' := by
  obtain ⟨ci, c, gi, g⟩ := e
  obtain ⟨ci', c', gi', g'⟩ := e'
  obtain ⟨h1, h2⟩ := mem_groupSweep.mp he
  obtain ⟨h1', h2'⟩ := mem_groupSweep.mp he'
  dsimp only at *
  subst hc hg
  rw [h1, Option.some.injEq] at h1'
  subst h1'
  rw [h2, Option.some.injEq] at h2'
  subst h2'
  rfl

theorem map_length_modify (rows : List (List Word)) (ci gi : Nat) (v : Word) :
    (rows.modify ci fun row => row.set gi v).map List.length = rows.map List.length := by
  apply List.ext_getElem?
  intro i
  simp only [List.getElem?_map, List.getElem?_modify]
  cases rows[i]? <;> simp
  split <;> simp

theorem captureGroups_quiet (h : Snappable s) :
    ∃ t, eachGroup captureGroup s = .ok () t ∧ EnablesTaken s (groupSweep s.topo) t := by
  refine eachGroup_ok (I := EnablesTaken s) (fun _ g _ h => h.stand g)
    ⟨s.ieShadow, [], s.seq, by simp, rfl, nofun⟩ fun d e r t hd hI => ?_
  have hin : ∀ e' ∈ d ++ e :: r, e' ∈ groupSweep s.topo := fun e' he' => by rwa [← hd]
  have he := hin e (by simp)
  obtain ⟨rows, b, q, rfl, hrows, hdone⟩ := hI
  have hok : accessOk s.cfg e.c.barno (bankOff e.c.ieOff e.g.regNum) = true :=
    h.reach _ (List.mem_append_left _ (List.mem_append_left _ (enableReg_mem he)))
  refine ⟨_, M.bind_ok (winRead_quiet hok h.env),
    rows.modify e.ci fun row => row.set e.gi (enableWordOf s e),
    b ++ [.read e.c.barno (bankOff e.c.ieOff e.g.regNum) (enableWordOf s e)], q.advance, ?_, ?_, fun e' he' => ?_⟩
  · simp only [setShadow, record, List.append_assoc]
    rfl
  · rw [map_length_modify, hrows]
  · rw [shadowAt_modify]
    split
    · rename_i heq
      rw [← groupSweep_ext he (hin e' (by simp only [List.mem_append, List.mem_cons, List.not_mem_nil, or_false] at he' ⊢; tauto)) heq.1 heq.2]
      obtain ⟨v, hv⟩ := Option.isSome_iff_exists.mp (shadowAt_isSome (hrows.trans h.rows) he)
      rw [hv]
      rfl
    · rename_i hne
      rcases List.mem_append.mp he' with he' | he'
      · exact hdone e' he'
      · rw [List.mem_singleton.mp he'] at hne
        exact absurd ⟨rfl, rfl⟩ hne

/-- Rows with a word for every group are the list of those words. -/
theorem rows_eq {rows : List (List Word)} {topo : List Community} (f : Community → Group → Word)
    (hlen : rows.map List.length = topo.map fun c => c.groups.length)
    (h : ∀ e ∈ groupSweep topo, shadowAt rows e.ci e.gi = some (f e.c e.g)) :
    rows = topo.map fun c => c.groups.map (f c) := by
  apply List.ext_getElem?
  intro ci
  have hci := congrArg (fun l : List Nat => l[ci]?) hlen
  simp only [List.getElem?_map] at hci ⊢
  cases hc : topo[ci]? with
  | none => simpa [hc] using hci
  | some c =>
    obtain ⟨row, hr, hl⟩ := Option.map_eq_some_iff.mp (hci.trans (by rw [hc]; rfl))
    rw [hr, Option.map_some, Option.some.injEq]
    apply List.ext_getElem?
    intro gi
    cases hg : c.groups[gi]? with
    | none =>
      rw [List.getElem?_map, hg, Option.map_none, List.getElem?_eq_none_iff, hl]
      exact List.getElem?_eq_none_iff.mp hg
    | some g =>
      have hw := h ⟨ci, c, gi, g⟩ (mem_groupSweep.mpr ⟨hc, hg⟩)
      rw [shadowAt, hr] at hw
      rw [List.getElem?_map, hg]
      exact hw

/-! ## The whole of the body -/

/-- What CTXSUSPEND leaves in the shadow tables. -/
structure Taken (s : State) (pads : Table Pad) (rows : List (List Word)) : Prop where
  keys : pads.map Prod.fst = pinsOf s.topo
  rows : rows = s.topo.map fun c => c.groups.map fun g => winWord s.mem c.barno (bankOff c.ieOff g.regNum)
  entry : ∀ c ∈ s.topo, ∀ p ∈ c.pins, ∀ gi g, findGroup c p = some (gi, g) → ∃ old,
    tableGet s.pads p = some old ∧ tableGet pads p = some (snapshotOf s c g p old)

theorem ctxSuspendBody_quiet (h : Snappable s) :
    ∃ pads rows b q, ctxSuspendBody s = .ok () { s with
        cs := .saved, pads := pads, ieShadow := rows, bus := s.bus ++ b, seq := q } ∧ Taken s pads rows := by
  obtain ⟨t, ht, pads, b, q, rfl, hkeys, hentry, -⟩ := capturePins_quiet h
  obtain ⟨u, hu, rows, b', q', rfl, hrows, hwords⟩ :=
    captureGroups_quiet (s := { s with pads := pads, bus := s.bus ++ b, seq := q })
      ⟨h.env, h.tidy, h.reach, hkeys.trans h.keys, h.rows⟩
  refine ⟨pads, rows, b ++ b', q', ?_, hkeys.trans h.keys, rows_eq _ (hrows.trans h.rows) hwords, fun c hc p hp gi g hg => ?_⟩
  · rw [ctxSuspendBody, M.bind_ok ht, M.bind_ok hu]
    simp
  · obtain ⟨old, hold⟩ := Option.isSome_iff_exists.mp ((tableGet_isSome s.pads p).mpr
      (by rw [h.keys]; exact List.mem_flatMap.mpr ⟨c, hc, hp⟩))
    exact ⟨old, hold, hentry (c, p) (mem_pinSweep.mpr ⟨hc, hp⟩) gi g old hg hold⟩

/-- The fields of a snapshot. -/
theorem snapshotOf_fields (s : State) (c : Community) (g : Group) (p : Nat) (old : Pad) :
    (snapshotOf s c g p old).captured = (isOwned s c g p && !isLocked s c g p && (slotOf s p).valid) ∧
    ((snapshotOf s c g p old).captured = true →
      (snapshotOf s c g p old).cfg0 = winWord s.mem c.barno (cfg0Off c p) &&& ~~~(bit s.cfg.rxStateBit.val) ∧
      (snapshotOf s c g p old).cfg1 = winWord s.mem c.barno (cfg1Off c p) ∧
      (∀ a, cfgOff c p 2 = some a → (snapshotOf s c g p old).cfg2 = winWord s.mem c.barno a) ∧
      (cfgOff c p 2 = none → (snapshotOf s c g p old).cfg2 = old.cfg2)) ∧
    ((snapshotOf s c g p old).captured = false →
      (snapshotOf s c g p old).cfg0 = old.cfg0 ∧ (snapshotOf s c g p old).cfg1 = old.cfg1 ∧
      (snapshotOf s c g p old).cfg2 = old.cfg2) := by
  unfold snapshotOf
  cases hk : capturableOf s c g p with
  | false => exact ⟨hk.symm, nofun, fun _ => ⟨rfl, rfl, rfl⟩⟩
  | true => exact ⟨hk.symm, fun _ => ⟨rfl, rfl, fun a ha => by simp [ha], fun ha => by simp [ha]⟩, nofun⟩

/-- CTXSUSPEND in one step (R212). -/
theorem exec_ctxsuspend_quiet (hl : s.lc = .started) (hcs : s.cs ≠ .none) (h : Snappable s) :
    ∃ pads rows b, exec .ctxsuspend s = .next { answer s .ok 0 0 with
      cs := .saved, pads := pads, ieShadow := rows, bus := s.bus ++ b } ∧ Taken s pads rows := by
  obtain ⟨pads, rows, b, q, hx, htaken⟩ :=
    ctxSuspendBody_quiet (s := takeCommand (.command .ctxsuspend) s) ⟨h.env, h.tidy, h.reach, h.keys, h.rows⟩
  have hrun : exec .ctxsuspend s = _ := perform_legal rfl (by
    cases hs : s.cs with
    | none => exact absurd hs hcs
    | idle | saved => simp [legal, legalLc, legalCs, hl, hs])
  refine ⟨pads, rows, b, ?_, htaken.keys, htaken.rows, htaken.entry⟩
  rw [hrun, done, M.bind_ok hx]
  rfl

/-- Settles O48: the entry of each pin is its snapshot. -/
theorem suspendTakesTheSnapshot : Obligations.SuspendTakesTheSnapshot := by
  intro s hl hcs henv htidy hreach hkeys hrows
  obtain ⟨pads, rows, b, hx, ht⟩ := exec_ctxsuspend_quiet hl hcs ⟨henv, htidy, hreach, hkeys, hrows⟩
  refine ⟨pads, rows, b, hx, ht.keys, ht.rows, fun c hc p hp gi g hg => ?_⟩
  obtain ⟨old, hold, hnew⟩ := ht.entry c hc p hp gi g hg
  exact ⟨old, _, hold, hnew, snapshotOf_fields s c g p old⟩

/-! ## Suspend, then resume (R217) -/

theorem mem_pinRegs {c : Community} {p : Nat} {x : Nat × Nat} (hx : x ∈ pinRegs c p) :
    x = (c.barno, cfg0Off c p) ∨ x = (c.barno, cfg1Off c p) ∨ ∃ a, cfgOff c p 2 = some a ∧ x = (c.barno, a) := by
  unfold pinRegs at hx
  cases h2 : cfgOff c p 2 with
  | none => simpa [h2] using hx
  | some a => simpa [h2] using hx

/-- Writing a snapshot back leaves the registers as they were when it was taken. -/
theorem Restored.of_snapshot {m : Memory} {c : Community} {p : Nat} {g : Group} {old : Pad}
    (h : Restored t s.mem (c, p) m) (hcfg : t.cfg = s.cfg)
    (hpad : padOf t p = snapshotOf s c g p old) : ∀ x ∈ pinRegs c p, winWord m x.1 x.2 = winWord s.mem x.1 x.2 := by
  obtain ⟨hcap, hkept⟩ := h
  obtain ⟨-, hf, -⟩ := snapshotOf_fields s c g p old
  rw [hpad, hcfg] at hcap
  rw [hpad] at hkept
  intro x hx
  cases hk : (snapshotOf s c g p old).captured with
  | false => exact hkept hk x hx
  | true =>
    obtain ⟨h0, h1, h2⟩ := hcap hk
    obtain ⟨f0, f1, f2, -⟩ := hf hk
    rcases mem_pinRegs hx with rfl | rfl | ⟨a, ha, rfl⟩
    · rw [h0, f0]
      exact if_pos rfl
    · rw [h1, f1]
    · rw [h2 a ha, f2 a ha]

theorem shadowOf_of_shadowAt {ci gi : Nat} {v : Word} (h : shadowAt s.ieShadow ci gi = some v) : shadowOf s ci gi = v := by
  unfold shadowAt at h
  unfold shadowOf
  cases hr : s.ieShadow[ci]? with
  | none => simp [hr] at h
  | some row =>
    rw [hr, Option.bind_some] at h
    simp [h]

/-- The shadow word of a group in a snapshot is its enable word. -/
theorem Taken.shadowOf {pads : Table Pad} {rows : List (List Word)} (h : Taken s pads rows) (ht : t.ieShadow = rows)
    {e : GroupAt} (he : e ∈ groupSweep s.topo) : shadowOf t e.ci e.gi = enableWordOf s e := by
  obtain ⟨hci, hgi⟩ := mem_groupSweep.mp he
  refine shadowOf_of_shadowAt ?_
  rw [ht, h.rows, shadowAt, List.getElem?_map, hci]
  simp [hgi, enableWordOf]

/-- Settles O50: CTXRESUME writes the snapshot that CTXSUSPEND took of the words it finds. -/
theorem suspendThenResumeIsARoundTrip : Obligations.SuspendThenResumeIsARoundTrip := by
  intro s hl hcs henv hm htidy hsep hok hkeys hrows
  have hreach : Reachable s.cfg (writableRegs s.topo) := fun x hx => hok x (List.mem_append_left _ hx)
  have hreach' : Reachable s.cfg (enableRegs s.topo ++ configRegs s.topo ++ allGuardRegs s.cfg s.topo) := fun x hx =>
    hok x (by simp only [List.mem_append] at hx ⊢; tauto)
  obtain ⟨pads, rows, b, hx, htaken⟩ := exec_ctxsuspend_quiet hl hcs ⟨henv, htidy, hreach', hkeys, hrows⟩
  obtain ⟨m, b', hy, hwf, ⟨hpend, henable, hconfig⟩, hsame⟩ := exec_ctxresume_quiet
    (s := { answer s .ok 0 0 with cs := .saved, pads := pads, ieShadow := rows, bus := s.bus ++ b }) hl rfl henv hm hsep hreach
  have hwords : ∀ x ∈ configRegs s.topo ++ enableRegs s.topo, winWord m x.1 x.2 = winWord s.mem x.1 x.2 := by
    intro x hx
    rcases List.mem_append.mp hx with hx | hx
    · rw [← flatMap_pinRegs] at hx
      obtain ⟨⟨c, p⟩, he, hx⟩ := List.mem_flatMap.mp hx
      obtain ⟨hc, hp⟩ := mem_pinSweep.mp he
      obtain ⟨ci, gi, g, -, hg⟩ := htidy.located hc hp
      obtain ⟨old, -, hnew⟩ := htaken.entry c hc p hp gi g hg
      exact (hconfig (c, p) he).of_snapshot (s := s) rfl (padOf_of_some hnew) x hx
    · rw [← map_enableReg] at hx
      obtain ⟨e, he, rfl⟩ := List.mem_map.mp hx
      exact (henable e he).trans (htaken.shadowOf rfl he)
  refine ⟨_, _, hx, hy, ?_, hwords, hpend, ?_⟩
  · simp only [answer, List.append_assoc]
    rfl
  · refine SameOutside.of_words (l' := configRegs s.topo ++ enableRegs s.topo) (hsame.mono fun x hx => ?_) hwords
    simp only [writableRegs, List.mem_append] at hx ⊢
    tauto

end Sys2Proof.Machine

/-! PROOFS. The sweeps that mask every registered pin: STOP and PWROFF (40_topology.md R125; 43_context.md R219). -/

namespace Sys2Proof.Machine

variable {s t u : State} {p : Nat} {ps : List Nat} {m : Memory}

/-! ## The windows after masking some registered pins -/

/-- Masking pin `p`, if it is registered, clears bit `i` of the word at (w, off). -/
def masks (s : State) (w off i p : Nat) : Bool :=
  (slotOf s p).valid && (findPin s.topo p).any fun l => decide (enableReg l.c l.g = (w, off) ∧ l.o = i)

/-- The windows after masking the registered ones of the pins `ps`. -/
structure Masked (s : State) (ps : List Nat) (m : Memory) : Prop where
  wf : m.wf = true
  same : SameOutside s.mem m (enableRegs s.topo)
  bits : ∀ w off i, accessOk s.cfg w off = true → i < 32 →
    (winWord m w off).getLsbD i = ((winWord s.mem w off).getLsbD i && !ps.any (masks s w off i))

theorem Masked.nil (h : s.mem.wf = true) : Masked s [] s.mem := ⟨h, .refl _ _, by simp⟩

/-- A pin that is not registered, or was masked before, is left out. -/
theorem Masked.skip (h : Masked s ps m) (hp : (slotOf s p).valid = false ∨ p ∈ ps) : Masked s (ps ++ [p]) m := by
  refine ⟨h.wf, h.same, fun w off i hok hi => ?_⟩
  have hany : (ps ++ [p]).any (masks s w off i) = ps.any (masks s w off i) := by
    rw [List.any_append, List.any_cons, List.any_nil, Bool.or_false]
    rcases hp with hp | hp
    · simp [masks, hp]
    · cases hm : masks s w off i p with
      | false => simp
      | true => simpa using ⟨p, hp, hm⟩
  rw [hany, h.bits w off i hok hi]

/-- The enable word of the group that holds a pin is one of the topology's. -/
theorem enableReg_mem_of_findPin {topo : List Community} {l : Location} (h : findPin topo p = some l) :
    enableReg l.c l.g ∈ enableRegs topo := by
  obtain ⟨-, -, hc, hg, -⟩ := findPin_some h
  exact List.mem_flatMap.mpr ⟨l.c, hc, List.mem_map_of_mem hg⟩

/-- Masking one pin more. -/
theorem Masked.mask {l : Location} (h : Masked s ps m) (hv : (slotOf s p).valid = true) (hl : findPin s.topo p = some l)
    (hok : accessOk s.cfg l.c.barno (bankOff l.c.ieOff l.g.regNum) = true)
    (hp : isPendingWord s.cfg l.c.barno (bankOff l.c.ieOff l.g.regNum) = false) :
    Masked s (ps ++ [p]) (padWrite s.cfg m l.c.barno (bankOff l.c.ieOff l.g.regNum)
      (winWord m l.c.barno (bankOff l.c.ieOff l.g.regNum) &&& ~~~(bit l.o))) := by
  refine ⟨wf_padWrite _ _ _ _ _ h.wf,
    h.same.trans (sameOutside_padWrite _ _ _ _ _ _ h.wf (enableReg_mem_of_findPin hl)), fun w off i hok' hi => ?_⟩
  have hmask : masks s w off i p = decide (enableReg l.c l.g = (w, off) ∧ l.o = i) := by simp [masks, hv, hl]
  rw [List.any_append, List.any_cons, List.any_nil, Bool.or_false, hmask, Bool.not_or, ← Bool.and_assoc,
    ← h.bits w off i hok' hi]
  by_cases he : enableReg l.c l.g = (w, off)
  · obtain ⟨rfl, rfl⟩ : l.c.barno = w ∧ bankOff l.c.ieOff l.g.regNum = off := Prod.mk.inj he
    rw [winWord_padWrite _ _ _ _ _ h.wf, padValue_other hp, BitVec.getLsbD_and, BitVec.getLsbD_not, getLsbD_bit]
    simp [hi, enableReg, eq_comm]
  · rw [winWord_padWrite_of_ne _ _ _ _ _ _ _ h.wf hok hok' (fun h => he h.symm)]
    simp [he]

/-! ## STOP (R125) -/

/-- What the sweep of STOP assumes of the registered pins. -/
abbrev Maskable (s : State) : Prop :=
  ∀ p ∈ pinsOf s.topo, (slotOf s p).valid = true → ∃ l, findPin s.topo p = some l ∧
    accessOk s.cfg l.c.barno (bankOff l.c.ieOff l.g.regNum) = true ∧
    isPendingWord s.cfg l.c.barno (bankOff l.c.ieOff l.g.regNum) = false

/-- After the pins `ps` of the sweep: they are masked and unregistered, and the slots of the other pins are as before. -/
def Unregistered (s : State) (ps : List Nat) (t : State) : Prop :=
  ∃ m b q slots trig, t = { s with mem := m, bus := s.bus ++ b, seq := q, slots := slots, trig := trig } ∧
    Masked s ps m ∧ (∀ p ∈ ps, (slotOf t p).valid = false) ∧ ∀ p, p ∉ ps → slotOf t p = slotOf s p

theorem Unregistered.stand (h : Unregistered s ps t) (g : Position → Position) : Unregistered s ps (standAt g t) := by
  obtain ⟨m, b, q, slots, trig, rfl, h⟩ := h
  exact ⟨m, b, _, slots, trig, rfl, h⟩

/-- A pin that is not registered when the sweep reaches it is left alone. -/
theorem Unregistered.skip (h : Unregistered s ps t) (hv : (slotOf t p).valid = false) : Unregistered s (ps ++ [p]) t := by
  obtain ⟨m, b, q, slots, trig, ht, hmask, hoff, hkeep⟩ := h
  have hskip : (slotOf s p).valid = false ∨ p ∈ ps := by
    by_cases hp : p ∈ ps
    · exact .inr hp
    · exact .inl (by rw [← hkeep p hp, hv])
  refine ⟨m, b, q, slots, trig, ht, hmask.skip hskip, fun p' hp' => ?_, fun p' hp' => ?_⟩
  · rcases List.mem_append.mp hp' with hp' | hp'
    · exact hoff p' hp'
    · rwa [List.mem_singleton.mp hp']
  · exact hkeep p' fun hin => hp' (List.mem_append_left _ hin)

/-- A slot that is cleared is free. -/
theorem slotOf_setSlot_free (s : State) (p : Nat) : slotOf (setSlot p Slot.free s) p = Slot.free := by
  unfold slotOf setSlot
  rw [tableGet_set_self]
  cases tableGet s.slots p <;> rfl

theorem slotOf_setSlot_of_ne {q : Nat} {sl : Slot} (h : q ≠ p) : slotOf (setSlot p sl s) q = slotOf s q := by
  unfold slotOf setSlot
  rw [tableGet_set_of_ne _ _ _ _ h]

/-- A read-modify-write changes its word, the record of transactions and the sequencer. -/
theorem modified_frame (w off : Nat) (f : Word → Word) (s : State) :
    ∃ b q, modified w off f s =
      { s with mem := padWrite s.cfg s.mem w off (f (winWord s.mem w off)), bus := s.bus ++ b, seq := q } :=
  ⟨_, _, modified_eq w off f s⟩

/-- One turn of the sweep. -/
theorem Unregistered.turn (h : Unregistered s ps t) (henv : s.env = []) (hpins : Maskable s) (hp : p ∈ pinsOf s.topo)
    (hv : (slotOf t p).valid = true) :
    ∃ u, unregisterBody p t = .ok .ok u ∧ Unregistered s (ps ++ [p]) u := by
  obtain ⟨m, b, q, slots, trig, ht, hmask, hoff, hkeep⟩ := h
  have hnew : p ∉ ps := fun hin => by rw [hoff p hin] at hv; cases hv
  rw [hkeep p hnew] at hv
  obtain ⟨l, hl, hok, hpend⟩ := hpins p hp hv
  refine ⟨_, unregisterBody_quiet (s := t) (l := l) (by rw [ht]; exact hl) (by rw [ht]; exact henv) (by rw [ht]; exact hok), ?_⟩
  subst ht
  obtain ⟨b', q', hmod⟩ := modified_frame l.c.barno (bankOff l.c.ieOff l.g.regNum) (fun v => v &&& ~~~(bit l.o))
    { s with mem := m, bus := s.bus ++ b, seq := q, slots := slots, trig := trig }
  rw [hmod]
  refine ⟨_, b ++ b', q', tableSet slots p Slot.free, tableSet trig p 0, ?_, hmask.mask hv hl hok hpend, fun p' hp' => ?_,
    fun p' hp' => ?_⟩
  · simp only [setTrig, setSlot, List.append_assoc]
  · by_cases he : p' = p
    · subst he
      exact congrArg Slot.valid (slotOf_setSlot_free _ p')
    · rcases List.mem_append.mp hp' with hp' | hp'
      · exact (congrArg Slot.valid (slotOf_setSlot_of_ne he)).trans (hoff p' hp')
      · exact absurd (List.mem_singleton.mp hp') he
  · rw [List.mem_append, not_or] at hp'
    exact (slotOf_setSlot_of_ne (by simpa using hp'.2)).trans (hkeep p' hp'.1)

theorem unregisterSweep_quiet (henv : s.env = []) (hm : s.mem.wf = true) (hpins : Maskable s) :
    ∃ t, eachRegistered (fun p => M.bind (unregisterBody p) fun _ => M.pure ()) s = .ok () t ∧
      Unregistered s (pinsOf s.topo) t := by
  rw [← pinSweep_pins]
  refine eachRegistered_ok (I := fun d => Unregistered s (d.map Prod.snd)) (fun _ g _ h => h.stand g)
    ⟨s.mem, [], s.seq, s.slots, s.trig, by simp, .nil hm, nofun, fun _ _ => rfl⟩
    (fun d c p r t hd hI hv => ?_) fun d c p r t hd hI hv => ?_
  · rw [List.map_append]
    exact hI.skip hv
  · have hp : p ∈ pinsOf s.topo := by
      rw [← pinSweep_pins, ← hd]
      simp
    obtain ⟨u, hu, hI'⟩ := hI.turn henv hpins hp hv
    exact ⟨u, by rw [M.bind_ok hu]; rfl, by rwa [List.map_append]⟩

/-- Settles O24: the sweep masks and unregisters, then the tables are released. -/
theorem stopUnregistersEveryPin : Obligations.StopUnregistersEveryPin := by
  intro s hl henv hm hnone hpins
  obtain ⟨t, ht, m, b, q, slots, trig, rfl, hmask, -⟩ :=
    unregisterSweep_quiet (s := takeCommand (.command .stop) s) henv hm hpins
  have hx : exec .stop s = _ := perform_legal rfl (by simp [legal, legalLc, legalCs, hl])
  refine ⟨m, b, ?_, hmask.wf, hmask.bits, hmask.same⟩
  rw [hx, stopBody, M.bind_ok ht, M.bind_update]
  have hrel := released_eq { takeCommand (.command .stop) s with
    mem := m, bus := s.bus ++ b, seq := q, slots := slots, trig := trig } hnone
  rw [released] at hrel
  simp only [takeCommand_bus, hrel]
  rfl

end Sys2Proof.Machine

/-! PROOFS. PWROFF with no outside move: the sweep that masks, then the snapshot (43_context.md R219). -/

namespace Sys2Proof.Machine

variable {s t u : State} {p : Nat} {ps : List Nat} {m : Memory}

/-! ## The registered pins as positions in a group -/

/-- In a topology whose enable words are apart, an enable word tells its group. -/
theorem eq_of_enableReg_eq {topo : List Community} (h : (enableRegs topo).Nodup) {c c' : Community} {g g' : Group}
    (hc : c ∈ topo) (hg : g ∈ c.groups) (hc' : c' ∈ topo) (hg' : g' ∈ c'.groups)
    (he : enableReg c g = enableReg c' g') : c = c' ∧ g = g' := by
  obtain ⟨e, hin, rfl, rfl⟩ := mem_groupSweep_of_mem hc hg
  obtain ⟨e', hin', rfl, rfl⟩ := mem_groupSweep_of_mem hc' hg'
  rw [← map_enableReg] at h
  rw [List.inj_on_of_nodup_map h hin hin' he]
  exact ⟨rfl, rfl⟩

/-- The pins found at bit `i` of the enable word of group `g`: the one pin that lies there. -/
theorem any_pin_at {topo : List Community} (htidy : Tidy topo) (hnd : (enableRegs topo).Nodup) {c : Community} {g : Group}
    (hc : c ∈ topo) (hg : g ∈ c.groups) (f : Nat → Bool) (i : Nat) :
    ((pinsOf topo).any fun p => f p && (findPin topo p).any fun l => decide (enableReg l.c l.g = enableReg c g ∧ l.o = i)) =
      (decide (i < g.size) && f (g.base + i)) := by
  rw [Bool.eq_iff_iff, List.any_eq_true, Bool.and_eq_true, decide_eq_true_eq]
  constructor
  · rintro ⟨p, -, h⟩
    rw [Bool.and_eq_true, Option.any_eq_true] at h
    obtain ⟨hf, l, hl, hd⟩ := h
    obtain ⟨he, hi⟩ := of_decide_eq_true hd
    obtain ⟨-, -, hlc, hlg, hbase, ho, hsize⟩ := findPin_some hl
    obtain ⟨rfl, rfl⟩ := eq_of_enableReg_eq hnd hlc hlg hc hg he
    have hp : p = l.g.base + i := by omega
    exact ⟨hi ▸ hsize, hp ▸ hf⟩
  · rintro ⟨hi, hf⟩
    have hl := htidy.2.2 c hc g hg i hi
    obtain ⟨⟨ci, hfind⟩, -⟩ := findPin_some hl
    refine ⟨g.base + i, (mem_pinsOf_iff_found _ _).mpr (by rw [hfind]; rfl), ?_⟩
    rw [hf, hl]
    simp

/-- The bits that masking every registered pin clears in the enable word of a group. -/
theorem Masked.group {c : Community} {g : Group} (h : Masked s (pinsOf s.topo) m) (htidy : Tidy s.topo)
    (hnd : (enableRegs s.topo).Nodup) (hc : c ∈ s.topo) (hg : g ∈ c.groups)
    (hok : accessOk s.cfg c.barno (bankOff c.ieOff g.regNum) = true) {i : Nat} (hi : i < 32) :
    (winWord m c.barno (bankOff c.ieOff g.regNum)).getLsbD i =
      ((winWord s.mem c.barno (bankOff c.ieOff g.regNum)).getLsbD i &&
        !(decide (i < g.size) && (slotOf s (g.base + i)).valid)) := by
  rw [h.bits _ _ _ hok hi, ← any_pin_at htidy hnd hc hg (fun p => (slotOf s p).valid)]
  rfl

/-! ## The sweep that masks -/

/-- After the pins `ps` of the sweep of PWROFF: they are masked, and the slots are as before. -/
def PoweredOff (s : State) (ps : List Nat) (t : State) : Prop :=
  ∃ m b q, t = { s with mem := m, bus := s.bus ++ b, seq := q } ∧ Masked s ps m

theorem PoweredOff.stand (h : PoweredOff s ps t) (g : Position → Position) : PoweredOff s ps (standAt g t) := by
  obtain ⟨m, b, q, rfl, h⟩ := h
  exact ⟨m, b, _, rfl, h⟩

/-- A located pin of a community of the table. -/
theorem findPin_of_located {topo : List Community} {c : Community} {g : Group} {ci gi : Nat}
    (hc : findCommunity topo p = some (ci, c)) (hg : findGroup c p = some (gi, g)) :
    findPin topo p = some ⟨c, g, p - g.base⟩ := by
  rw [findPin, hc]
  simp [hg]

/-- PWROFF for one located pin (R219). -/
theorem powerOffPin_quiet {l : Location} (hl : findPin s.topo p = some l) (henv : s.env = [])
    (hok : accessOk s.cfg l.c.barno (bankOff l.c.ieOff l.g.regNum) = true) :
    ∃ b q, powerOffPin p s = .ok () { s with
      mem := padWrite s.cfg s.mem l.c.barno (bankOff l.c.ieOff l.g.regNum)
        (winWord s.mem l.c.barno (bankOff l.c.ieOff l.g.regNum) &&& ~~~(bit l.o))
      bus := s.bus ++ b, seq := q } := by
  obtain ⟨b, q, hmod⟩ := modified_frame l.c.barno (bankOff l.c.ieOff l.g.regNum) (fun v => v &&& ~~~(bit l.o)) s
  refine ⟨b, q, ?_⟩
  rw [powerOffPin, M.bind_ok (maskBody_quiet (m := true) hl henv hok)]
  exact congrArg (Res.ok ()) hmod

theorem powerOffSweep_quiet (henv : s.env = []) (hm : s.mem.wf = true) (htidy : Tidy s.topo)
    (hok : Reachable s.cfg (enableRegs s.topo)) (hpend : ∀ x ∈ enableRegs s.topo, isPendingWord s.cfg x.1 x.2 = false) :
    ∃ t, eachRegistered powerOffPin s = .ok () t ∧ PoweredOff s (pinsOf s.topo) t := by
  rw [← pinSweep_pins]
  refine eachRegistered_ok (I := fun d => PoweredOff s (d.map Prod.snd)) (fun _ g _ h => h.stand g)
    ⟨s.mem, [], s.seq, by simp, .nil hm⟩ (fun d c p r t hd hI hv => ?_) fun d c p r t hd hI hv => ?_
  · obtain ⟨m, b, q, rfl, hmask⟩ := hI
    rw [List.map_append]
    exact ⟨m, b, q, rfl, hmask.skip (.inl hv)⟩
  · obtain ⟨m, b, q, rfl, hmask⟩ := hI
    obtain ⟨hc, hp⟩ := mem_pinSweep.mp (by rw [← hd]; simp : (c, p) ∈ pinSweep s.topo)
    obtain ⟨ci, gi, g, hfc, hfg⟩ := htidy.located hc hp
    have hl := findPin_of_located hfc hfg
    have hin := enableReg_mem_of_findPin hl
    obtain ⟨b', q', hx⟩ := powerOffPin_quiet (s := { s with mem := m, bus := s.bus ++ b, seq := q }) hl henv (hok _ hin)
    have hmask' := hmask.mask hv hl (hok _ hin) (hpend _ hin)
    rw [← List.map_singleton (f := Prod.snd) (a := (c, p)), ← List.map_append] at hmask'
    refine ⟨_, hx, _, b ++ b', q', ?_, hmask'⟩
    simp only [List.append_assoc]

/-! ## What the snapshot depends on -/

section
variable {c : Community} {g : Group} (hcfg : t.cfg = s.cfg)
  (hw : ∀ x ∈ guardRegsOf s.cfg c p g, winWord t.mem x.1 x.2 = winWord s.mem x.1 x.2)
include hcfg hw

theorem isOwned_congr : isOwned t c g p = isOwned s c g p := by
  unfold isOwned
  cases ho : c.ownOff with
  | none => rfl
  | some b =>
    have h := hw (c.barno, ownOff b g (p - g.base)) (by simp [guardRegsOf, ho])
    simp only [h, hcfg]

omit hcfg in
theorem isUsable_congr : isUsable t c g p = isUsable s c g p := by
  unfold isUsable
  cases ho : c.hostmodeOff with
  | none => rfl
  | some b =>
    have h := hw (c.barno, bankOff b g.regNum) (by simp [guardRegsOf, ho])
    simp only [h]

theorem isLocked_congr : isLocked t c g p = isLocked s c g p := by
  unfold isLocked
  cases ho : c.lockOff with
  | none => rfl
  | some b =>
    have h := hw (c.barno, lockOff s.cfg b g) (by simp [guardRegsOf, ho])
    have h' := hw (c.barno, lockTxOff s.cfg b g) (by simp [guardRegsOf, ho])
    simp only [h, h', hcfg]

/-- The snapshot is that of any state with the same slots and the same words read. -/
theorem snapshotOf_congr {old : Pad} (hslots : t.slots = s.slots)
    (hr : ∀ x ∈ pinRegs c p, winWord t.mem x.1 x.2 = winWord s.mem x.1 x.2) :
    snapshotOf t c g p old = snapshotOf s c g p old := by
  have hk : capturableOf t c g p = capturableOf s c g p := by
    unfold capturableOf slotOf
    rw [isOwned_congr hcfg hw, isLocked_congr hcfg hw, hslots]
  have h0 := hr _ (cfg0_mem_pinRegs c p)
  have h1 := hr _ (cfg1_mem_pinRegs c p)
  unfold snapshotOf
  rw [hk, hcfg, h0, h1]
  cases h2 : cfgOff c p 2 with
  | none => rfl
  | some a =>
    have ha := hr _ (cfg2_mem_pinRegs h2)
    simp only [ha]

end

/-! ## The whole of PWROFF -/

/-- Settles O51: the snapshot is taken of the masked windows, in which what the guard and the snapshot read of a pin is as
before. -/
theorem powerOffMasksThenSuspends : Obligations.PowerOffMasksThenSuspends := by
  intro s hl hcs henv hm htidy hsep hok hkeys hrows
  obtain ⟨-, hnd, -, -, hother, hapart, -⟩ := hsep
  have hoke : Reachable s.cfg (enableRegs s.topo) := fun x hx =>
    hok x (List.mem_append_left _ (List.mem_append_left _ hx))
  obtain ⟨t, ht, m, b, q, hteq, hmask⟩ := powerOffSweep_quiet (s := takeCommand (.command .pwroff) s) henv hm htidy hoke
    fun x hx => hother x (List.mem_append_left _ (List.mem_append_left _ hx))
  have hsnap : Snappable t := by
    rw [hteq]
    exact ⟨henv, htidy, hok, hkeys, hrows⟩
  obtain ⟨pads, rows, b', q', hx, htaken⟩ := ctxSuspendBody_quiet hsnap
  have hrun : exec .pwroff s = _ := perform_legal rfl (by
    cases hs : s.cs with
    | none => exact absurd hs hcs
    | idle | saved => simp [legal, legalLc, legalCs, hl, hs])
  have hwords : ∀ x ∈ configRegs s.topo ++ allGuardRegs s.cfg s.topo, winWord m x.1 x.2 = winWord s.mem x.1 x.2 :=
    fun x hx => hmask.same.winWord (hok x (by simp only [List.mem_append] at hx ⊢; tauto)) hoke
      fun hin => hapart x hin hx
  rw [done, M.bind_assoc, M.bind_ok ht, M.bind_ok hx] at hrun
  subst hteq
  refine ⟨m, pads, rows, b ++ b', ?_, fun c hc g hg i hi => ?_, htaken.rows, htaken.keys, fun c hc p hp gi g hg => ?_,
    hmask.same⟩
  · rw [hrun]
    simp only [takeCommand_bus, List.append_assoc]
    rfl
  · exact hmask.group htidy hnd hc hg (hoke _ (List.mem_flatMap.mpr ⟨c, hc, List.mem_map_of_mem hg⟩)) hi
  · obtain ⟨old, hold, hnew⟩ := htaken.entry c hc p hp gi g hg
    refine ⟨old, _, hold, hnew.trans (congrArg some ?_), snapshotOf_fields s c g p old⟩
    refine snapshotOf_congr ?_ (fun x hx => ?_) ?_ fun x hx => ?_
    · rfl
    · exact hwords x (List.mem_append_right _ (guardRegsOf_mem hc hp hg hx))
    · rfl
    · exact hwords x (List.mem_append_left _ (pinRegs_mem (mem_pinSweep.mpr ⟨hc, hp⟩) hx))

end Sys2Proof.Machine

/-! PROOFS. PWRON with no outside move: the resume, then the sweep that re-arms (43_context.md R220, R221). -/

namespace Sys2Proof.Machine

variable {s t u : State} {p : Nat} {ps : List Nat} {m m' : Memory}

/-! ## The router's writes as moves of the windows -/

theorem reachable_singleton {cfg : Params} {x : Nat × Nat} (h : accessOk cfg x.1 x.2 = true) : Reachable cfg [x] := by
  intro y hy
  rwa [List.mem_singleton.mp hy]

/-- A read-modify-write moves its word. -/
theorem modified_moved (w off : Nat) (f : Word → Word) (hm : s.mem.wf = true) :
    Moved [(w, off)] s (modified w off f s) ∧
      winWord (modified w off f s).mem w off = padValue s.cfg w off (winWord s.mem w off) (f (winWord s.mem w off)) := by
  rw [modified_eq]
  exact ⟨⟨rfl, ⟨_, rfl⟩, wf_padWrite _ _ _ _ _ hm, sameOutside_padWrite _ _ _ _ _ _ hm List.mem_cons_self⟩,
    winWord_padWrite _ _ _ _ _ hm⟩

section
variable {ci gi : Nat} {c : Community} {g : Group} (hfc : findCommunity s.topo p = some (ci, c))
  (hfg : findGroup c p = some (gi, g)) (henv : s.env = []) (hm : s.mem.wf = true)
include hfc hfg henv hm

/-- SETTRIG of a pin in GPIO mode (R173): PADCFG0 and the recorded type. -/
theorem setTrigBody_moved (ty : BitVec 8) (hguard : Reachable s.cfg (guardRegsOf s.cfg c p g))
    (h0 : accessOk s.cfg c.barno (cfg0Off c p) = true) (hp : isPendingWord s.cfg c.barno (cfg0Off c p) = false)
    (hu : isUsable s c g p = true) :
    ∃ t, setTrigBody p ty s = .ok .ok (setTrig p ty t) ∧ Moved [(c.barno, cfg0Off c p)] s t ∧
      winWord t.mem c.barno (cfg0Off c p) = setTrigWord s.cfg (winWord s.mem c.barno (cfg0Off c p)) ty := by
  obtain ⟨b, q, hx⟩ := setTrigBody_usable (t := ty) hfc hfg henv hguard h0 hu
  obtain ⟨hmoved, hword⟩ := modified_moved (s := { s with bus := s.bus ++ b, seq := q }) c.barno (cfg0Off c p)
    (fun v => setTrigWord s.cfg v ty) hm
  have hread : Moved [(c.barno, cfg0Off c p)] s { s with bus := s.bus ++ b, seq := q } := ⟨rfl, ⟨b, rfl⟩, hm, .refl _ _⟩
  exact ⟨_, hx, hread.trans hmoved, hword.trans (padValue_other hp _ _)⟩

/-- ENABLE (R176): the pending bit cleared, then the enable bit set. -/
theorem enableBody_moved (hok : Reachable s.cfg [pendReg c g, enableReg c g])
    (hp : isPendingWord s.cfg (pendReg c g).1 (pendReg c g).2 = true)
    (he : isPendingWord s.cfg (enableReg c g).1 (enableReg c g).2 = false) :
    ∃ t, enableBody p s = .ok .ok t ∧ Moved [pendReg c g, enableReg c g] s t ∧
      winWord t.mem (pendReg c g).1 (pendReg c g).2 =
        winWord s.mem (pendReg c g).1 (pendReg c g).2 &&& ~~~(bit (p - g.base)) ∧
      winWord t.mem (enableReg c g).1 (enableReg c g).2 =
        winWord s.mem (enableReg c g).1 (enableReg c g).2 ||| bit (p - g.base) := by
  have hne : pendReg c g ≠ enableReg c g := by
    intro h
    rw [h, he] at hp
    cases hp
  have hokp := hok _ List.mem_cons_self
  have hoke := hok _ (List.mem_cons_of_mem _ List.mem_cons_self)
  obtain ⟨t1, ht1, hmt, hwt⟩ := winWrite_moved (bit (p - g.base)) henv hm hokp
  obtain ⟨hmu, hwu⟩ := modified_moved (s := t1) (enableReg c g).1 (enableReg c g).2 (fun v => v ||| bit (p - g.base)) hmt.wf
  have hx := enableBody_quiet (findPin_of_located hfc hfg) henv hokp hoke
  have ht1' := (winWrite_quiet (v := bit (p - g.base)) hokp henv).symm.trans ht1
  rw [Res.ok.injEq] at ht1'
  obtain ⟨-, rfl⟩ := ht1'
  refine ⟨_, hx, (hmt.mono (by simp)).trans (hmu.mono (by simp)), ?_, ?_⟩
  · rw [← padValue_pending hp, ← hwt]
    exact hmu.winWord (reachable_singleton hoke) hokp (by simpa using hne)
  · refine hwu.trans ((padValue_other he _ _).trans ?_)
    rw [hmt.winWord (reachable_singleton hokp) hoke (by simpa using hne.symm)]

end

/-! ## One pin (R220) -/

/-- A pin that PWRON re-arms: registered, and in GPIO mode. -/
def rearmed (s : State) (p : Nat) : Bool :=
  (slotOf s p).valid && (findPin s.topo p).any fun l => isUsable s l.c l.g p

/-- A pin that PWRON logs: registered, and in ACPI mode. -/
def refusedPin (s : State) (p : Nat) : Bool :=
  (slotOf s p).valid && (findPin s.topo p).any fun l => !isUsable s l.c l.g p

/-- The words that re-arming a pin writes. -/
def rearmRegs (c : Community) (g : Group) (p : Nat) : List (Nat × Nat) :=
  [(c.barno, cfg0Off c p), pendReg c g, enableReg c g]

/-- What re-arming a pin makes of its words. -/
structure RearmedPin (cfg : Params) (c : Community) (g : Group) (p : Nat) (ty : BitVec 8) (m m' : Memory) : Prop where
  cfg0 : winWord m' c.barno (cfg0Off c p) = setTrigWord cfg (winWord m c.barno (cfg0Off c p)) ty
  pend : winWord m' (pendReg c g).1 (pendReg c g).2 = winWord m (pendReg c g).1 (pendReg c g).2 &&& ~~~(bit (p - g.base))
  enable : winWord m' (enableReg c g).1 (enableReg c g).2 =
    winWord m (enableReg c g).1 (enableReg c g).2 ||| bit (p - g.base)

/-- From `s` to `t` the windows moved within the words `l`, and beside them only the recorded types, the error log, the record
of transactions and the sequencer. -/
structure Rearming (l : List (Nat × Nat)) (s t : State) : Prop where
  rest : t = { s with mem := t.mem, bus := t.bus, seq := t.seq, trig := t.trig, errCount := t.errCount,
                      errLastCode := t.errLastCode, errLastPin := t.errLastPin }
  types : ∀ p, tableGet t.trig p = tableGet s.trig p
  wf : t.mem.wf = true
  same : SameOutside s.mem t.mem l

section
variable {l : List (Nat × Nat)}

theorem Rearming.refl (h : s.mem.wf = true) : Rearming l s s := ⟨rfl, fun _ => rfl, h, .refl _ _⟩

theorem Rearming.trans (h : Rearming l s t) (h' : Rearming l t u) : Rearming l s u :=
  ⟨by rw [h'.rest, h.rest], fun p => (h'.types p).trans (h.types p), h'.wf, h.same.trans h'.same⟩

theorem Rearming.mono {l' : List (Nat × Nat)} (h : Rearming l s t) (hl : ∀ x ∈ l, x ∈ l') : Rearming l' s t :=
  ⟨h.rest, h.types, h.wf, h.same.mono hl⟩

theorem Rearming.stand (h : Rearming l s t) (g : Position → Position) : Rearming l s (standAt g t) :=
  ⟨by rw [standAt, h.rest], h.types, h.wf, h.same⟩

theorem Moved.rearming (h : Moved l s t) : Rearming l s t := ⟨by rw [h.rest], fun p => by rw [h.trig], h.wf, h.same⟩

theorem Rearming.cfg (h : Rearming l s t) : t.cfg = s.cfg := by rw [h.rest]
theorem Rearming.env (h : Rearming l s t) : t.env = s.env := by rw [h.rest]
theorem Rearming.topo (h : Rearming l s t) : t.topo = s.topo := by rw [h.rest]
theorem Rearming.slots (h : Rearming l s t) : t.slots = s.slots := by rw [h.rest]

end

/-- Recording the type a pin has changes no entry. -/
theorem tableGet_set_same {α : Type} {tab : Table α} {x : α} (h : tableGet tab p = some x) (q : Nat) :
    tableGet (tableSet tab p x) q = tableGet tab q := by
  by_cases hq : q = p
  · rw [hq, tableGet_set_self, h]
    rfl
  · exact tableGet_set_of_ne _ _ _ _ hq

theorem setTrig_rearming {ty : BitVec 8} (hm : s.mem.wf = true) (h : tableGet s.trig p = some ty) :
    Rearming [] s (setTrig p ty s) := ⟨rfl, tableGet_set_same h, hm, .refl _ _⟩

section
variable {ci gi : Nat} {c : Community} {g : Group} {ty : BitVec 8} (hfc : findCommunity s.topo p = some (ci, c))
  (hfg : findGroup c p = some (gi, g)) (henv : s.env = []) (hm : s.mem.wf = true)
  (hguard : Reachable s.cfg (guardRegsOf s.cfg c p g)) (hty : tableGet s.trig p = some ty)
include hfc hfg henv hm hguard hty

/-- PWRON of a registered pin in GPIO mode (R220). -/
theorem powerOnPin_usable (hok : Reachable s.cfg (rearmRegs c g p))
    (hp : isPendingWord s.cfg (pendReg c g).1 (pendReg c g).2 = true)
    (hother : ∀ x ∈ [(c.barno, cfg0Off c p), enableReg c g], isPendingWord s.cfg x.1 x.2 = false)
    (hne : (c.barno, cfg0Off c p) ≠ enableReg c g) (hu : isUsable s c g p = true) :
    ∃ u, powerOnPin p s = .ok () u ∧ Rearming (rearmRegs c g p) s u ∧ RearmedPin s.cfg c g p ty s.mem u.mem ∧
      u.errCount = s.errCount ∧ u.errLastCode = s.errLastCode ∧ u.errLastPin = s.errLastPin := by
  have ho0 := hother _ List.mem_cons_self
  have hoe := hother (enableReg c g) (by simp)
  obtain ⟨t, ht, hst, hw0⟩ := setTrigBody_moved hfc hfg henv hm ty hguard (hok _ List.mem_cons_self) ho0 hu
  have htype := setTrig_rearming (s := t) hst.wf (by rw [hst.trig]; exact hty)
  have hcfg : (setTrig p ty t).cfg = s.cfg := hst.cfg
  have htopo : (setTrig p ty t).topo = s.topo := hst.topo
  have hoks : Reachable (setTrig p ty t).cfg [pendReg c g, enableReg c g] := by
    rw [hcfg]
    exact fun x hx => hok x (List.mem_cons_of_mem _ hx)
  obtain ⟨u, hu', htu, hwp, hwe⟩ := enableBody_moved (s := setTrig p ty t) (by rw [htopo]; exact hfc) hfg
    (hst.env.trans henv) hst.wf hoks (by rwa [hcfg]) (by rwa [hcfg])
  have hnp : ∀ x ∈ [(c.barno, cfg0Off c p), enableReg c g], x ≠ pendReg c g := by
    rintro x hx rfl
    rw [hother _ hx] at hp
    cases hp
  have hkeep : ∀ x ∈ [pendReg c g, enableReg c g], winWord t.mem x.1 x.2 = winWord s.mem x.1 x.2 := by
    intro x hx
    refine hst.winWord (reachable_singleton (hok _ List.mem_cons_self)) (hok x (List.mem_cons_of_mem _ hx)) fun h => ?_
    obtain rfl : x = (c.barno, cfg0Off c p) := List.mem_singleton.mp h
    simp only [List.mem_cons, List.not_mem_nil, or_false] at hx
    rcases hx with hx | hx
    · exact hnp _ List.mem_cons_self hx
    · exact hne hx
  refine ⟨u, ?_, ?_, ⟨?_, ?_, ?_⟩, ?_, ?_, ?_⟩
  · rw [powerOnPin, M.bind_ok (readTrig_of_some hty), M.bind_ok ht, if_pos rfl, M.bind_ok hu']
    rfl
  · exact (hst.rearming.mono (by simp [rearmRegs])).trans
      ((htype.mono nofun).trans (htu.rearming.mono fun x hx => List.mem_cons_of_mem _ hx))
  · rw [← hw0]
    refine htu.winWord hoks (by rw [hcfg]; exact hok _ List.mem_cons_self) fun h => ?_
    simp only [List.mem_cons, List.not_mem_nil, or_false] at h
    rcases h with h | h
    · exact hnp _ List.mem_cons_self h
    · exact hne h
  · rw [hwp, ← hkeep _ List.mem_cons_self]
    rfl
  · rw [hwe, ← hkeep (enableReg c g) (by simp)]
    rfl
  all_goals
    rw [htu.rest, setTrig, hst.rest]

/-- PWRON of a registered pin in ACPI mode (R220, R221): the refusal is logged and the pin is not enabled. -/
theorem powerOnPin_refused (hu : isUsable s c g p = false) :
    ∃ u, powerOnPin p s = .ok () (logErr .modeConflict p u) ∧ Moved [] s u ∧ u.mem = s.mem := by
  obtain ⟨b, q, hx⟩ := setTrigBody_refused (t := ty) hfc hfg henv hguard hu
  refine ⟨{ s with bus := s.bus ++ b, seq := q }, ?_, ⟨rfl, ⟨b, rfl⟩, hm, .refl _ _⟩, rfl⟩
  rw [powerOnPin, M.bind_ok (readTrig_of_some hty), M.bind_ok hx]
  rfl

end

/-! ## The windows after re-arming some pins -/

/-- What the sweep of PWRON assumes. -/
structure Armable (s : State) : Prop where
  env : s.env = []
  wf : s.mem.wf = true
  tidy : Tidy s.topo
  separate : Separate s
  reach : Reachable s.cfg (writableRegs s.topo ++ allGuardRegs s.cfg s.topo)
  types : s.trig.map Prod.fst = pinsOf s.topo

/-- Re-arming pin `p` sets bit `i` of the word at `x`. -/
def arms (s : State) (x : Nat × Nat) (i p : Nat) : Bool :=
  rearmed s p && (findPin s.topo p).any fun l => decide (enableReg l.c l.g = x ∧ l.o = i)

/-- The windows after re-arming the pins of `ps` that are re-armed. -/
structure RearmedMem (s : State) (ps : List Nat) (m : Memory) : Prop where
  pend : ∀ x ∈ pendRegs s.topo, winWord s.mem x.1 x.2 = 0 → winWord m x.1 x.2 = 0
  enable : ∀ x ∈ enableRegs s.topo, ∀ i < 32,
    (winWord m x.1 x.2).getLsbD i = ((winWord s.mem x.1 x.2).getLsbD i || ps.any (arms s x i))
  cfg0 : ∀ e ∈ pinSweep s.topo, winWord m e.1.barno (cfg0Off e.1 e.2) =
    if rearmed s e.2 = true ∧ e.2 ∈ ps then
      setTrigWord s.cfg (winWord s.mem e.1.barno (cfg0Off e.1 e.2)) ((tableGet s.trig e.2).getD 0)
    else winWord s.mem e.1.barno (cfg0Off e.1 e.2)
  config : ∀ e ∈ pinSweep s.topo, ∀ x ∈ pinRegs e.1 e.2, x ≠ (e.1.barno, cfg0Off e.1 e.2) →
    winWord m x.1 x.2 = winWord s.mem x.1 x.2

theorem RearmedMem.nil (s : State) : RearmedMem s [] s.mem :=
  ⟨fun _ _ h => h, by simp, by simp, fun _ _ _ _ _ => rfl⟩

/-- A pin that is not re-armed is left out. -/
theorem RearmedMem.skip (h : RearmedMem s ps m) (hp : rearmed s p = false) : RearmedMem s (ps ++ [p]) m := by
  refine ⟨h.pend, fun x hx i hi => ?_, fun e he => ?_, h.config⟩
  · rw [h.enable x hx i hi, List.any_append, List.any_cons, List.any_nil, Bool.or_false, arms, hp, Bool.false_and,
      Bool.or_false]
  · rw [h.cfg0 e he]
    refine if_congr ?_ rfl rfl
    rw [List.mem_append, List.mem_singleton]
    constructor
    · exact fun h => ⟨h.1, .inl h.2⟩
    · rintro ⟨hr, hin | rfl⟩
      · exact ⟨hr, hin⟩
      · rw [hp] at hr
        cases hr

/-- The pin's community is the one it is found in. -/
theorem Tidy.community_eq {topo : List Community} (h : Tidy topo) {c c' : Community} (hc : (c, p) ∈ pinSweep topo)
    (hc' : (c', p) ∈ pinSweep topo) : c = c' := by
  obtain ⟨hm, hp⟩ := mem_pinSweep.mp hc
  obtain ⟨hm', hp'⟩ := mem_pinSweep.mp hc'
  exact Option.some.inj ((h.2.1 c hm p hp).1.symm.trans (h.2.1 c' hm' p hp').1)

/-- The registers of two pins are apart. -/
theorem Separate.pinRegs_disjoint (h : Separate s) {e e' : Community × Nat} (he : e ∈ pinSweep s.topo)
    (he' : e' ∈ pinSweep s.topo) (hne : e ≠ e') : List.Disjoint (pinRegs e.1 e.2) (pinRegs e'.1 e'.2) := by
  obtain ⟨-, -, hnd, -⟩ := h
  rw [← flatMap_pinRegs, List.nodup_flatMap] at hnd
  have hsymm : Std.Symm (Function.onFun List.Disjoint fun e : Community × Nat => pinRegs e.1 e.2) :=
    ⟨fun _ _ h => List.Disjoint.symm h⟩
  exact hnd.2.forall he he' hne

/-- The words that re-arming a pin writes, by class. -/
theorem mem_rearmRegs {c : Community} {g : Group} {x : Nat × Nat} :
    x ∈ rearmRegs c g p ↔ x = (c.barno, cfg0Off c p) ∨ x = pendReg c g ∨ x = enableReg c g := by
  simp [rearmRegs]

section
variable {c : Community} {g : Group} {ci gi : Nat} {ty : BitVec 8} (ha : Armable s)
  (hin : (c, p) ∈ pinSweep s.topo) (hfc : findCommunity s.topo p = some (ci, c)) (hfg : findGroup c p = some (gi, g))
include ha hin hfc hfg

omit ha in
/-- The classes of the words that re-arming a pin writes. -/
theorem rearmRegs_classes : (c.barno, cfg0Off c p) ∈ configRegs s.topo ∧ pendReg c g ∈ pendRegs s.topo ∧
    enableReg c g ∈ enableRegs s.topo := by
  obtain ⟨-, hg, -⟩ := findGroup_mem hfg
  obtain ⟨-, hc, -⟩ := findCommunity_mem hfc
  exact ⟨pinRegs_mem hin (cfg0_mem_pinRegs c p), List.mem_flatMap.mpr ⟨c, hc, List.mem_map_of_mem hg⟩,
    List.mem_flatMap.mpr ⟨c, hc, List.mem_map_of_mem hg⟩⟩

omit ha in
theorem rearmRegs_writable : ∀ x ∈ rearmRegs c g p, x ∈ writableRegs s.topo := by
  obtain ⟨h0, hp, he⟩ := rearmRegs_classes hin hfc hfg
  intro x hx
  rcases mem_rearmRegs.mp hx with rfl | rfl | rfl
  · exact List.mem_append_right _ h0
  · exact List.mem_append_left _ (List.mem_append_left _ hp)
  · exact List.mem_append_left _ (List.mem_append_right _ he)

/-- Re-arming a pin leaves the other words. -/
theorem rearm_keeps (hsame : SameOutside m m' (rearmRegs c g p)) {x : Nat × Nat}
    (hx : x ∈ writableRegs s.topo ++ allGuardRegs s.cfg s.topo) (hn : x ∉ rearmRegs c g p) :
    winWord m' x.1 x.2 = winWord m x.1 x.2 :=
  hsame.winWord (ha.reach x hx)
    (fun y hy => ha.reach y (List.mem_append_left _ (rearmRegs_writable hin hfc hfg y hy))) hn

/-- Re-arming one pin more. -/
theorem RearmedMem.arm (h : RearmedMem s ps m) (hp : rearmed s p = true) (hnew : p ∉ ps)
    (hty : tableGet s.trig p = some ty) (hpin : RearmedPin s.cfg c g p ty m m') (hsame : SameOutside m m' (rearmRegs c g p)) :
    RearmedMem s (ps ++ [p]) m' := by
  obtain ⟨h0, hpe, hee⟩ := rearmRegs_classes hin hfc hfg
  have hpne : ∀ {x y : Nat × Nat}, x ∈ pendRegs s.topo → y ∈ enableRegs s.topo ∨ y ∈ configRegs s.topo → x ≠ y :=
    fun hx hy => ha.separate.pend_ne hx (List.mem_append_left _ (List.mem_append.mpr hy))
  have hec : ∀ {x y : Nat × Nat}, x ∈ enableRegs s.topo → y ∈ configRegs s.topo → x ≠ y := by
    obtain ⟨-, -, -, -, -, hec, -⟩ := ha.separate
    rintro x _ hx hy rfl
    exact hec x hx (List.mem_append_left _ hy)
  have hkeep : ∀ {x : Nat × Nat}, x ∈ writableRegs s.topo → x ≠ (c.barno, cfg0Off c p) → x ≠ pendReg c g →
      x ≠ enableReg c g → winWord m' x.1 x.2 = winWord m x.1 x.2 := fun hx h1 h2 h3 =>
    rearm_keeps ha hin hfc hfg hsame (List.mem_append_left _ hx) fun hr => by
      rcases mem_rearmRegs.mp hr with hr | hr | hr
      · exact h1 hr
      · exact h2 hr
      · exact h3 hr
  refine ⟨fun x hx hz => ?_, fun x hx i hi => ?_, fun e he => ?_, fun e he x hx hx0 => ?_⟩
  · by_cases hxe : x = pendReg c g
    · rw [hxe, hpin.pend, ← hxe, h.pend x hx hz]
      exact BitVec.zero_and
    · rw [hkeep (List.mem_append_left _ (List.mem_append_left _ hx)) (hpne hx (.inr h0)) hxe (hpne hx (.inl hee))]
      exact h.pend x hx hz
  · have harm : arms s x i p = decide (enableReg c g = x ∧ p - g.base = i) := by
      simp [arms, hp, findPin_of_located hfc hfg]
    rw [List.any_append, List.any_cons, List.any_nil, Bool.or_false, harm, ← Bool.or_assoc, ← h.enable x hx i hi]
    by_cases hxe : x = enableReg c g
    · rw [hxe, hpin.enable, BitVec.getLsbD_or, getLsbD_bit]
      simp [hi, eq_comm]
    · rw [hkeep (List.mem_append_left _ (List.mem_append_right _ hx)) (hec hx h0) (hpne hpe (.inl hx)).symm hxe]
      simp [Ne.symm hxe]
  · by_cases hep : e.2 = p
    · obtain ⟨c', p'⟩ := e
      dsimp only at hep
      subst hep
      obtain rfl := ha.tidy.community_eq he hin
      have hold := h.cfg0 (c', p') he
      rw [if_neg (fun hr => hnew hr.2)] at hold
      rw [if_pos ⟨hp, by simp⟩, hty, hpin.cfg0, hold]
      rfl
    · have hreg := cfg0_mem_pinRegs e.1 e.2
      have hreg' := pinRegs_mem he hreg
      have hne : e ≠ (c, p) := fun h => hep (congrArg Prod.snd h)
      rw [hkeep (x := (e.1.barno, cfg0Off e.1 e.2)) (List.mem_append_right _ hreg')
        (fun h => ha.separate.pinRegs_disjoint he hin hne hreg (h ▸ cfg0_mem_pinRegs c p))
        (hpne hpe (.inr hreg')).symm (hec hee hreg').symm, h.cfg0 e he]
      refine if_congr ?_ rfl rfl
      simp [hep]
  · have hreg := pinRegs_mem he hx
    rw [hkeep (List.mem_append_right _ hreg) (fun h => ?_) (hpne hpe (.inr hreg)).symm (hec hee hreg).symm]
    · exact h.config e he x hx hx0
    · by_cases hne : e = (c, p)
      · rw [hne] at hx0
        exact hx0 h
      · exact ha.separate.pinRegs_disjoint he hin hne hx (h ▸ cfg0_mem_pinRegs c p)

end

/-! ## The error log of the sweep (R221) -/

/-- From `s` to `t`, ModeConflict was logged for the pins `ps`, in order. -/
structure Logged (s : State) (ps : List Nat) (t : State) : Prop where
  count : t.errCount.toNat = min (s.errCount.toNat + ps.length) 0xFFFF
  last : ∀ p, ps.getLast? = some p → t.errLastCode = Status.modeConflict.code ∧ (p < 2 ^ 16 → t.errLastPin.toNat = p)
  none : ps = [] → t.errLastCode = s.errLastCode ∧ t.errLastPin = s.errLastPin

theorem Logged.nil (s : State) : Logged s [] s := by
  have h := s.errCount.isLt
  exact ⟨by simp; omega, nofun, fun _ => ⟨rfl, rfl⟩⟩

theorem Logged.of_eq (h : Logged s ps t) (h1 : u.errCount = t.errCount) (h2 : u.errLastCode = t.errLastCode)
    (h3 : u.errLastPin = t.errLastPin) : Logged s ps u := by
  refine ⟨?_, ?_, ?_⟩
  · rw [h1]; exact h.count
  · rw [h2, h3]; exact h.last
  · rw [h2, h3]; exact h.none

theorem Logged.snoc (h : Logged s ps t) (p : Nat) : Logged s (ps ++ [p]) (logErr .modeConflict p t) := by
  refine ⟨?_, fun q hq => ?_, fun hn => by simp at hn⟩
  · rw [logErr_errCount_toNat, h.count, List.length_append, List.length_singleton]
    omega
  · rw [List.getLast?_append, List.getLast?_singleton, Option.some_or, Option.some.injEq] at hq
    subst hq
    exact ⟨rfl, fun hp => fieldOf_toNat hp⟩

/-! ## The sweep that re-arms -/

/-- After the pins `ps` of the sweep. -/
structure RearmSwept (s : State) (ps : List Nat) (t : State) : Prop where
  frame : Rearming (writableRegs s.topo) s t
  mem : RearmedMem s ps t.mem
  log : Logged s (ps.filter (refusedPin s)) t

theorem RearmSwept.stand (h : RearmSwept s ps t) (g : Position → Position) : RearmSwept s ps (standAt g t) :=
  ⟨h.frame.stand g, h.mem, h.log.of_eq rfl rfl rfl⟩

/-- A pin that is not registered is neither re-armed nor logged. -/
theorem RearmSwept.skip (h : RearmSwept s ps t) (hv : (slotOf s p).valid = false) : RearmSwept s (ps ++ [p]) t := by
  refine ⟨h.frame, h.mem.skip (by simp [rearmed, hv]), ?_⟩
  have hfilter : (ps ++ [p]).filter (refusedPin s) = ps.filter (refusedPin s) := by simp [refusedPin, hv]
  rw [hfilter]
  exact h.log

/-- The sweep writes no word that the guard reads. -/
theorem Armable.guard_kept (h : Armable s) (hf : Rearming (writableRegs s.topo) s t) {x : Nat × Nat}
    (hx : x ∈ allGuardRegs s.cfg s.topo) : winWord t.mem x.1 x.2 = winWord s.mem x.1 x.2 := by
  refine hf.same.winWord (h.reach x (List.mem_append_right _ hx)) (fun y hy => h.reach y (List.mem_append_left _ hy))
    fun hw => ?_
  obtain ⟨-, -, -, -, -, hec, hcg⟩ := h.separate
  simp only [writableRegs, List.mem_append] at hw
  rcases hw with (hw | hw) | hw
  · exact h.separate.pend_ne hw (List.mem_append_right _ hx) rfl
  · exact hec x hw (List.mem_append_right _ hx)
  · exact hcg x hw hx

/-- One turn of the sweep, on a registered pin. -/
theorem RearmSwept.turn {c : Community} (h : RearmSwept s ps t) (ha : Armable s) (hin : (c, p) ∈ pinSweep s.topo)
    (hv : (slotOf s p).valid = true) (hnew : p ∉ ps) :
    ∃ u, powerOnPin p t = .ok () u ∧ RearmSwept s (ps ++ [p]) u := by
  obtain ⟨hc, hp⟩ := mem_pinSweep.mp hin
  obtain ⟨ci, gi, g, hfc, hfg⟩ := ha.tidy.located hc hp
  obtain ⟨ty, hty⟩ := Option.isSome_iff_exists.mp ((tableGet_isSome s.trig p).mpr
    (by rw [ha.types]; exact List.mem_flatMap.mpr ⟨c, hc, hp⟩))
  have hfl := findPin_of_located hfc hfg
  obtain ⟨hf, hmem, hlog⟩ := h
  have hguard : Reachable t.cfg (guardRegsOf t.cfg c p g) := by
    rw [hf.cfg]
    exact fun x hx => ha.reach x (List.mem_append_right _ (guardRegsOf_mem hc hp hfg hx))
  have husable : isUsable t c g p = isUsable s c g p :=
    isUsable_congr fun x hx => ha.guard_kept hf (guardRegsOf_mem hc hp hfg hx)
  have hfc' : findCommunity t.topo p = some (ci, c) := by rwa [hf.topo]
  have henv : t.env = [] := hf.env.trans ha.env
  have hty' : tableGet t.trig p = some ty := (hf.types p).trans hty
  cases hu : isUsable s c g p with
  | true =>
    obtain ⟨h0, hpe, hee⟩ := rearmRegs_classes hin hfc hfg
    obtain ⟨-, -, -, hpend, hother, hec, -⟩ := ha.separate
    obtain ⟨u, hx, hfu, hpin, e1, e2, e3⟩ := powerOnPin_usable hfc' hfg henv hf.wf hguard hty'
      (by rw [hf.cfg]; exact fun x hx => ha.reach x (List.mem_append_left _ (rearmRegs_writable hin hfc hfg x hx)))
      (by rw [hf.cfg]; exact hpend _ hpe)
      (by
        rw [hf.cfg]
        intro x hx
        refine hother x (List.mem_append_left _ ?_)
        simp only [List.mem_cons, List.not_mem_nil, or_false] at hx
        rcases hx with rfl | rfl
        · exact List.mem_append_right _ h0
        · exact List.mem_append_left _ hee)
      (fun he => hec _ hee (he ▸ List.mem_append_left _ h0)) (husable.trans hu)
    rw [hf.cfg] at hpin
    refine ⟨u, hx, hf.trans (hfu.mono (rearmRegs_writable hin hfc hfg)),
      hmem.arm ha hin hfc hfg (by simp [rearmed, hv, hfl, hu]) hnew hty hpin hfu.same, ?_⟩
    have hfilter : (ps ++ [p]).filter (refusedPin s) = ps.filter (refusedPin s) := by simp [refusedPin, hv, hfl, hu]
    rw [hfilter]
    exact hlog.of_eq e1 e2 e3
  | false =>
    obtain ⟨u, hx, hmu, hmemu⟩ := powerOnPin_refused hfc' hfg henv hf.wf hguard hty' (husable.trans hu)
    have hfilter : (ps ++ [p]).filter (refusedPin s) = ps.filter (refusedPin s) ++ [p] := by
      simp [refusedPin, hv, hfl, hu]
    refine ⟨_, hx, ?_, ?_, ?_⟩
    · have hlogged : Rearming (writableRegs s.topo) u (logErr .modeConflict p u) := ⟨rfl, fun _ => rfl, hmu.wf, .refl _ _⟩
      exact hf.trans ((hmu.rearming.mono nofun).trans hlogged)
    · show RearmedMem s (ps ++ [p]) u.mem
      rw [hmemu]
      exact hmem.skip (by simp [rearmed, hv, hfl, hu])
    · rw [hfilter]
      have hlog' : Logged s (ps.filter (refusedPin s)) u :=
        hlog.of_eq (by rw [hmu.rest]) (by rw [hmu.rest]) (by rw [hmu.rest])
      exact hlog'.snoc p

theorem rearmSweep_quiet (ha : Armable s) :
    ∃ t, eachRegistered powerOnPin s = .ok () t ∧ RearmSwept s (pinsOf s.topo) t := by
  rw [← pinSweep_pins]
  refine eachRegistered_ok (I := fun d => RearmSwept s (d.map Prod.snd)) (fun _ g _ h => h.stand g)
    ⟨.refl ha.wf, .nil s, .nil s⟩ (fun d c p r t hd hI hv => ?_) fun d c p r t hd hI hv => ?_
  all_goals
    have hv' : slotOf t p = slotOf s p := by unfold slotOf; rw [hI.frame.slots]
    rw [hv'] at hv
    rw [List.map_append]
  · exact hI.skip hv
  · refine hI.turn ha (c := c) (by rw [← hd]; simp) hv fun hin => ?_
    have hnd := ha.tidy.1
    rw [← pinSweep_pins, ← hd, List.map_append, List.map_cons, List.nodup_append] at hnd
    exact hnd.2.2 p hin p List.mem_cons_self rfl

end Sys2Proof.Machine

/-! PROOFS. PWRON with no outside move: resume and re-arming put together (43_context.md R220, R221, R215). -/

namespace Sys2Proof.Machine

variable {s r t u : State} {p : Nat} {ps : List Nat} {m m' : Memory}

/-! ## The state that the resume leaves -/

/-- `r` is `s` after the body of CTXRESUME. -/
structure ResumedState (s r : State) : Prop where
  rest : r = { s with cs := .idle, mem := r.mem, bus := r.bus, seq := r.seq }
  wf : r.mem.wf = true
  same : SameOutside s.mem r.mem (writableRegs s.topo)
  words : Resumed s r.mem

theorem Armable.resume (ha : Armable s) : ∃ r, ctxResumeBody s = .ok () r ∧ ResumedState s r := by
  obtain ⟨u, hu, hmoved, hres⟩ := ctxResumeBody_quiet ha.env ha.wf ha.separate fun x hx =>
    ha.reach x (List.mem_append_left _ hx)
  exact ⟨_, hu, by rw [hmoved.rest], hmoved.wf, hmoved.same, hres⟩

namespace ResumedState

theorem cfg (h : ResumedState s r) : r.cfg = s.cfg := by rw [h.rest]
theorem env (h : ResumedState s r) : r.env = s.env := by rw [h.rest]
theorem topo (h : ResumedState s r) : r.topo = s.topo := by rw [h.rest]
theorem slots (h : ResumedState s r) : r.slots = s.slots := by rw [h.rest]
theorem trig (h : ResumedState s r) : r.trig = s.trig := by rw [h.rest]

/-- The resume writes no word that the guard reads (R9). -/
theorem guard_kept (h : ResumedState s r) (ha : Armable s) {x : Nat × Nat} (hx : x ∈ allGuardRegs s.cfg s.topo) :
    winWord r.mem x.1 x.2 = winWord s.mem x.1 x.2 := by
  have hf : Rearming (writableRegs s.topo) s { s with mem := r.mem } := ⟨rfl, fun _ => rfl, h.wf, h.same⟩
  exact ha.guard_kept hf hx

theorem armable (h : ResumedState s r) (ha : Armable s) : Armable r := by
  have hsep := ha.separate
  refine ⟨h.env.trans ha.env, h.wf, by rw [h.topo]; exact ha.tidy, ?_, by rw [h.cfg, h.topo]; exact ha.reach,
    by rw [h.trig, h.topo]; exact ha.types⟩
  unfold Separate
  rw [h.topo, h.cfg]
  exact hsep

/-- The registered pins in GPIO mode, and those in ACPI mode, are the same after the resume. -/
theorem located_usable (h : ResumedState s r) (ha : Armable s) {l : Location} (hl : findPin s.topo p = some l) :
    isUsable r l.c l.g p = isUsable s l.c l.g p := by
  obtain ⟨⟨ci, hfc⟩, ⟨gi, hfg⟩, -⟩ := findPin_some hl
  obtain ⟨-, hc, hp⟩ := findCommunity_mem hfc
  exact isUsable_congr fun x hx => h.guard_kept ha (guardRegsOf_mem hc ((mem_communityPins _ _).mpr hp) hfg hx)

theorem rearmed_eq (h : ResumedState s r) (ha : Armable s) (p : Nat) : rearmed r p = rearmed s p := by
  unfold rearmed slotOf
  rw [h.topo, h.slots]
  cases hl : findPin s.topo p with
  | none => rfl
  | some l => simp only [Option.any_some, h.located_usable ha hl]

theorem refusedPin_eq (h : ResumedState s r) (ha : Armable s) (p : Nat) : refusedPin r p = refusedPin s p := by
  unfold refusedPin slotOf
  rw [h.topo, h.slots]
  cases hl : findPin s.topo p with
  | none => rfl
  | some l => simp only [Option.any_some, h.located_usable ha hl]

end ResumedState

/-! ## What PWRON leaves -/

/-- The value of PADCFG0 before the trigger fields are set again. -/
def resumedCfg0 (s : State) (c : Community) (p : Nat) : Word :=
  if (padOf s p).captured = true ∧
      winWord s.mem c.barno (cfg0Off c p) &&& ~~~(bit s.cfg.rxStateBit.val) ≠ (padOf s p).cfg0
  then (padOf s p).cfg0 else winWord s.mem c.barno (cfg0Off c p)

section
variable {c : Community} (h : Restored s s.mem (c, p) m)
include h

theorem Restored.cfg0_eq : winWord m c.barno (cfg0Off c p) = resumedCfg0 s c p := by
  obtain ⟨hcap, hkept⟩ := h
  unfold resumedCfg0
  cases hk : (padOf s p).captured with
  | false =>
    rw [if_neg (fun h => by cases h.1)]
    exact hkept hk (c.barno, cfg0Off c p) (cfg0_mem_pinRegs c p)
  | true =>
    rw [(hcap hk).1, restoredWord, clearRxState]
    simp only [true_and, ne_eq, ite_not]

theorem Restored.cfg1_eq : winWord m c.barno (cfg1Off c p) =
    if (padOf s p).captured then (padOf s p).cfg1 else winWord s.mem c.barno (cfg1Off c p) := by
  obtain ⟨hcap, hkept⟩ := h
  cases hk : (padOf s p).captured with
  | false => exact hkept hk (c.barno, cfg1Off c p) (cfg1_mem_pinRegs c p)
  | true => exact (hcap hk).2.1

theorem Restored.cfg2_eq {a : Nat} (ha : cfgOff c p 2 = some a) : winWord m c.barno a =
    if (padOf s p).captured then (padOf s p).cfg2 else winWord s.mem c.barno a := by
  obtain ⟨hcap, hkept⟩ := h
  cases hk : (padOf s p).captured with
  | false => exact hkept hk (c.barno, a) (cfg2_mem_pinRegs ha)
  | true => exact (hcap hk).2.2 a ha

end

/-- The registers of one pin are apart. -/
theorem cfg1_ne_cfg0 (c : Community) (p : Nat) : (c.barno, cfg1Off c p) ≠ (c.barno, cfg0Off c p) := by
  simp [cfg0Off, cfg1Off]

theorem cfg2_ne_cfg0 {c : Community} {a : Nat} (h : cfgOff c p 2 = some a) : (c.barno, a) ≠ (c.barno, cfg0Off c p) := by
  unfold cfgOff at h
  split at h
  · cases h
  · cases h
    simp [cfg0Off]

/-- The refused pins in scan order (R254). -/
theorem filter_refusedPin (htidy : Tidy s.topo) : (pinsOf s.topo).filter (refusedPin s) =
    s.topo.flatMap fun c => c.pins.filter fun p =>
      (slotOf s p).valid && (findGroup c p).any fun r => !isUsable s c r.2 p := by
  rw [pinsOf, List.filter_flatMap]
  refine List.flatMap_congr fun c hc => List.filter_congr fun p hp => ?_
  obtain ⟨ci, gi, g, hfc, hfg⟩ := htidy.located hc hp
  simp [refusedPin, findPin_of_located hfc hfg, hfg]

/-! ## What the two sweeps leave, said of the state before them -/

section
variable (ha : Armable s) (hres : ResumedState s r) (hswept : RearmSwept r (pinsOf r.topo) t)
include ha hres hswept

omit ha in
/-- The pending words are clear. -/
theorem pend_of_rearmed {x : Nat × Nat} (hx : x ∈ pendRegs s.topo) : winWord t.mem x.1 x.2 = 0 :=
  hswept.mem.pend x (by rwa [hres.topo]) (hres.words.pend x hx)

/-- The enable word of a group is its shadow with the bits of the re-armed pins set. -/
theorem enable_of_rearmed {e : GroupAt} (he : e ∈ groupSweep s.topo) {i : Nat} (hi : i < 32) :
    (winWord t.mem e.c.barno (bankOff e.c.ieOff e.g.regNum)).getLsbD i = ((shadowOf s e.ci e.gi).getLsbD i ||
      (decide (i < e.g.size) && (slotOf s (e.g.base + i)).valid && isUsable s e.c e.g (e.g.base + i))) := by
  obtain ⟨hci, hgi⟩ := mem_groupSweep.mp he
  have hc := List.mem_of_getElem? hci
  have hg := List.mem_of_getElem? hgi
  obtain ⟨-, hnd, -⟩ := ha.separate
  have hbit := hswept.mem.enable (enableReg e.c e.g) (by rw [hres.topo]; exact enableReg_mem he) i hi
  have harms : arms r (enableReg e.c e.g) i =
      fun p => rearmed s p && (findPin s.topo p).any fun l => decide (enableReg l.c l.g = enableReg e.c e.g ∧ l.o = i) := by
    funext p
    rw [arms, hres.rearmed_eq ha, hres.topo]
  have hshadow : winWord r.mem (enableReg e.c e.g).1 (enableReg e.c e.g).2 = shadowOf s e.ci e.gi := hres.words.enable e he
  rw [hshadow, harms, hres.topo, any_pin_at ha.tidy hnd hc hg] at hbit
  rw [Bool.and_assoc]
  refine hbit.trans (congrArg _ ?_)
  by_cases hs : i < e.g.size
  · rw [rearmed, ha.tidy.2.2 e.c hc e.g hg i hs]
    rfl
  · simp [hs]

/-- PADCFG0 of a pin holds what the resume left, with the trigger fields set where the pin is re-armed. -/
theorem cfg0_of_rearmed {c : Community} {g : Group} {gi : Nat} (hin : (c, p) ∈ pinSweep s.topo)
    (hfg : findGroup c p = some (gi, g)) : winWord t.mem c.barno (cfg0Off c p) =
      if (slotOf s p).valid && isUsable s c g p then setTrigWord s.cfg (resumedCfg0 s c p) ((tableGet s.trig p).getD 0)
      else resumedCfg0 s c p := by
  obtain ⟨hc, hp⟩ := mem_pinSweep.mp hin
  obtain ⟨ci, gi', g', hfc, hfg'⟩ := ha.tidy.located hc hp
  rw [hfg] at hfg'
  cases hfg'
  have hrearmed : rearmed s p = ((slotOf s p).valid && isUsable s c g p) := by
    rw [rearmed, findPin_of_located hfc hfg, Option.any_some]
  rw [hswept.mem.cfg0 (c, p) (by rwa [hres.topo]), hres.rearmed_eq ha, hrearmed, (hres.words.config (c, p) hin).cfg0_eq,
    hres.cfg, hres.trig]
  exact if_congr (and_iff_left (by rw [hres.topo]; exact List.mem_flatMap.mpr ⟨c, hc, hp⟩)) rfl rfl

omit ha in
/-- The other configuration registers of a pin hold what the resume left. -/
theorem config_of_rearmed {c : Community} (hin : (c, p) ∈ pinSweep s.topo) {x : Nat × Nat} (hx : x ∈ pinRegs c p)
    (hne : x ≠ (c.barno, cfg0Off c p)) : winWord t.mem x.1 x.2 = winWord r.mem x.1 x.2 :=
  hswept.mem.config (c, p) (by rwa [hres.topo]) x hx hne

end

/-- Settles O52: the sweep that re-arms, from the state the resume leaves. -/
theorem powerOnResumesThenRearms : Obligations.PowerOnResumesThenRearms := by
  intro s hl hcs henv hm htidy hsep hok htypes
  have ha : Armable (takeCommand (.command .pwron) s) := ⟨henv, hm, htidy, hsep, hok, htypes⟩
  obtain ⟨r, hr, hres⟩ := ha.resume
  obtain ⟨t, ht, hswept⟩ := rearmSweep_quiet (hres.armable ha)
  have hrun : exec .pwron s = _ := perform_legal rfl (by simp [legal, legalLc, legalCs, hl, hcs])
  rw [done, M.bind_assoc, M.bind_ok hr, M.bind_ok ht] at hrun
  have hfilter : (pinsOf r.topo).filter (refusedPin r) = (pinsOf s.topo).filter (refusedPin s) := by
    rw [hres.topo]
    exact List.filter_congr fun p _ => hres.refusedPin_eq ha p
  obtain ⟨hcount, hlast, hnone⟩ := hswept.log
  have hold : r.errCount = s.errCount ∧ r.errLastCode = s.errLastCode ∧ r.errLastPin = s.errLastPin := by
    rw [hres.rest]
    exact ⟨rfl, rfl, rfl⟩
  obtain ⟨e1, e2, e3⟩ := hold
  rw [hfilter, filter_refusedPin htidy] at hcount hlast hnone
  rw [e1] at hcount
  rw [e2, e3] at hnone
  refine ⟨_, hrun, ?_, fun p => ?_, fun ci c gi g hci hgi => ?_, fun c hc p hp gi g hfg v hv => ?_, ?_, ?_⟩
  · show respond (Response.of .ok) t = _
    rw [hswept.frame.rest, hres.rest]
    rfl
  · have h := hswept.frame.types p
    rw [hres.trig] at h
    exact h
  · have he : (⟨ci, c, gi, g⟩ : GroupAt) ∈ groupSweep s.topo := mem_groupSweep.mpr ⟨hci, hgi⟩
    exact ⟨pend_of_rearmed hres hswept (x := pendReg c g) (pendReg_mem he), fun i hi => enable_of_rearmed ha hres hswept he hi⟩
  · have hin : (c, p) ∈ pinSweep s.topo := mem_pinSweep.mpr ⟨hc, hp⟩
    have hrestored := hres.words.config (c, p) hin
    subst hv
    refine ⟨cfg0_of_rearmed ha hres hswept hin hfg, ?_, fun a hcfg2 => ?_⟩
    · exact (config_of_rearmed hres hswept hin (cfg1_mem_pinRegs c p) (cfg1_ne_cfg0 c p)).trans hrestored.cfg1_eq
    · exact (config_of_rearmed hres hswept hin (cfg2_mem_pinRegs hcfg2) (cfg2_ne_cfg0 hcfg2)).trans
        (hrestored.cfg2_eq hcfg2)
  · rintro refused rfl
    exact ⟨hcount, hlast, hnone⟩
  · refine hres.same.trans ?_
    have h := hswept.frame.same
    rw [hres.topo] at h
    exact h

end Sys2Proof.Machine

/-! PROOFS. A dispatch pass with no outside move (42_interrupt.md R186 to R190; 60_exceptions.md R254, R256). -/

namespace Sys2Proof.Machine

variable {s t u : State} {p : Nat} {m m' : Memory}

/-! ## The loop over the groups -/

/-- Two nested loops that carry a value, with their moves of the sequencer: one loop over the turns `key a b` in order. -/
theorem M.fold_nested_ok {α β γ ν : Type} {xs : List α} {items : α → List β} {key : α → β → γ}
    {out : α → Position → Position} {inn : β → Position → Position} {body : α → β → ν → M ν}
    {I : List γ → ν → State → Prop} {d : List γ} {n : ν} {s : State}
    (hstand : ∀ d n g t, I d n t → I d n (standAt g t)) (h0 : I d n s)
    (hstep : ∀ d' a b r n t, d' ++ key a b :: r = d ++ (xs.flatMap fun a => (items a).map (key a)) → a ∈ xs → b ∈ items a →
      I d' n t → ∃ n' u, body a b n t = .ok n' u ∧ I (d' ++ [key a b]) n' u) :
    ∃ n' u, M.fold xs n (fun n a => M.bind (M.stand (out a)) fun _ => M.fold (items a) n fun k b =>
        M.bind (M.stand (inn b)) fun _ => body a b k) s = .ok n' u ∧
      I (d ++ xs.flatMap fun a => (items a).map (key a)) n' u := by
  induction xs generalizing d n s with
  | nil => exact ⟨n, s, rfl, by rwa [List.flatMap_nil, List.append_nil]⟩
  | cons a xs ih =>
    obtain ⟨n1, t, ht, hI⟩ := M.fold_ok (I := fun bs n t => I (d ++ bs.map (key a)) n t) (d := []) (xs := items a) (b := n)
      (f := fun k b => M.bind (M.stand (inn b)) fun _ => body a b k) (s := standAt (out a) s)
      (by simpa using hstand d n _ s h0) fun bs b r n t hbs hb hI => by
        obtain ⟨n', u, hu, hI'⟩ := hstep (d ++ bs.map (key a)) a b
          (r.map (key a) ++ xs.flatMap fun a => (items a).map (key a)) n (standAt (inn b) t)
          (by rw [List.flatMap_cons, ← List.nil_append (items a), ← hbs]; simp) List.mem_cons_self hb (hstand _ _ _ _ hI)
        exact ⟨n', u, hu, by simpa using hI'⟩
    obtain ⟨n2, u, hu, hI'⟩ := ih hI fun d' b c r n v hd hb hc => hstep d' b c r n v
      (by rw [hd, List.flatMap_cons]; simp) (List.mem_cons_of_mem _ hb) hc
    refine ⟨n2, u, ?_, ?_⟩
    · rw [M.fold_cons, M.bind_assoc, M.bind_stand, M.bind_ok ht, hu]
    · rw [List.flatMap_cons]
      simpa using hI'

/-- A dispatch pass each of whose groups goes through. -/
theorem dispatchBody_ok {I : List GroupAt → Nat → State → Prop} (hstand : ∀ d n g t, I d n t → I d n (standAt g t))
    (h0 : I [] 0 s)
    (hstep : ∀ d e r n t, d ++ e :: r = groupSweep s.topo → I d n t →
      ∃ n' u, dispatchGroup e.c e.g n t = .ok n' u ∧ I (d ++ [e]) n' u) :
    ∃ n u, dispatchBody s = .ok ⟨.ok, 0, 0, fieldOf 32 n⟩ u ∧ I (groupSweep s.topo) n u := by
  obtain ⟨n, u, hu, hI⟩ := M.fold_nested_ok (xs := s.topo.zipIdx) (items := fun c => c.1.groups.zipIdx)
    (key := fun c g => (⟨c.2, c.1, g.2, g.1⟩ : GroupAt)) (out := fun c => .atCommunity c.2) (inn := fun g => .atGroup g.2)
    (body := fun c g n => dispatchGroup c.1 g.1 n) (d := []) (s := standAt .nextLoop s) hstand (hstand _ _ _ _ h0)
    fun d c g r n t hd _ _ hI => hstep d _ r n t hd hI
  refine ⟨n, u, ?_, hI⟩
  rw [dispatchBody, M.bind_stand, M.bind_look]
  exact M.bind_ok hu

/-! ## One asserted bit (R186, R188) -/

/-- A bit of a word that is set already. -/
theorem or_bit_of_set {v : Word} {i : Nat} (h : v.getLsbD i = true) : v ||| bit i = v := by
  apply BitVec.eq_of_getLsbD_eq
  intro j hj
  rw [BitVec.getLsbD_or, getLsbD_bit]
  by_cases hji : j = i
  · rw [hji, h, Bool.true_or]
  · simp [hji]

/-- The callback of a pin, if its slot is valid. -/
def callOf (s : State) (p : Nat) : List Packet :=
  if (slotOf s p).valid then [callbackPacket (slotOf s p) p] else []

/-- What an asserted bit of a dispatch pass leaves in its pending word. -/
def servedWord (s : State) (p i : Nat) (v : Word) : Word :=
  if isLevel s.cfg ((tableGet s.trig p).getD 0) then v &&& ~~~(bit i) else v

/-- `s` with the callback of pin `p`, if its slot is valid. -/
def called (s : State) (p : Nat) : State := { s with calls := s.calls ++ callOf s p }

section
variable {c : Community} {g : Group} {i : Nat} (hl : findPin s.topo p = some ⟨c, g, i⟩) (henv : s.env = [])
  (hm : s.mem.wf = true) (hok : Reachable s.cfg [pendReg c g, enableReg c g])
  (hp : isPendingWord s.cfg (pendReg c g).1 (pendReg c g).2 = true)
  (he : isPendingWord s.cfg (enableReg c g).1 (enableReg c g).2 = false)
  (hset : (winWord s.mem (enableReg c g).1 (enableReg c g).2).getLsbD i = true)
include hl henv hm hok hp he hset

/-- Re-enabling a pin whose enable bit is set clears its pending bit and changes no other byte (R188). -/
theorem reenable_quiet : ∃ u, enableBody p s = .ok .ok u ∧ Moved [pendReg c g] s u ∧
    winWord u.mem (pendReg c g).1 (pendReg c g).2 = winWord s.mem (pendReg c g).1 (pendReg c g).2 &&& ~~~(bit i) := by
  obtain ⟨⟨ci, hfc⟩, ⟨gi, hfg⟩, -, -, -, hi, -⟩ := findPin_some hl
  dsimp only at hfc hfg hi
  subst hi
  obtain ⟨u, hu, hmoved, hwp, hwe⟩ := enableBody_moved hfc hfg henv hm hok hp he
  rw [or_bit_of_set hset] at hwe
  refine ⟨u, hu, ⟨hmoved.rest, hmoved.bus, hmoved.wf, ?_⟩, hwp⟩
  refine SameOutside.of_words (l' := [enableReg c g]) hmoved.same fun x hx => ?_
  rw [List.mem_singleton.mp hx]
  exact hwe

theorem dispatchPin_quiet (htrig : (tableGet s.trig p).isSome = true) (n : Nat) :
    ∃ u, dispatchPin p n s = .ok (n + (callOf s p).length) u ∧ Moved [pendReg c g] (called s p) u ∧
      winWord u.mem (pendReg c g).1 (pendReg c g).2 = servedWord s p i (winWord s.mem (pendReg c g).1 (pendReg c g).2) := by
  obtain ⟨ty, hty⟩ := Option.isSome_iff_exists.mp htrig
  have hemit : (if (slotOf s p).valid then M.update (emitCallback (slotOf s p) p) else M.pure ()) s =
      .ok () (called s p) := by
    unfold called callOf
    split
    · rfl
    · simp
  have hcount : (if (slotOf s p).valid then n + 1 else n) = n + (callOf s p).length := by
    unfold callOf
    split <;> rfl
  rw [dispatchPin, M.bind_look, M.bind_ok hemit, M.bind_ok (readTrig_of_some (s := called s p) hty), M.bind_look, hcount,
    servedWord, hty, Option.getD_some]
  have hcfg : (called s p).cfg = s.cfg := rfl
  rw [hcfg]
  cases isLevel s.cfg ty with
  | false => exact ⟨called s p, rfl, .refl hm, rfl⟩
  | true =>
    obtain ⟨u, hu, hmoved, hw⟩ := reenable_quiet (s := called s p) hl henv hm hok hp he hset
    refine ⟨u, ?_, hmoved, hw⟩
    rw [if_pos rfl, M.bind_assoc, M.bind_ok hu]
    rfl

end

/-! ## What a pass has done -/

/-- A pin's position: its group and its bit there. -/
abbrev BitAt := GroupAt × Nat

/-- The pin at a position. -/
def BitAt.pin (x : BitAt) : Nat := x.1.g.base + x.2

/-- The bits of the groups, in scan order (R254). -/
def bitSweep (d : List GroupAt) : List BitAt := d.flatMap fun e => (List.range e.g.size).map fun i => (e, i)

/-- The bit is asserted in the windows of `s`: pending and enabled (R186). -/
def assertedAt (s : State) (x : BitAt) : Bool :=
  (winWord s.mem (pendReg x.1.c x.1.g).1 (pendReg x.1.c x.1.g).2).getLsbD x.2 &&
    (winWord s.mem (enableReg x.1.c x.1.g).1 (enableReg x.1.c x.1.g).2).getLsbD x.2

/-- The callbacks of the asserted ones of the bits `d`. -/
def callsOf (s : State) (d : List BitAt) : List Packet :=
  d.flatMap fun x => if assertedAt s x then callOf s x.pin else []

/-- Serving the bit `x` clears bit `i` of the word at `w`. -/
def serves (s : State) (w : Nat × Nat) (i : Nat) (x : BitAt) : Bool :=
  decide (pendReg x.1.c x.1.g = w ∧ x.2 = i) && assertedAt s x && isLevel s.cfg ((tableGet s.trig x.pin).getD 0)

/-- The windows after serving the bits `d`. -/
structure ServedMem (s : State) (d : List BitAt) (m : Memory) : Prop where
  wf : m.wf = true
  same : SameOutside s.mem m (pendRegs s.topo)
  bits : ∀ w ∈ pendRegs s.topo, ∀ i < 32,
    (winWord m w.1 w.2).getLsbD i = ((winWord s.mem w.1 w.2).getLsbD i && !d.any (serves s w i))

/-- The state after serving the bits `d`, with `n` callbacks so far. -/
def Served (s : State) (d : List BitAt) (n : Nat) (t : State) : Prop :=
  (∃ b q, t = { s with mem := t.mem, bus := s.bus ++ b, seq := q, calls := s.calls ++ callsOf s d }) ∧
    n = (callsOf s d).length ∧ ServedMem s d t.mem

theorem Served.nil (h : s.mem.wf = true) : Served s [] 0 s :=
  ⟨⟨[], s.seq, by simp [callsOf]⟩, rfl, h, .refl _ _, by simp⟩

theorem Served.stand {d : List BitAt} {n : Nat} (h : Served s d n t) (g : Position → Position) :
    Served s d n (standAt g t) := by
  obtain ⟨⟨b, q, ht⟩, h⟩ := h
  exact ⟨⟨b, _, by rw [standAt, ht]⟩, h⟩

/-- What the claims about a pass assume. -/
structure Dispatchable (s : State) : Prop where
  env : s.env = []
  wf : s.mem.wf = true
  tidy : Tidy s.topo
  separate : Separate s
  reach : Reachable s.cfg (pendRegs s.topo ++ enableRegs s.topo)
  types : s.trig.map Prod.fst = pinsOf s.topo

theorem callsOf_snoc (s : State) (d : List BitAt) (x : BitAt) :
    callsOf s (d ++ [x]) = callsOf s d ++ if assertedAt s x then callOf s x.pin else [] := by
  simp [callsOf]

/-- A bit that is not asserted is left out. -/
theorem Served.skip {d : List BitAt} {n : Nat} {x : BitAt} (h : Served s d n t) (hx : assertedAt s x = false) :
    Served s (d ++ [x]) n t := by
  obtain ⟨⟨b, q, ht⟩, hn, hmem⟩ := h
  have hcalls : callsOf s (d ++ [x]) = callsOf s d := by rw [callsOf_snoc, hx]; simp
  refine ⟨⟨b, q, by rw [hcalls]; exact ht⟩, by rw [hcalls]; exact hn, hmem.wf, hmem.same, fun w hw i hi => ?_⟩
  rw [hmem.bits w hw i hi]
  simp [serves, hx]

/-- Reads change nothing of what a pass has done. -/
theorem Served.read {d : List BitAt} {n : Nat} (h : Served s d n t) (hmoved : Moved [] t u) (hm : u.mem = t.mem) :
    Served s d n u := by
  obtain ⟨⟨b, q, ht⟩, hn, hmem⟩ := h
  obtain ⟨b', hb'⟩ := hmoved.bus
  refine ⟨⟨b ++ b', u.seq, ?_⟩, hn, by rwa [hm]⟩
  have hbus : t.bus = s.bus ++ b := by rw [ht]
  rw [← List.append_assoc, ← hbus, ← hb', hmoved.rest, ht]

section
variable {d : List BitAt} {n : Nat} {e : GroupAt} (h : Served s d n t) (ha : Dispatchable s) (he : e ∈ groupSweep s.topo)
include h ha he

/-- A pass writes no enable word that does not stay as it is (R188, R189). -/
theorem Served.enable_kept : winWord t.mem (enableReg e.c e.g).1 (enableReg e.c e.g).2 =
    winWord s.mem (enableReg e.c e.g).1 (enableReg e.c e.g).2 := by
  obtain ⟨-, -, hmem⟩ := h
  have hin := enableReg_mem he
  exact hmem.same.winWord (ha.reach _ (List.mem_append_right _ hin)) (fun y hy => ha.reach y (List.mem_append_left _ hy))
    fun hp => ha.separate.pend_ne hp (List.mem_append_left _ (List.mem_append_left _ hin)) rfl

omit ha in
/-- The pending word of a group whose bits were not served yet. -/
theorem Served.pend_kept (hnew : ∀ x ∈ d, pendReg x.1.c x.1.g ≠ pendReg e.c e.g) :
    winWord t.mem (pendReg e.c e.g).1 (pendReg e.c e.g).2 = winWord s.mem (pendReg e.c e.g).1 (pendReg e.c e.g).2 := by
  obtain ⟨-, -, hmem⟩ := h
  apply BitVec.eq_of_getLsbD_eq
  intro i hi
  have hany : d.any (serves s (pendReg e.c e.g) i) = false := by
    rw [List.any_eq_false]
    intro x hx
    simp [serves, hnew x hx]
  rw [hmem.bits _ (pendReg_mem he) i hi, hany]
  simp

/-- One asserted bit more. -/
theorem Served.serve {i : Nat} (hi : i < e.g.size) (hx : assertedAt s (e, i) = true) :
    ∃ n' u, dispatchPin (e.g.base + i) n t = .ok n' u ∧ Served s (d ++ [(e, i)]) n' u := by
  have hen := h.enable_kept ha he
  obtain ⟨⟨b, q, ht⟩, hn, hmem⟩ := h
  obtain ⟨hci, hgi⟩ := mem_groupSweep.mp he
  have hl := ha.tidy.2.2 e.c (List.mem_of_getElem? hci) e.g (List.mem_of_getElem? hgi) i hi
  have hpin := pendReg_mem he
  have hein := enableReg_mem he
  obtain ⟨-, -, -, hpend, hother, -⟩ := ha.separate
  have hset : (winWord s.mem (enableReg e.c e.g).1 (enableReg e.c e.g).2).getLsbD i = true := by
    rw [assertedAt, Bool.and_eq_true] at hx
    exact hx.2
  have hcfg : t.cfg = s.cfg := by rw [ht]
  have htopo : t.topo = s.topo := by rw [ht]
  have htrig : t.trig = s.trig := by rw [ht]
  have hslot : ∀ p, callOf t p = callOf s p := fun p => by rw [ht]; rfl
  obtain ⟨u, hu, hmoved, hw⟩ := dispatchPin_quiet (s := t) (p := e.g.base + i) (c := e.c) (g := e.g) (i := i)
    (by rwa [htopo]) (by rw [ht]; exact ha.env) hmem.wf
    (by
      rw [hcfg]
      intro y hy
      simp only [List.mem_cons, List.not_mem_nil, or_false] at hy
      rcases hy with rfl | rfl
      · exact ha.reach _ (List.mem_append_left _ hpin)
      · exact ha.reach _ (List.mem_append_right _ hein))
    (by rw [hcfg]; exact hpend _ hpin)
    (by rw [hcfg]; exact hother _ (List.mem_append_left _ (List.mem_append_left _ hein)))
    (by rw [hen]; exact hset)
    (by
      obtain ⟨⟨ci, hfc⟩, -⟩ := findPin_some hl
      rw [htrig, tableGet_isSome, ha.types, mem_pinsOf_iff_found, hfc]
      rfl) n
  have hcalls : callsOf s (d ++ [(e, i)]) = callsOf s d ++ callOf s (e.g.base + i) := by
    rw [callsOf_snoc, hx]
    rfl
  obtain ⟨b', hb'⟩ := hmoved.bus
  have hbus : u.bus = s.bus ++ (b ++ b') := by
    rw [hb', ← List.append_assoc]
    exact congrArg (· ++ b') (by rw [ht] : t.bus = s.bus ++ b)
  have hcall : (called t (e.g.base + i)).calls = s.calls ++ callsOf s (d ++ [(e, i)]) := by
    rw [called, hslot, hcalls, ← List.append_assoc]
    exact congrArg (· ++ callOf s (e.g.base + i)) (by rw [ht] : t.calls = s.calls ++ callsOf s d)
  refine ⟨_, u, hu, ⟨b ++ b', u.seq, ?_⟩, ?_, hmoved.wf, hmem.same.trans (hmoved.same.mono ?_), fun w hw' j hj => ?_⟩
  · rw [← hbus, ← hcall, hmoved.rest, called, ht]
  · rw [hcalls, List.length_append, hn, hslot]
  · simpa using hpin
  · rw [List.any_append, List.any_cons, List.any_nil, Bool.or_false, Bool.not_or, ← Bool.and_assoc, ← hmem.bits w hw' j hj,
      serves, hx, Bool.and_true]
    by_cases hwe : pendReg e.c e.g = w
    · rw [← hwe, hw, servedWord, hcfg, htrig, BitAt.pin]
      cases isLevel s.cfg ((tableGet s.trig (e.g.base + i)).getD 0) with
      | false => simp
      | true =>
        rw [if_pos rfl, BitVec.getLsbD_and, BitVec.getLsbD_not, getLsbD_bit]
        simp [hj, eq_comm]
    · have hkeep : winWord u.mem w.1 w.2 = winWord t.mem w.1 w.2 :=
        hmoved.winWord (reachable_singleton (by rw [called, hcfg]; exact ha.reach _ (List.mem_append_left _ hpin)))
          (by rw [called, hcfg]; exact ha.reach w (List.mem_append_left _ hw')) (by simpa using Ne.symm hwe)
      rw [hkeep]
      simp [hwe]

/-- One group more (R186). -/
theorem Served.group (hnew : ∀ x ∈ d, pendReg x.1.c x.1.g ≠ pendReg e.c e.g) :
    ∃ n' u, dispatchGroup e.c e.g n t = .ok n' u ∧
      Served s (d ++ (List.range e.g.size).map fun i => (e, i)) n' u := by
  have henv : t.env = [] := by
    obtain ⟨⟨b, q, ht⟩, -⟩ := h
    rw [ht]
    exact ha.env
  have hcfg : t.cfg = s.cfg := by
    obtain ⟨⟨b, q, ht⟩, -⟩ := h
    rw [ht]
  have hwf : t.mem.wf = true := h.2.2.wf
  obtain ⟨t1, ht1, hm1, e1⟩ := winRead_moved henv hwf (w := (pendReg e.c e.g).1) (off := (pendReg e.c e.g).2)
    (by rw [hcfg]; exact ha.reach _ (List.mem_append_left _ (pendReg_mem he)))
  obtain ⟨t2, ht2, hm2, e2⟩ := winRead_moved (hm1.env.trans henv) hm1.wf (w := (enableReg e.c e.g).1)
    (off := (enableReg e.c e.g).2)
    (by rw [hm1.cfg, hcfg]; exact ha.reach _ (List.mem_append_right _ (enableReg_mem he)))
  rw [h.pend_kept he hnew] at ht1
  rw [e1, h.enable_kept ha he] at ht2
  have h2 : Served s d n t2 := (h.read hm1 e1).read hm2 e2
  obtain ⟨n', u, hu, hI⟩ := M.fold_ok (I := fun is n t => Served s (d ++ is.map fun i => (e, i)) n t) (d := [])
    (xs := List.range e.g.size) (b := n) (s := t2)
    (f := fun k i => M.bind (M.stand (.atItem i)) fun _ =>
      if (winWord s.mem (pendReg e.c e.g).1 (pendReg e.c e.g).2 &&&
          winWord s.mem (enableReg e.c e.g).1 (enableReg e.c e.g).2).getLsbD i
      then dispatchPin (e.g.base + i) k else M.pure k)
    (by simpa using h2) fun is i r k v _ hi hI => by
      rw [List.mem_range] at hi
      have hI' := hI.stand (.atItem i)
      have hasserted : (winWord s.mem (pendReg e.c e.g).1 (pendReg e.c e.g).2 &&&
          winWord s.mem (enableReg e.c e.g).1 (enableReg e.c e.g).2).getLsbD i = assertedAt s (e, i) := BitVec.getLsbD_and
      simp only [List.map_append, List.map_singleton, ← List.append_assoc, M.bind_stand, hasserted]
      cases hx : assertedAt s (e, i) with
      | false => exact ⟨k, _, rfl, hI'.skip hx⟩
      | true => exact hI'.serve ha he hi hx
  refine ⟨n', u, ?_, hI⟩
  rw [dispatchGroup]
  exact (M.bind_ok ht1).trans ((M.bind_ok ht2).trans hu)

end

theorem bitSweep_snoc (d : List GroupAt) (e : GroupAt) :
    bitSweep (d ++ [e]) = bitSweep d ++ (List.range e.g.size).map fun i => (e, i) := by
  simp [bitSweep]

/-- The whole of a pass (R186). -/
theorem dispatchBody_quiet (ha : Dispatchable s) :
    ∃ n u, dispatchBody s = .ok ⟨.ok, 0, 0, fieldOf 32 n⟩ u ∧ Served s (bitSweep (groupSweep s.topo)) n u := by
  refine dispatchBody_ok (I := fun d n t => Served s (bitSweep d) n t) (fun _ _ g _ h => h.stand g) (.nil ha.wf)
    fun d e r n t hd hI => ?_
  rw [bitSweep_snoc]
  refine hI.group ha (by rw [← hd]; simp) fun x hx => ?_
  obtain ⟨hnd, -⟩ := ha.separate
  rw [← map_pendReg, ← hd, List.map_append, List.map_cons, List.nodup_append] at hnd
  obtain ⟨e', he', hx'⟩ := List.mem_flatMap.mp hx
  obtain ⟨i, -, rfl⟩ := List.mem_map.mp hx'
  exact hnd.2.2 _ (List.mem_map_of_mem (f := fun e => pendReg e.c e.g) he') _ List.mem_cons_self

/-! ## The callbacks and the bits of a whole pass -/

/-- A list of items of the groups, whatever the indexes. -/
theorem groupSweep_flatMap {α : Type} (topo : List Community) (f : Community → Group → List α) :
    ((groupSweep topo).flatMap fun e => f e.c e.g) = topo.flatMap fun c => c.groups.flatMap (f c) := by
  have h := congrArg List.flatten (groupSweep_map topo f)
  rw [← List.flatMap_def] at h
  rw [h]
  simp only [List.flatMap_def, List.flatten_flatten, List.map_map, Function.comp_def]

/-- The items of the elements that pass two tests. -/
theorem flatMap_if_if {α β : Type} (xs : List α) (f g : α → Bool) (k : α → β) :
    (xs.flatMap fun x => if f x then (if g x then [k x] else []) else []) = (xs.filter fun x => f x && g x).map k := by
  induction xs with
  | nil => rfl
  | cons x xs ih =>
    rw [List.flatMap_cons, ih, List.filter_cons]
    cases f x <;> cases g x <;> simp

theorem callsOf_bitSweep (s : State) (topo : List Community) : callsOf s (bitSweep (groupSweep topo)) =
    topo.flatMap fun c => c.groups.flatMap fun g =>
      ((List.range g.size).filter fun i =>
        ((winWord s.mem c.barno (bankOff c.isOff g.regNum)).getLsbD i &&
          (winWord s.mem c.barno (bankOff c.ieOff g.regNum)).getLsbD i) && (slotOf s (g.base + i)).valid).map fun i =>
        callbackPacket (slotOf s (g.base + i)) (g.base + i) := by
  rw [← groupSweep_flatMap, callsOf, bitSweep, List.flatMap_assoc]
  refine List.flatMap_congr fun e _ => ?_
  rw [List.flatMap_map, ← flatMap_if_if]
  rfl

/-- The one bit of the sweep that serves bit `i` of a group's pending word. -/
theorem any_serves {c : Community} {g : Group} (hnd : (pendRegs s.topo).Nodup) (hc : c ∈ s.topo) (hg : g ∈ c.groups)
    (i : Nat) : (bitSweep (groupSweep s.topo)).any (serves s (pendReg c g) i) =
      (decide (i < g.size) && ((winWord s.mem (pendReg c g).1 (pendReg c g).2).getLsbD i &&
        (winWord s.mem (enableReg c g).1 (enableReg c g).2).getLsbD i) &&
          isLevel s.cfg ((tableGet s.trig (g.base + i)).getD 0)) := by
  obtain ⟨e, he, rfl, rfl⟩ := mem_groupSweep_of_mem hc hg
  rw [← map_pendReg] at hnd
  rw [Bool.eq_iff_iff, List.any_eq_true]
  constructor
  · rintro ⟨⟨e', j⟩, hx, hserves⟩
    obtain ⟨e'', he'', hx⟩ := List.mem_flatMap.mp hx
    obtain ⟨j', hj', hxe⟩ := List.mem_map.mp hx
    cases hxe
    simp only [serves, Bool.and_eq_true, decide_eq_true_eq] at hserves
    obtain ⟨⟨⟨hreg, rfl⟩, hasserted⟩, hlevel⟩ := hserves
    obtain rfl := List.inj_on_of_nodup_map hnd he'' he hreg
    rw [Bool.and_eq_true, Bool.and_eq_true]
    exact ⟨⟨decide_eq_true (List.mem_range.mp hj'), hasserted⟩, hlevel⟩
  · intro h
    rw [Bool.and_eq_true, Bool.and_eq_true, decide_eq_true_eq] at h
    obtain ⟨⟨hi, hasserted⟩, hlevel⟩ := h
    refine ⟨(e, i), List.mem_flatMap.mpr ⟨e, he, List.mem_map.mpr ⟨i, List.mem_range.mpr hi, rfl⟩⟩, ?_⟩
    rw [serves, Bool.and_eq_true, Bool.and_eq_true, decide_eq_true_eq]
    exact ⟨⟨⟨rfl, rfl⟩, hasserted⟩, hlevel⟩

/-- Settles O45: the pass serves every bit of every group in turn. -/
theorem dispatchServesTheAssertedPins : Obligations.DispatchServesTheAssertedPins := by
  intro s asserted calls hasserted hcalls hlen hl henv hm htidy hsep hreach _ htypes
  obtain rfl : asserted = fun c g i => (winWord s.mem c.barno (bankOff c.isOff g.regNum)).getLsbD i &&
      (winWord s.mem c.barno (bankOff c.ieOff g.regNum)).getLsbD i := by
    funext c g i
    exact hasserted c g i
  obtain ⟨n, u, hu, ⟨b, q, hrest⟩, hn, hmem⟩ := dispatchBody_quiet (s := takeCommand (.command .dispatch) s)
    ⟨henv, hm, htidy, hsep, hreach, htypes⟩
  have hc : callsOf (takeCommand (.command .dispatch) s) (bitSweep (groupSweep s.topo)) = calls :=
    (callsOf_bitSweep _ _).trans hcalls.symm
  have hx : exec .dispatch s = _ := perform_legal rfl (by simp [legal, legalLc, legalCs, hl])
  obtain ⟨hnd, -⟩ := hsep
  rw [takeCommand_topo, hc] at hn hrest
  refine ⟨u.mem, b, ?_, fun c hc g hg i hi => ?_, hmem.same⟩
  · rw [hx, hu, hn, fieldOf_of_lt hlen, hrest]
    rfl
  · exact (hmem.bits (pendReg c g) (List.mem_flatMap.mpr ⟨c, hc, List.mem_map_of_mem hg⟩) i hi).trans
      (congrArg (fun b => (winWord s.mem c.barno (bankOff c.isOff g.regNum)).getLsbD i && !b)
        (any_serves (s := takeCommand (.command .dispatch) s) hnd hc hg i))

end Sys2Proof.Machine

/-! PROOFS. The pass of a notification and DISPATCH run one body, which neither reads nor writes the command port, the response
port, the count of notifications and the request that the sequencer runs (42_interrupt.md R186; 10_state.md R46). -/

namespace Sys2Proof.Machine

variable {s t u : State}

/-! ## Another request in the sequencer -/

/-- The sequencer runs a dispatch pass, at the same position. -/
def Sequencer.asPass : Sequencer → Sequencer
  | .idle => .idle
  | .running _ pos => .running .pass pos

/-- `s` with `n` notifications counted, the ports `c` and `r`, and a dispatch pass in the sequencer. -/
def asPass (n : Nat) (c : List Packet) (r : List (BitVec 64)) (s : State) : State :=
  { s with irqNotif := n, cmds := c, resp := r, seq := s.seq.asPass }

section
variable {n : Nat} {c : List Packet} {r : List (BitVec 64)}

theorem asPass_standAt (f : Position → Position) (s : State) :
    standAt f (asPass n c r s) = asPass n c r (standAt f s) := by
  unfold standAt asPass
  cases s.seq <;> rfl

theorem asPass_record (a : BusAccess) (s : State) : record a (asPass n c r s) = asPass n c r (record a s) := by
  unfold record asPass
  cases s.seq <;> rfl

end

/-- From a state in which no outside agent moves, `m` ends alike whatever request the sequencer runs, and is not abandoned. -/
def Blind {α : Type} (n : Nat) (c : List Packet) (r : List (BitVec 64)) (m : M α) : Prop :=
  ∀ s : State, s.env = [] →
    (∃ a t, m s = .ok a t ∧ m (asPass n c r s) = .ok a (asPass n c r t) ∧ t.env = []) ∨
    ∃ st t, m s = .raised st t ∧ m (asPass n c r s) = .raised st (asPass n c r t)

namespace Blind

variable {n : Nat} {c : List Packet} {r : List (BitVec 64)} {α β : Type}

theorem pure (a : α) : Blind n c r (M.pure a) := fun s henv => .inl ⟨a, s, rfl, rfl, henv⟩

theorem look {f : State → α} (h : ∀ s, f (asPass n c r s) = f s) : Blind n c r (M.look f) := fun s henv =>
  .inl ⟨f s, s, rfl, by rw [M.look_apply, h], henv⟩

theorem update {f : State → State} (h : ∀ s, f (asPass n c r s) = asPass n c r (f s)) (henv : ∀ s, (f s).env = s.env) :
    Blind n c r (M.update f) := fun s hs => .inl ⟨(), f s, rfl, by rw [M.update_apply, h], (henv s).trans hs⟩

theorem stand (f : Position → Position) : Blind n c r (M.stand f) := update (asPass_standAt f) fun _ => rfl

theorem bind {m : M α} {f : α → M β} (hm : Blind n c r m) (hf : ∀ a, Blind n c r (f a)) : Blind n c r (M.bind m f) := by
  intro s henv
  rcases hm s henv with ⟨a, t, h, h', ht⟩ | ⟨st, t, h, h'⟩
  · rw [M.bind_ok h, M.bind_ok h']
    exact hf a t ht
  · exact .inr ⟨st, t, M.bind_raised h, M.bind_raised h'⟩

theorem fold {xs : List α} {f : β → α → M β} (hf : ∀ b x, Blind n c r (f b x)) (b : β) : Blind n c r (M.fold xs b f) := by
  induction xs generalizing b with
  | nil => exact pure b
  | cons x xs ih => exact (hf b x).bind ih

/-- A choice that the state does not make. -/
theorem ite {p : Prop} [Decidable p] {m m' : M α} (h : Blind n c r m) (h' : Blind n c r m') :
    Blind n c r (if p then m else m') := by
  split
  · exact h
  · exact h'

/-! ## The stretches of a pass -/

theorem winRead (w off : Nat) : Blind n c r (winRead w off) := by
  intro s henv
  cases hok : accessOk s.cfg w off with
  | false => exact .inr ⟨_, _, winRead_bad hok, winRead_bad (s := asPass n c r s) hok⟩
  | true =>
    refine .inl ⟨_, _, winRead_quiet hok henv, ?_, henv⟩
    rw [← asPass_record]
    exact winRead_quiet (s := asPass n c r s) hok henv

theorem winWrite (w off : Nat) (v : Word) : Blind n c r (winWrite w off v) := by
  intro s henv
  cases hok : accessOk s.cfg w off with
  | false => exact .inr ⟨_, _, winWrite_bad hok, winWrite_bad (s := asPass n c r s) hok⟩
  | true =>
    refine .inl ⟨_, _, winWrite_quiet hok henv, ?_, henv⟩
    rw [← asPass_record]
    exact winWrite_quiet (s := asPass n c r s) hok henv

theorem winModify (w off : Nat) (f : Word → Word) : Blind n c r (winModify w off f) :=
  (winRead w off).bind fun _ => winWrite w off _

theorem locate (p : Nat) : Blind n c r (locate p) := by
  intro s henv
  left
  cases h : findPin s.topo p with
  | none => exact ⟨_, _, locate_of_none h, locate_of_none (s := asPass n c r s) h, henv⟩
  | some l => exact ⟨_, _, locate_of_some h, locate_of_some (s := asPass n c r s) h, henv⟩

theorem readTrig (p : Nat) : Blind n c r (readTrig p) := by
  intro s henv
  left
  have h := readTrig_eq p s
  have h' := readTrig_eq p (asPass n c r s)
  have htrig : (asPass n c r s).trig = s.trig := rfl
  have hlc : (asPass n c r s).lc = s.lc := rfl
  rw [htrig, hlc] at h'
  cases ht : tableGet s.trig p with
  | some ty =>
    rw [ht] at h h'
    exact ⟨ty, s, h, h', henv⟩
  | none =>
    rw [ht] at h h'
    by_cases hl : s.lc = .started
    · rw [if_pos hl] at h h'
      exact ⟨_, _, h, h', henv⟩
    · rw [if_neg hl] at h h'
      exact ⟨_, _, h, h', henv⟩

theorem enableBody (p : Nat) : Blind n c r (enableBody p) := by
  refine (locate p).bind fun found => ?_
  cases found with
  | none => exact pure _
  | some l => exact (winWrite _ _ _).bind fun _ => (winModify _ _ _).bind fun _ => pure _

theorem dispatchPin (p k : Nat) : Blind n c r (dispatchPin p k) := by
  refine (look fun _ => rfl).bind fun sl => ?_
  refine bind ?_ fun _ => (readTrig p).bind fun ty => (look fun _ => rfl).bind fun level => bind ?_ fun _ => pure _
  · exact ite (update (fun _ => rfl) fun _ => rfl) (pure _)
  · exact ite ((enableBody p).bind fun _ => pure _) (pure _)

theorem dispatchGroup (co : Community) (g : Group) (k : Nat) : Blind n c r (dispatchGroup co g k) := by
  refine (winRead _ _).bind fun pend => (winRead _ _).bind fun en => fold (fun k i => (stand _).bind fun _ => ?_) k
  exact ite (dispatchPin (g.base + i) k) (pure k)

theorem dispatchBody : Blind n c r dispatchBody := by
  unfold Machine.dispatchBody
  refine bind (stand _) fun _ => bind (look fun _ => rfl) fun topo => bind (fold (fun k co => ?_) 0) fun k => pure _
  refine bind (stand _) fun _ => fold (fun k g => ?_) k
  refine bind (stand _) fun _ => ?_
  exact dispatchGroup co.1 g.1 k

end Blind

/-- Settles O9: the body ends alike in a pass and in DISPATCH. -/
theorem passIsDispatchWithoutAResponse : Obligations.PassIsDispatchWithoutAResponse := by
  intro s t hl henv hx
  have hrun : exec .dispatch s = _ := perform_legal rfl (by simp [legal, legalLc, legalCs, hl])
  have htake : takePass s =
      asPass (s.irqNotif - 1) s.cmds s.resp (takeCommand (.command .dispatch) s) := rfl
  rw [hrun, Host.Outcome.next.injEq] at hx
  rw [runPass, htake]
  rcases Blind.dispatchBody (n := s.irqNotif - 1) (c := s.cmds) (r := s.resp) (takeCommand (.command .dispatch) s) henv with
    ⟨a, u, h, h', -⟩ | ⟨st, u, h, h'⟩
  all_goals
    rw [h] at hx
    rw [h', ← hx]
    rfl

end Sys2Proof.Machine
